-- ==== Sys2Proof/Word.lean ====
section
/-! DEFINITION. The plain types of the station: what the spec treats as bits is a bit vector (bytes, CRCs,
TALLY sequence numbers, alert epochs: 00_scope.md R2, R199); counts, weights and times are numbers. -/

namespace Sys2Proof

/-- One byte of a frame or of the flash image. -/
abbrev Byte := BitVec 8

/-- A CRC-16 value or an article digest (R199, R168). -/
abbrev Crc := BitVec 16

/-- A TALLY sequence number, 8 bits (R2). -/
abbrev Seq := BitVec 8

/-- An alert epoch, 16 bits (R2). -/
abbrev Epoch := BitVec 16

/-- A time or a duration on the station timebase, in microseconds (DEDUCED, log 1: the manual counts
milliseconds, and its events fall at fractions of one). -/
abbrev Time := Nat

end Sys2Proof
end

