-- ==== Sys2Proof/Syntax.lean ====
section
/-! DEFINITION. The commands the station takes: one constructor for each row of spec/opcode_table.json, with its
operands. `dt` is the time that has passed on the station timebase since the command before it (DESIGN CHOICE,
log 2); the three commands around a held reset have none, since the timebase starts again at the release (R156). -/

namespace Sys2Proof

/-- One character heard on the aisle bus (R45, R46): its byte as read, and whether its stop bit read as 1. -/
structure Character where
  byte : Byte
  stop : Bool
  deriving DecidableEq, Repr

/-- How one conversion of a bridge channel ended (R4). -/
inductive Conversion where
  /-- the bridge pair of the channel is open or shorted -/
  | bridgeFault
  /-- the excitation is outside its working range, for all sixteen channels at once -/
  | excitationFault
  /-- the converted weight in grams, whatever its range -/
  | weight (grams : Int)
  deriving DecidableEq, Repr

/-- The commands, in the order of the opcode table. -/
inductive Instr where
  /-- SAMPLE_ARRIVAL: a conversion of the channel of `bay` ends and its sample is delivered (R3) -/
  | sampleArrival (dt : Time) (bay : Nat) (conversion : Conversion)
  /-- SETTLE_TIMEOUT: the settle timer of `bay` runs out (R17) -/
  | settleTimeout (dt : Time) (bay : Nat)
  /-- READY_TIMER: the ready timer of the shift batch runs out (R41) -/
  | readyTimer (dt : Time)
  /-- PENDING_EXPIRY: the pairing window of the pending take at `position` (0 the oldest) passes (R38) -/
  | pendingExpiry (dt : Time) (position : Nat)
  /-- BUS_BUSY: a start bit is detected; `heard` are the characters received from it on (R45, R46) -/
  | busBusy (dt : Time) (heard : List Character)
  /-- BUS_IDLE: twenty silent bit times have passed (R45) -/
  | busIdle (dt : Time)
  /-- DEFERRAL_END: the deferral runs out (R51) -/
  | deferralEnd (dt : Time)
  /-- TX_COLLISION: a character of the attempt is read back wrong or missing (R53) -/
  | txCollision (dt : Time)
  /-- ATTEMPT_COMPLETE: the last CRC byte of the attempt is read back (R54) -/
  | attemptComplete (dt : Time)
  /-- TALLY: a TALLY frame ends on the bus (R74) -/
  | tally (dt : Time) (heard : List Character)
  /-- SHIFT: a SHIFT frame ends on the bus (R39) -/
  | shift (dt : Time) (heard : List Character)
  /-- CLAIM: a CLAIM frame ends on the bus (R104) -/
  | claim (dt : Time) (heard : List Character)
  /-- ALERT: an ALERT frame ends on the bus (R126) -/
  | alert (dt : Time) (heard : List Character)
  /-- CLEAR: a CLEAR frame ends on the bus (R107) -/
  | clear (dt : Time) (heard : List Character)
  /-- ACCEPT: an ACCEPT frame ends on the bus (R120) -/
  | accept (dt : Time) (heard : List Character)
  /-- HELLO: a HELLO frame ends on the bus (R144) -/
  | hello (dt : Time) (heard : List Character)
  /-- QUERY: a QUERY frame ends on the bus (R86) -/
  | query (dt : Time) (heard : List Character)
  /-- RESTART: a RESTART frame ends on the bus (R152) -/
  | restart (dt : Time) (heard : List Character)
  /-- CLAIM_HOLD: the claim hold of the alert record of `article` runs out (R100) -/
  | claimHold (dt : Time) (article : Nat)
  /-- REPEAT_TIMER: the repeat timer of the alert record of `article` runs out (R117) -/
  | repeatTimer (dt : Time) (article : Nat)
  /-- ESCALATION_TIMER: the escalation timer of the alert record of `article` runs out (R122) -/
  | escalationTimer (dt : Time) (article : Nat)
  /-- TAKEOVER_DELAY: the takeover delay of the alert record of `article` runs out (R110) -/
  | takeoverDelay (dt : Time) (article : Nat)
  /-- STALE_TIMER: the stale timer of station number `station` runs out (R79) -/
  | staleTimer (dt : Time) (station : Nat)
  /-- BEACON_TICK: the beacon timer runs out (R83) -/
  | beaconTick (dt : Time)
  /-- DELTA_TIMER: the delta timer runs out (R85) -/
  | deltaTimer (dt : Time)
  /-- JOIN_TIMER: the join window ends (R142) -/
  | joinTimer (dt : Time)
  /-- ISOLATION_TIMER: the isolation timer runs out (R151) -/
  | isolationTimer (dt : Time)
  /-- POWER_RESET: the supply passes its threshold (R155) -/
  | powerReset
  /-- PIN_RESET: RSTN is driven low (R155) -/
  | pinReset
  /-- RESET_RELEASE: the station looks at the release conditions: the level of RSTN and the time for which the
  supply has stood above its threshold without interruption (R155, R156) -/
  | resetRelease (rstnHigh : Bool) (supplyStood : Time)
  /-- STRAP_READ: the straps SN4 to SN0 are read, SN0 the least significant bit (R158) -/
  | strapRead (dt : Time) (straps : BitVec 5)
  /-- HEADER_READ: the header read sequence ends with these bytes (R161) -/
  | headerRead (dt : Time) (bytes : List Byte)
  /-- BODY_READ: the body read sequence ends with these bytes (R162) -/
  | bodyRead (dt : Time) (bytes : List Byte)
  deriving DecidableEq, Repr

end Sys2Proof
end

