-- ==== Sys2Proof/Machine/State.lean ====
section
/-! DEFINITION. The station's state, block by block, as the chapters name it, and its reset values. Plain data:
a timer is an optional expiry (none: stopped), an "absent" field is an Option, a list of the spec is a List. -/

namespace Sys2Proof.Machine

/-! ### Station controller (STC), R134 -/

/-- The six station states (R134). -/
inductive StationState where
  | strap | loading | joining | running | isolated | halted
  deriving DecidableEq, Repr

/-- The reset kinds (R155). -/
inductive ResetKind where
  | power | pin | restart
  deriving DecidableEq, Repr

/-- The halt causes of R137, with NONE. -/
inductive HaltCause where
  | noHalt | badStrap | noImage | badLength | badCrc | stationMismatch | badValue | holderCount | orphan | dupStation
  deriving DecidableEq, Repr

/-- A flash read sequence in progress (R160): FCS is low while it runs. -/
structure FlashRead where
  /-- the bytes sent on FDO: opcode, 24-bit start address, dummy byte -/
  fdo : List Byte
  /-- the start address -/
  start : Nat
  /-- the number of data bytes asked for -/
  count : Nat
  deriving DecidableEq, Repr

/-- The station controller's fields (R134) and its flash reading (R160 to R162). -/
structure Controller where
  state : StationState
  number : Nat
  resetCause : ResetKind
  lastHalt : HaltCause
  halt : HaltCause
  helloDone : Bool
  joinTimer : Option Time
  isolationTimer : Option Time
  read : Option FlashRead
  header : List Byte
  deriving DecidableEq, Repr

/-- A reset that is held: the kinds asserted since its first assertion, in order, and the halt cause held at that
first assertion (R155, R157). -/
structure HeldReset where
  kinds : List ResetKind
  haltAtFirst : HaltCause
  deriving DecidableEq, Repr

/-! ### Settle tracker (STK) and the stray lists of the pairing unit, R5, R6, R31 -/

/-- The bay states (R6, section 1.3). -/
inductive BayState where
  | vacant | disturbed | settling | unsteady | settled | overload | fault
  deriving DecidableEq, Repr

/-- The configuration part of a bay record (R5). -/
structure BayConfig where
  article : Nat
  tare : Nat
  tolerance : Nat
  capacity : Nat
  disturbBand : Nat
  settleBand : Nat
  blankCount : Nat
  confirmCount : Nat
  settleTimeout : Time
  deriving DecidableEq, Repr

/-- The article, unit weight and units of a known stray: present or absent together (R31). -/
structure Goods where
  article : Nat
  unitWeight : Nat
  units : Nat
  deriving DecidableEq, Repr

/-- A stray record (R31). -/
structure Stray where
  goods : Option Goods
  grams : Nat
  deriving DecidableEq, Repr

/-- A bay record (R5, R6) with the bay's stray list, newest last (R31). -/
structure Bay where
  cfg : BayConfig
  state : BayState
  settled : Option Int
  reference : Option Int
  candidate : Option Int
  runCount : Nat
  runSum : Int
  blankRemaining : Nat
  invalidRun : Nat
  disturbStart : Time
  settleTimer : Option Time
  units : Nat
  strays : List Stray
  deriving DecidableEq, Repr

/-! ### Pairing unit (PRU), R33, R37, R40 -/

/-- A pending take (R37). -/
structure PendingTake where
  source : Nat
  article : Nat
  unitWeight : Nat
  units : Nat
  arrival : Time
  deriving DecidableEq, Repr

/-- A take record (R33). -/
structure Take where
  source : Nat
  bay : Nat
  article : Nat
  unitWeight : Nat
  units : Nat
  deriving DecidableEq, Repr

/-- The batch mode (R41). -/
inductive BatchMode where
  | latest | keep
  deriving DecidableEq, Repr

/-- The pairing unit's parameters (R164), pending-take list (R37) and shift batch (section 2.6). -/
structure Pairing where
  enabled : Bool
  window : Time
  mode : BatchMode
  pendingTakes : List PendingTake
  filling : List Take
  ready : Bool
  sending : List Take
  readyTimer : Option Time
  deriving DecidableEq, Repr

/-! ### Tally unit (TLY), R67 to R73, R83, R85 -/

/-- The state of a contribution (R69). -/
inductive Freshness where
  | absent | fresh | doubtful | stale
  deriving DecidableEq, Repr

/-- A peer's contribution to an article (R69). -/
structure Contribution where
  holder : Nat
  units : Nat
  state : Freshness
  deriving DecidableEq, Repr

/-- The five flags of the own contribution (R69, R70). -/
structure OwnFlags where
  fault : Bool
  unsteady : Bool
  stray : Bool
  owning : Bool
  disputed : Bool
  deriving DecidableEq, Repr

/-- The own contribution: units and flags. Its state is FRESH at every moment (R70) and is not stored. -/
structure OwnContribution where
  units : Nat
  flags : OwnFlags
  deriving DecidableEq, Repr

/-- Coverage (R71). -/
inductive Coverage where
  | complete | incomplete
  deriving DecidableEq, Repr

/-- An article record (R67, R68); coverage PARTIAL is `incomplete`. -/
structure Article where
  number : Nat
  unitWeight : Nat
  reorder : Nat
  margin : Nat
  holders : List Nat
  digest : Crc
  disputed : Bool
  own : OwnContribution
  peers : List Contribution
  aggregate : Nat
  coverage : Coverage
  changed : Bool
  deriving DecidableEq, Repr

/-- An entry of the peer table (R73). -/
structure Peer where
  baseline : Option Seq
  staleTimer : Option Time
  holdOff : Option Time
  deriving DecidableEq, Repr

/-- The tally unit's parameters, timers, beacon count and first-window flag (R80, R83, R85). -/
structure TallyUnit where
  beaconPeriod : Time
  fullInterval : Nat
  staleTime : Time
  beaconTimer : Option Time
  beaconCount : Nat
  deltaTimer : Option Time
  lastCompletion : Option Time
  firstWindow : Bool
  deriving DecidableEq, Repr

/-! ### Alert unit (ALU), R89 -/

/-- The state of an alert record (R89). -/
inductive AlertState where
  | quiet | claiming | owner | follower
  deriving DecidableEq, Repr

/-- The levels NONE, LOW and EMPTY (R89, R92). -/
inductive Level where
  | none | low | empty
  deriving DecidableEq, Repr

/-- The frame kinds the alert unit requests (R57, R91). -/
inductive AlertKind where
  | claim | alert | clear
  deriving DecidableEq, Repr

/-- The standing of an outstanding frame (R89). -/
inductive Standing where
  | requested | lost
  deriving DecidableEq, Repr

/-- The outstanding frame of a record, when there is one (R89, R91). -/
structure Outstanding where
  kind : AlertKind
  standing : Standing
  deriving DecidableEq, Repr

/-- An alert record (R89). -/
structure Alert where
  state : AlertState
  level : Level
  epoch : Epoch
  known : Bool
  owner : Option Nat
  accepted : Bool
  terminal : Option Nat
  escalated : Bool
  claimSent : Bool
  closing : Bool
  outstanding : Option Outstanding
  claimHold : Option Time
  repeatTimer : Option Time
  escalationTimer : Option Time
  takeover : Option Time
  deriving DecidableEq, Repr

/-- The alert unit's parameters (R164). -/
structure AlertUnit where
  repeatInterval : Time
  escalationTime : Time
  deriving DecidableEq, Repr

/-- An article record and the alert record of the same article: both tables have one record per article, in the
same order (R67, R89). -/
structure Slot where
  art : Article
  alert : Alert
  deriving DecidableEq, Repr

/-! ### Bus controller (BSC), R45, R46, R50, R57 -/

/-- The variant of a TALLY (R57). -/
inductive Variant where
  | full | delta
  deriving DecidableEq, Repr

/-- A request: kind, variant and key together (R57). The requester goes with the kind. -/
inductive Request where
  | hello
  | tally (v : Variant)
  | shift
  | alertFrame (k : AlertKind) (article : Nat)
  | query (station : Nat)
  deriving DecidableEq, Repr

/-- An entry of the transmit queue (R57). `taken` numbers the requests in the order in which they were taken,
which decides between equal request times (R57; log 19). -/
structure TxEntry where
  req : Request
  time : Time
  taken : Nat
  failed : Nat
  deriving DecidableEq, Repr

/-- The entry IN FLIGHT (R52): the frame on the wire (R64), the articles moved into it (R65) and the follow-on
request held for it (R59). -/
structure Flight where
  entry : TxEntry
  frame : List Byte
  moved : List Nat
  followOn : Option TxEntry
  deriving DecidableEq, Repr

/-- A deferral in progress (R50): its beginning, from which it is counted, and its end. -/
structure Deferral where
  start : Time
  due : Time
  deriving DecidableEq, Repr

/-- The received frame in assembly (R46): stored bytes, received length, malformed mark; and the mark that the
frame on the line is that of the station's own completed attempt (R46, R54). -/
structure Receiver where
  stored : List Byte
  length : Nat
  malformed : Bool
  own : Bool
  deriving DecidableEq, Repr

/-- The bus controller. The entries QUEUED are `waiting`; the entry IN FLIGHT is in `flight` and keeps its slot. -/
structure BusController where
  busy : Bool
  rx : Receiver
  waiting : List TxEntry
  flight : Option Flight
  deferral : Option Deferral
  abandonRun : Nat
  seq : Seq
  takenCount : Nat
  deriving DecidableEq, Repr

/-! ### Health unit (HLU), R183 to R188 -/

/-- The fault codes (R183). -/
inductive FaultCode where
  | rxForm | rxCrc | txCollision | unresolved | claimYield | acceptStale
  | txAbandon | queueDrop | tallyGap | holderStale | unlistedHolder | missingEntry | shiftDrop | pairEvict
  | strayMerge | bayUnsteady
  | bayFault | bayOverload | isolation | disputed
  deriving DecidableEq, Repr

/-- The sixteen counters, in the order of R186. -/
inductive Counter where
  | rxCrc | rxForm | txCollision | txAbandon | queueDrop | tallyGap | querySent | holderStale
  | shiftDrop | pairMatch | pairEvict | acceptStale | claimYield | takeover | unresolved | strayMerge
  deriving DecidableEq, Repr

/-- A full capture record (R187); subject and article 0 stand for absent (R185). -/
structure Capture where
  code : FaultCode
  subject : Nat
  article : Nat
  time : Time
  further : Nat
  deriving DecidableEq, Repr

/-- The health unit: the counters in the order of R186, and the two capture records (none: empty). -/
structure Health where
  counters : List Nat
  degrade : Option Capture
  severe : Option Capture
  deriving DecidableEq, Repr

/-! ### Lamp driver (LMP), R172 -/

/-- The lamp patterns (R172). -/
inductive Pattern where
  | off | steady | slow | fast | double
  deriving DecidableEq, Repr

/-! ### The whole station -/

/-- The state of the station. -/
structure State where
  /-- the station timebase (00_scope.md section 5, R156) -/
  now : Time
  /-- the reset that is held, if one is (R155) -/
  held : Option HeldReset
  /-- the validity of each channel's sample, VALID is true (R4) -/
  channels : List Bool
  /-- the sixteen bay records in bay order (R5, R6, R31) -/
  bays : List Bay
  pru : Pairing
  /-- the article table with the alert records (R67, R89) -/
  slots : List Slot
  /-- the thirty entries of the peer table, station 1 first (R73) -/
  peers : List Peer
  tly : TallyUnit
  alu : AlertUnit
  bsc : BusController
  stc : Controller
  hlu : Health
  /-- the selected pattern of each lamp line (R172) -/
  lamps : List Pattern
  /-- the MODEL's own: how many free choices have been taken (log 8) -/
  freeCount : Nat
  /-- the commands waiting, first in, first out -/
  pending : List Instr
  deriving DecidableEq, Repr

/-- What stops the block: nothing does. The spec names no event after which the station has no next state; a
HALTED station is a station state (R137, R138). The type has no constructor, so no step can fault. -/
inductive Fault where
  deriving DecidableEq, Repr

/-- Why a command has no meaning. -/
inductive Refusal where
  /-- raised by an arm of `exec` alone, for a row that has no meaning yet; safe. No arm raises it. -/
  | notModelled (mnemonic : String)
  deriving DecidableEq, Repr

/-! ### Reset values -/

/-- The configuration part after reset: article 0 with every other field 0 (R6). -/
def BayConfig.reset : BayConfig :=
  { article := 0, tare := 0, tolerance := 0, capacity := 0, disturbBand := 0, settleBand := 0, blankCount := 0,
    confirmCount := 0, settleTimeout := 0 }

/-- A bay record after every kind of reset (R6, R31). -/
def Bay.reset : Bay :=
  { cfg := BayConfig.reset, state := .vacant, settled := none, reference := none, candidate := none, runCount := 0,
    runSum := 0, blankRemaining := 0, invalidRun := 0, disturbStart := 0, settleTimer := none, units := 0,
    strays := [] }

/-- The pairing unit after reset: lists and batch empty, ready timer stopped (R37, section 2.6); the parameters'
values are the model's (DESIGN CHOICE, log 6). -/
def Pairing.reset : Pairing :=
  { enabled := false, window := 0, mode := .latest, pendingTakes := [], filling := [], ready := false, sending := [],
    readyTimer := none }

/-- An entry of the peer table after reset (R73). -/
def Peer.reset : Peer := { baseline := none, staleTimer := none, holdOff := none }

/-- The tally unit after reset (R80, R83, R85, R88); the parameters' values are the model's (DESIGN CHOICE, log 6). -/
def TallyUnit.reset : TallyUnit :=
  { beaconPeriod := 0, fullInterval := 0, staleTime := 0, beaconTimer := none, beaconCount := 0, deltaTimer := none,
    lastCompletion := none, firstWindow := false }

/-- The alert unit's parameters after reset (DESIGN CHOICE, log 6). -/
def AlertUnit.reset : AlertUnit := { repeatInterval := 0, escalationTime := 0 }

/-- No frame in assembly. -/
def Receiver.reset : Receiver := { stored := [], length := 0, malformed := false, own := false }

/-- The bus controller after reset: bus taken as busy, queue empty, abandon run and sequence counter 0 (R45, R56,
R57, R63, R66). -/
def BusController.reset : BusController :=
  { busy := true, rx := Receiver.reset, waiting := [], flight := none, deferral := none, abandonRun := 0, seq := 0,
    takenCount := 0 }

/-- The station controller after a reset with the given causes (R134). -/
def Controller.reset (cause : ResetKind) (lastHalt : HaltCause) : Controller :=
  { state := .strap, number := 0, resetCause := cause, lastHalt := lastHalt, halt := .noHalt, helloDone := false,
    joinTimer := none, isolationTimer := none, read := none, header := [] }

/-- The health unit after reset: sixteen counters at 0, both capture records empty (R186, R187). -/
def Health.reset : Health := { counters := List.replicate 16 0, degrade := none, severe := none }

/-- The station right after the release of a POWER reset (R156, R157; which reset is log 5): timebase 0, station
state STRAP, every channel INVALID (R4), every block at its reset values, every lamp pattern OFF (R172). -/
def State.reset : State :=
  { now := 0, held := none, channels := List.replicate 16 false, bays := List.replicate 16 Bay.reset,
    pru := Pairing.reset, slots := [], peers := List.replicate 30 Peer.reset, tly := TallyUnit.reset,
    alu := AlertUnit.reset, bsc := BusController.reset, stc := Controller.reset .power .noHalt, hlu := Health.reset,
    lamps := List.replicate 16 .off, freeCount := 0, pending := [] }

end Sys2Proof.Machine
end

