-- ==== Sys2Proof/Machine/Ops.lean ====
section
/-! DEFINITION. The named operations every block uses: rounding and matching of weights, serial arithmetic,
durations and timers, the tables' records, the station-state tests, and the handing of events to the health unit. -/

namespace Sys2Proof.Machine

/-! ### Weights -/

/-- "Rounded": to the nearest whole number, halves towards the larger number, also for negative values (R1). -/
def rounded (x : Int) (d : Nat) : Int := (2 * x + d) / (2 * d)

/-- `x` is within the tolerance of `y`: they differ by no more than it (R27, R14, R16, R20). -/
def within (tolerance : Nat) (x y : Int) : Bool := decide ((x - y).natAbs ≤ tolerance)

/-- The smallest `m` of 1 or more for which `x` is within the tolerance of `m × u` (R28, R29, R33, R34), when there
is one: the smallest multiple of `u` not below `x − tolerance`, if it is near enough. -/
def leastMultiple (x : Int) (u tolerance : Nat) : Option Nat :=
  let m := max 1 (-((tolerance - x) / (u : Int))).toNat
  if within tolerance x (m * u) then some m else none

/-- The same, with `m` at most `limit`. -/
def leastMultipleUpTo (x : Int) (u tolerance limit : Nat) : Option Nat :=
  match leastMultiple x u tolerance with
  | some m => if m ≤ limit then some m else none
  | none => none

/-! ### Serial arithmetic (R2) -/

/-- `b` is newer than `a`: (b − a) mod 2^n lies in 1 to 2^(n−1) − 1 (R2). -/
def newer {n : Nat} (b a : BitVec n) : Bool := decide (1 ≤ (b - a).toNat) && decide ((b - a).toNat < 2 ^ (n - 1))

/-! ### Times -/

/-- A duration in milliseconds. -/
def ms (n : Nat) : Time := n * 1000

/-- A duration in seconds. -/
def seconds (n : Nat) : Time := ms (n * 1000)

/-- A duration in minutes. -/
def minutes (n : Nat) : Time := seconds (n * 60)

/-- A timer that is running and whose expiry is not in the future: the expiry, else none (log 2). -/
def expired (now : Time) (timer : Option Time) : Option Time :=
  match timer with
  | some e => if e ≤ now then some e else none
  | none => none

/-! ### Tables numbered from 1 -/

/-- The `n`-th record of a table, counted from 1. -/
def nth1 {α : Type} (l : List α) : Nat → Option α
  | 0 => none
  | k + 1 => l[k]?

/-- A table with its `n`-th record changed, counted from 1. -/
def mod1 {α : Type} (l : List α) (n : Nat) (f : α → α) : List α :=
  match n with
  | 0 => l
  | k + 1 => l.modify k f

/-- The record of bay `n` (1 to 16). -/
def State.bay? (s : State) (n : Nat) : Option Bay := nth1 s.bays n

/-- The state with bay `n`'s record changed. -/
def State.modBay (s : State) (n : Nat) (f : Bay → Bay) : State := { s with bays := mod1 s.bays n f }

/-- The entry of station number `n` (1 to 30) in the peer table (R73). -/
def State.peer? (s : State) (n : Nat) : Option Peer := nth1 s.peers n

/-- The state with the peer entry of `n` changed. -/
def State.modPeer (s : State) (n : Nat) (f : Peer → Peer) : State := { s with peers := mod1 s.peers n f }

/-- The article record and alert record of article `a`, if the station holds it (R67, R89). -/
def State.slot? (s : State) (a : Nat) : Option Slot := s.slots.find? fun sl => sl.art.number == a

/-- The state with the records of article `a` changed. -/
def State.modSlot (s : State) (a : Nat) (f : Slot → Slot) : State :=
  { s with slots := s.slots.map fun sl => if sl.art.number == a then f sl else sl }

/-- The state with the article record of `a` changed. -/
def State.modArticle (s : State) (a : Nat) (f : Article → Article) : State :=
  s.modSlot a fun sl => { sl with art := f sl.art }

/-- The state with the alert record of `a` changed. -/
def State.modAlert (s : State) (a : Nat) (f : Alert → Alert) : State :=
  s.modSlot a fun sl => { sl with alert := f sl.alert }

/-- The unit weight of an article, held in the article record alone (R5, R169). -/
def State.unitWeight (s : State) (a : Nat) : Nat :=
  match s.slot? a with
  | some sl => sl.art.unitWeight
  | none => 0

/-- The aggregate of an article (R71). -/
def State.aggregate (s : State) (a : Nat) : Nat :=
  match s.slot? a with
  | some sl => sl.art.aggregate
  | none => 0

/-- The own station number (R134). -/
def State.ownNumber (s : State) : Nat := s.stc.number

/-- The blocks take samples and frames: JOINING, RUNNING or ISOLATED (R3, R47). -/
def State.listening (s : State) : Bool :=
  match s.stc.state with
  | .joining | .running | .isolated => true
  | .strap | .loading | .halted => false

/-- The station may send: JOINING or RUNNING (R52, R58). -/
def State.speaking (s : State) : Bool :=
  match s.stc.state with
  | .joining | .running => true
  | .strap | .loading | .isolated | .halted => false

/-- Station number `n` is a sharing peer: not the own number, and in the holder list of some article (R73). -/
def State.sharingPeer (s : State) (n : Nat) : Bool :=
  n != s.ownNumber && s.slots.any fun sl => sl.art.holders.contains n

/-- The time that has passed since the command before this one is added to the timebase (log 2). -/
def State.elapse (s : State) (dt : Time) : State := { s with now := s.now + dt }

/-! ### The health unit (R183 to R188) -/

/-- The classes of the fault codes (R183). -/
inductive Severity where
  | note | degrade | severe
  deriving DecidableEq, Repr

/-- The class of a code (R183). -/
def FaultCode.severity : FaultCode → Severity
  | .rxForm | .rxCrc | .txCollision | .unresolved | .claimYield | .acceptStale => .note
  | .txAbandon | .queueDrop | .tallyGap | .holderStale | .unlistedHolder | .missingEntry | .shiftDrop | .pairEvict
  | .strayMerge | .bayUnsteady => .degrade
  | .bayFault | .bayOverload | .isolation | .disputed => .severe

/-- The counter of a code, where it has one (R183). -/
def FaultCode.counter : FaultCode → Option Counter
  | .rxForm => some .rxForm
  | .rxCrc => some .rxCrc
  | .txCollision => some .txCollision
  | .unresolved => some .unresolved
  | .claimYield => some .claimYield
  | .acceptStale => some .acceptStale
  | .txAbandon => some .txAbandon
  | .queueDrop => some .queueDrop
  | .tallyGap => some .tallyGap
  | .holderStale => some .holderStale
  | .shiftDrop => some .shiftDrop
  | .pairEvict => some .pairEvict
  | .strayMerge => some .strayMerge
  | .unlistedHolder | .missingEntry | .bayUnsteady | .bayFault | .bayOverload | .isolation | .disputed => none

/-- The place of a counter in the order of R186, from 0. -/
def Counter.index : Counter → Nat
  | .rxCrc => 0
  | .rxForm => 1
  | .txCollision => 2
  | .txAbandon => 3
  | .queueDrop => 4
  | .tallyGap => 5
  | .querySent => 6
  | .holderStale => 7
  | .shiftDrop => 8
  | .pairMatch => 9
  | .pairEvict => 10
  | .acceptStale => 11
  | .claimYield => 12
  | .takeover => 13
  | .unresolved => 14
  | .strayMerge => 15

/-- A counter rises by an amount and stops at 255 (R186). -/
def Health.rise (h : Health) (c : Counter) (amount : Nat) : Health :=
  { h with counters := h.counters.modify c.index fun v => min 255 (v + amount) }

/-- An event reaches the capture record of its class: an empty record takes it, a full one counts it (R188). -/
def captured (record : Option Capture) (code : FaultCode) (subject article : Nat) (now : Time) : Option Capture :=
  match record with
  | none => some { code := code, subject := subject, article := article, time := now, further := 0 }
  | some c => some { c with further := min 255 (c.further + 1) }

/-- The health unit takes an event with its amount: the counter of the code, where it has one, and the capture
record of the class (R183, R186, R188). Subject and article 0 stand for absent (R185). -/
def Health.take (h : Health) (code : FaultCode) (subject article amount : Nat) (now : Time) : Health :=
  let h1 := match code.counter with
    | some c => h.rise c amount
    | none => h
  match code.severity with
  | .note => h1
  | .degrade => { h1 with degrade := captured h1.degrade code subject article now }
  | .severe => { h1 with severe := captured h1.severe code subject article now }

/-- A block raises a fault event with an amount (R182). -/
def State.raiseN (s : State) (code : FaultCode) (subject article amount : Nat) : State :=
  { s with hlu := s.hlu.take code subject article amount s.now }

/-- A block raises a fault event of amount 1 (R182, R186). -/
def State.raise (s : State) (code : FaultCode) (subject article : Nat) : State := s.raiseN code subject article 1

/-- A block raises a count: its counter rises by 1 and no capture record is reached (R184). -/
def State.count (s : State) (c : Counter) : State := { s with hlu := s.hlu.rise c 1 }

end Sys2Proof.Machine
end

