-- ==== Sys2Proof/Machine/Flags.lean ====
section
/-! DEFINITION. What is computed from other state: the own entry's flags (R24, R70), aggregate and coverage (R71),
target levels (R92), and the lamp patterns (R173, R174). -/

namespace Sys2Proof.Machine

/-! ### The own contribution (R24, R70) -/

/-- FAULT and OVERLOAD, the FAULT group (R24). -/
def BayState.inFaultGroup : BayState → Bool
  | .fault | .overload => true
  | .vacant | .disturbed | .settling | .unsteady | .settled => false

/-- The station's own bays of an article. -/
def baysOf (bays : List Bay) (a : Nat) : List Bay := bays.filter fun b => b.cfg.article == a

/-- The own units of an article: the sum of the units of its bays (R24, R70). -/
def ownUnits (bays : List Bay) (a : Nat) : Nat := ((baysOf bays a).map Bay.units).sum

/-- FAULT stands while at least one own bay of the article is in FAULT or OVERLOAD (R24). -/
def ownFault (bays : List Bay) (a : Nat) : Bool := (baysOf bays a).any fun b => b.state.inFaultGroup

/-- UNSTEADY stands while at least one own bay is UNSTEADY (R24). -/
def ownUnsteady (bays : List Bay) (a : Nat) : Bool := (baysOf bays a).any fun b => b.state == .unsteady

/-- STRAY stands while at least one own bay holds a stray record (R24). -/
def ownStray (bays : List Bay) (a : Nat) : Bool := (baysOf bays a).any fun b => !b.strays.isEmpty

/-- The own contribution as a notice of the settle tracker gives it: units and three flags from the bays, OWNING and
DISPUTED kept (R70). -/
def OwnContribution.fromBays (o : OwnContribution) (bays : List Bay) (a : Nat) : OwnContribution :=
  { units := ownUnits bays a
    flags := { o.flags with fault := ownFault bays a, unsteady := ownUnsteady bays a, stray := ownStray bays a } }

/-! ### Aggregate and coverage (R71) -/

/-- The sum of the units of every contribution, own and peer. -/
def Article.total (r : Article) : Nat := r.own.units + (r.peers.map Contribution.units).sum

/-- COMPLETE when every contribution is FRESH; the own one always is (R70, R71). -/
def Article.cover (r : Article) : Coverage :=
  if r.peers.all fun c => c.state == .fresh then .complete else .incomplete

/-- The record with aggregate and coverage computed anew (R71). -/
def Article.recount (r : Article) : Article := { r with aggregate := r.total, coverage := r.cover }

/-- The contribution of a holder other than the own station. -/
def Article.contribution? (r : Article) (holder : Nat) : Option Contribution := r.peers.find? fun c => c.holder == holder

/-- The record with one holder's contribution changed. -/
def Article.modContribution (r : Article) (holder : Nat) (f : Contribution → Contribution) : Article :=
  { r with peers := r.peers.map fun c => if c.holder == holder then f c else c }

/-- The holder's contribution is STALE (R108). -/
def Article.staleHolder (r : Article) (holder : Nat) : Bool :=
  match r.contribution? holder with
  | some c => c.state == .stale
  | none => false

/-- A station's rank: its position in the holder list, counted from 1 (R67); 0 when it is not listed. -/
def Article.rank (r : Article) (station : Nat) : Nat :=
  match r.holders.findIdx? fun h => h == station with
  | some i => i + 1
  | none => 0

/-! ### Levels (R92) -/

/-- The target level from the aggregate, the reorder point, the clear margin and the record's level (R92). -/
def targetLevel (aggregate reorder margin : Nat) (level : Level) : Level :=
  if aggregate = 0 then .empty
  else if aggregate ≤ reorder then .low
  else if reorder + margin ≤ aggregate then .none
  else level

/-- The target level of an alert record that stands at `level`. -/
def Article.target (r : Article) (level : Level) : Level := targetLevel r.aggregate r.reorder r.margin level

/-- The target level of an article's alert record. -/
def Slot.target (sl : Slot) : Level := sl.art.target sl.alert.level

/-- The records of an article with the aggregate that the alert unit goes by. It is the article's own, but for the entries
of a TALLY, which reach the alert unit before any aggregate that the frame produced (R78, R92). -/
def Slot.seeing (sl : Slot) (aggregate : Nat) : Slot := { sl with art := { sl.art with aggregate := aggregate } }

/-- LOW or EMPTY. -/
def Level.short : Level → Bool
  | .none => false
  | .low | .empty => true

/-- CLAIMING or OWNER: the states in which OWNING stands (R70, R90). -/
def AlertState.owning : AlertState → Bool
  | .claiming | .owner => true
  | .quiet | .follower => false

/-! ### Lamps (R172 to R174) -/

/-- Rows 4 and 5 of R174, as a bay's article and its alert record give them, else rows 6 and 7. -/
def bayPattern (alert : Option Alert) (strays : Bool) : Pattern :=
  match alert with
  | some r =>
    if r.state ≠ .quiet ∧ r.level.short ∧ (r.escalated ∨ (r.level = .empty ∧ ¬ r.accepted)) then .slow
    else if r.state ≠ .quiet ∧ r.level.short then .steady
    else if strays then .double
    else .off
  | none => if strays then .double else .off

/-- The selected pattern of a bay's lamp line: the first row of R174 whose condition holds. -/
def State.selectPattern (s : State) (b : Bay) : Pattern :=
  match s.stc.state with
  | .halted => .fast
  | .loading => .steady
  | .strap | .joining | .running | .isolated =>
    let slot := s.slot? b.cfg.article
    let disputed := match slot with
      | some sl => sl.art.disputed
      | none => false
    if b.state.inFaultGroup || disputed then .fast
    else bayPattern (slot.map Slot.alert) (!b.strays.isEmpty)

/-- Every lamp line's pattern is selected anew (R175). -/
def State.showLamps (s : State) : State := { s with lamps := s.bays.map s.selectPattern }

/-- Whether a pattern is on at time `t` of the timebase (R173): cycles of 1,000, 250 and 2,000 ms. -/
def Pattern.litAt (p : Pattern) (t : Time) : Bool :=
  let millis := t / 1000
  match p with
  | .off => false
  | .steady => true
  | .slow => decide (millis % 1000 < 500)
  | .fast => decide (millis % 250 < 125)
  | .double => decide (millis % 2000 < 200) || (decide (400 ≤ millis % 2000) && decide (millis % 2000 < 600))

/-- Lamp line `n` is on: never while a reset is held (R156, R172), else as its pattern is at this moment (R173). -/
def State.lampOn (s : State) (n : Nat) : Bool :=
  match s.held, nth1 s.lamps n with
  | none, some p => p.litAt s.now
  | _, _ => false

/-! ### Pins that follow other state -/

/-- BUSDE: the driver is enabled while an attempt is in flight (R45, R52). -/
def State.busde (s : State) : Bool := s.bsc.flight.isSome

/-- FCS is high while no read sequence runs (R156, R160). -/
def State.fcs (s : State) : Bool := s.stc.read.isNone

/-- FCK is low while no read sequence runs; through one it runs as `FlashRead.pins` gives it (R160; log 21). -/
def State.fck (s : State) : Option Bool := if s.stc.read.isNone then some false else none

end Sys2Proof.Machine
end

