-- ==== Sys2Proof/Config.lean ====
section
/-! DEFINITION. The values the spec leaves open. Each is a constant with no body, so that no proof can see what
it is and a claim holds whatever it is. -/

namespace Sys2Proof

/-- The value of the dummy byte of a flash read sequence, "whose value the flash ignores" (R160; log 9). -/
opaque Config.flashDummy : Byte

/-- On the entry into ISOLATED "the drop notice for the queued SHIFT and the emptying on entry may reach the
pairing unit in either order" (R44): whether the notice is first, at the n-th free choice of a run (log 8). -/
opaque Config.dropNoticeFirst : Nat → Bool

/-- A CLAIM or ALERT built from a record at level NONE: "The station sends only 0x01 and 0x02" (R198), and which of the
two is not said. Whether it is 0x01 (LOW), at the n-th free choice of a run (log 20). -/
opaque Config.noneSentAsLow : Nat → Bool

end Sys2Proof
end

