-- ==== Sys2Proof/Machine/Operands.lean ====
section
/-! DEFINITION. The commands' operands as the station takes them: conversions as samples (R4), characters as a
received frame (R46), flash bytes as a read sequence takes them (R160), and numbers in byte order, most
significant byte first (00_scope.md section 5). -/

namespace Sys2Proof.Machine

/-! ### Conversions (R4) -/

/-- The sample a conversion delivers: the converted weight when it is VALID, none when it is INVALID (R4). -/
def sampleOf : Conversion → Option Int
  | .bridgeFault => none
  | .excitationFault => none
  | .weight g => if -100000 ≤ g ∧ g ≤ 1000000 then some g else none

/-- The channels' validity after the conversion of channel `n` (R4): the channel's own is set anew, and excitation
outside its working range makes all sixteen INVALID at once. -/
def validityAfter (c : Conversion) (n : Nat) (channels : List Bool) : List Bool :=
  match c with
  | .excitationFault => channels.map fun _ => false
  | .bridgeFault => mod1 channels n fun _ => false
  | .weight g => mod1 channels n fun _ => (sampleOf (.weight g)).isSome

/-! ### Characters (R45, R46) -/

/-- A character heard joins the received frame (R46): the first 192 bytes are stored, further ones only counted,
and a stop bit that reads 0 marks the frame malformed. -/
def Receiver.hear (r : Receiver) (c : Character) : Receiver :=
  { r with
    stored := if r.stored.length < 192 then r.stored ++ [c.byte] else r.stored
    length := r.length + 1
    malformed := r.malformed || !c.stop }

/-- Characters in the order of arrival. -/
def Receiver.hearAll (r : Receiver) (cs : List Character) : Receiver := cs.foldl Receiver.hear r

/-- The ten bits of a character on the line: a start bit 0, eight data bits least significant first, a stop bit 1
(R45). -/
def charBits (b : Byte) : List Bool := [false] ++ (List.range 8).map (fun i => b.getLsbD i) ++ [true]

/-- The bits of a frame on the line, its characters back to back (R52). -/
def lineBits (frame : List Byte) : List Bool := frame.flatMap charBits

/-- A byte heard without error. -/
def goodCharacter (b : Byte) : Character := { byte := b, stop := true }

/-! ### The flash (R160) -/

/-- The bytes a read sequence of `count` bytes takes: those that FDI delivers, and 0xFF where nothing drives it
(R160). -/
def flashBytes (count : Nat) (bytes : List Byte) : List Byte := (bytes ++ List.replicate count 0xFF).take count

/-- The start of a read sequence: opcode 0x0B, the 24-bit start address most significant byte first, a dummy byte
(R160). -/
def flashCommand (start : Nat) : List Byte :=
  [0x0B, BitVec.ofNat 8 (start / 65536), BitVec.ofNat 8 (start / 256), BitVec.ofNat 8 start, Config.flashDummy]

/-- The bits on FDO: every byte most significant bit first (R160). -/
def fdoBits (bytes : List Byte) : List Bool := bytes.flatMap fun b => (List.range 8).map fun i => b.getMsbD i

/-- The levels the station drives on FCS, FCK and FDO; no level of FDO is named where R160 names none. -/
structure FlashPins where
  fcs : Bool
  fck : Bool
  fdo : Option Bool
  deriving DecidableEq, Repr

/-- No read sequence runs: FCS is high and FCK low (R160). -/
def FlashPins.rest : FlashPins := { fcs := true, fck := false, fdo := none }

/-- The flash is selected and FCK is low: after step 1 of a read sequence and before step 6 (R160). -/
def FlashPins.selected : FlashPins := { fcs := false, fck := false, fdo := none }

/-- One cycle of FCK: FDO is driven while FCK is low, from its falling edge on, and FDI is sampled at the rising edge
(R160). -/
def clockCycle (fdo : Option Bool) : List FlashPins :=
  [{ fcs := false, fck := false, fdo := fdo }, { fcs := false, fck := true, fdo := fdo }]

/-- The pins through one read sequence, steps 1 to 6 of R160: FCS low; one cycle for each bit of the opcode, the address and
the dummy byte; one for each bit of the data bytes; FCS high. -/
def FlashRead.pins (r : FlashRead) : List FlashPins :=
  [FlashPins.rest, FlashPins.selected] ++ ((fdoBits r.fdo).map some ++ List.replicate (8 * r.count) none).flatMap clockCycle
    ++ [FlashPins.selected, FlashPins.rest]

/-- The byte that eight samples of FDI spell, most significant bit first (R160). -/
def byteOfBits (bits : List Bool) : Byte := bits.foldl (fun b x => (b <<< 1) ||| (if x then 1 else 0)) 0

/-- The data bytes that the samples of FDI at the rising edges of FCK spell, in address order (R160). -/
def fdiBytes : Nat → List Bool → List Byte
  | 0, _ => []
  | count + 1, bits => byteOfBits (bits.take 8) :: fdiBytes count (bits.drop 8)

/-! ### Numbers in bytes -/

/-- The number that bytes spell, most significant first. -/
def be (l : List Byte) : Nat := l.foldl (fun n b => n * 256 + b.toNat) 0

/-- A number in `width` bytes, most significant first. -/
def toBe : Nat → Nat → List Byte
  | 0, _ => []
  | k + 1, n => BitVec.ofNat 8 (n / 256 ^ k) :: toBe k n

/-- The field of `width` bytes at an offset. -/
def field (l : List Byte) (offset width : Nat) : Nat := be ((l.drop offset).take width)

/-- The first `n` records of `width` bytes each. -/
def chunks (width : Nat) : Nat → List Byte → List (List Byte)
  | 0, _ => []
  | n + 1, l => l.take width :: chunks width n (l.drop width)

end Sys2Proof.Machine
end

