-- ==== Sys2Proof/Machine/Wire.lean ====
section
/-! DEFINITION. The byte layouts of chapter 11: the CRC-16 (R199), frames (R196), the payload of each kind (R197,
R198) as the station reads and builds it, and the checks of R47 that look at a frame alone. -/

namespace Sys2Proof.Machine

/-! ### CRC-16 (R199) -/

/-- One shift of the register: to the left, and an exclusive OR with 0x1021 if the bit shifted out was 1. -/
def crcShift (r : Crc) : Crc := if r.msb then (r <<< 1) ^^^ 0x1021#16 else r <<< 1

/-- One byte: exclusive OR into the register's upper eight bits, then eight shifts. -/
def crcByte (r : Crc) (b : Byte) : Crc :=
  crcShift (crcShift (crcShift (crcShift (crcShift (crcShift (crcShift (crcShift (r ^^^ (b.setWidth 16 <<< 8)))))))))

/-- The CRC-16 of bytes in order, from 0xFFFF, with no final inversion (R199). -/
def crc16 (l : List Byte) : Crc := l.foldl crcByte 0xFFFF

/-! ### Codes (R196 to R198) -/

/-- The nine frame kinds (section 3.2). -/
inductive Kind where
  | hello | tally | shift | claim | alert | clear | accept | query | restart
  deriving DecidableEq, Repr

/-- The kind codes (R196). -/
def Kind.code : Kind → Byte
  | .hello => 0x31
  | .tally => 0x32
  | .shift => 0x33
  | .claim => 0x34
  | .alert => 0x35
  | .clear => 0x36
  | .accept => 0x37
  | .query => 0x38
  | .restart => 0x39

/-- The kind a code stands for. -/
def Kind.ofCode (b : Byte) : Option Kind :=
  if b = 0x31 then some .hello
  else if b = 0x32 then some .tally
  else if b = 0x33 then some .shift
  else if b = 0x34 then some .claim
  else if b = 0x35 then some .alert
  else if b = 0x36 then some .clear
  else if b = 0x37 then some .accept
  else if b = 0x38 then some .query
  else if b = 0x39 then some .restart
  else none

/-- The level codes (R198). -/
def Level.code : Level → Byte
  | .none => 0x00
  | .low => 0x01
  | .empty => 0x02

/-- The level a byte stands for; a byte that is not 0x01 or 0x02 is taken like NONE (R198). -/
def Level.ofCode (b : Byte) : Level := if b = 0x01 then .low else if b = 0x02 then .empty else .none

/-- The station state codes (R197). -/
def StationState.code : StationState → Byte
  | .strap => 0x01
  | .loading => 0x02
  | .joining => 0x03
  | .running => 0x04
  | .isolated => 0x05
  | .halted => 0x06

/-- The reset cause codes (R197). -/
def ResetKind.code : ResetKind → Byte
  | .power => 0x01
  | .pin => 0x02
  | .restart => 0x03

/-- The halt cause codes (R197). -/
def HaltCause.code : HaltCause → Byte
  | .noHalt => 0x00
  | .badStrap => 0x01
  | .noImage => 0x02
  | .badLength => 0x03
  | .badCrc => 0x04
  | .stationMismatch => 0x05
  | .badValue => 0x06
  | .holderCount => 0x07
  | .orphan => 0x08
  | .dupStation => 0x09

/-- The codes of captured faults (R197). A NOTE code is never captured (R183) and has none. -/
def FaultCode.code : FaultCode → Byte
  | .rxForm | .rxCrc | .txCollision | .unresolved | .claimYield | .acceptStale => 0x00
  | .txAbandon => 0x11
  | .queueDrop => 0x12
  | .tallyGap => 0x13
  | .holderStale => 0x14
  | .unlistedHolder => 0x15
  | .missingEntry => 0x16
  | .shiftDrop => 0x17
  | .pairEvict => 0x18
  | .strayMerge => 0x19
  | .bayUnsteady => 0x1A
  | .bayFault => 0x21
  | .bayOverload => 0x22
  | .isolation => 0x23
  | .disputed => 0x24

/-- A flag as a bit of a byte. -/
def bit (place : Nat) (b : Bool) : Nat := if b then 2 ^ place else 0

/-! ### Frames (R196) -/

/-- A frame: header fields and payload (R196). -/
structure Frame where
  kind : Kind
  src : Nat
  dst : Nat
  seq : Seq
  payload : List Byte
  deriving DecidableEq, Repr

/-- The bytes of a frame before its CRC: LEN, KIND, SRC, DST, SEQ and payload (R196). -/
def Frame.body (f : Frame) : List Byte :=
  [BitVec.ofNat 8 (f.payload.length + 7), f.kind.code, BitVec.ofNat 8 f.src, BitVec.ofNat 8 f.dst, f.seq] ++ f.payload

/-- The bytes of a frame, CRC included (R196). -/
def Frame.bytes (f : Frame) : List Byte := f.body ++ toBe 2 (crc16 f.body).toNat

/-- A frame heard without error. -/
def Frame.characters (f : Frame) : List Character := f.bytes.map goodCharacter

/-- The payload lengths allowed for each kind (R196): a TALLY's depend on its variant byte. -/
def payloadAllowed (k : Kind) (payload : List Byte) : Bool :=
  let n := payload.length
  match k with
  | .hello => decide (7 ≤ n) && decide (n ≤ 82) && decide ((n - 2) % 5 = 0)
  | .tally =>
    match payload with
    | v :: _ =>
      if v = 0x01 then decide (n ≤ 129) && decide ((n - 1) % 8 = 0)
      else if v = 0x02 then decide (44 ≤ n) && decide (n ≤ 164) && decide ((n - 36) % 8 = 0)
      else false
    | [] => false
  | .shift => decide (10 ≤ n) && decide (n ≤ 40) && decide (n % 10 = 0)
  | .claim => decide (n = 6)
  | .alert => decide (n = 8)
  | .clear => decide (n = 5)
  | .accept => decide (n = 5)
  | .query => decide (n = 0)
  | .restart => decide (n = 0)

/-- What the checks that look at the frame alone give: the fault code of the first that fails, or the frame. -/
inductive Checked where
  | failed (code : FaultCode)
  | passed (f : Frame)
  deriving DecidableEq, Repr

/-- Checks 1 to 3 of R47 in their order: length and framing, CRC, kind, source and payload length. -/
def Receiver.check (r : Receiver) : Checked :=
  let len := field r.stored 0 1
  if r.length < 7 ∨ 192 < r.length ∨ len < 7 ∨ 192 < len ∨ len ≠ r.length ∨ r.malformed then .failed .rxForm
  else if (crc16 (r.stored.take (len - 2))).toNat ≠ field r.stored (len - 2) 2 then .failed .rxCrc
  else
    let payload := (r.stored.drop 5).take (len - 7)
    let src := field r.stored 2 1
    match Kind.ofCode (BitVec.ofNat 8 (field r.stored 1 1)) with
    | none => .failed .rxForm
    | some k =>
      if 1 ≤ src ∧ src ≤ 30 ∧ payloadAllowed k payload then
        .passed { kind := k, src := src, dst := field r.stored 3 1, seq := BitVec.ofNat 8 (field r.stored 4 1),
                  payload := payload }
      else .failed .rxForm

/-! ### TALLY payloads (R197) -/

/-- An entry of a TALLY: the sender's units, flags and epoch, absent when UNKNOWN is set (section 4.4). -/
structure TallyEntry where
  article : Nat
  units : Nat
  flags : OwnFlags
  epoch : Option Epoch
  deriving DecidableEq, Repr

/-- The flags byte of an entry (R197). -/
def TallyEntry.flagsByte (e : TallyEntry) : Byte :=
  BitVec.ofNat 8 (bit 0 e.flags.fault + bit 1 e.flags.unsteady + bit 2 e.flags.stray + bit 3 e.flags.owning
    + bit 4 e.flags.disputed + bit 5 e.epoch.isNone)

/-- The eight bytes of an entry (R197); the epoch field is 0 when UNKNOWN is set. -/
def TallyEntry.bytes (e : TallyEntry) : List Byte :=
  toBe 3 e.article ++ toBe 2 e.units ++ [e.flagsByte] ++ toBe 2 ((e.epoch.map BitVec.toNat).getD 0)

/-- An entry read from its eight bytes: bits 6 and 7 are not examined, and with UNKNOWN set the epoch is absent
whatever its field holds (R197). -/
def TallyEntry.read (l : List Byte) : TallyEntry :=
  let f : Byte := BitVec.ofNat 8 (field l 5 1)
  { article := field l 0 3
    units := field l 3 2
    flags := { fault := f.getLsbD 0, unsteady := f.getLsbD 1, stray := f.getLsbD 2, owning := f.getLsbD 3,
               disputed := f.getLsbD 4 }
    epoch := if f.getLsbD 5 then none else some (BitVec.ofNat 16 (field l 6 2)) }

/-- The variant of a TALLY payload that has passed the receive filter: 0x02 is FULL (R197). -/
def tallyVariant (payload : List Byte) : Variant := if field payload 0 1 = 2 then .full else .delta

/-- The number of entries, from the payload length (R197). -/
def tallyCount (payload : List Byte) : Nat :=
  match tallyVariant payload with
  | .full => (payload.length - 36) / 8
  | .delta => (payload.length - 1) / 8

/-- The entries of a TALLY payload, in frame order (R197). -/
def tallyEntries (payload : List Byte) : List TallyEntry :=
  (chunks 8 (tallyCount payload) (payload.drop 1)).map TallyEntry.read

/-- The entry the station builds for an article: own units and flags, and the stored epoch of its alert record,
absent while unknown (R65, R84). -/
def Slot.entry (sl : Slot) : TallyEntry :=
  { article := sl.art.number, units := sl.art.own.units, flags := sl.art.own.flags
    epoch := if sl.alert.known then some sl.alert.epoch else none }

/-- The age of a capture record: whole 100 ms periods, stopping at 65,535 (R189). -/
def Capture.age (c : Capture) (now : Time) : Nat := min 65535 ((now - c.time) / ms 100)

/-- The eight bytes of a capture record; an empty one is eight bytes of 0 (R197). -/
def captureBytes (record : Option Capture) (now : Time) : List Byte :=
  match record with
  | some c =>
    [c.code.code, BitVec.ofNat 8 c.subject] ++ toBe 3 c.article ++ toBe 2 (c.age now) ++ [BitVec.ofNat 8 c.further]
  | none => List.replicate 8 0

/-- The health section of 35 bytes: the copy the health unit hands over (R190, R197). -/
def State.healthSection (s : State) : List Byte :=
  [s.stc.state.code, s.stc.resetCause.code, s.stc.lastHalt.code] ++ captureBytes s.hlu.degrade s.now
    ++ captureBytes s.hlu.severe s.now ++ s.hlu.counters.map (BitVec.ofNat 8)

/-- The articles of the changed set, in article-table order (R82). -/
def State.changedSet (s : State) : List Nat := (s.slots.filter fun sl => sl.art.changed).map fun sl => sl.art.number

/-- The payload of a TALLY: a DELTA has one entry for each article in the changed set, a FULL one for every article
and the health section (R65, R84). -/
def State.tallyPayload (s : State) : Variant → List Byte
  | .delta => [0x01] ++ (s.slots.filter fun sl => sl.art.changed).flatMap fun sl => sl.entry.bytes
  | .full => [0x02] ++ (s.slots.flatMap fun sl => sl.entry.bytes) ++ s.healthSection

/-! ### The other payloads (R198) -/

/-- HELLO: reset cause, last halt cause, and an article number and digest for each article (R140, R198). -/
def State.helloPayload (s : State) : List Byte :=
  [s.stc.resetCause.code, s.stc.lastHalt.code]
    ++ s.slots.flatMap fun sl => toBe 3 sl.art.number ++ toBe 2 sl.art.digest.toNat

/-- The pairs of article number and digest of a HELLO payload, in frame order (R198). -/
def helloPairs (payload : List Byte) : List (Nat × Crc) :=
  (chunks 5 ((payload.length - 2) / 5) (payload.drop 2)).map fun l => (field l 0 3, BitVec.ofNat 16 (field l 3 2))

/-- The ten bytes of a SHIFT record (R198). -/
def Take.bytes (t : Take) : List Byte :=
  [BitVec.ofNat 8 t.bay] ++ toBe 3 t.article ++ toBe 4 t.unitWeight ++ toBe 2 t.units

/-- A record of a heard SHIFT: its article, unit weight and units (R39, R198). -/
def shiftRecords (payload : List Byte) : List Goods :=
  (chunks 10 (payload.length / 10) payload).map fun l =>
    { article := field l 1 3, unitWeight := field l 4 4, units := field l 8 2 }

/-- A record is passed over when its article, unit weight or units is 0 or its unit weight exceeds 1,000,000 (R39,
R198). -/
def Goods.taken (g : Goods) : Bool :=
  decide (g.article ≠ 0) && decide (g.unitWeight ≠ 0) && decide (g.units ≠ 0) && decide (g.unitWeight ≤ 1000000)

/-- What a CLAIM or an ALERT carries (R96). A CLAIM carries neither acceptance nor escalation. -/
structure Report where
  article : Nat
  epoch : Epoch
  level : Level
  accepted : Bool
  terminal : Option Nat
  escalated : Bool
  deriving DecidableEq, Repr

/-- The article of a CLAIM, ALERT, CLEAR or ACCEPT payload (R198). -/
def alertArticle (payload : List Byte) : Nat := field payload 0 3

/-- The epoch of a CLAIM, ALERT, CLEAR or ACCEPT payload (R198). -/
def alertEpoch (payload : List Byte) : Epoch := BitVec.ofNat 16 (field payload 3 2)

/-- A CLAIM payload as the station reads it (R198). -/
def readClaim (payload : List Byte) : Report :=
  { article := alertArticle payload, epoch := alertEpoch payload
    level := Level.ofCode (BitVec.ofNat 8 (field payload 5 1)), accepted := false, terminal := none, escalated := false }

/-- An ALERT payload as the station reads it: the accepting terminal is absent when accepted is clear, and when its
byte is 0 or above 30 (R198). -/
def readAlert (payload : List Byte) : Report :=
  let status : Byte := BitVec.ofNat 8 (field payload 6 1)
  let t := field payload 7 1
  { article := alertArticle payload, epoch := alertEpoch payload
    level := Level.ofCode (BitVec.ofNat 8 (field payload 5 1))
    accepted := status.getLsbD 0
    terminal := if status.getLsbD 0 ∧ 1 ≤ t ∧ t ≤ 30 then some t else none
    escalated := status.getLsbD 1 }

/-- The payload of a CLAIM, ALERT or CLEAR, from the fields of an alert record (R64, R97, R116, R123, R198). -/
def Alert.payload (r : Alert) (article : Nat) : AlertKind → List Byte
  | .claim => toBe 3 article ++ toBe 2 r.epoch.toNat ++ [r.level.code]
  | .alert =>
    toBe 3 article ++ toBe 2 r.epoch.toNat ++ [r.level.code]
      ++ [BitVec.ofNat 8 (bit 0 r.accepted + bit 1 r.escalated)]
      ++ [BitVec.ofNat 8 (if r.accepted then r.terminal.getD 0 else 0)]
  | .clear => toBe 3 article ++ toBe 2 r.epoch.toNat

/-- The level that a CLAIM or ALERT carries (R198): the record's, and for a record at level NONE a free choice between LOW
and EMPTY (log 20). -/
def State.sentLevel (s : State) : Level → Level
  | .none => if Config.noneSentAsLow s.freeCount then .low else .empty
  | .low => .low
  | .empty => .empty

/-- The level of this request's frame is a free choice: a CLAIM or ALERT of a record at level NONE (R198; log 20). -/
def State.levelOpen (s : State) : Request → Bool
  | .alertFrame .claim a | .alertFrame .alert a =>
    match s.slot? a with
    | some sl => sl.alert.level == .none
    | none => false
  | .alertFrame .clear _ | .hello | .tally _ | .shift | .query _ => false

/-- The kind of an alert frame. -/
def AlertKind.kind : AlertKind → Kind
  | .claim => .claim
  | .alert => .alert
  | .clear => .clear

/-- The frame a request stands for, built from its owner's state at this moment (R64): SRC is the own number, SEQ the
sequence counter for a TALLY and 0 otherwise, DST the key of a QUERY and 0 otherwise. -/
def State.buildFrame (s : State) : Request → Frame
  | .hello => { kind := .hello, src := s.ownNumber, dst := 0, seq := 0, payload := s.helloPayload }
  | .tally v => { kind := .tally, src := s.ownNumber, dst := 0, seq := s.bsc.seq, payload := s.tallyPayload v }
  | .shift =>
    { kind := .shift, src := s.ownNumber, dst := 0, seq := 0, payload := s.pru.sending.flatMap Take.bytes }
  | .alertFrame k a =>
    { kind := k.kind, src := s.ownNumber, dst := 0, seq := 0
      payload := match s.slot? a with
        | some sl => { sl.alert with level := s.sentLevel sl.alert.level }.payload a k
        | none => [] }
  | .query n => { kind := .query, src := s.ownNumber, dst := n, seq := 0, payload := [] }

end Sys2Proof.Machine
end

