-- ==== Sys2Proof/Machine/Image.lean ====
section
/-! DEFINITION. The configuration image (chapter 8, R200): its fields, the checks of R161 to R167 in their order, the
digests (R168) and the records the tables are filled with (R169). -/

namespace Sys2Proof.Machine

/-! ### Fields (R200) -/

/-- The header fields after the signature (R200). The mode, pairing and stale words are split into their parts. -/
structure ImageHeader where
  version : Nat
  station : Nat
  length : Nat
  crc : Nat
  mode : Nat
  beacon : Nat
  pairing : Nat
  window : Nat
  interval : Nat
  stale : Nat
  repeatSteps : Nat
  escalation : Nat
  deriving DecidableEq, Repr

/-- The signature, the first four bytes as one word (R161). -/
def imageSignature (header : List Byte) : Nat := field header 0 4

/-- The header fields of an image (R200). -/
def readHeader (image : List Byte) : ImageHeader :=
  { version := field image 4 1
    station := field image 5 1
    length := field image 6 2
    crc := field image 8 2
    mode := field image 10 1 / 64
    beacon := field image 10 1 % 64
    pairing := field image 11 1 / 64
    window := field image 11 1 % 64
    interval := field image 12 1
    stale := field image 13 2 / 64
    repeatSteps := field image 13 2 % 64
    escalation := field image 15 1 }

/-- A bay record of 20 bytes as the configuration part of a bay (R200), the settle timeout as a duration (R169). -/
def readBay (l : List Byte) : BayConfig :=
  { article := field l 0 3
    tare := field l 3 4
    tolerance := field l 7 2
    capacity := field l 9 4
    disturbBand := field l 13 2
    settleBand := field l 15 2
    blankCount := field l 17 1
    confirmCount := field l 18 1
    settleTimeout := seconds (field l 19 1) }

/-- An article record of the image (R200): its fields as stored and its digest, the CRC-16 over its 20 bytes (R168). -/
structure ImageArticle where
  number : Nat
  unitWeight : Nat
  reorder : Nat
  margin : Nat
  count : Nat
  list : List Nat
  digest : Crc
  deriving DecidableEq, Repr

/-- An article record of 20 bytes (R200). -/
def readArticle (l : List Byte) : ImageArticle :=
  { number := field l 0 3
    unitWeight := field l 3 4
    reorder := field l 7 2
    margin := field l 9 2
    count := field l 11 1
    list := ((l.drop 12).take 8).map BitVec.toNat
    digest := crc16 l }

/-- The listed holders: the first holder-count bytes (R166). -/
def ImageArticle.holders (r : ImageArticle) : List Nat := r.list.take r.count

/-- The number of article records that an image length gives (R161). -/
def articleCount (length : Nat) : Nat := (length - 336) / 20

/-- The sixteen bay records, from address 16 (R162, R200). -/
def imageBays (image : List Byte) : List BayConfig := (chunks 20 16 (image.drop 16)).map readBay

/-- The article records, from address 336 (R162, R200). -/
def imageArticles (image : List Byte) : List ImageArticle :=
  (chunks 20 (articleCount (readHeader image).length) (image.drop 336)).map readArticle

/-! ### Header checks (R161) -/

/-- The image lengths allowed: 336 plus 20 for each of 1 to 16 article records (R161). -/
def lengthAllowed (n : Nat) : Bool := decide (356 ≤ n) && decide (n ≤ 656) && decide ((n - 336) % 20 = 0)

/-- The checks made on the header alone, in order (R161). -/
def headerFault (header : List Byte) : Option HaltCause :=
  if imageSignature header ≠ 0x4C5A4231 then some .noImage
  else if ¬ lengthAllowed (readHeader header).length then some .badLength
  else none

/-! ### Body checks (R162 to R167) -/

/-- A number within a range. -/
def inRange (low high n : Nat) : Bool := decide (low ≤ n) && decide (n ≤ high)

/-- The station parameters lie within their ranges (R164, R200). -/
def ImageHeader.inRanges (h : ImageHeader) : Bool :=
  decide (h.version = 1) && inRange 1 60 h.beacon && inRange 1 16 h.interval && inRange 3 600 h.stale
    && inRange 1 2 h.pairing && inRange 1 60 h.window && inRange 1 2 h.mode && inRange 1 60 h.repeatSteps
    && inRange 5 240 h.escalation

/-- The fields of a bay record lie within the ranges of R5 (R165). -/
def bayInRanges (b : BayConfig) : Bool :=
  decide (b.article ≤ 16777215) && decide (b.tare ≤ 1000000) && inRange 1 1000000 b.capacity
    && decide (b.tare < b.capacity) && inRange 1 65535 b.tolerance && inRange 1 65535 b.disturbBand
    && inRange 1 65535 b.settleBand && decide (b.blankCount ≤ 15) && inRange 2 31 b.confirmCount
    && inRange (seconds 1) (seconds 120) b.settleTimeout

/-- The fields of an article record lie within their ranges (R165). -/
def ImageArticle.inRanges (r : ImageArticle) : Bool :=
  inRange 1 16777215 r.number && inRange 1 1000000 r.unitWeight && decide (r.reorder ≤ 65535)
    && inRange 1 1000 r.margin && inRange 1 8 r.count && r.list.all fun h => decide (h ≤ 30)

/-- No two elements of a list are equal. -/
def distinct : List Nat → Bool
  | [] => true
  | x :: rest => !rest.contains x && distinct rest

/-- Capacity minus tare of a bay does not exceed 65,535 unit weights of the record it names (R5, R165). -/
def bayCapacityFits (articles : List ImageArticle) (b : BayConfig) : Bool :=
  articles.all fun r => r.number != b.article || decide (b.capacity - b.tare ≤ 65535 * r.unitWeight)

/-- The sum of a record's bays' capacities in units, each rounded, does not exceed 65,535 (R67, R165). -/
def articleCapacityFits (bays : List BayConfig) (r : ImageArticle) : Bool :=
  decide (((bays.filter fun b => b.article == r.number).map fun b =>
    (rounded ((b.capacity : Int) - b.tare) r.unitWeight).toNat).sum ≤ 65535)

/-- The conditions of BAD_VALUE hold (R164, R165). -/
def valuesFit (h : ImageHeader) (bays : List BayConfig) (articles : List ImageArticle) : Bool :=
  h.inRanges && bays.all bayInRanges && articles.all ImageArticle.inRanges
    && distinct (articles.map ImageArticle.number) && bays.all (bayCapacityFits articles)
    && articles.all (articleCapacityFits bays)

/-- A holder list is well-formed (R166): the listed bytes are not 0, the padding is 0, no number is repeated, and the
own station is listed. -/
def holdersFit (own : Nat) (r : ImageArticle) : Bool :=
  r.holders.all (fun h => h != 0) && (r.list.drop r.count).all (fun h => h == 0) && distinct r.holders
    && r.holders.contains own

/-- Bays and article records name each other (R167). -/
def namesFit (bays : List BayConfig) (articles : List ImageArticle) : Bool :=
  (bays.all fun b => b.article == 0 || articles.any fun r => r.number == b.article)
    && articles.all fun r => bays.any fun b => b.article == r.number

/-- The CRC of an image: over every byte but the two of its CRC field (R162, R200). -/
def imageCrc (image : List Byte) : Nat := (crc16 (image.take 8 ++ image.drop 10)).toNat

/-- The checks made when the whole image has been read, in order (R162 to R167): the halt cause of the first that
fails. -/
def imageFault (own : Nat) (image : List Byte) : Option HaltCause :=
  let h := readHeader image
  let bays := imageBays image
  let articles := imageArticles image
  if imageCrc image ≠ h.crc then some .badCrc
  else if h.station ≠ own then some .stationMismatch
  else if ¬ valuesFit h bays articles then some .badValue
  else if ¬ articles.all (holdersFit own) then some .holderCount
  else if ¬ namesFit bays articles then some .orphan
  else none

/-! ### Table records (R67, R68, R89, R169) -/

/-- An alert record when the station leaves LOADING (R89). -/
def Alert.initial : Alert :=
  { state := .quiet, level := .none, epoch := 0, known := false, owner := none, accepted := false, terminal := none,
    escalated := false, claimSent := false, closing := false, outstanding := none, claimHold := none,
    repeatTimer := none, escalationTimer := none, takeover := none }

/-- An article record when the station leaves LOADING (R67, R68): own contribution 0, peer contributions ABSENT, coverage
COMPLETE for a list of one station and PARTIAL otherwise. -/
def ImageArticle.record (own : Nat) (r : ImageArticle) : Article :=
  { number := r.number, unitWeight := r.unitWeight, reorder := r.reorder, margin := r.margin, holders := r.holders
    digest := r.digest, disputed := false
    own := { units := 0, flags := { fault := false, unsteady := false, stray := false, owning := false,
                                    disputed := false } }
    peers := (r.holders.filter fun h => h != own).map fun h => { holder := h, units := 0, state := .absent }
    aggregate := 0
    coverage := if (r.holders.filter fun h => h != own).isEmpty then .complete else .incomplete
    changed := false }

/-- The records of one article. -/
def ImageArticle.slot (own : Nat) (r : ImageArticle) : Slot := { art := r.record own, alert := Alert.initial }

end Sys2Proof.Machine
end

