-- ==== Sys2Proof/Machine/Queue.lean ====
section
/-! DEFINITION. The transmit queue (R57 to R62): requests, merging, follow-ons, drops, withdrawals, and the deferral
they move (R50, R51); and what a DROPPED notice does to the unit that asked (R43, R91, R141). -/

namespace Sys2Proof.Machine

/-! ### Requests -/

/-- The access class of a request; lower classes win the bus first (section 3.2, R50). -/
def Request.cls : Request → Nat
  | .alertFrame .alert _ | .alertFrame .clear _ => 0
  | .alertFrame .claim _ => 1
  | .hello | .query _ => 2
  | .tally _ => 3
  | .shift => 4

/-- Two requests have the same merge key (R58): two TALLYs, two alert frames of one article, two QUERYs to one
station, two SHIFTs, two HELLOs. -/
def Request.sameKey : Request → Request → Bool
  | .hello, .hello => true
  | .tally _, .tally _ => true
  | .shift, .shift => true
  | .alertFrame _ a, .alertFrame _ b => a == b
  | .query m, .query n => m == n
  | _, _ => false

/-- What a request makes of one it merges into (R58). -/
def Request.merge (old new : Request) : Request :=
  match old, new with
  | .tally _, .tally .full => .tally .full
  | .alertFrame _ _, .alertFrame k a => .alertFrame k a
  | _, _ => old

/-- An entry takes a request of its merge key: place and request time stay, and a change of kind starts the failed
attempts again at 0 (R58). -/
def TxEntry.merge (e : TxEntry) (r : Request) : TxEntry :=
  match e.req, r with
  | .alertFrame k _, .alertFrame k' _ =>
    { e with req := e.req.merge r, failed := if k = k' then e.failed else 0 }
  | _, _ => { e with req := e.req.merge r }

/-- Subject of TX_ABANDON and QUEUE_DROP: the destination of a QUERY, else absent (R55, R60). -/
def Request.subject : Request → Nat
  | .query n => n
  | .hello | .tally _ | .shift | .alertFrame _ _ => 0

/-- Article of TX_ABANDON and QUEUE_DROP: that of a CLAIM, ALERT or CLEAR, else absent (R55, R60). -/
def Request.article : Request → Nat
  | .alertFrame _ a => a
  | .hello | .tally _ | .shift | .query _ => 0

/-- Entry `a` is served after entry `b`: by class, then request time, then the order in which they were taken (R50,
R57). -/
def TxEntry.after (a b : TxEntry) : Bool :=
  if a.req.cls = b.req.cls then
    if a.time = b.time then decide (b.taken < a.taken) else decide (b.time < a.time)
  else decide (b.req.cls < a.req.cls)

/-- The entry served first: the head (R50). -/
def headOf : List TxEntry → Option TxEntry
  | [] => none
  | e :: rest =>
    match headOf rest with
    | some h => if e.after h then some h else some e
    | none => some e

/-- The entry served last: the one a full queue drops (R60). -/
def lastOf : List TxEntry → Option TxEntry
  | [] => none
  | e :: rest =>
    match lastOf rest with
    | some h => if h.after e then some h else some e
    | none => some e

/-! ### Deferral (R50, R51) -/

/-- The length of a deferral for a class: class × 31 plus the own number slots of ten bit times, 80 microseconds (R50). -/
def deferralLength (cls number : Nat) : Time := (cls * 31 + number) * 80

/-- A deferral begins in JOINING and RUNNING when the bus is idle and a queued entry is present, and none is running
(R50); not while an attempt is in flight (DEDUCED, log 13). -/
def State.beginDeferral (s : State) : State :=
  match s.bsc.deferral, s.bsc.flight, headOf s.bsc.waiting with
  | none, none, some h =>
    if s.speaking && !s.bsc.busy then
      let d : Deferral := { start := s.now, due := s.now + deferralLength h.req.cls s.ownNumber }
      { s with bsc := { s.bsc with deferral := some d } }
    else s
  | _, _, _ => s

/-- The head after a request is of lower class than the head before it (R51). -/
def headLowered (before after : Option TxEntry) : Bool :=
  match before, after with
  | some old, some new => decide (new.req.cls < old.req.cls)
  | _, _ => false

/-- A request that makes an entry of lower class the head shortens the deferral in progress to that class's length,
if that point has not yet passed; else it runs on, as it does when the head is of the class it was of (R51; log 14).
`before` is the head that the request met. -/
def State.shortenDeferral (s : State) (before : Option TxEntry) : State :=
  match s.bsc.deferral, headOf s.bsc.waiting with
  | some d, some h =>
    let point := d.start + deferralLength h.req.cls s.ownNumber
    if headLowered before (some h) ∧ point < d.due ∧ s.now ≤ point then
      { s with bsc := { s.bsc with deferral := some { d with due := point } } }
    else s
  | _, _ => s

/-- When the queue has lost its last queued entry, the deferral ends without a transmission (R51). -/
def State.endDeferralIfEmpty (s : State) : State :=
  if s.bsc.waiting.isEmpty then { s with bsc := { s.bsc with deferral := none } } else s

/-! ### Taking a request (R58 to R60) -/

/-- The slots in use, the one IN FLIGHT included (R57). -/
def BusController.used (b : BusController) : Nat := b.waiting.length + (if b.flight.isSome then 1 else 0)

/-- The entry a request makes. -/
def BusController.newEntry (b : BusController) (r : Request) (now : Time) : TxEntry :=
  { req := r, time := now, taken := b.takenCount, failed := 0 }

/-- A request enters the queue as a new QUEUED entry. -/
def BusController.append (b : BusController) (r : Request) (now : Time) : BusController :=
  { b with waiting := b.waiting ++ [b.newEntry r now], takenCount := b.takenCount + 1 }

/-- A request becomes the follow-on of the entry IN FLIGHT, or merges into the one held (R59). -/
def Flight.follow (f : Flight) (e : TxEntry) : Flight :=
  { f with followOn := match f.followOn with
      | none => some e
      | some held => some (held.merge e.req) }

/-- A request with nothing to merge with (R58, R60): a new entry while fewer than eight slots are in use; else the
entry served last makes room if its class is higher than the request's, or the request itself is dropped. -/
def BusController.enterNew (b : BusController) (r : Request) (now : Time) : BusController × Option Request :=
  if b.used < 8 then (b.append r now, none)
  else
    match lastOf b.waiting with
    | some victim =>
      if r.cls < victim.req.cls then
        (({ b with waiting := b.waiting.erase victim } : BusController).append r now, some victim.req)
      else (b, some r)
    | none => (b, some r)

/-- The result of a request at the queue (R58 to R60): the bus controller, and the entry or request dropped from a
full queue, if any. It merges into a QUEUED entry of its merge key, or is held as a follow-on of the entry IN FLIGHT
with its merge key, or enters anew. -/
def BusController.enter (b : BusController) (r : Request) (now : Time) : BusController × Option Request :=
  if b.waiting.any fun e => e.req.sameKey r then
    ({ b with waiting := b.waiting.map fun e => if e.req.sameKey r then e.merge r else e }, none)
  else
    match b.flight with
    | some f =>
      if f.entry.req.sameKey r then
        ({ b with flight := some (f.follow (b.newEntry r now)), takenCount := b.takenCount + 1 }, none)
      else b.enterNew r now
    | none => b.enterNew r now

/-- The bus controller takes a request in JOINING and RUNNING; in any other state it is refused with a DROPPED notice
and no event (R58). A drop from a full queue raises QUEUE_DROP (R60). The second value is the request that gets a
DROPPED notice. -/
def State.enqueue (s : State) (r : Request) : State × Option Request :=
  if s.speaking then
    let (b, dropped) := s.bsc.enter r s.now
    let s1 : State := { s with bsc := b }
    let s2 := match dropped with
      | some d => s1.raise .queueDrop d.subject d.article
      | none => s1
    (s2.beginDeferral.shortenDeferral (headOf s.bsc.waiting), dropped)
  else (s, some r)

/-! ### DROPPED notices -/

/-- The ledger of an article's record: a DROPPED or ABANDONED notice of the outstanding kind marks it LOST (R91). -/
def Alert.lost (r : Alert) (k : AlertKind) : Alert :=
  match r.outstanding with
  | some o => if o.kind = k then { r with outstanding := some { o with standing := .lost } } else r
  | none => r

/-- The sending side is emptied; when it held records, SHIFT_DROP is raised with their number, subject absent and the
article of the first (R43). -/
def State.loseSending (s : State) : State :=
  match s.pru.sending with
  | [] => s
  | t :: rest =>
    ({ s with pru := { s.pru with sending := [] } } : State).raiseN .shiftDrop 0 t.article (rest.length + 1)

/-- The filling side's records move to the sending side (R41, R42). -/
def Pairing.moveOver (p : Pairing) : Pairing := { p with sending := p.filling, filling := [], ready := false }

/-- A SHIFT request of the pairing unit whose own DROPPED notice, if it gets one, empties the sending side again
(R43). The filling side is empty then, so nothing is requested anew. -/
def State.requestShift (s : State) : State :=
  match s.enqueue .shift with
  | (s1, none) => s1
  | (s1, some .shift) => s1.loseSending
  | (s1, some _) => s1

/-- The pairing unit's SHIFT was dropped or abandoned (R43): the sending side is emptied, and in JOINING and RUNNING a
ready filling side moves over with a new SHIFT request. -/
def State.shiftLost (s : State) : State :=
  let s1 := s.loseSending
  if s1.pru.ready && s1.speaking then ({ s1 with pru := s1.pru.moveOver } : State).requestShift else s1

/-- A DROPPED notice reaches the requester (R62): the pairing unit (R43), the ledger of an alert record (R91). A
DROPPED TALLY or QUERY calls for nothing (R87), and a DROPPED HELLO waits for the next beacon tick (R141). -/
def State.noticeDropped (s : State) : Request → State
  | .shift => s.shiftLost
  | .alertFrame k a => s.modAlert a fun r => r.lost k
  | .hello | .tally _ | .query _ => s

/-- A block makes a request; a DROPPED notice that comes of it is taken when the queue stands as the request left it
(R58, R60; log 7). -/
def State.request (s : State) (r : Request) : State :=
  match s.enqueue r with
  | (s1, none) => s1
  | (s1, some d) => s1.noticeDropped d

/-! ### Withdrawal (R61) -/

/-- A withdrawal names kind and key: a QUEUED entry or a follow-on of that request is removed, and an entry IN FLIGHT
goes on (R61). No notice and no event. -/
def State.withdraw (s : State) (r : Request) : State :=
  let b := s.bsc
  let kept := b.waiting.filter fun e => e.req ≠ r
  let flight := b.flight.map fun f =>
    match f.followOn with
    | some e => if e.req = r then { f with followOn := none } else f
    | none => f
  ({ s with bsc := { b with waiting := kept, flight := flight } } : State).endDeferralIfEmpty

end Sys2Proof.Machine
end

