-- ==== Sys2Proof/Machine/Tally.lean ====
section
/-! DEFINITION. The tally unit's own share and its DELTA schedule: the own contribution and the changed set (R70,
R82), the delta timer (R85), and the effect of a TALLY's notices (R82, R87). -/

namespace Sys2Proof.Machine

/-- The delta timer expires: it stops, and a DELTA is requested if the changed set is not empty (R85). -/
def State.deltaExpires (s : State) : State :=
  let s1 : State := { s with tly := { s.tly with deltaTimer := none } }
  if s1.changedSet.isEmpty then s1 else s1.request (.tally .delta)

/-- When a marking's delta timer expires: the later of the current time and the last completion plus 250 ms, or the
current time with no completion since reset (R85). -/
def State.deltaDue (s : State) : Time :=
  match s.tly.lastCompletion with
  | some t => max s.now (t + ms 250)
  | none => s.now

/-- A marking starts the delta timer in JOINING and RUNNING while it is stopped (R85, R88). An expiry at the current
time is taken at once, in the same event (R85; DEDUCED, log 10). -/
def State.startDelta (s : State) : State :=
  if s.speaking && s.tly.deltaTimer.isNone then
    if s.deltaDue ≤ s.now then s.deltaExpires
    else { s with tly := { s.tly with deltaTimer := some s.deltaDue } }
  else s

/-- The own contribution of an article changes: when units or a flag move, the article is marked in the changed set,
aggregate and coverage are computed anew (R70, R71, R82), and the delta timer starts (R85). When nothing moves, the
article is not marked. -/
def State.ownUpdate (s : State) (a : Nat) (f : OwnContribution → OwnContribution) : State :=
  match s.slot? a with
  | some sl =>
    if f sl.art.own = sl.art.own then s
    else (s.modArticle a fun r => Article.recount { r with own := f r.own, changed := true }).startDelta
  | none => s

/-- The alert unit tells the tally unit that a record has entered or left CLAIMING and OWNER (R70, R90). -/
def State.tellOwning (s : State) (a : Nat) (standing : Bool) : State :=
  s.ownUpdate a fun o => { o with flags := { o.flags with owning := standing } }

/-- The station controller sets an article's DISPUTED flag (R145), and the own entry carries it (R70). -/
def State.markDisputed (s : State) (a : Nat) : State :=
  (s.modArticle a fun r => { r with disputed := true }).ownUpdate a fun o =>
    { o with flags := { o.flags with disputed := true } }

/-- The articles moved into a TALLY attempt have their marks set again (R65, R82). -/
def State.returnMarks (s : State) (moved : List Nat) : State :=
  { s with slots := s.slots.map fun sl =>
      if moved.contains sl.art.number then { sl with art := { sl.art with changed := true } } else sl }

/-- At the start of a TALLY attempt every mark is cleared: the marked articles move into the frame (R65, R82). -/
def State.clearMarks (s : State) : State :=
  { s with slots := s.slots.map fun sl => { sl with art := { sl.art with changed := false } } }

/-- COMPLETED notice of a TALLY (R85): the last completion is set; the delta timer stops when the changed set is
empty, and else runs to 250 ms after this time. -/
def State.tallyCompleted (s : State) : State :=
  let timer := if s.changedSet.isEmpty then none else some (s.now + ms 250)
  { s with tly := { s.tly with lastCompletion := some s.now, deltaTimer := timer } }

end Sys2Proof.Machine
end

