-- ==== Sys2Proof/Machine/Alerts.lean ====
section
/-! DEFINITION. The alert unit (chapters 5 and 6): levels, claims, ownership, contention, yielding, following,
takeover, acceptance, clearing, the ledger of outstanding frames and the beacon sweep. -/

namespace Sys2Proof.Machine

/-! ### Requests and the ledger (R91) -/

/-- The alert unit requests a frame of an article: the outstanding frame becomes that kind, standing REQUESTED (R91),
and the request goes to the bus controller (R58). -/
def State.requestAlert (s : State) (k : AlertKind) (a : Nat) : State :=
  (s.modAlert a fun r => { r with outstanding := some { kind := k, standing := .requested } }).request
    (.alertFrame k a)

/-- The alert unit withdraws the outstanding frame of a record, if any (R61), and none is outstanding then (R91). -/
def State.withdrawAlert (s : State) (a : Nat) : State :=
  match s.slot? a with
  | some sl =>
    match sl.alert.outstanding with
    | some o => (s.withdraw (.alertFrame o.kind a)).modAlert a fun r => { r with outstanding := none }
    | none => s
  | none => s

/-! ### Claiming (R93, R97) -/

/-- The conditions of a claim, but for the record's state: RUNNING, not DISPUTED, target LOW or EMPTY (R97). -/
def State.claimable (s : State) (sl : Slot) : Bool :=
  s.stc.state == .running && !sl.art.disputed && sl.target.short

/-- The record of a claim: the next epoch, CLAIMING, owner the station itself, level the target level (R97). The
takeover delay stops, since the record is not FOLLOWER (R109). -/
def Alert.claimed (r : Alert) (own : Nat) (level : Level) : Alert :=
  { r with
    state := .claiming, level := level, epoch := if r.known then r.epoch + 1 else 1, known := true, owner := some own,
    accepted := false, terminal := none, escalated := false, claimSent := false, closing := false, takeover := none }

/-- A record claims at a target level (R97): epoch and state, the tally unit told, a CLAIM requested. -/
def State.claimAt (s : State) (a : Nat) (level : Level) : State :=
  match s.slot? a with
  | some _ => ((s.modAlert a fun r => r.claimed s.ownNumber level).tellOwning a true).requestAlert .claim a
  | none => s

/-- A record claims at the target level of the article's aggregate (R97). -/
def State.claim (s : State) (a : Nat) : State :=
  match s.slot? a with
  | some sl => s.claimAt a sl.target
  | none => s

/-- The claim test of a record in QUIET, by an aggregate (R97). -/
def State.claimTestSeeing (s : State) (a aggregate : Nat) : State :=
  match s.slot? a with
  | some sl =>
    if sl.alert.state = .quiet ∧ s.claimable (sl.seeing aggregate) then s.claimAt a (sl.seeing aggregate).target else s
  | none => s

/-- The claim test of a record in QUIET, by the article's aggregate (R97). -/
def State.claimTest (s : State) (a : Nat) : State := s.claimTestSeeing a (s.aggregate a)

/-- A record as it enters QUIET: owner absent, accepted, accepting terminal and escalated clear, every timer stopped; epoch
kept (R90, R93, R109). Claim sent is clear by R114 at the entry into ISOLATED; that every other entry clears it too is the
model's choice, since R98, R101, R107, R110, R125 and R130 do not name it (DESIGN CHOICE, log 30). That closing is clear is
read from its meaning in R89 (DEDUCED, log 30). -/
def Alert.quieted (r : Alert) (level : Level) : Alert :=
  { r with
    state := .quiet, level := level, owner := none, accepted := false, terminal := none, escalated := false,
    claimSent := false, closing := false, claimHold := none, repeatTimer := none, escalationTimer := none,
    takeover := none }

/-- A record enters QUIET, not by isolation, while the alert unit goes by an aggregate: its level is set to NONE and then
to the target level from there (R93), the tally unit is told when it leaves CLAIMING or OWNER (R90), and a claim is tested
(R97). -/
def State.enterQuietSeeing (s : State) (a aggregate : Nat) : State :=
  match s.slot? a with
  | some sl =>
    let s1 := s.modAlert a fun r => r.quieted ((sl.seeing aggregate).art.target .none)
    let s2 := if sl.alert.state.owning then s1.tellOwning a false else s1
    s2.claimTestSeeing a aggregate
  | none => s

/-- A record enters QUIET, not by isolation, by the article's aggregate (R90, R93, R97). -/
def State.enterQuiet (s : State) (a : Nat) : State := s.enterQuietSeeing a (s.aggregate a)

/-! ### Ownership (R100, R101, R116, R117) -/

/-- A record enters OWNER from CLAIMING: accepted, accepting terminal, escalated and closing clear, the escalation
timer stopped, the repeat timer started (R116, R117). -/
def Alert.owned (r : Alert) (level : Level) (repeatAt : Time) : Alert :=
  { r with
    state := .owner, level := level, accepted := false, terminal := none, escalated := false, closing := false,
    claimHold := none, escalationTimer := none, repeatTimer := some repeatAt }

/-- A record in CLAIMING enters OWNER and requests an ALERT (R100, R101, R116). -/
def State.becomeOwner (s : State) (a : Nat) (level : Level) : State :=
  (s.modAlert a fun r => r.owned level (s.now + s.alu.repeatInterval)).requestAlert .alert a

/-- The owner sets closing, stops the repeat and escalation timers and requests a CLEAR (R123). -/
def State.beginClear (s : State) (a : Nat) : State :=
  (s.modAlert a fun r => { r with closing := true, repeatTimer := none, escalationTimer := none }).requestAlert
    .clear a

/-- The owner reverses a clear (R124): level, closing clear, an ALERT, and the escalation timer when accepted is set,
else the repeat timer. -/
def State.reverseClear (s : State) (a : Nat) (level : Level) : State :=
  (s.modAlert a fun r =>
    { r with
      level := level, closing := false,
      escalationTimer := if r.accepted then some (s.now + s.alu.escalationTime) else r.escalationTimer,
      repeatTimer := if r.accepted then r.repeatTimer else some (s.now + s.alu.repeatInterval) }).requestAlert .alert a

/-! ### Following and takeover (R103 to R106, R109) -/

/-- The takeover delay starts when the owner's contribution is STALE: rank times 500 ms (R109). -/
def State.takeoverIfStale (s : State) (a : Nat) : State :=
  match s.slot? a with
  | some sl =>
    match sl.alert.owner with
    | some o =>
      if sl.art.staleHolder o then
        s.modAlert a fun r => { r with takeover := some (s.now + ms (sl.art.rank s.ownNumber * 500)) }
      else s
    | none => s
  | none => s

/-- A record as it enters FOLLOWER of a station, or changes its owner to it: owner and epoch from the frame or entry,
the accepting terminal absent, claim sent and closing clear, the timers stopped (R103, R104, R105, R106). Claim sent and
closing of a record in QUIET or FOLLOWER are clear before already (log 30). -/
def Alert.follow (r : Alert) (owner : Nat) (epoch : Epoch) (level : Level) (accepted escalated : Bool) : Alert :=
  { r with
    state := .follower, level := level, epoch := epoch, known := true, owner := some owner, accepted := accepted,
    terminal := none, escalated := escalated, claimSent := false, closing := false, claimHold := none,
    repeatTimer := none, escalationTimer := none, takeover := none }

/-- A record in QUIET or FOLLOWER follows a station (R104, R105): no event, nothing withdrawn; the takeover delay is
stopped, and starts again if the new owner's contribution is STALE. -/
def State.followStation (s : State) (a owner : Nat) (epoch : Epoch) (level : Level) (accepted escalated : Bool) :
    State :=
  (s.modAlert a fun r => r.follow owner epoch level accepted escalated).takeoverIfStale a

/-- A record in CLAIMING or OWNER yields (R103): the outstanding frame withdrawn, FOLLOWER of the sender, the tally unit
told, CLAIM_YIELD raised, the takeover delay started if the sender's contribution is STALE. -/
def State.yieldTo (s : State) (a owner : Nat) (epoch : Epoch) (level : Level) (accepted escalated : Bool) : State :=
  let s1 := s.withdrawAlert a
  let s2 := s1.modAlert a fun r => r.follow owner epoch level accepted escalated
  let s3 := s2.tellOwning a false
  (s3.raise .claimYield owner a).takeoverIfStale a

/-- A frame or entry from a station with an epoch takes precedence over a record (R102): a newer epoch, or an equal
one from a number below the reference number, which is the owner's in FOLLOWER and the own number otherwise. -/
def Alert.yields (r : Alert) (own station : Nat) (epoch : Epoch) : Bool :=
  let reference := match r.state with
    | .follower => r.owner.getD 0
    | .quiet | .claiming | .owner => own
  newer epoch r.epoch || (epoch == r.epoch && decide (station < reference))

/-! ### Article notices (R72, R93, R98, R101, R109, R118, R123, R124) -/

/-- The new state of a holder's contribution in a notice, if the notice names it. -/
def noticed (moved : List (Nat × Freshness)) (holder : Nat) : Option Freshness :=
  (moved.find? fun m => m.1 == holder).map Prod.snd

/-- The alert unit takes an article notice that names the holders whose contributions changed state (R72), by the state
of the record. -/
def State.articleNotice (s : State) (a : Nat) (moved : List (Nat × Freshness)) : State :=
  match s.slot? a with
  | none => s
  | some sl =>
    let t := sl.target
    match sl.alert.state with
    | .quiet => (s.modAlert a fun r => { r with level := t }).claimTest a
    | .claiming =>
      if sl.alert.closing then
        if t.short then s.becomeOwner a t else s.modAlert a fun r => { r with level := t }
      else if sl.alert.claimSent || t.short then s.modAlert a fun r => { r with level := t }
      else (s.withdrawAlert a).enterQuiet a
    | .owner =>
      if sl.alert.closing then
        if t.short then s.reverseClear a t else s
      else if t.short then
        if t = sl.alert.level then s else (s.modAlert a fun r => { r with level := t }).requestAlert .alert a
      else if sl.art.coverage = .complete then s.beginClear a
      else s
    | .follower =>
      match sl.alert.owner.bind (noticed moved) with
      | some .stale => s.takeoverIfStale a
      | some .fresh => s.modAlert a fun r => { r with takeover := none }
      | some .absent | some .doubtful | none => s

/-! ### Frames and entries heard (R95, R96, R102 to R107, R120, R121, R126 to R131) -/

/-- A CLAIM or ALERT from a station (R96): ignored for an article not held, from a sender that is not a holder, or at
level NONE; else taken by the record's state (R103, R104, R105, R126). A CLAIM's report has accepted and escalated
clear. -/
def State.takeReport (s : State) (station : Nat) (p : Report) : State :=
  match s.slot? p.article with
  | none => s
  | some sl =>
    if sl.art.holders.contains station && p.level.short then
      let r := sl.alert
      match r.state with
      | .quiet =>
        if !r.known || newer p.epoch r.epoch || p.epoch == r.epoch then
          s.followStation p.article station p.epoch p.level p.accepted p.escalated
        else s
      | .claiming | .owner =>
        if r.yields s.ownNumber station p.epoch then
          s.yieldTo p.article station p.epoch p.level p.accepted p.escalated
        else s
      | .follower =>
        if r.owner = some station then
          if newer p.epoch r.epoch || p.epoch == r.epoch then
            s.modAlert p.article fun r =>
              { r with epoch := p.epoch, level := p.level, accepted := p.accepted, terminal := none,
                       escalated := p.escalated }
          else s
        else if r.yields s.ownNumber station p.epoch then
          s.followStation p.article station p.epoch p.level p.accepted p.escalated
        else s
    else s

/-- A CLEAR from a station (R96): it raises the epoch of a record in QUIET (R95), ends the episode of one in CLAIMING
or OWNER over which it has precedence (R107), and that of a follower at an equal or older epoch (R130). -/
def State.takeClear (s : State) (station a : Nat) (epoch : Epoch) : State :=
  match s.slot? a with
  | none => s
  | some sl =>
    if sl.art.holders.contains station then
      let r := sl.alert
      let adopt (s : State) : State := s.modAlert a fun r => { r with epoch := epoch, known := true }
      match r.state with
      | .quiet => if !r.known || newer epoch r.epoch then adopt s else s
      | .claiming | .owner =>
        if r.yields s.ownNumber station epoch then (adopt (s.withdrawAlert a)).enterQuiet a else s
      | .follower => if newer epoch r.epoch || epoch == r.epoch then (adopt s).enterQuiet a else s
    else s

/-- An ACCEPT from a station or terminal (R96, R120, R121, R129). -/
def State.takeAccept (s : State) (terminal a : Nat) (epoch : Epoch) : State :=
  match s.slot? a with
  | none => s
  | some sl =>
    match sl.alert.state with
    | .quiet | .claiming => s
    | .owner =>
      if epoch = sl.alert.epoch then
        if sl.alert.closing then s.modAlert a fun r => { r with accepted := true, terminal := some terminal }
        else
          (s.modAlert a fun r =>
            { r with accepted := true, terminal := some terminal, repeatTimer := none,
                     escalationTimer := some (s.now + s.alu.escalationTime) }).requestAlert .alert a
      else s.raise .acceptStale terminal a
    | .follower => if epoch = sl.alert.epoch then s.modAlert a fun r => { r with accepted := true } else s

/-- A TALLY entry that the tally unit hands over from its source (R78): adoption in QUIET (R95), a contender when it
carries OWNING and a known epoch (R102, R106), or the owner's own report (R131). `aggregate` is the article's aggregate
before the frame: the alert unit sees every entry of a frame before any aggregate that the frame produced (R78). -/
def State.takeEntry (s : State) (station : Nat) (e : TallyEntry) (aggregate : Nat) : State :=
  match s.slot? e.article with
  | none => s
  | some sl =>
    let r := sl.alert
    let a := e.article
    match r.state with
    | .quiet =>
      match e.epoch with
      | some x => if !r.known || newer x r.epoch then s.modAlert a fun r => { r with epoch := x, known := true } else s
      | none => s
    | .claiming | .owner =>
      match e.epoch with
      | some x =>
        if e.flags.owning && r.yields s.ownNumber station x then
          s.yieldTo a station x (if r.level = .none then .low else r.level) false false
        else s
      | none => s
    | .follower =>
      if r.owner = some station then
        if e.flags.owning then
          match e.epoch with
          | some x =>
            if newer x r.epoch then
              s.modAlert a fun r => { r with epoch := x, accepted := false, terminal := none, escalated := false }
            else s
          | none => s
        else
          match e.epoch with
          | some x =>
            (if newer x r.epoch then s.modAlert a fun r => { r with epoch := x } else s).enterQuietSeeing a aggregate
          | none => s.enterQuietSeeing a aggregate
      else
        match e.epoch with
        | some x =>
          if e.flags.owning && r.yields s.ownNumber station x then s.followStation a station x r.level false false
          else s
        | none => s

/-! ### Notices of alert frames (R91, R99, R101, R119, R125) -/

/-- The outstanding frame of a record is of the kind that a notice names (R91). -/
def Alert.awaits (r : Alert) (k : AlertKind) : Bool :=
  match r.outstanding with
  | some o => o.kind == k
  | none => false

/-- COMPLETED notice of an alert frame. One that says a follow-on was held goes to no rule (R91). Else the ledger is
updated, and the notice goes on to the rule of the record's state: R99 for a CLAIM, R101 and R125 for the outstanding
CLEAR. -/
def State.alertCompleted (s : State) (k : AlertKind) (a : Nat) (followOnHeld : Bool) : State :=
  match s.slot? a with
  | none => s
  | some sl =>
    if followOnHeld then s
    else
      let same := sl.alert.awaits k
      let s1 := if same then s.modAlert a fun r => { r with outstanding := none } else s
      match k, sl.alert.state with
      | .claim, .claiming =>
        s1.modAlert a fun r => { r with claimSent := true, claimHold := some (s.now + ms 300) }
      | .clear, .claiming => if same && sl.alert.closing then s1.enterQuiet a else s1
      | .clear, .owner => if same then s1.enterQuiet a else s1
      | _, _ => s1

/-- ABANDONED notice of an alert frame: LOST in the ledger, unless a follow-on was held (R91, R111). -/
def State.alertAbandoned (s : State) (k : AlertKind) (a : Nat) (followOnHeld : Bool) : State :=
  if followOnHeld then s else s.modAlert a fun r => r.lost k

/-! ### Sweeps over the records, in article-table order -/

/-- The articles in article-table order. -/
def State.articles (s : State) : List Nat := s.slots.map fun sl => sl.art.number

/-- The sweep of one record at a beacon tick: a LOST frame of a record in CLAIMING or OWNER is requested again (R113). -/
def State.sweepRecord (s : State) (a : Nat) : State :=
  match s.slot? a with
  | some sl =>
    match sl.alert.outstanding with
    | some o => if sl.alert.state.owning && o.standing == .lost then s.requestAlert o.kind a else s
    | none => s
  | none => s

/-- The beacon sweep (R113). -/
def State.beaconSweep (s : State) : State := s.articles.foldl State.sweepRecord s

/-- The re-send of one record on a HELLO: an ALERT for a record in OWNER whose article's holder list contains the
sender, with closing clear (R132). -/
def State.resendRecord (station : Nat) (s : State) (a : Nat) : State :=
  match s.slot? a with
  | some sl =>
    if sl.alert.state = .owner ∧ sl.art.holders.contains station ∧ ¬ sl.alert.closing then s.requestAlert .alert a
    else s
  | none => s

/-- The alert unit takes a HELLO (R132). -/
def State.resendAlerts (s : State) (station : Nat) : State := s.articles.foldl (State.resendRecord station) s

/-- The claim test of every record in QUIET, at the entry into RUNNING (R97, R142). -/
def State.claimTests (s : State) : State := s.articles.foldl State.claimTest s

/-- One record at the entry into ISOLATED: QUIET with epoch and level kept, nothing outstanding, the tally unit told of
one that left CLAIMING or OWNER; no claim is tested (R114). -/
def State.isolateRecord (s : State) (a : Nat) : State :=
  match s.slot? a with
  | some sl =>
    let s1 := s.modAlert a fun r => { r.quieted r.level with outstanding := none }
    if sl.alert.state.owning then s1.tellOwning a false else s1
  | none => s

/-- The alert unit at the entry into ISOLATED (R114). -/
def State.isolateAlerts (s : State) : State := s.articles.foldl State.isolateRecord s

end Sys2Proof.Machine
end

