-- ==== Sys2Proof/Machine/PairingUnit.lean ====
section
/-! DEFINITION. The pairing unit (chapter 2): classification of a settled change, stray lists, the pending-take list
and the shift batch. -/

namespace Sys2Proof.Machine

/-! ### Classification (R27) -/

/-- The class of a change and what it matched. Positions in the pending-take list count from the oldest, 0 first, and
positions in the stray list from the oldest, 0 first. -/
inductive Change where
  /-- ADD (R28) -/
  | add
  /-- FOREIGN-paired with `units` of the pending take at `position` (R29) -/
  | paired (position units : Nat)
  /-- FOREIGN-unknown (R30) -/
  | unknown
  /-- TAKE of `units` (R33) -/
  | take (units : Nat)
  /-- STRAY-OUT of the whole record at `position` (R34) -/
  | strayWhole (position : Nat)
  /-- STRAY-OUT of `units` of the record at `position` (R34) -/
  | strayPart (position units : Nat)
  /-- UNRESOLVED (R35) -/
  | unresolved
  deriving DecidableEq, Repr

/-- The match of a gain in the pending-take list from the oldest entry on (R29): its position, counted from `i`, and
the smallest number of units that fits; entries of the bay's own article are passed over. -/
def matchPending (gain : Int) (article tolerance : Nat) : List PendingTake → Nat → Option (Nat × Nat)
  | [], _ => none
  | p :: rest, i =>
    if p.article = article then matchPending gain article tolerance rest (i + 1)
    else
      match leastMultipleUpTo gain p.unitWeight tolerance p.units with
      | some m => some (i, m)
      | none => matchPending gain article tolerance rest (i + 1)

/-- How a loss fits one stray record: the whole record first, then a part of it (R34). -/
def matchStray (loss : Int) (tolerance : Nat) (r : Stray) (position : Nat) : Option Change :=
  if within tolerance loss r.grams then some (.strayWhole position)
  else
    match r.goods with
    | some g => (leastMultipleUpTo loss g.unitWeight tolerance g.units).map (Change.strayPart position)
    | none => none

/-- The match of a loss in a stray list from the newest record to the oldest (R34); `i` is the position of the list's
first record. -/
def matchStrays (loss : Int) (tolerance : Nat) : List Stray → Nat → Option Change
  | [], _ => none
  | r :: rest, i =>
    match matchStrays loss tolerance rest (i + 1) with
    | some c => some c
    | none => matchStray loss tolerance r i

/-- The class of a settled change of `d` grams beyond the tolerance: the first of R27's order that applies. -/
def classify (d : Int) (article unitWeight tolerance units : Nat) (strays : List Stray) (p : Pairing) : Change :=
  if 0 < d then
    if (leastMultiple d unitWeight tolerance).isSome then .add
    else
      match (if p.enabled then matchPending d article tolerance p.pendingTakes 0 else none) with
      | some (i, m) => .paired i m
      | none => .unknown
  else
    let loss : Int := d.natAbs
    match leastMultipleUpTo loss unitWeight tolerance units with
    | some m => .take m
    | none => (matchStrays loss tolerance strays 0).getD .unresolved

/-! ### Stray lists (R32) -/

/-- A new record on a stray list that is not full is appended; a full list's oldest record takes its grams, up to
2,000,000, and loses its goods (R32). -/
def addStray (strays : List Stray) (r : Stray) : List Stray :=
  if strays.length < 4 then strays ++ [r]
  else
    match strays with
    | oldest :: rest => { goods := none, grams := min 2000000 (oldest.grams + r.grams) } :: rest
    | [] => [r]

/-- A stray record is added to a bay; a merge raises STRAY_MERGE (R32). -/
def State.strayOn (s : State) (n : Nat) (r : Stray) : State :=
  match s.bay? n with
  | some b =>
    let s1 := s.modBay n fun b => { b with strays := addStray b.strays r }
    if b.strays.length < 4 then s1 else s1.raise .strayMerge n b.cfg.article
  | none => s

/-- A stray record of which `m` units are taken off: units and grams fall, and at 0 units it is gone (R34). -/
def Stray.less (r : Stray) (m : Nat) : List Stray :=
  match r.goods with
  | some g =>
    if g.units ≤ m then []
    else [{ goods := some { g with units := g.units - m }, grams := r.grams - m * g.unitWeight }]
  | none => [r]

/-- A list with the element at a position replaced by a list. -/
def replaceAt {α : Type} (l : List α) (i : Nat) (f : α → List α) : List α :=
  match l, i with
  | [], _ => []
  | x :: rest, 0 => f x ++ rest
  | x :: rest, i + 1 => x :: replaceAt rest i f

/-! ### The pending-take list (R37) -/

/-- An entry joins the list at the newest end; a list of 16 first loses its oldest entry with PAIR_EVICT, the entry's
source station as subject and its article (R37). -/
def State.addPending (s : State) (p : PendingTake) : State :=
  match s.pru.pendingTakes with
  | oldest :: rest =>
    if s.pru.pendingTakes.length < 16 then
      { s with pru := { s.pru with pendingTakes := s.pru.pendingTakes ++ [p] } }
    else
      ({ s with pru := { s.pru with pendingTakes := rest ++ [p] } } : State).raise .pairEvict oldest.source
        oldest.article
  | [] => { s with pru := { s.pru with pendingTakes := [p] } }

/-- An entry with `m` of its units consumed; at 0 units it leaves the list (R29). -/
def PendingTake.consume (m : Nat) (p : PendingTake) : List PendingTake :=
  if p.units ≤ m then [] else [{ p with units := p.units - m }]

/-! ### The shift batch (R40 to R44) -/

/-- A SHIFT request of the station stands QUEUED (R41). -/
def State.shiftQueued (s : State) : Bool := s.bsc.waiting.any fun e => e.req == .shift

/-- The filling side has become ready: the ready timer stops, and the table of R41 decides. -/
def State.fillingReady (s : State) : State :=
  let s1 : State := { s with pru := { s.pru with ready := true, readyTimer := none } }
  match s1.pru.sending with
  | [] => ({ s1 with pru := s1.pru.moveOver } : State).requestShift
  | t :: rest =>
    if s1.shiftQueued && s1.pru.mode == .latest then
      ({ s1 with pru := s1.pru.moveOver } : State).raiseN .shiftDrop 0 t.article (rest.length + 1)
    else s1

/-- An own take record at its settle (R40, R44): it joins the filling side in JOINING and RUNNING, or is dropped with
SHIFT_DROP by a side that is ready and waiting, and in ISOLATED. -/
def State.joinBatch (s : State) (t : Take) : State :=
  match s.stc.state with
  | .joining | .running =>
    match s.pru.filling with
    | [] => { s with pru := { s.pru with filling := [t], readyTimer := some (s.now + seconds 1) } }
    | _ :: _ =>
      if s.pru.ready then s.raise .shiftDrop t.bay t.article
      else
        let s1 : State := { s with pru := { s.pru with filling := s.pru.filling ++ [t] } }
        if s1.pru.filling.length = 4 then s1.fillingReady else s1
  | .isolated => s.raise .shiftDrop t.bay t.article
  | .strap | .loading | .halted => s

/-- The sending side's SHIFT has completed (R42): the side is emptied, and a ready filling side moves over with a new
SHIFT request. -/
def State.shiftCompleted (s : State) : State :=
  let s1 : State := { s with pru := { s.pru with sending := [] } }
  if s1.pru.ready then ({ s1 with pru := s1.pru.moveOver } : State).requestShift else s1

/-- The pairing unit empties both sides of the batch and stops the ready timer; SHIFT_DROP is raised once with the
number of records held, if any (R44). The article is that of the first record (R185; log 22). -/
def State.emptyBatch (s : State) : State :=
  let held := s.pru.sending ++ s.pru.filling
  let s1 : State := { s with pru := { s.pru with sending := [], filling := [], ready := false, readyTimer := none } }
  match held with
  | [] => s1
  | t :: rest => s1.raiseN .shiftDrop 0 t.article (rest.length + 1)

/-! ### The hand-off (R21, R27) -/

/-- A take record is made (R33): with pairing enabled it enters the pending-take list and joins the shift batch (R37, R40).
With pairing disabled it goes to neither (R36), and in ISOLATED too it is then lost without SHIFT_DROP: the model's reading
of R36 beside R44 and R150 (DEDUCED, log 28). -/
def State.takeRecord (s : State) (t : Take) : State :=
  if s.pru.enabled then
    (s.addPending { source := t.source, article := t.article, unitWeight := t.unitWeight, units := t.units,
                    arrival := s.now }).joinBatch t
  else s

/-- The pairing unit acts on the class of a change of bay `n` (R28 to R35). -/
def State.applyChange (s : State) (n : Nat) (b : Bay) (d : Int) : Change → State
  | .add => s
  | .paired i m =>
    match s.pru.pendingTakes[i]? with
    | some p =>
      let s1 : State :=
        { s with pru := { s.pru with pendingTakes := replaceAt s.pru.pendingTakes i (PendingTake.consume m) } }
      (s1.strayOn n
        { goods := some { article := p.article, unitWeight := p.unitWeight, units := m },
          grams := m * p.unitWeight }).count .pairMatch
    | none => s
  | .unknown => s.strayOn n { goods := none, grams := d.toNat }
  | .take m =>
    s.takeRecord { source := s.ownNumber, bay := n, article := b.cfg.article, unitWeight := s.unitWeight b.cfg.article,
                   units := m }
  | .strayWhole i => s.modBay n fun b => { b with strays := b.strays.eraseIdx i }
  | .strayPart i m => s.modBay n fun b => { b with strays := replaceAt b.strays i fun r => r.less m }
  | .unresolved => s.raise .unresolved 0 0

/-- The settle tracker hands a change of `d` grams of bay `n` to the pairing unit (R21, R27). -/
def State.handOff (s : State) (n : Nat) (b : Bay) (d : Int) : State :=
  s.applyChange n b d
    (classify d b.cfg.article (s.unitWeight b.cfg.article) b.cfg.tolerance b.units b.strays s.pru)

/-! ### Heard SHIFT frames (R39) -/

/-- A heard record enters the list with the frame's source and arrival time, unless it is passed over (R39). -/
def State.hearTake (source : Nat) (s : State) (g : Goods) : State :=
  if g.taken then
    s.addPending { source := source, article := g.article, unitWeight := g.unitWeight, units := g.units,
                   arrival := s.now }
  else s

/-- The pairing unit takes a SHIFT frame when pairing is enabled (R36, R39). -/
def State.takeShift (s : State) (source : Nat) (records : List Goods) : State :=
  if s.pru.enabled then records.foldl (State.hearTake source) s else s

end Sys2Proof.Machine
end

