-- ==== Sys2Proof/Machine/SettleTracker.lean ====
section
/-! DEFINITION. The settle tracker (chapter 1): the course of a bay record under samples and its settle timer, the
settle, the units formula, and the notices to the tally unit. -/

namespace Sys2Proof.Machine

/-! ### Bay records (R9 to R16) -/

/-- Entering DISTURBED, the actions 1 to 5 of R9. -/
def Bay.enterDisturbed (b : Bay) (now : Time) : Bay :=
  { b with
    state := .disturbed, reference := b.settled, disturbStart := now, blankRemaining := b.cfg.blankCount,
    candidate := none, runCount := 0, runSum := 0, settleTimer := some (now + b.cfg.settleTimeout) }

/-- Entering OVERLOAD or FAULT (R9): reference weight, candidate, confirm run and blank remaining set, the settle timer
stopped. -/
def Bay.enterGroup (b : Bay) (state : BayState) : Bay :=
  { b with
    state := state, reference := b.settled, candidate := none, runCount := 0, runSum := 0, blankRemaining := 0,
    settleTimer := none }

/-- Blanking (R15): a sample with no candidate present is discarded while blank remaining is above 0, and else becomes
the candidate; a bay in DISTURBED then enters SETTLING. -/
def Bay.blank (b : Bay) (g : Int) : Bay :=
  if 0 < b.blankRemaining then { b with blankRemaining := b.blankRemaining - 1 }
  else
    { b with
      candidate := some g, runCount := 1, runSum := g,
      state := if b.state = .disturbed then .settling else b.state }

/-- What a sample brings about beside the bay record's own change. -/
inductive SampleEvent where
  | nothing
  /-- entry into FAULT (R10) -/
  | faulted
  /-- entry into OVERLOAD (R11) -/
  | overloaded
  /-- the confirm run has reached the confirm count (R16, R18) -/
  | settles
  deriving DecidableEq, Repr

/-- A sample compared with the candidate `c` (R16). -/
def Bay.confirm (b : Bay) (c g : Int) : Bay × SampleEvent :=
  if within b.cfg.settleBand g c then
    let b1 := { b with runCount := b.runCount + 1, runSum := b.runSum + g }
    (b1, if b1.runCount = b.cfg.confirmCount then .settles else .nothing)
  else ({ b with candidate := some g, runCount := 1, runSum := g }, .nothing)

/-- An invalid sample for a bay in an active state (R10). -/
def Bay.takeInvalid (b : Bay) : Bay × SampleEvent :=
  let b1 := { b with invalidRun := min 3 (b.invalidRun + 1) }
  if b1.invalidRun = 3 ∧ b.state ≠ .fault then (b1.enterGroup .fault, .faulted) else (b1, .nothing)

/-- A valid sample for a bay in an active state: the invalid run is set to 0 and the capacity compared first (R11),
then the rule of the bay's state (R12 to R16). -/
def Bay.takeValid (b : Bay) (now : Time) (g : Int) : Bay × SampleEvent :=
  let b1 := { b with invalidRun := 0 }
  if (b.cfg.capacity : Int) < g then
    if b.state = .overload then (b1, .nothing) else (b1.enterGroup .overload, .overloaded)
  else
    match b.state with
    | .overload | .fault => ((b1.enterDisturbed now).blank g, .nothing)
    | .settled =>
      match b.settled with
      | some w => if within b.cfg.disturbBand g w then (b1, .nothing) else ((b1.enterDisturbed now).blank g, .nothing)
      | none => (b1, .nothing)
    | .disturbed | .settling | .unsteady =>
      match b.candidate with
      | some c => b1.confirm c g
      | none => (b1.blank g, .nothing)
    | .vacant => (b, .nothing)

/-- A sample for a bay record: ignored when VACANT (R8), else by its validity (R10, R11). -/
def Bay.takeSample (b : Bay) (now : Time) (sample : Option Int) : Bay × SampleEvent :=
  if b.state = .vacant then (b, .nothing)
  else
    match sample with
    | some g => b.takeValid now g
    | none => b.takeInvalid

/-! ### Units (R22) and the settle (R18 to R21) -/

/-- The units of a bay: settled weight less tare less the grams of its stray records, divided by the unit weight and
rounded; 0 for a negative result or an absent settled weight (R22). -/
def Bay.computeUnits (b : Bay) (unitWeight : Nat) : Nat :=
  match b.settled with
  | some w => (rounded (w - b.cfg.tare - ((b.strays.map Stray.grams).sum : Nat)) unitWeight).toNat
  | none => 0

/-- The new settled weight: the confirm run's sum divided by the confirm count, rounded (R18). -/
def Bay.mean (b : Bay) : Int := rounded b.runSum b.cfg.confirmCount

/-- Steps 3 to 6 of R18: the settled weight stored, the units computed, the run emptied, SETTLED entered. -/
def Bay.enterSettled (b : Bay) (weight : Int) (unitWeight : Nat) : Bay :=
  let b1 := { b with settled := some weight }
  { b1 with
    units := b1.computeUnits unitWeight, candidate := none, runCount := 0, runSum := 0, blankRemaining := 0,
    state := .settled }

/-- A bay settles (R18): the timer stops; the change is resolved, INITIAL with no reference weight (R19), DRIFT within
the tolerance (R20), else handed to the pairing unit (R21); then steps 3 to 6. -/
def State.settle (s : State) (n : Nat) (b : Bay) : State :=
  let s1 := s.modBay n fun b => { b with settleTimer := none }
  let s2 := match b.reference with
    | none => s1
    | some r => if within b.cfg.tolerance b.mean r then s1 else s1.handOff n b (b.mean - r)
  s2.modBay n fun b' => b'.enterSettled b.mean (s.unitWeight b.cfg.article)

/-! ### Notices (R24) -/

/-- The events of R24: units, FAULT group, UNSTEADY, or whether strays are held have changed. -/
def noticeDue (before after : Bay) : Bool :=
  before.units != after.units || before.state.inFaultGroup != after.state.inFaultGroup
    || (before.state == .unsteady) != (after.state == .unsteady) || before.strays.isEmpty != after.strays.isEmpty

/-- The tally unit takes a notice of the settle tracker (R24, R70): the own contribution is computed anew, and the alert
unit gets an article notice when the aggregate has moved (R72). -/
def State.settleNotice (s : State) (a : Nat) : State :=
  let s1 := s.ownUpdate a fun o => o.fromBays s.bays a
  match s.slot? a, s1.slot? a with
  | some before, some after => if before.art.aggregate = after.art.aggregate then s1 else s1.articleNotice a []
  | _, _ => s1

/-- After an event of bay `n`, the notice of R24 if one is due, with all its changes as one. -/
def State.noticeBay (s : State) (n : Nat) (before : Bay) : State :=
  match s.bay? n with
  | some after => if noticeDue before after then s.settleNotice before.cfg.article else s
  | none => s

/-! ### Samples and the settle timer (R3, R17) -/

/-- A sample of bay `n` is taken: the bay record moves, its event is raised or the bay settles, and the tally unit is
told (R8 to R25). -/
def State.takeSample (s : State) (n : Nat) (sample : Option Int) : State :=
  match s.bay? n with
  | none => s
  | some b =>
    let (b1, event) := b.takeSample s.now sample
    let s1 := s.modBay n fun _ => b1
    let s2 := match event with
      | .nothing => s1
      | .faulted => s1.raise .bayFault n b.cfg.article
      | .overloaded => s1.raise .bayOverload n b.cfg.article
      | .settles => s1.settle n b1
    s2.noticeBay n b

/-- The settle timer of bay `n` expires in DISTURBED or SETTLING (R17): UNSTEADY, BAY_UNSTEADY, and a notice (R24). The
notice may bring about a request that a full queue drops; its QUEUE_DROP then reaches the health unit after BAY_UNSTEADY,
which is the model's choice of order (DESIGN CHOICE, log 27). -/
def State.settleTimeout (s : State) (n : Nat) : State :=
  match s.bay? n with
  | none => s
  | some b =>
    match expired s.now b.settleTimer with
    | none => s
    | some _ =>
      let stopped := s.modBay n fun b => { b with settleTimer := none }
      if b.state = .disturbed ∨ b.state = .settling then
        ((stopped.modBay n fun b => { b with state := .unsteady }).raise .bayUnsteady n b.cfg.article).noticeBay n b
      else stopped

/-! ### Start (R7) -/

/-- A bay starts when the station leaves LOADING (R7): VACANT without an article, else DISTURBED with nothing settled. -/
def Bay.start (cfg : BayConfig) (now : Time) : Bay :=
  let b := { Bay.reset with cfg := cfg }
  if cfg.article = 0 then b else b.enterDisturbed now

end Sys2Proof.Machine
end

