-- ==== Sys2Proof/Machine/TallyTraffic.lean ====
section
/-! DEFINITION. The tally unit's traffic with its peers: heard TALLY frames (R74 to R78), silence and the first window
(R79, R80), HELLO, QUERY and the beacon tick (R81, R83, R86). -/

namespace Sys2Proof.Machine

/-! ### Article notices of an event (R72) -/

/-- The contributions whose state an event has changed, each holder with its new state. -/
def movedContributions (before after : Article) : List (Nat × Freshness) :=
  (before.peers.zip after.peers).filterMap fun p => if p.1.state = p.2.state then none else some (p.2.holder, p.2.state)

/-- The article notice an event gives for one article: when its aggregate, coverage or a contribution's state has
changed (R72). -/
def noticeOf (before after : Slot) : Option (Nat × List (Nat × Freshness)) :=
  let moved := movedContributions before.art after.art
  if before.art.aggregate = after.art.aggregate ∧ before.art.coverage = after.art.coverage ∧ moved = [] then none
  else some (after.art.number, moved)

/-- The notices of an event, at most one per article, in article-table order (R72, R78). -/
def noticesBetween (before after : List Slot) : List (Nat × List (Nat × Freshness)) :=
  (before.zip after).filterMap fun p => noticeOf p.1 p.2

/-- The alert unit takes notices in order. -/
def State.giveNotices (s : State) (notices : List (Nat × List (Nat × Freshness))) : State :=
  notices.foldl (fun s n => s.articleNotice n.1 n.2) s

/-! ### A heard TALLY (R74 to R78) -/

/-- Whether an entry of a frame from a source is taken: the station holds the article and the source is in its holder
list (R74). -/
def State.takesEntry (s : State) (source : Nat) (e : TallyEntry) : Bool :=
  match s.slot? e.article with
  | some sl => sl.art.holders.contains source
  | none => false

/-- One entry of a frame (R74): a taken one sets the source's contribution, and one for a held article from a source
outside its holder list raises UNLISTED_HOLDER. -/
def State.tallyEntry (source : Nat) (s : State) (e : TallyEntry) : State :=
  match s.slot? e.article with
  | none => s
  | some sl =>
    if sl.art.holders.contains source then
      s.modArticle e.article fun r =>
        (r.modContribution source fun c => { c with units := e.units, state := .fresh }).recount
    else s.raise .unlistedHolder source e.article

/-- The outcome of the continuity check of a DELTA (R75). -/
inductive Continuity where
  | unchecked | intact | gap
  deriving DecidableEq, Repr

/-- The baseline before the frame against the frame's SEQ (R75). -/
def continuity (baseline : Option Seq) (seq : Seq) : Continuity :=
  match baseline with
  | none => .unchecked
  | some b => if seq = b + 1 then .intact else .gap

/-- What an unlisted contribution of a DELTA's source becomes (R75). -/
def Contribution.unlisted (c : Contribution) : Continuity → Contribution
  | .unchecked => c
  | .intact => if c.state = .stale then { c with state := .fresh } else c
  | .gap => if c.state = .stale then c else { c with state := .doubtful }

/-- The contributions of a source to the articles that its frame did not list, changed, with the totals computed anew
(R71). -/
def State.modUnlisted (s : State) (source : Nat) (listed : List Nat) (f : Contribution → Contribution) : State :=
  { s with slots := s.slots.map fun sl =>
      if listed.contains sl.art.number then sl else { sl with art := (sl.art.modContribution source f).recount } }

/-- The QUERY hold-off end of a station is absent or has passed (R76). -/
def State.holdOffOver (s : State) (station : Nat) : Bool :=
  match (s.peer? station).bind Peer.holdOff with
  | none => true
  | some e => decide (e ≤ s.now)

/-- At a gap from a sharing peer (R76): a QUERY, its hold-off of 5,000 ms and the QUERY_SENT count, when the hold-off end
is absent or has passed and the station is JOINING or RUNNING. -/
def State.queryOnGap (s : State) (source : Nat) : State :=
  if s.holdOffOver source && s.speaking then
    ((s.modPeer source fun p => { p with holdOff := some (s.now + ms 5000) }).count .querySent).request (.query source)
  else s

/-- The unlisted articles of a FULL's source, each with MISSING_ENTRY (R77). -/
def State.raiseMissing (s : State) (source : Nat) (listed : List Nat) : State :=
  (s.slots.filter fun sl => !listed.contains sl.art.number && (sl.art.contribution? source).isSome).foldl
    (fun s sl => s.raise .missingEntry source sl.art.number) s

/-- The part of a TALLY arrival that follows its entries (R75 to R77); `listed` are the articles of the entries taken. -/
def State.tallyRest (s : State) (source : Nat) (seq : Seq) (variant : Variant) (listed : List Nat) : State :=
  let check := continuity ((s.peer? source).bind Peer.baseline) seq
  let s1 := s.modPeer source fun p => { p with baseline := some seq, staleTimer := some (s.now + s.tly.staleTime) }
  match variant with
  | .full => (s1.modUnlisted source listed fun c => { c with units := 0, state := .fresh }).raiseMissing source listed
  | .delta =>
    let s2 := s1.modUnlisted source listed fun c => c.unlisted check
    if check = .gap ∧ s.sharingPeer source then (s2.raise .tallyGap source 0).queryOnGap source else s2

/-- A TALLY arrival, handled whole (R74 to R78): entries, continuity, then the taken entries, while the alert unit still
goes by the aggregates before the frame, and the article notices, which bring the new ones (R78, R92). -/
def State.takeTally (s : State) (source : Nat) (seq : Seq) (variant : Variant) (entries : List TallyEntry) : State :=
  let taken := entries.filter (s.takesEntry source)
  let s1 := entries.foldl (State.tallyEntry source) s
  let s2 := s1.tallyRest source seq variant (taken.map TallyEntry.article)
  let notices := noticesBetween s.slots s2.slots
  (taken.foldl (fun t e => t.takeEntry source e (s.aggregate e.article)) s2).giveNotices notices

/-! ### Silence and the first window (R79, R80) -/

/-- A contribution made STALE, its units kept (R79). -/
def Contribution.silence (c : Contribution) : Contribution := { c with state := .stale }

/-- The stale timer of a station expires (R79): it stops; for a sharing peer every contribution becomes STALE, with one
HOLDER_STALE if any changed, and the notices. -/
def State.staleExpires (s : State) (station : Nat) : State :=
  match expired s.now ((s.peer? station).bind Peer.staleTimer) with
  | none => s
  | some _ =>
    let s1 := s.modPeer station fun p => { p with staleTimer := none }
    if s.sharingPeer station then
      let s2 := s1.modUnlisted station [] Contribution.silence
      let changed := s.slots.any fun sl => sl.art.peers.any fun c => c.holder == station && c.state != .stale
      let s3 := if changed then s2.raise .holderStale station 0 else s2
      s3.giveNotices (noticesBetween s.slots s2.slots)
    else s1

/-- An ABSENT contribution becomes STALE with units 0; any other stays (R80). -/
def Contribution.endWindow (c : Contribution) : Contribution :=
  if c.state = .absent then { c with units := 0, state := .stale } else c

/-- The ABSENT contributions of an article each raise HOLDER_STALE, in holder-list order (R80, R182). -/
def State.raiseAbsent (s : State) (sl : Slot) : State :=
  (sl.art.peers.filter fun c => c.state == .absent).foldl (fun s c => s.raise .holderStale c.holder sl.art.number) s

/-- The end of the first join window at the tally unit (R80). -/
def State.endFirstWindow (s : State) : State :=
  if s.tly.firstWindow then s
  else
    let s1 : State :=
      { s with
        tly := { s.tly with firstWindow := true }
        slots := s.slots.map fun sl =>
          { sl with art := Article.recount { sl.art with peers := sl.art.peers.map Contribution.endWindow } } }
    (s.slots.foldl State.raiseAbsent s1).giveNotices (noticesBetween s.slots s1.slots)

/-! ### HELLO, QUERY, beacon (R81, R83, R86) -/

/-- The tally unit takes a HELLO (R81): the sender's baseline becomes absent, and a sharing peer gets a FULL in JOINING
and RUNNING. -/
def State.helloTally (s : State) (source : Nat) : State :=
  let s1 := s.modPeer source fun p => { p with baseline := none }
  if s.sharingPeer source && s.speaking then s1.request (.tally .full) else s1

/-- A QUERY addressed to the station is answered with a FULL in JOINING and RUNNING (R86); one to station 0 is
discarded. -/
def State.takeQuery (s : State) (dst : Nat) : State :=
  if dst ≠ 0 ∧ dst = s.ownNumber ∧ s.speaking then s.request (.tally .full) else s

/-- A beacon tick at the tally unit (R83): the timer restarts from its expiry, the count rises, and a FULL at every Nth
tick, else a DELTA, is requested. -/
def State.beaconTally (s : State) (expiry : Time) : State :=
  let full := decide (s.tly.fullInterval ≤ s.tly.beaconCount + 1)
  let s1 : State :=
    { s with tly :=
        { s.tly with
          beaconTimer := some (expiry + s.tly.beaconPeriod)
          beaconCount := if full then 0 else s.tly.beaconCount + 1 } }
  s1.request (.tally (if full then .full else .delta))

end Sys2Proof.Machine
end

