-- ==== Sys2Proof/Machine/Station.lean ====
section
/-! DEFINITION. The station controller: entering JOINING, RUNNING, ISOLATED and HALTED (R137, R140, R142, R149), HELLO
(R141, R144 to R146), the resets (R155 to R157), and the steps of start-up (R158 to R169). -/

namespace Sys2Proof.Machine

/-! ### Entering states -/

/-- The entry into JOINING (R140): HELLO done cleared, the join timer stopped, a HELLO and a FULL TALLY requested, the
beacon timer started (R83), and the delta timer as for a marking if the changed set is not empty (R88). -/
def State.enterJoining (s : State) : State :=
  let s1 : State := { s with stc := { s.stc with state := .joining, helloDone := false, joinTimer := none } }
  let s2 := (s1.request .hello).request (.tally .full)
  let s3 : State := { s2 with tly := { s2.tly with beaconTimer := some (s2.now + s2.tly.beaconPeriod) } }
  if s3.changedSet.isEmpty then s3 else s3.startDelta

/-- The end of a join window (R142): the timer stops; the first window turns ABSENT contributions STALE (R80); RUNNING;
the claim tests. -/
def State.endJoinWindow (s : State) : State :=
  let s1 : State := { s with stc := { s.stc with joinTimer := none } }
  let s2 := s1.endFirstWindow
  ({ s2 with stc := { s2.stc with state := .running } } : State).claimTests

/-- The entry into HALTED with a cause (R137): the blocks freeze with their timers stopped (R26, R44, R88, R115), and the
bus controller discards attempt, deferral and queue without notices (R63). -/
def State.enterHalted (s : State) (cause : HaltCause) : State :=
  { s with
    stc := { s.stc with state := .halted, halt := cause, joinTimer := none, isolationTimer := none, read := none }
    bays := s.bays.map fun b => { b with settleTimer := none }
    pru := { s.pru with readyTimer := none }
    bsc := { s.bsc with waiting := [], flight := none, deferral := none }
    tly := { s.tly with beaconTimer := none, deltaTimer := none }
    peers := s.peers.map fun p => { p with staleTimer := none }
    slots := s.slots.map fun sl =>
      { sl with alert :=
          { sl.alert with claimHold := none, repeatTimer := none, escalationTimer := none, takeover := none } } }

/-- The requests in the transmit queue, the one IN FLIGHT and its follow-on included. -/
def BusController.requests (b : BusController) : List Request :=
  b.waiting.map TxEntry.req ++
    match b.flight with
    | some f => f.entry.req :: (match f.followOn with
        | some e => [e.req]
        | none => [])
    | none => []

/-- The DROPPED notices of the emptied queue but for the SHIFT's, which `isolateBatch` takes (R63). -/
def State.dropNotices (s : State) (requests : List Request) : State :=
  (requests.filter fun r => r != .shift).foldl State.noticeDropped s

/-- The pairing unit at the entry into ISOLATED (R44): the drop notice of a queued SHIFT and the emptying of the batch
come in either order, a free choice (log 8). Each record is counted once in both. -/
def State.isolateBatch (s : State) (shiftStood : Bool) : State :=
  let s1 : State := { s with freeCount := s.freeCount + 1 }
  if shiftStood && !s.pru.sending.isEmpty && !s.pru.filling.isEmpty then
    if Config.dropNoticeFirst s.freeCount then s1.loseSending.emptyBatch else s1.emptyBatch
  else s1.emptyBatch

/-- The bus controller at the entry into ISOLATED (R56, R63): attempt and deferral end, the queue is emptied, the abandon
run is 0, and the articles of an attempt in progress return to the changed set (R82). -/
def State.emptyQueue (s : State) : State :=
  let moved := match s.bsc.flight with
    | some f => f.moved
    | none => []
  ({ s with bsc := { s.bsc with waiting := [], flight := none, deferral := none, abandonRun := 0 } } : State).returnMarks
    moved

/-- The entry into ISOLATED on lost bus (R149), with what the other blocks do on it (R44, R63, R88, R114). -/
def State.enterIsolated (s : State) : State :=
  let requests := s.bsc.requests
  let s1 : State :=
    { s with stc :=
        { s.stc with
          state := .isolated, joinTimer := none, helloDone := false,
          isolationTimer := some (s.now + seconds 10) } }
  let s2 := (s1.raise .isolation 0 0).emptyQueue
  let s3 := ((s2.dropNotices requests).isolateAlerts).isolateBatch (requests.contains .shift)
  { s3 with tly := { s3.tly with beaconTimer := none, deltaTimer := none } }

/-! ### HELLO (R141, R144 to R146) -/

/-- The station controller's HELLO has completed (R141). -/
def State.helloCompleted (s : State) : State :=
  if s.stc.state = .joining ∧ ¬ s.stc.helloDone then
    { s with stc := { s.stc with helloDone := true, joinTimer := some (s.now + ms 2000) } }
  else s

/-- The station controller's HELLO was abandoned (R141): requested again at once in JOINING with HELLO done clear. -/
def State.helloAbandoned (s : State) : State :=
  if s.stc.state = .joining ∧ ¬ s.stc.helloDone then s.request .hello else s

/-- A HELLO stands queued, IN FLIGHT or as a follow-on (R141). -/
def State.helloStands (s : State) : Bool := s.bsc.requests.contains .hello

/-- A beacon tick at the station controller (R141). -/
def State.beaconHello (s : State) : State :=
  if s.stc.state = .joining ∧ ¬ s.stc.helloDone ∧ ¬ s.helloStands then s.request .hello else s

/-- One pair of a HELLO (R145): a held article whose digest differs and that is not DISPUTED becomes so, with the SEVERE
event DISPUTED. -/
def State.compareDigest (source : Nat) (s : State) (pair : Nat × Crc) : State :=
  match s.slot? pair.1 with
  | some sl =>
    if sl.art.digest ≠ pair.2 ∧ ¬ sl.art.disputed then (s.raise .disputed source pair.1).markDisputed pair.1 else s
  | none => s

/-- A pair of a HELLO that sets a DISPUTED flag that was clear (R145, R146). -/
def State.disputes (s : State) (pair : Nat × Crc) : Bool :=
  match s.slot? pair.1 with
  | some sl => sl.art.digest != pair.2 && !sl.art.disputed
  | none => false

/-- A HELLO arrival, handled whole (R144): digests and reply (R145, R146), the tally unit (R81), the alert unit (R132). -/
def State.takeHello (s : State) (source : Nat) (pairs : List (Nat × Crc)) : State :=
  let s1 := pairs.foldl (State.compareDigest source) s
  let s2 := if pairs.any s.disputes && s.speaking then s1.request .hello else s1
  (s2.helloTally source).resendAlerts source

/-! ### Resets (R155 to R157) -/

/-- Every block at its values after a reset (R156). The waiting commands are the sender's, and the count of free choices
is the model's own. -/
def State.afterReset (s : State) (cause : ResetKind) (lastHalt : HaltCause) (held : Option HeldReset) : State :=
  { State.reset with
    stc := Controller.reset cause lastHalt, held := held, freeCount := s.freeCount, pending := s.pending }

/-- The reset cause: the kind asserted last (R157). -/
def HeldReset.cause (h : HeldReset) : ResetKind := h.kinds.getLast?.getD .power

/-- The last halt cause: NONE when a POWER reset is among the kinds, else the halt cause held at the first assertion
(R157). -/
def HeldReset.lastHalt (h : HeldReset) : HaltCause := if h.kinds.contains .power then .noHalt else h.haltAtFirst

/-- A POWER or PIN reset is asserted, also while a reset is held (R155, R156). -/
def State.assertReset (s : State) (kind : ResetKind) : State :=
  let h : HeldReset := match s.held with
    | some h => { h with kinds := h.kinds ++ [kind] }
    | none => { kinds := [kind], haltAtFirst := s.stc.halt }
  s.afterReset h.cause h.lastHalt (some h)

/-- Every kind asserted has met its release condition (R155): RSTN high for PIN, the supply above its threshold for 20 ms
without interruption for POWER. -/
def HeldReset.released (h : HeldReset) (rstnHigh : Bool) (supplyStood : Time) : Bool :=
  (!h.kinds.contains .pin || rstnHigh) && (!h.kinds.contains .power || decide (ms 20 ≤ supplyStood))

/-- The release of a held reset (R156, R157): timebase 0, station state STRAP, the cause fields set. -/
def State.releaseReset (s : State) (rstnHigh : Bool) (supplyStood : Time) : State :=
  match s.held with
  | some h => if h.released rstnHigh supplyStood then s.afterReset h.cause h.lastHalt none else s
  | none => s

/-- A RESTART addressed to the station resets it (R152); the release follows at once (R155). One with DST 0 is discarded. -/
def State.takeRestart (s : State) (dst : Nat) : State :=
  if dst ≠ 0 ∧ dst = s.ownNumber then s.afterReset .restart s.stc.halt none else s

/-! ### Start-up (R158 to R169) -/

/-- A read sequence begins (R160). -/
def State.beginRead (s : State) (start count : Nat) : State :=
  { s with stc := { s.stc with read := some { fdo := flashCommand start, start := start, count := count } } }

/-- A read sequence ends: FCS is driven high (R160, step 6). -/
def State.endRead (s : State) : State := { s with stc := { s.stc with read := none } }

/-- The strap read, 2 ms after the release (R158, R159; log 16). -/
def State.readStraps (s : State) (straps : BitVec 5) : State :=
  if s.stc.state = .strap ∧ ms 2 ≤ s.now then
    let v := straps.toNat
    let s1 : State := { s with stc := { s.stc with number := v } }
    if 1 ≤ v ∧ v ≤ 30 then
      ({ s1 with stc := { s1.stc with state := .loading } } : State).beginRead 0 16
    else s1.enterHalted .badStrap
  else s

/-- The header read ends, and FCS is high until the next sequence (R160); signature and length are checked, and the body
read begins or the station halts (R161, R162). -/
def State.endHeaderRead (s : State) (bytes : List Byte) : State :=
  match s.stc.state, s.stc.read with
  | .loading, some r =>
    if r.start = 0 then
      let header := flashBytes r.count bytes
      match headerFault header with
      | some cause => s.endRead.enterHalted cause
      | none =>
        ({ s.endRead with stc := { s.endRead.stc with header := header } } : State).beginRead 16 ((readHeader header).length - 16)
    else s
  | _, _ => s

/-- The tables are filled from a checked image (R7, R67, R89, R164, R169). -/
def State.fillTables (s : State) (image : List Byte) : State :=
  let h := readHeader image
  { s with
    stc := { s.stc with header := [] }
    bays := (imageBays image).map fun c => Bay.start c s.now
    slots := (imageArticles image).map (ImageArticle.slot s.ownNumber)
    tly := { s.tly with beaconPeriod := seconds h.beacon, fullInterval := h.interval, staleTime := seconds h.stale }
    alu := { repeatInterval := seconds (h.repeatSteps * 10), escalationTime := minutes h.escalation }
    pru := { s.pru with enabled := h.pairing == 2, window := minutes h.window
                        mode := if h.mode = 1 then .latest else .keep } }

/-- The body read ends (R160, R162): the checks of R162 to R167; the station halts, or leaves LOADING (R169) and enters JOINING
(R140). -/
def State.endBodyRead (s : State) (bytes : List Byte) : State :=
  match s.stc.state, s.stc.read with
  | .loading, some r =>
    if r.start = 16 then
      let image := s.stc.header ++ flashBytes r.count bytes
      match imageFault s.ownNumber image with
      | some cause => s.endRead.enterHalted cause
      | none => (s.endRead.fillTables image).enterJoining
    else s
  | _, _ => s

end Sys2Proof.Machine
end

