-- ==== Sys2Proof/Machine/Attempts.lean ====
section
/-! DEFINITION. Transmission attempts (R52 to R56, R62, R64 to R66), the line monitor (R45) and the receive path (R46 to
R49). -/

namespace Sys2Proof.Machine

/-! ### Attempts -/

/-- A transmission attempt of the head entry begins (R52): its frame is built from its owner's state (R64), and for a
TALLY the marked articles move into it (R65). A CLAIM or ALERT whose level is open takes a free choice (log 20). -/
def State.startAttempt (s : State) : State :=
  match headOf s.bsc.waiting with
  | none => s
  | some h =>
    let f : Flight := { entry := h, frame := (s.buildFrame h.req).bytes, moved := [], followOn := none }
    match h.req with
    | .tally _ =>
      let f1 : Flight := { f with moved := s.changedSet }
      ({ s with bsc := { s.bsc with waiting := s.bsc.waiting.erase h, flight := some f1, deferral := none } } :
        State).clearMarks
    | .hello | .shift | .alertFrame _ _ | .query _ =>
      { s with
        bsc := { s.bsc with waiting := s.bsc.waiting.erase h, flight := some f, deferral := none }
        freeCount := if s.levelOpen h.req then s.freeCount + 1 else s.freeCount }

/-- The deferral ends with the bus idle and a queued entry present, and an attempt of the head begins (R51). -/
def State.endDeferral (s : State) : State :=
  match s.bsc.deferral with
  | some d => if d.due ≤ s.now ∧ ¬ s.bsc.busy ∧ s.speaking ∧ s.bsc.flight = none then s.startAttempt else s
  | none => s

/-- What a COMPLETED notice names (R62): kind, variant and key of the frame, the SEQ that a TALLY's frame carried, and
whether a follow-on was held at the end of the attempt. -/
structure Completion where
  req : Request
  seq : Option Seq
  followOnHeld : Bool
  deriving DecidableEq, Repr

/-- The COMPLETED notice of the entry IN FLIGHT (R62). The SEQ is the fifth byte of the frame (R196). -/
def Flight.completion (f : Flight) : Completion :=
  { req := f.entry.req
    seq := match f.entry.req with
      | .tally _ => f.frame[4]?
      | .hello | .shift | .alertFrame _ _ | .query _ => none
    followOnHeld := f.followOn.isSome }

/-- COMPLETED notice to the requester (R62): R42, R85, R91, R141; a QUERY's calls for nothing (R87), and no rule of the
tally unit goes by the SEQ that a TALLY's names. -/
def State.noticeCompleted (s : State) (n : Completion) : State :=
  match n.req with
  | .hello => s.helloCompleted
  | .tally _ => s.tallyCompleted
  | .shift => s.shiftCompleted
  | .alertFrame k a => s.alertCompleted k a n.followOnHeld
  | .query _ => s

/-- ABANDONED notice to the requester (R62): R43, R91, R141; a TALLY's and a QUERY's call for nothing (R87). -/
def State.noticeAbandoned (s : State) (r : Request) (followOnHeld : Bool) : State :=
  match r with
  | .hello => s.helloAbandoned
  | .shift => s.shiftLost
  | .alertFrame k a => s.alertAbandoned k a followOnHeld
  | .tally _ | .query _ => s

/-- The entry IN FLIGHT leaves its slot, and a follow-on held for it enters the queue with its own request time and no
failed attempt (R54, R55, R59). -/
def State.leaveFlight (s : State) (f : Flight) : State :=
  { s with bsc :=
      { s.bsc with
        flight := none
        waiting := s.bsc.waiting ++ (match f.followOn with
          | some e => [{ e with failed := 0 }]
          | none => []) } }

/-- An attempt completes, steps 1 to 5 of R54. Its characters have been read back, so the line is busy (DEDUCED, log
12), and the frame on the line is the station's own (R46). -/
def State.completeAttempt (s : State) : State :=
  match s.bsc.flight with
  | none => s
  | some f =>
    let bsc1 : BusController := { s.bsc with abandonRun := 0, busy := true, rx := { s.bsc.rx with own := true } }
    let s1 : State := match f.entry.req with
      | .tally .full =>
        { s with bsc := { bsc1 with seq := bsc1.seq + 1 }, hlu := { s.hlu with degrade := none, severe := none } }
      | .tally .delta => { s with bsc := { bsc1 with seq := bsc1.seq + 1 } }
      | .hello | .shift | .alertFrame _ _ | .query _ => { s with bsc := bsc1 }
    (s1.leaveFlight f).noticeCompleted f.completion

/-- The abandon run rises, and at 3 the station has lost the bus and enters ISOLATED (R56, R149). -/
def State.countAbandon (s : State) : State :=
  let s1 : State := { s with bsc := { s.bsc with abandonRun := min 3 (s.bsc.abandonRun + 1) } }
  if s1.bsc.abandonRun = 3 then s1.enterIsolated else s1

/-- A frame is abandoned at its eighth failed attempt, steps 1 to 6 of R55; its articles have returned to the changed
set. -/
def State.abandon (s : State) (f : Flight) : State :=
  let s1 := s.raise .txAbandon f.entry.req.subject f.entry.req.article
  (((s1.leaveFlight f).noticeAbandoned f.entry.req f.followOn.isSome).countAbandon).beginDeferral

/-- An attempt stops on a collision (R53): TX_COLLISION, the articles of a TALLY return (R65), and the entry is queued
again with a follow-on merged into it (R59), or abandoned at its eighth failure (R55). With the bus idle at the
release of the driver a new deferral begins. -/
def State.collide (s : State) : State :=
  match s.bsc.flight with
  | none => s
  | some f =>
    let s1 := (s.raise .txCollision 0 0).returnMarks f.moved
    if f.entry.failed + 1 < 8 then
      let e : TxEntry := { f.entry with failed := f.entry.failed + 1 }
      let e1 := match f.followOn with
        | some x => e.merge x.req
        | none => e
      ({ s1 with bsc := { s1.bsc with flight := none, waiting := s1.bsc.waiting ++ [e1] } } : State).beginDeferral
    else s1.abandon f

/-! ### The receive path -/

/-- A frame that has passed the checks of R47 is handed to the block that owns its kind (R48). `only` is the row's own
kind where a frame's command brought it, and none where the line monitor ended it. -/
def State.dispatch (s : State) (only : Option Kind) (f : Frame) : State :=
  if only = none ∨ only = some f.kind then
    match f.kind with
    | .tally => s.takeTally f.src f.seq (tallyVariant f.payload) (tallyEntries f.payload)
    | .shift => s.takeShift f.src (shiftRecords f.payload)
    | .claim => s.takeReport f.src (readClaim f.payload)
    | .alert => s.takeReport f.src (readAlert f.payload)
    | .clear => s.takeClear f.src (alertArticle f.payload) (alertEpoch f.payload)
    | .accept => s.takeAccept f.src (alertArticle f.payload) (alertEpoch f.payload)
    | .hello => s.takeHello f.src (helloPairs f.payload)
    | .query => s.takeQuery f.dst
    | .restart => s.takeRestart f.dst
  else s

/-- The receive filter (R46 to R49): in STRAP and LOADING every frame is discarded; in HALTED only a RESTART that passes
the checks is handed over, with no event and no duplicate check; else the checks in order, the duplicate source
(R148), and the dispatch. -/
def State.filterFrame (s : State) (only : Option Kind) (r : Receiver) : State :=
  match s.stc.state with
  | .strap | .loading => s
  | .halted =>
    match r.check with
    | .failed _ => s
    | .passed f =>
      if (f.dst = 0 ∨ f.dst = s.ownNumber) ∧ f.kind = .restart then s.dispatch only f else s
  | .joining | .running | .isolated =>
    match r.check with
    | .failed code => s.raise code 0 0
    | .passed f =>
      if ¬ (f.dst = 0 ∨ f.dst = s.ownNumber) then s
      else if f.src = s.ownNumber then s.enterHalted .dupStation
      else s.dispatch only f

/-- A frame ends on the bus: the station's own completed frame is discarded before any check (R46), any other goes to
the receive filter. -/
def State.receiveFrame (s : State) (only : Option Kind) (r : Receiver) (own : Bool) : State :=
  if own then s else s.filterFrame only r

/-- A frame's own command: its characters, assembled as R46 states, are the frame (log 4). -/
def State.hearFrame (s : State) (kind : Kind) (heard : List Character) : State :=
  s.receiveFrame (some kind) (Receiver.reset.hearAll heard) s.bsc.rx.own

/-! ### The line monitor (R45) -/

/-- A start bit: the bus is busy, a deferral in progress is cancelled (R51), and characters join the frame (R46). -/
def State.lineBusy (s : State) (heard : List Character) : State :=
  { s with bsc := { s.bsc with busy := true, deferral := none, rx := s.bsc.rx.hearAll heard } }

/-- Twenty silent bit times (R45): the bus is idle, the received frame ends at that same moment (R46), and a deferral
begins when a queued entry is present (R50). The frame is taken first, so that what it queues or withdraws counts for the
deferral's length: the model's choice between two things of one moment. The line is idle for what the frame brings about,
so the first request that the frame makes begins the deferral, midway in the frame and by the head of that moment; what the
rest of the frame queues or withdraws then counts as R51 says, and a withdrawal lengthens nothing. That too is the model's
choice (DESIGN CHOICE, log 29). A silence after which the bus is idle already is no event. -/
def State.lineIdle (s : State) : State :=
  if s.bsc.busy then
    let r := s.bsc.rx
    let s1 : State := { s with bsc := { s.bsc with busy := false, rx := Receiver.reset } }
    (if r.length = 0 then s1 else s1.receiveFrame none r r.own).beginDeferral
  else s

end Sys2Proof.Machine
end

