-- ==== Sys2Proof/Machine/Event.lean ====
section
/-! DEFINITION. What every command has in common: it takes no effect while a reset is held (R156), its time passes on
the timebase first (log 2), and the lamps are selected anew at its end (R175). -/

namespace Sys2Proof.Machine

/-- One event of the station: the next state it leaves. -/
def State.event (s : State) (dt : Time) (act : State → State) : Host.Outcome State Fault Refusal :=
  .next (if s.held.isSome then s else (act (s.elapse dt)).showLamps)

end Sys2Proof.Machine
end

