-- ==== Sys2Proof/Machine/Bus.lean ====
section
/-! DEFINITION. The commands of the bus controller: BUS_BUSY, BUS_IDLE, DEFERRAL_END, TX_COLLISION, ATTEMPT_COMPLETE. -/

namespace Sys2Proof.Machine

/-- BUS_BUSY (R45). -/
def execBusBusy (dt : Time) (heard : List Character) (s : State) : Host.Outcome State Fault Refusal :=
  s.event dt fun s => s.lineBusy heard

/-- BUS_IDLE (R45, R46, R50). -/
def execBusIdle (dt : Time) (s : State) : Host.Outcome State Fault Refusal := s.event dt State.lineIdle

/-- DEFERRAL_END (R51, R52). -/
def execDeferralEnd (dt : Time) (s : State) : Host.Outcome State Fault Refusal := s.event dt State.endDeferral

/-- TX_COLLISION (R53, R55), at the end of the character that collided (log 11). -/
def execTxCollision (dt : Time) (s : State) : Host.Outcome State Fault Refusal := s.event dt State.collide

/-- ATTEMPT_COMPLETE (R54). -/
def execAttemptComplete (dt : Time) (s : State) : Host.Outcome State Fault Refusal := s.event dt State.completeAttempt

end Sys2Proof.Machine
end

