-- ==== Sys2Proof/Machine/Frames.lean ====
section
/-! DEFINITION. The commands that bring a frame heard on the bus, one for each kind. Each runs the whole receive path on
the frame's characters (R46 to R49), and hands over a frame of its own kind. -/

namespace Sys2Proof.Machine

/-- TALLY (R74 to R78). -/
def execTally (dt : Time) (heard : List Character) (s : State) : Host.Outcome State Fault Refusal :=
  s.event dt fun s => s.hearFrame .tally heard

/-- SHIFT (R39). -/
def execShift (dt : Time) (heard : List Character) (s : State) : Host.Outcome State Fault Refusal :=
  s.event dt fun s => s.hearFrame .shift heard

/-- CLAIM (R103 to R105, R126). -/
def execClaim (dt : Time) (heard : List Character) (s : State) : Host.Outcome State Fault Refusal :=
  s.event dt fun s => s.hearFrame .claim heard

/-- ALERT (R103 to R105, R126, R127). -/
def execAlert (dt : Time) (heard : List Character) (s : State) : Host.Outcome State Fault Refusal :=
  s.event dt fun s => s.hearFrame .alert heard

/-- CLEAR (R95, R107, R130). -/
def execClear (dt : Time) (heard : List Character) (s : State) : Host.Outcome State Fault Refusal :=
  s.event dt fun s => s.hearFrame .clear heard

/-- ACCEPT (R120, R121, R129). -/
def execAccept (dt : Time) (heard : List Character) (s : State) : Host.Outcome State Fault Refusal :=
  s.event dt fun s => s.hearFrame .accept heard

/-- HELLO (R144 to R146, R81, R132). -/
def execHello (dt : Time) (heard : List Character) (s : State) : Host.Outcome State Fault Refusal :=
  s.event dt fun s => s.hearFrame .hello heard

/-- QUERY (R86). -/
def execQuery (dt : Time) (heard : List Character) (s : State) : Host.Outcome State Fault Refusal :=
  s.event dt fun s => s.hearFrame .query heard

/-- RESTART (R152). -/
def execRestart (dt : Time) (heard : List Character) (s : State) : Host.Outcome State Fault Refusal :=
  s.event dt fun s => s.hearFrame .restart heard

end Sys2Proof.Machine
end

