-- ==== Sys2Proof/Machine/StartUp.lean ====
section
/-! DEFINITION. The commands of reset and start-up: POWER_RESET, PIN_RESET, RESET_RELEASE, STRAP_READ, HEADER_READ,
BODY_READ. -/

namespace Sys2Proof.Machine

/-- POWER_RESET (R155, R156). -/
def execPowerReset (s : State) : Host.Outcome State Fault Refusal := .next (s.assertReset .power)

/-- PIN_RESET (R155, R156). -/
def execPinReset (s : State) : Host.Outcome State Fault Refusal := .next (s.assertReset .pin)

/-- RESET_RELEASE (R155 to R157): nothing happens while a kind asserted has not met its release condition. -/
def execResetRelease (rstnHigh : Bool) (supplyStood : Time) (s : State) : Host.Outcome State Fault Refusal :=
  .next (s.releaseReset rstnHigh supplyStood)

/-- STRAP_READ (R158, R159). -/
def execStrapRead (dt : Time) (straps : BitVec 5) (s : State) : Host.Outcome State Fault Refusal :=
  s.event dt fun s => s.readStraps straps

/-- HEADER_READ (R161). -/
def execHeaderRead (dt : Time) (bytes : List Byte) (s : State) : Host.Outcome State Fault Refusal :=
  s.event dt fun s => s.endHeaderRead bytes

/-- BODY_READ (R162 to R169). -/
def execBodyRead (dt : Time) (bytes : List Byte) (s : State) : Host.Outcome State Fault Refusal :=
  s.event dt fun s => s.endBodyRead bytes

end Sys2Proof.Machine
end

