-- ==== Sys2Proof/Machine/Timers.lean ====
section
/-! DEFINITION. The commands in which a timer of the alert unit, the tally unit or the station controller runs out. A
command for a timer that is stopped or not yet due changes nothing but the time (log 2). -/

namespace Sys2Proof.Machine

/-! ### Alert timers -/

/-- The claim hold of a record expires in CLAIMING (R100): OWNER at a target LOW or EMPTY, else closing with a CLEAR. -/
def State.claimHoldExpires (s : State) (a : Nat) : State :=
  match s.slot? a with
  | none => s
  | some sl =>
    match expired s.now sl.alert.claimHold with
    | none => s
    | some _ =>
      if sl.alert.state = .claiming then
        if sl.target.short then s.becomeOwner a sl.target
        else (s.modAlert a fun r => { r with claimHold := none, closing := true }).requestAlert .clear a
      else s.modAlert a fun r => { r with claimHold := none }

/-- The repeat timer of a record expires (R117): an ALERT, and the timer restarts from the expiry just taken. -/
def State.repeatExpires (s : State) (a : Nat) : State :=
  match s.slot? a with
  | none => s
  | some sl =>
    match expired s.now sl.alert.repeatTimer with
    | none => s
    | some e =>
      (s.modAlert a fun r => { r with repeatTimer := some (e + s.alu.repeatInterval) }).requestAlert .alert a

/-- The escalation timer of a record expires (R122): escalated and unaccepted with an ALERT and the repeat timer at a
target LOW or EMPTY; at NONE the timer restarts from the expiry. -/
def State.escalationExpires (s : State) (a : Nat) : State :=
  match s.slot? a with
  | none => s
  | some sl =>
    match expired s.now sl.alert.escalationTimer with
    | none => s
    | some e =>
      if sl.target.short then
        (s.modAlert a fun r =>
          { r with
            escalated := true, accepted := false, terminal := none, escalationTimer := none,
            repeatTimer := some (s.now + s.alu.repeatInterval) }).requestAlert .alert a
      else s.modAlert a fun r => { r with escalationTimer := some (e + s.alu.escalationTime) }

/-- The takeover delay of a record expires (R110): it claims with a TAKEOVER count, or enters QUIET. -/
def State.takeoverExpires (s : State) (a : Nat) : State :=
  match s.slot? a with
  | none => s
  | some sl =>
    match expired s.now sl.alert.takeover with
    | none => s
    | some _ =>
      if sl.alert.state = .follower then
        if s.claimable sl then (s.claim a).count .takeover else s.enterQuiet a
      else s.modAlert a fun r => { r with takeover := none }

/-- CLAIM_HOLD (R100). -/
def execClaimHold (dt : Time) (article : Nat) (s : State) : Host.Outcome State Fault Refusal :=
  s.event dt fun s => s.claimHoldExpires article

/-- REPEAT_TIMER (R117). -/
def execRepeatTimer (dt : Time) (article : Nat) (s : State) : Host.Outcome State Fault Refusal :=
  s.event dt fun s => s.repeatExpires article

/-- ESCALATION_TIMER (R122). -/
def execEscalationTimer (dt : Time) (article : Nat) (s : State) : Host.Outcome State Fault Refusal :=
  s.event dt fun s => s.escalationExpires article

/-- TAKEOVER_DELAY (R110). -/
def execTakeoverDelay (dt : Time) (article : Nat) (s : State) : Host.Outcome State Fault Refusal :=
  s.event dt fun s => s.takeoverExpires article

/-! ### Tally timers -/

/-- STALE_TIMER (R79). -/
def execStaleTimer (dt : Time) (station : Nat) (s : State) : Host.Outcome State Fault Refusal :=
  s.event dt fun s => s.staleExpires station

/-- BEACON_TICK (R83): the tally unit's part, the alert unit's sweep (R113), the station controller's HELLO (R141). -/
def execBeaconTick (dt : Time) (s : State) : Host.Outcome State Fault Refusal :=
  s.event dt fun s =>
    match expired s.now s.tly.beaconTimer with
    | some e => ((s.beaconTally e).beaconSweep).beaconHello
    | none => s

/-- DELTA_TIMER (R85). -/
def execDeltaTimer (dt : Time) (s : State) : Host.Outcome State Fault Refusal :=
  s.event dt fun s =>
    match expired s.now s.tly.deltaTimer with
    | some _ => s.deltaExpires
    | none => s

/-! ### Station timers -/

/-- JOIN_TIMER (R142). -/
def execJoinTimer (dt : Time) (s : State) : Host.Outcome State Fault Refusal :=
  s.event dt fun s =>
    match expired s.now s.stc.joinTimer with
    | some _ => if s.stc.state = .joining then s.endJoinWindow else s
    | none => s

/-- ISOLATION_TIMER (R151). -/
def execIsolationTimer (dt : Time) (s : State) : Host.Outcome State Fault Refusal :=
  s.event dt fun s =>
    match expired s.now s.stc.isolationTimer with
    | some _ =>
      if s.stc.state = .isolated then
        ({ s with stc := { s.stc with isolationTimer := none } } : State).enterJoining
      else s
    | none => s

end Sys2Proof.Machine
end

