-- ==== Sys2Proof/Machine/Weighing.lean ====
section
/-! DEFINITION. The commands of the weighing path: SAMPLE_ARRIVAL and SETTLE_TIMEOUT, READY_TIMER and PENDING_EXPIRY. -/

namespace Sys2Proof.Machine

/-- SAMPLE_ARRIVAL (R3, R4): the channel's validity is set anew, and the sample is taken in JOINING, RUNNING and
ISOLATED and discarded in STRAP, LOADING and HALTED. -/
def execSampleArrival (dt : Time) (bay : Nat) (conversion : Conversion) (s : State) :
    Host.Outcome State Fault Refusal :=
  s.event dt fun s =>
    let s1 : State := { s with channels := validityAfter conversion bay s.channels }
    if s1.listening then s1.takeSample bay (sampleOf conversion) else s1

/-- SETTLE_TIMEOUT (R17). -/
def execSettleTimeout (dt : Time) (bay : Nat) (s : State) : Host.Outcome State Fault Refusal :=
  s.event dt fun s => s.settleTimeout bay

/-- READY_TIMER (R40, R41): the filling side becomes ready. -/
def execReadyTimer (dt : Time) (s : State) : Host.Outcome State Fault Refusal :=
  s.event dt fun s =>
    match expired s.now s.pru.readyTimer with
    | some _ => s.fillingReady
    | none => s

/-- PENDING_EXPIRY (R38): the entry at the position, when its pairing window has passed since its arrival, is removed
wherever it stands, with PAIR_EVICT; not in HALTED (R44). -/
def execPendingExpiry (dt : Time) (position : Nat) (s : State) : Host.Outcome State Fault Refusal :=
  s.event dt fun s =>
    match s.pru.pendingTakes[position]? with
    | some p =>
      if s.listening && decide (p.arrival + s.pru.window ≤ s.now) then
        ({ s with pru := { s.pru with pendingTakes := s.pru.pendingTakes.eraseIdx position } } : State).raise
          .pairEvict p.source p.article
      else s
    | none => s

end Sys2Proof.Machine
end

