-- ==== Sys2Proof/Machine/Dispatch.lean ====
section
/-! DEFINITION. One arm for each command of the table. -/

namespace Sys2Proof.Machine

def exec (i : Instr) (s : State) : Host.Outcome State Fault Refusal :=
  match i with
  | .sampleArrival dt bay conversion => Sys2Proof.Machine.execSampleArrival dt bay conversion s
  | .settleTimeout dt bay => Sys2Proof.Machine.execSettleTimeout dt bay s
  | .readyTimer dt => Sys2Proof.Machine.execReadyTimer dt s
  | .pendingExpiry dt position => Sys2Proof.Machine.execPendingExpiry dt position s
  | .busBusy dt heard => Sys2Proof.Machine.execBusBusy dt heard s
  | .busIdle dt => Sys2Proof.Machine.execBusIdle dt s
  | .deferralEnd dt => Sys2Proof.Machine.execDeferralEnd dt s
  | .txCollision dt => Sys2Proof.Machine.execTxCollision dt s
  | .attemptComplete dt => Sys2Proof.Machine.execAttemptComplete dt s
  | .tally dt heard => Sys2Proof.Machine.execTally dt heard s
  | .shift dt heard => Sys2Proof.Machine.execShift dt heard s
  | .claim dt heard => Sys2Proof.Machine.execClaim dt heard s
  | .alert dt heard => Sys2Proof.Machine.execAlert dt heard s
  | .clear dt heard => Sys2Proof.Machine.execClear dt heard s
  | .accept dt heard => Sys2Proof.Machine.execAccept dt heard s
  | .hello dt heard => Sys2Proof.Machine.execHello dt heard s
  | .query dt heard => Sys2Proof.Machine.execQuery dt heard s
  | .restart dt heard => Sys2Proof.Machine.execRestart dt heard s
  | .claimHold dt article => Sys2Proof.Machine.execClaimHold dt article s
  | .repeatTimer dt article => Sys2Proof.Machine.execRepeatTimer dt article s
  | .escalationTimer dt article => Sys2Proof.Machine.execEscalationTimer dt article s
  | .takeoverDelay dt article => Sys2Proof.Machine.execTakeoverDelay dt article s
  | .staleTimer dt station => Sys2Proof.Machine.execStaleTimer dt station s
  | .beaconTick dt => Sys2Proof.Machine.execBeaconTick dt s
  | .deltaTimer dt => Sys2Proof.Machine.execDeltaTimer dt s
  | .joinTimer dt => Sys2Proof.Machine.execJoinTimer dt s
  | .isolationTimer dt => Sys2Proof.Machine.execIsolationTimer dt s
  | .powerReset => Sys2Proof.Machine.execPowerReset s
  | .pinReset => Sys2Proof.Machine.execPinReset s
  | .resetRelease rstnHigh supplyStood => Sys2Proof.Machine.execResetRelease rstnHigh supplyStood s
  | .strapRead dt straps => Sys2Proof.Machine.execStrapRead dt straps s
  | .headerRead dt bytes => Sys2Proof.Machine.execHeaderRead dt bytes s
  | .bodyRead dt bytes => Sys2Proof.Machine.execBodyRead dt bytes s

end Sys2Proof.Machine
end

