-- ==== Sys2Proof/Safety.lean ====
section
/-! DEFINITION. What is true of every state that the block passes through: the invariant of the station, unit by unit,
as the chapters state it of the fields. It rules out the states that no run reaches. -/

namespace Sys2Proof.Machine

/-! ### Health unit -/

/-- Sixteen counters from 0 to 255 (R186); a full capture record holds a code of its own class and a further count of at
most 255 (R187). -/
def Health.Sound (h : Health) : Prop :=
  h.counters.length = 16 ∧ (∀ v ∈ h.counters, v ≤ 255)
    ∧ (∀ c ∈ h.degrade, c.code.severity = .degrade ∧ c.further ≤ 255)
    ∧ (∀ c ∈ h.severe, c.code.severity = .severe ∧ c.further ≤ 255)

/-! ### Bus controller -/

/-- The entries that hold a slot of the transmit queue: those QUEUED and the one IN FLIGHT (R57). -/
def BusController.entries (b : BusController) : List TxEntry := b.waiting ++ (b.flight.map Flight.entry).toList

/-- No two entries have the same merge key: at most one TALLY, one HELLO, one SHIFT, one frame of CLAIM, ALERT or CLEAR
kind for an article and one QUERY per destination (R57). -/
def keysDistinct (l : List TxEntry) : Prop := l.Pairwise fun x y => x.req.sameKey y.req = false

/-- The transmit queue within its bounds: eight slots, one entry for each merge key, at most seven failed attempts, and a
follow-on of the merge key of the entry IN FLIGHT (R57, R59); the abandon run below 3 (R56); a deferral only with the bus
idle, a queued entry present and no attempt in progress (R50, R51). -/
def BusController.Sound (b : BusController) : Prop :=
  b.used ≤ 8 ∧ keysDistinct b.entries ∧ (∀ e ∈ b.entries, e.failed ≤ 7)
    ∧ (∀ f ∈ b.flight, ∀ e ∈ f.followOn, f.entry.req.sameKey e.req = true)
    ∧ b.abandonRun ≤ 2
    ∧ (b.deferral.isSome → b.busy = false ∧ b.flight = none ∧ b.waiting ≠ [])

/-- Nothing is queued, on the wire or deferred. -/
def BusController.Silent (b : BusController) : Prop := b.waiting = [] ∧ b.flight = none ∧ b.deferral = none

/-! ### Pairing unit -/

/-- At most sixteen pending takes, each with units (R37); sides of at most four records, four of them ready (R40); a
ready side holds records; the ready timer runs for a side that holds records and is not ready (R40); with pairing
disabled all three stores are empty (R36). -/
def Pairing.Sound (p : Pairing) : Prop :=
  p.pendingTakes.length ≤ 16 ∧ (∀ t ∈ p.pendingTakes, 1 ≤ t.units)
    ∧ p.filling.length ≤ 4 ∧ p.sending.length ≤ 4 ∧ (p.ready = false → p.filling.length < 4)
    ∧ (p.ready = true → p.filling ≠ []) ∧ (p.readyTimer.isSome → p.filling ≠ [] ∧ p.ready = false)
    ∧ (p.enabled = false → p.pendingTakes = [] ∧ p.filling = [] ∧ p.sending = [])

/-! ### Bays -/

/-- A bay record within its ranges (R6, R31); VACANT exactly without an article, with nothing on it (R8); SETTLED with a
settled weight, SETTLING with a candidate; the settle timer runs only in DISTURBED and SETTLING (R17); and the units are
those of the last settled weight (R22). -/
def Bay.Sound (unitWeight : Nat → Nat) (b : Bay) : Prop :=
  b.strays.length ≤ 4 ∧ b.invalidRun ≤ 3 ∧ b.blankRemaining ≤ b.cfg.blankCount
    ∧ (b.state = .vacant ↔ b.cfg.article = 0)
    ∧ (b.state = .vacant → b.settled = none ∧ b.strays = [])
    ∧ (b.state = .settled → b.settled.isSome)
    ∧ (b.state = .settling → b.candidate.isSome)
    ∧ (b.settleTimer.isSome → b.state = .disturbed ∨ b.state = .settling)
    ∧ b.units = b.computeUnits (unitWeight b.cfg.article)

/-! ### Articles and alert records -/

/-- The fields of an article record that the image sets and nothing moves (R67, R169). -/
structure ArticleConfig where
  number : Nat
  unitWeight : Nat
  reorder : Nat
  margin : Nat
  holders : List Nat
  digest : Crc
  deriving DecidableEq, Repr

/-- The configuration part of an article record (R67). -/
def Article.config (r : Article) : ArticleConfig :=
  { number := r.number, unitWeight := r.unitWeight, reorder := r.reorder, margin := r.margin, holders := r.holders
    digest := r.digest }

/-- An article record: one contribution for each holder but the own station, in holder-list order (R68); aggregate and
coverage those of the contributions (R71); DISPUTED carried as the own entry's flag (R70). -/
def Article.Sound (own : Nat) (r : Article) : Prop :=
  r.peers.map Contribution.holder = r.holders.filter (fun h => h != own)
    ∧ r.aggregate = r.total ∧ r.coverage = r.cover ∧ r.own.flags.disputed = r.disputed

/-- The owner field and the known flag by the state of the record (R90): absent in QUIET, the station itself in CLAIMING
and OWNER, another holder in FOLLOWER; accepted and escalated only in OWNER and FOLLOWER, the accepting terminal only in
OWNER. -/
def Alert.OwnerFits (own : Nat) (holders : List Nat) (r : Alert) : Prop :=
  match r.state with
  | .quiet => r.owner = none ∧ r.accepted = false ∧ r.escalated = false ∧ r.terminal = none
  | .claiming =>
    r.owner = some own ∧ r.known = true ∧ r.accepted = false ∧ r.escalated = false ∧ r.terminal = none
  | .owner => r.owner = some own ∧ r.known = true ∧ r.level.short = true
  | .follower =>
    (∃ o ∈ holders, o ≠ own ∧ r.owner = some o) ∧ r.known = true ∧ r.level.short = true ∧ r.terminal = none

/-- The timers and flags by the state of the record: the claim hold in CLAIMING (R99, R100), the repeat timer in OWNER
unaccepted and not closing (R117), the escalation timer in OWNER accepted and not closing (R122), the takeover delay in
FOLLOWER (R109); closing and an outstanding frame only in CLAIMING and OWNER (R101, R103, R123). -/
def Alert.TimersFit (r : Alert) : Prop :=
  (r.claimHold.isSome → r.state = .claiming)
    ∧ (r.repeatTimer.isSome → r.state = .owner ∧ r.accepted = false ∧ r.closing = false)
    ∧ (r.escalationTimer.isSome → r.state = .owner ∧ r.accepted = true ∧ r.closing = false)
    ∧ (r.takeover.isSome → r.state = .follower)
    ∧ (r.state.owning = false → r.closing = false ∧ r.outstanding = none)

/-- The records of one article: each sound, and OWNING in the own entry exactly in CLAIMING and OWNER (R70, R90). -/
def Slot.Sound (own : Nat) (sl : Slot) : Prop :=
  sl.art.Sound own ∧ sl.alert.OwnerFits own sl.art.holders ∧ sl.alert.TimersFit
    ∧ sl.art.own.flags.owning = sl.alert.state.owning

/-- The own contribution is what the bays make it: units the sum of the units of the article's bays, FAULT, UNSTEADY and
STRAY as the bays stand (R24, R70). -/
def Slot.ShareFits (bays : List Bay) (sl : Slot) : Prop := sl.art.own.fromBays bays sl.art.number = sl.art.own

/-! ### Station controller and the state as a whole -/

/-- The station controller's timers and cause by the station state: the join window in JOINING after a completed HELLO
(R141), the isolation timer in ISOLATED (R149), a halt cause in HALTED and nowhere else (R134, R137), a flash read in
LOADING and nowhere else (R161, R162), a station number of 1 to 30 from LOADING on, but for HALTED (R134, R159). -/
def Controller.Sound (c : Controller) : Prop :=
  (c.joinTimer.isSome → c.state = .joining ∧ c.helloDone = true)
    ∧ (c.isolationTimer.isSome ↔ c.state = .isolated)
    ∧ (c.halt ≠ .noHalt ↔ c.state = .halted)
    ∧ (c.read.isSome ↔ c.state = .loading)
    ∧ (c.state ≠ .strap → c.state ≠ .halted → 1 ≤ c.number ∧ c.number ≤ 30)

/-- Every table, list and timer that is filled by the image or by what follows it holds its reset value (R6, R68, R73,
R88, R89, R135, R170). -/
def State.Blank (s : State) : Prop :=
  s.bays = List.replicate 16 Bay.reset ∧ s.slots = [] ∧ s.pru = Pairing.reset ∧ s.peers = List.replicate 30 Peer.reset
    ∧ s.tly = TallyUnit.reset ∧ s.alu = AlertUnit.reset ∧ s.hlu = Health.reset ∧ s.bsc.Silent

/-- Every timer that the entry into HALTED stops is stopped (R26, R44, R88, R115). -/
def State.Frozen (s : State) : Prop :=
  (∀ b ∈ s.bays, b.settleTimer = none) ∧ s.pru.readyTimer = none ∧ (∀ p ∈ s.peers, p.staleTimer = none)
    ∧ (∀ sl ∈ s.slots, sl.alert.claimHold = none ∧ sl.alert.repeatTimer = none ∧ sl.alert.escalationTimer = none
        ∧ sl.alert.takeover = none)

/-- The blocks' own soundness, and what holds between them. -/
def State.Sound (s : State) : Prop :=
  s.channels.length = 16 ∧ s.bays.length = 16 ∧ s.peers.length = 30
    ∧ s.hlu.Sound ∧ s.bsc.Sound ∧ s.pru.Sound ∧ s.stc.Sound
    ∧ (∀ b ∈ s.bays, b.Sound s.unitWeight)
    ∧ (s.slots.map fun sl => sl.art.number).Nodup
    ∧ (∀ sl ∈ s.slots, sl.Sound s.ownNumber ∧ sl.ShareFits s.bays)
    ∧ (s.speaking = false → s.bsc.Silent ∧ s.tly.beaconTimer = none ∧ s.tly.deltaTimer = none)
    ∧ (s.listening = false → s.stc.state ≠ .halted → s.Blank)
    ∧ (s.stc.state = .halted → s.Frozen)
    ∧ (s.held.isSome → s.stc.state = .strap)
    ∧ (s.tly.firstWindow = true → ∀ sl ∈ s.slots, ∀ c ∈ sl.art.peers, c.state ≠ .absent)

/-- The invariant of the station: its blocks are sound, and every lamp line has the pattern selected for it (R174,
R175). -/
def State.Inv (s : State) : Prop := s.Sound ∧ s.lamps = s.bays.map s.selectPattern

end Sys2Proof.Machine
end

