-- ==== Sys2Proof/Certificates/Slice0/Obligations.lean ====
section
/-! DEFINITION. The statements for the provers. Each is about `step`, about `exec` of a command, or about one of the shared
operations that the `exec` statements name: a next state is written as the state before it with the changes listed, so
that everything not listed is unchanged; `showLamps` selects the lamp patterns anew and changes nothing else
(`LampsFollowTheSelection`). -/

open Sys2Proof Sys2Proof.Machine

/-! ### Vocabulary -/

/-- The command that brings a frame of a kind. -/
def Sys2Proof.Machine.Kind.command (k : Kind) (dt : Time) (heard : List Character) : Instr :=
  match k with
  | .hello => .hello dt heard
  | .tally => .tally dt heard
  | .shift => .shift dt heard
  | .claim => .claim dt heard
  | .alert => .alert dt heard
  | .clear => .clear dt heard
  | .accept => .accept dt heard
  | .query => .query dt heard
  | .restart => .restart dt heard

/-- The station hears the characters as frame `f`, addressed to it, from another device, in JOINING, RUNNING or ISOLATED
(R46, R47). -/
def Sys2Proof.Machine.State.takes (s : State) (heard : List Character) (f : Frame) : Prop :=
  s.held = none ∧ s.listening = true ∧ s.bsc.rx.own = false ∧ (Receiver.reset.hearAll heard).check = .passed f
    ∧ (f.dst = 0 ∨ f.dst = s.ownNumber) ∧ f.src ≠ s.ownNumber

/-- The state after a sample's channel has its validity set anew, `dt` later (R4). -/
def Sys2Proof.Machine.State.sampled (s : State) (dt : Time) (n : Nat) (c : Conversion) : State :=
  { s with now := s.now + dt, channels := validityAfter c n s.channels }

/-- A bay record that enters DISTURBED on a sample of `g` grams at time `t`, the sample taken as the first of the
disturbance (R9, R15). -/
def Sys2Proof.Machine.Bay.disturbedBy (b : Bay) (t : Time) (g : Int) : Bay :=
  { b with
    reference := b.settled
    disturbStart := t
    settleTimer := some (t + b.cfg.settleTimeout)
    state := if b.cfg.blankCount = 0 then .settling else .disturbed
    blankRemaining := b.cfg.blankCount - 1
    candidate := if b.cfg.blankCount = 0 then some g else none
    runCount := if b.cfg.blankCount = 0 then 1 else 0
    runSum := if b.cfg.blankCount = 0 then g else 0 }

/-- A bay record that enters FAULT or OVERLOAD (R9). -/
def Sys2Proof.Machine.Bay.outOfUse (b : Bay) (state : BayState) (invalidRun : Nat) : Bay :=
  { b with
    state := state, invalidRun := invalidRun, reference := b.settled, candidate := none, runCount := 0, runSum := 0
    blankRemaining := 0, settleTimer := none }

/-- A bay record with its settled weight stored and its units computed (R18, R22). -/
def Sys2Proof.Machine.Bay.settledAt (b : Bay) (weight : Int) (unitWeight : Nat) : Bay :=
  { b with
    state := .settled, settled := some weight, candidate := none, runCount := 0, runSum := 0, blankRemaining := 0
    settleTimer := none
    units := (rounded (weight - b.cfg.tare - ((b.strays.map Stray.grams).sum : Nat)) unitWeight).toNat }

/-- The bay record after the sample that ends its confirm run, before the settle (R11, R16). -/
def Sys2Proof.Machine.Bay.confirmed (b : Bay) (g : Int) : Bay :=
  { b with invalidRun := 0, runCount := b.runCount + 1, runSum := b.runSum + g }

/-- `m` units of a unit weight fit `x` grams, at most `limit` of them, and no smaller number of units does (R28, R29, R33,
R34). -/
def LeastUnits (x : Int) (unitWeight tolerance limit m : Nat) : Prop :=
  1 ≤ m ∧ m ≤ limit ∧ within tolerance x (m * unitWeight) = true
    ∧ ∀ k, 1 ≤ k → k < m → within tolerance x (k * unitWeight) = false

/-- Entry `x` is served before entry `y` (R50, R57). -/
def ServedBefore (x y : TxEntry) : Prop :=
  x.req.cls < y.req.cls
    ∨ x.req.cls = y.req.cls ∧ (x.time < y.time ∨ x.time = y.time ∧ x.taken ≤ y.taken)

/-- The two states agree on everything but the transmit queue with its deferral, the shift batch, the health unit and the
outstanding frames of the alert records: all that a request can move (R58 to R62, R43, R91). -/
def Sys2Proof.Machine.State.requestFrame (s t : State) : Prop :=
  t = { s with
        bsc := { s.bsc with
          waiting := t.bsc.waiting, flight := t.bsc.flight, deferral := t.bsc.deferral, takenCount := t.bsc.takenCount }
        pru := { s.pru with filling := t.pru.filling, ready := t.pru.ready, sending := t.pru.sending }
        hlu := t.hlu, slots := t.slots }
    ∧ t.slots.map (fun sl => (sl.art, { sl.alert with outstanding := none }))
      = s.slots.map fun sl => (sl.art, { sl.alert with outstanding := none })

/-! ### The block, its reset and its invariant -/

/-- A step takes the command at the front of the queue and runs it on the state with the queue's rest; on an empty queue
the block idles, which is the model's choice (log 15). -/
def Obligations.StepRunsTheFrontCommand : Prop :=
  (∀ (s : State) (c : Instr) (rest : List Instr), s.pending = c :: rest → step s = exec c { s with pending := rest })
    ∧ ∀ s : State, s.pending = [] → step s = .next s

/-- Every command of the table answers a next state in every state, and leaves the waiting commands as they are. -/
def Obligations.EveryCommandCompletes : Prop :=
  ∀ (c : Instr) (s : State), ∃ t, exec c s = .next t ∧ t.pending = s.pending

/-- The values after reset that the chapters give (R4, R6, R31, R37, R40, R45, R56, R57, R63, R66, R68, R73, R80, R83,
R85, R89, R134, R156, R172, R186, R187). -/
def Obligations.ResetLeavesTheSpecsValues : Prop :=
  State.reset.now = 0 ∧ State.reset.channels = List.replicate 16 false
    ∧ State.reset.bays = List.replicate 16
        { cfg := { article := 0, tare := 0, tolerance := 0, capacity := 0, disturbBand := 0, settleBand := 0
                   blankCount := 0, confirmCount := 0, settleTimeout := 0 }
          state := .vacant, settled := none, reference := none, candidate := none, runCount := 0, runSum := 0
          blankRemaining := 0, invalidRun := 0, disturbStart := 0, settleTimer := none, units := 0, strays := [] }
    ∧ State.reset.pru.pendingTakes = [] ∧ State.reset.pru.filling = [] ∧ State.reset.pru.sending = []
    ∧ State.reset.pru.readyTimer = none
    ∧ State.reset.slots = []
    ∧ State.reset.peers = List.replicate 30 { baseline := none, staleTimer := none, holdOff := none }
    ∧ State.reset.tly.beaconTimer = none ∧ State.reset.tly.beaconCount = 0 ∧ State.reset.tly.deltaTimer = none
    ∧ State.reset.tly.lastCompletion = none ∧ State.reset.tly.firstWindow = false
    ∧ State.reset.bsc.busy = true ∧ State.reset.bsc.waiting = [] ∧ State.reset.bsc.flight = none
    ∧ State.reset.bsc.deferral = none ∧ State.reset.bsc.abandonRun = 0 ∧ State.reset.bsc.seq = 0
    ∧ State.reset.stc.state = .strap ∧ State.reset.stc.number = 0 ∧ State.reset.stc.halt = .noHalt
    ∧ State.reset.stc.helloDone = false ∧ State.reset.stc.joinTimer = none ∧ State.reset.stc.isolationTimer = none
    ∧ State.reset.hlu = { counters := List.replicate 16 0, degrade := none, severe := none }
    ∧ State.reset.lamps = List.replicate 16 .off

/-- The station after reset is sound and its lamps follow the selection. -/
def Obligations.InvariantAtReset : Prop := State.reset.Inv

/-- Every step keeps the invariant: the tables keep their sizes, the bays their states and units, the queue its bounds and
merge keys, the own contributions the sums of the bays, the aggregates the sums of the contributions, the alert records
the owners and timers of their states, the counters their range, the lamps their selection. -/
def Obligations.InvariantKept : Prop := ∀ s t : State, s.Inv → step s = .next t → t.Inv

/-- Every lamp line keeps the pattern selected for its bay from the state it stands in, and selecting changes nothing but
the lamps (R175). -/
def Obligations.LampsFollowTheSelection : Prop :=
  (∀ s t : State, s.lamps = s.bays.map s.selectPattern → step s = .next t → t.lamps = t.bays.map t.selectPattern)
    ∧ ∀ s : State, s.showLamps = { s with lamps := s.bays.map s.selectPattern }

/-- The selected pattern is the pattern of the first row of the table whose condition holds (R174). -/
def Obligations.PatternIsTheFirstRowThatHolds : Prop :=
  ∀ (s : State) (b : Bay),
    s.selectPattern b =
      if s.stc.state = .halted then .fast
      else if s.stc.state = .loading then .steady
      else if b.state = .fault ∨ b.state = .overload
          ∨ (s.slot? b.cfg.article).any (fun sl => sl.art.disputed) = true then .fast
      else if (s.slot? b.cfg.article).any (fun sl =>
          sl.alert.state != .quiet && (sl.alert.level == .low || sl.alert.level == .empty)
            && (sl.alert.escalated || (sl.alert.level == .empty && !sl.alert.accepted))) = true then .slow
      else if (s.slot? b.cfg.article).any (fun sl =>
          sl.alert.state != .quiet && (sl.alert.level == .low || sl.alert.level == .empty)) = true then .steady
      else if b.strays ≠ [] then .double
      else .off

/-- A lamp line is on when its selected pattern is on at this moment of the timebase, in every station state; each
pattern is the stated function of the time in milliseconds; the timebase starts at 0 at each reset release (R173). -/
def Obligations.PatternsRunOnTheTimebase : Prop :=
  (∀ (s : State) (n : Nat) (p : Pattern), s.held = none → nth1 s.lamps n = some p → s.lampOn n = p.litAt s.now)
    ∧ (∀ (t : Nat) (us : Nat), us < 1000 →
      (Pattern.off.litAt (t * 1000 + us) = false) ∧ (Pattern.steady.litAt (t * 1000 + us) = true)
        ∧ (Pattern.slow.litAt (t * 1000 + us) = true ↔ t % 1000 ≤ 499)
        ∧ (Pattern.fast.litAt (t * 1000 + us) = true ↔ t % 250 ≤ 124)
        ∧ (Pattern.double.litAt (t * 1000 + us) = true
            ↔ t % 2000 ≤ 199 ∨ (400 ≤ t % 2000 ∧ t % 2000 ≤ 599)))
    ∧ (∀ (s : State) (h : HeldReset) (up : Bool) (stood : Time), s.held = some h → h.released up stood = true →
        ∃ t, exec (.resetRelease up stood) s = .next t ∧ t.now = 0)
    ∧ ∀ (s : State) (dt : Time) (heard : List Character) (f : Frame), s.takes heard f → f.kind = .restart →
        f.dst = s.ownNumber → f.dst ≠ 0 → ∃ t, exec (.restart dt heard) s = .next t ∧ t.now = 0

/-! ### Numbers -/

/-- Rounded is the nearest whole number, halves towards the larger number, also for negative values (R1): no whole number
is nearer to x/d, and one as near is not larger. -/
def Obligations.RoundedIsNearestHalvesUp : Prop :=
  ∀ (x : Int) (d : Nat), 0 < d →
    ∀ n : Int, (x - d * rounded x d).natAbs < (x - d * n).natAbs
      ∨ ((x - d * rounded x d).natAbs = (x - d * n).natAbs ∧ n ≤ rounded x d)

/-- Serial comparison (R2): b is newer than a when (b − a) mod 2^n lies in 1 to 2^(n−1) − 1; sequence numbers have 8 bits
and epochs 16; an epoch's successor is taken modulo 65,536. -/
def Obligations.SerialNumbersCompareByDifference : Prop :=
  (∀ (n : Nat) (a b : BitVec n),
      newer b a = true ↔ 1 ≤ (b.toNat + 2 ^ n - a.toNat) % 2 ^ n ∧ (b.toNat + 2 ^ n - a.toNat) % 2 ^ n ≤ 2 ^ (n - 1) - 1)
    ∧ (∀ a b : Seq, newer b a = true ↔ 1 ≤ (b.toNat + 256 - a.toNat) % 256 ∧ (b.toNat + 256 - a.toNat) % 256 ≤ 127)
    ∧ (∀ a b : Epoch,
        newer b a = true ↔ 1 ≤ (b.toNat + 65536 - a.toNat) % 65536 ∧ (b.toNat + 65536 - a.toNat) % 65536 ≤ 32767)
    ∧ ∀ e : Epoch, (e + 1).toNat = (e.toNat + 1) % 65536

/-- The target level by aggregate, reorder point, clear margin and the record's level (R92), as the two records of an
article give them. The aggregate is the sum of the units of every contribution, own and peer, and the coverage COMPLETE when
every peer contribution is FRESH, as the own one always is (R70, R71). -/
def Obligations.TargetLevelByAggregate : Prop :=
  (∀ sl : Slot, sl.target = targetLevel sl.art.aggregate sl.art.reorder sl.art.margin sl.alert.level)
    ∧ (∀ r : Article, r.total = r.own.units + (r.peers.map Contribution.units).sum
        ∧ r.cover = (if ∀ x ∈ r.peers, x.state = .fresh then .complete else .incomplete)
        ∧ r.recount = { r with aggregate := r.total, coverage := r.cover })
    ∧ ∀ (aggregate reorder margin : Nat) (level : Level), 1 ≤ margin →
    (aggregate = 0 → targetLevel aggregate reorder margin level = .empty)
      ∧ (1 ≤ aggregate → aggregate ≤ reorder → targetLevel aggregate reorder margin level = .low)
      ∧ (1 ≤ aggregate → reorder + margin ≤ aggregate → targetLevel aggregate reorder margin level = .none)
      ∧ (reorder < aggregate → aggregate < reorder + margin → targetLevel aggregate reorder margin level = level)

/-! ### The health unit -/

/-- An event reaches the health unit and nothing else, and so does a count (R182, R184). An event of a class reaches the
capture record of that class alone: an empty one takes code, subject, article and time with a further count of 0, a full
one keeps them and its further count rises by 1 up to 255, whatever the amount (R188). Its counter, where the code has
one, rises by the amount up to 255, and no other counter moves (R183, R186); a count reaches no record (R184). -/
def Obligations.EventsAreCountedAndCaptured : Prop :=
  (∀ (s : State) (code : FaultCode) (subject article amount : Nat) (c : Counter),
      s.raiseN code subject article amount = { s with hlu := s.hlu.take code subject article amount s.now }
        ∧ s.raise code subject article = s.raiseN code subject article 1
        ∧ s.count c = { s with hlu := (s.count c).hlu })
    ∧ (∀ (s : State) (code : FaultCode) (subject article amount : Nat) (t : Health),
      t = (s.raiseN code subject article amount).hlu →
      (∀ record : Health → Option Capture,
        (code.severity = .degrade ∧ record = Health.degrade ∨ code.severity = .severe ∧ record = Health.severe) →
          (record s.hlu = none →
            record t = some { code := code, subject := subject, article := article, time := s.now, further := 0 })
          ∧ ∀ c, record s.hlu = some c → record t = some { c with further := min 255 (c.further + 1) })
      ∧ (code.severity ≠ .degrade → t.degrade = s.hlu.degrade) ∧ (code.severity ≠ .severe → t.severe = s.hlu.severe)
      ∧ ∀ n : Nat, t.counters[n]? = (s.hlu.counters[n]?).map fun v =>
          if code.counter.map Counter.index = some n then min 255 (v + amount) else v)
    ∧ (∀ (s : State) (c : Counter),
        (s.count c).hlu.degrade = s.hlu.degrade ∧ (s.count c).hlu.severe = s.hlu.severe
          ∧ ∀ n : Nat, (s.count c).hlu.counters[n]? = (s.hlu.counters[n]?).map fun v =>
              if c.index = n then min 255 (v + 1) else v)
    ∧ [FaultCode.rxCrc, .rxForm, .txCollision, .txAbandon, .queueDrop, .tallyGap, .holderStale, .shiftDrop, .pairEvict,
        .acceptStale, .claimYield, .unresolved, .strayMerge].map (fun c => c.counter.map Counter.index)
        = [0, 1, 2, 3, 4, 5, 7, 8, 10, 11, 12, 14, 15].map some
    ∧ [Counter.querySent, .pairMatch, .takeover].map Counter.index = [6, 9, 13]
    ∧ [FaultCode.unlistedHolder, .missingEntry, .bayUnsteady, .bayFault, .bayOverload, .isolation, .disputed].all
        (fun c => c.counter.isNone) = true
    ∧ ∀ c : FaultCode,
        (c.severity = .severe ↔ c = .bayFault ∨ c = .bayOverload ∨ c = .isolation ∨ c = .disputed)
          ∧ (c.severity = .note ↔ c = .rxForm ∨ c = .rxCrc ∨ c = .txCollision ∨ c = .unresolved ∨ c = .claimYield
              ∨ c = .acceptStale)

/-! ### Samples and bays -/

/-- A conversion sets its channel's validity anew, excitation outside its range all sixteen (R4); outside JOINING, RUNNING
and ISOLATED, the states in which samples and frames are taken, and for a VACANT bay, the sample changes nothing else (R3,
R8). -/
def Obligations.UntakenSampleChangesTheChannelOnly : Prop :=
  (∀ s : State, s.listening = true ↔ s.stc.state = .joining ∨ s.stc.state = .running ∨ s.stc.state = .isolated)
    ∧ (∀ (s : State) (dt : Time) (n : Nat) (c : Conversion), s.held = none →
      (s.listening = false ∨ ∃ b, s.bay? n = some b ∧ b.state = .vacant) →
      exec (.sampleArrival dt n c) s = .next (s.sampled dt n c).showLamps)
    ∧ (∀ (n : Nat) (l : List Bool), validityAfter .excitationFault n l = l.map fun _ => false)
    ∧ (∀ (n : Nat) (l : List Bool), n < l.length →
        validityAfter .bridgeFault (n + 1) l = l.set n false
          ∧ ∀ g : Int, validityAfter (.weight g) (n + 1) l = l.set n (decide (-100000 ≤ g ∧ g ≤ 1000000)))
    ∧ sampleOf .bridgeFault = none ∧ sampleOf .excitationFault = none
    ∧ ∀ g : Int, sampleOf (.weight g) = if -100000 ≤ g ∧ g ≤ 1000000 then some g else none

/-- An invalid sample raises the invalid run, up to 3, and changes nothing else, unless it is the third in a row outside
FAULT: then the bay enters FAULT, BAY_FAULT is raised and the tally unit is told (R9, R10, R24). A valid sample above the
capacity puts a bay into OVERLOAD with BAY_OVERLOAD and tells the tally unit; a bay already there only has its invalid run
set to 0 (R9, R11, R24). Bays are numbered from 1. -/
def Obligations.BadSamplesFaultOrOverload : Prop :=
  (∀ (s : State) (f : Bay → Bay), s.bay? 0 = none ∧ s.modBay 0 f = s
      ∧ ∀ n, s.bay? (n + 1) = s.bays[n]? ∧ s.modBay (n + 1) f = { s with bays := s.bays.modify n f })
    ∧ ∀ (s : State) (dt : Time) (n : Nat) (c : Conversion) (b : Bay),
    s.held = none → s.listening = true → s.bay? n = some b → b.state ≠ .vacant →
      (sampleOf c = none → b.invalidRun < 2 ∨ b.state = .fault →
        exec (.sampleArrival dt n c) s
          = .next ((s.sampled dt n c).modBay n fun _ => { b with invalidRun := min 3 (b.invalidRun + 1) }).showLamps)
      ∧ (sampleOf c = none → 2 ≤ b.invalidRun → b.state ≠ .fault →
        exec (.sampleArrival dt n c) s
          = .next ((((s.sampled dt n c).modBay n fun _ => b.outOfUse .fault 3).raise .bayFault n b.cfg.article).noticeBay
              n b).showLamps)
      ∧ (∀ g, sampleOf c = some g → (b.cfg.capacity : Int) < g → b.state = .overload →
        exec (.sampleArrival dt n c) s
          = .next ((s.sampled dt n c).modBay n fun _ => { b with invalidRun := 0 }).showLamps)
      ∧ (∀ g, sampleOf c = some g → (b.cfg.capacity : Int) < g → b.state ≠ .overload →
        exec (.sampleArrival dt n c) s
          = .next ((((s.sampled dt n c).modBay n fun _ => b.outOfUse .overload 0).raise .bayOverload n
              b.cfg.article).noticeBay n b).showLamps)

/-- A valid sample at or below capacity takes a bay out of OVERLOAD and FAULT, and a SETTLED bay whose weight it leaves by
more than the disturb band, into DISTURBED, and is the first sample of the disturbance; within the band it changes no
more than the invalid run (R9, R11 to R15). With no candidate it is blanked or becomes the candidate (R15); with a
candidate, in SETTLING and UNSTEADY, one within the settle band is counted while the run stays below the confirm count,
and one outside it starts the run again (R16). -/
def Obligations.SampleDisturbsOrConfirms : Prop :=
  ∀ (s : State) (dt : Time) (n : Nat) (c : Conversion) (b : Bay) (g : Int),
    s.held = none → s.listening = true → s.bay? n = some b → sampleOf c = some g → g ≤ b.cfg.capacity →
      (b.state = .overload ∨ b.state = .fault
          ∨ (b.state = .settled ∧ ∃ w, b.settled = some w ∧ b.cfg.disturbBand < (g - w).natAbs) →
        exec (.sampleArrival dt n c) s
          = .next (((s.sampled dt n c).modBay n fun _ =>
              { b.disturbedBy (s.now + dt) g with invalidRun := 0 }).noticeBay n b).showLamps)
      ∧ (∀ w, b.state = .settled → b.settled = some w → (g - w).natAbs ≤ b.cfg.disturbBand →
        exec (.sampleArrival dt n c) s
          = .next ((s.sampled dt n c).modBay n fun _ => { b with invalidRun := 0 }).showLamps)
      ∧ (b.state = .disturbed ∨ b.state = .unsteady → b.candidate = none → 0 < b.blankRemaining →
        exec (.sampleArrival dt n c) s
          = .next ((s.sampled dt n c).modBay n fun _ =>
              { b with invalidRun := 0, blankRemaining := b.blankRemaining - 1 }).showLamps)
      ∧ (b.state = .disturbed ∨ b.state = .unsteady → b.candidate = none → b.blankRemaining = 0 →
        exec (.sampleArrival dt n c) s
          = .next ((s.sampled dt n c).modBay n fun _ =>
              { b with
                invalidRun := 0, candidate := some g, runCount := 1, runSum := g
                state := if b.state = .disturbed then .settling else .unsteady }).showLamps)
      ∧ (∀ w, b.state = .settling ∨ b.state = .unsteady → b.candidate = some w →
          b.cfg.settleBand < (g - w).natAbs →
        exec (.sampleArrival dt n c) s
          = .next ((s.sampled dt n c).modBay n fun _ =>
              { b with invalidRun := 0, candidate := some g, runCount := 1, runSum := g }).showLamps)
      ∧ (∀ w, b.state = .settling ∨ b.state = .unsteady → b.candidate = some w →
          (g - w).natAbs ≤ b.cfg.settleBand → b.runCount + 1 ≠ b.cfg.confirmCount →
        exec (.sampleArrival dt n c) s
          = .next ((s.sampled dt n c).modBay n fun _ => b.confirmed g).showLamps)

/-- The sample that brings the confirm run to the confirm count settles the bay at the rounded mean: INITIAL without a
reference weight, DRIFT within the tolerance; nothing is classified, and the units follow the units formula (R18 to R20,
R22, R24). What the tally unit does when it is told (`noticeBay`): it is told when the units, membership of the FAULT group,
UNSTEADY, or whether strays are held has changed (R24); the own contribution becomes the sum of the bays with its flags, and
the alert unit gets an article notice when the aggregate moved (R70, R72). A contribution that moves, by such a notice or by
the alert unit's word on OWNING, is marked, with aggregate and coverage anew (R70, R71, R82), and starts a stopped delta
timer, in JOINING and RUNNING, at the later of this time and the last completion plus 250 ms; an expiry at this time requests
the DELTA at once (R85; in the same event, which is the model's reading, log 10). One that stays as it was moves nothing
(R70). -/
def Obligations.SettleStoresTheMean : Prop :=
  (∀ (s : State) (dt : Time) (n : Nat) (c : Conversion) (b : Bay) (g w : Int),
    s.held = none → s.listening = true → s.bay? n = some b → sampleOf c = some g → g ≤ b.cfg.capacity →
    b.state = .settling ∨ b.state = .unsteady → b.candidate = some w → (g - w).natAbs ≤ b.cfg.settleBand →
    b.runCount + 1 = b.cfg.confirmCount →
    (∀ r, b.reference = some r → (rounded (b.runSum + g) b.cfg.confirmCount - r).natAbs ≤ b.cfg.tolerance) →
      exec (.sampleArrival dt n c) s
        = .next (((s.sampled dt n c).modBay n fun _ =>
            (b.confirmed g).settledAt (rounded (b.runSum + g) b.cfg.confirmCount)
              (s.unitWeight b.cfg.article)).noticeBay n b).showLamps)
    ∧ (∀ (s : State) (n a : Nat) (before after : Bay), s.bay? n = some after → a = before.cfg.article →
      ∀ due : Prop,
        (due ↔ before.units ≠ after.units
          ∨ ¬ (before.state = .fault ∨ before.state = .overload ↔ after.state = .fault ∨ after.state = .overload)
          ∨ ¬ (before.state = .unsteady ↔ after.state = .unsteady)
          ∨ ¬ (before.strays = [] ↔ after.strays = [])) →
        (¬ due ∨ s.slot? a = none → s.noticeBay n before = s)
        ∧ ∀ sl told, due → s.slot? a = some sl →
          told = s.ownUpdate a (fun o =>
            { units := ((s.bays.filter fun b => b.cfg.article == a).map Bay.units).sum
              flags := { o.flags with
                fault := s.bays.any fun b => b.cfg.article == a && (b.state == .fault || b.state == .overload)
                unsteady := s.bays.any fun b => b.cfg.article == a && b.state == .unsteady
                stray := s.bays.any fun b => b.cfg.article == a && !b.strays.isEmpty } }) →
          (told.aggregate a = sl.art.aggregate → s.noticeBay n before = told)
          ∧ (told.aggregate a ≠ sl.art.aggregate → s.noticeBay n before = told.articleNotice a []))
    ∧ (∀ (s : State) (a : Nat), s.unitWeight a = ((s.slot? a).map fun sl => sl.art.unitWeight).getD 0
        ∧ s.aggregate a = ((s.slot? a).map fun sl => sl.art.aggregate).getD 0)
    ∧ (∀ (s : State) (a : Nat) (standing : Bool),
        s.tellOwning a standing = s.ownUpdate a fun o => { o with flags := { o.flags with owning := standing } })
    ∧ ∀ (s : State) (a : Nat) (sl : Slot) (f : OwnContribution → OwnContribution), s.slot? a = some sl →
      (f sl.art.own = sl.art.own → s.ownUpdate a f = s)
      ∧ (f sl.art.own ≠ sl.art.own →
        ∀ u : State,
          u = { s with slots := s.slots.map fun x =>
            if x.art.number = a then
              { x with art := { x.art with
                  own := f x.art.own, changed := true
                  aggregate := (f x.art.own).units + (x.art.peers.map Contribution.units).sum
                  coverage := if ∀ y ∈ x.art.peers, y.state = .fresh then .complete else .incomplete } }
            else x } →
          (s.speaking = false ∨ s.tly.deltaTimer ≠ none → s.ownUpdate a f = u)
          ∧ (s.speaking = true → s.tly.deltaTimer = none →
            ((∀ e, s.tly.lastCompletion = some e → e + 250000 ≤ s.now) → s.ownUpdate a f = u.request (.tally .delta))
            ∧ ∀ e, s.tly.lastCompletion = some e → s.now < e + 250000 →
              s.ownUpdate a f = { u with tly := { s.tly with deltaTimer := some (e + 250000) } }))

/-- A settle whose change lies beyond the tolerance is classified by the pairing unit first; then the settled weight is
stored and the units computed with the stray list as the classification left it (R18, R21, R22, R27). -/
def Obligations.SettleClassifiesALargerChange : Prop :=
  ∀ (s : State) (dt : Time) (n : Nat) (c : Conversion) (b : Bay) (g w r : Int),
    s.held = none → s.listening = true → s.bay? n = some b → sampleOf c = some g → g ≤ b.cfg.capacity →
    b.state = .settling ∨ b.state = .unsteady → b.candidate = some w → (g - w).natAbs ≤ b.cfg.settleBand →
    b.runCount + 1 = b.cfg.confirmCount → b.reference = some r →
    b.cfg.tolerance < (rounded (b.runSum + g) b.cfg.confirmCount - r).natAbs →
      exec (.sampleArrival dt n c) s
        = .next
          (((((s.sampled dt n c).modBay n fun _ => { b.confirmed g with settleTimer := none }).applyChange n (b.confirmed g)
              (rounded (b.runSum + g) b.cfg.confirmCount - r)
              (classify (rounded (b.runSum + g) b.cfg.confirmCount - r) b.cfg.article (s.unitWeight b.cfg.article)
                b.cfg.tolerance b.units b.strays s.pru)).modBay n fun x =>
            { x with
              state := .settled, settled := some (rounded (b.runSum + g) b.cfg.confirmCount), candidate := none
              runCount := 0, runSum := 0, blankRemaining := 0
              units := (rounded (rounded (b.runSum + g) b.cfg.confirmCount - x.cfg.tare
                - ((x.strays.map Stray.grams).sum : Nat)) (s.unitWeight b.cfg.article)).toNat }).noticeBay n b).showLamps

/-- The settle timer takes a bay in DISTURBED or SETTLING into UNSTEADY with BAY_UNSTEADY, keeps everything else, and the
tally unit is told (R17, R24). BAY_UNSTEADY reaches the health unit before anything that this brings about, as a QUEUE_DROP:
the model's order (DESIGN CHOICE, log 27). -/
def Obligations.SettleTimeoutMakesUnsteady : Prop :=
  ∀ (s : State) (dt : Time) (n : Nat) (b : Bay) (e : Time),
    s.held = none → s.bay? n = some b → b.settleTimer = some e → e ≤ s.now + dt →
    b.state = .disturbed ∨ b.state = .settling →
      exec (.settleTimeout dt n) s
        = .next ((((s.elapse dt).modBay n fun _ => { b with settleTimer := none, state := .unsteady }).raise .bayUnsteady
            n b.cfg.article).noticeBay n b).showLamps

/-! ### Pairing -/

/-- Within the tolerance means by no more than the tolerance (R27). The classes of a gain in the order of R27: ADD,
FOREIGN-paired with the oldest entry of another article that fits and its least number of units, FOREIGN-unknown (R28 to
R30, R36). -/
def Obligations.GainIsClassifiedInOrder : Prop :=
  (∀ (tolerance : Nat) (x y : Int), within tolerance x y = true ↔ (x - y).natAbs ≤ tolerance)
    ∧ ∀ (d : Int) (article unitWeight tolerance units : Nat) (strays : List Stray) (p : Pairing), 0 < d →
    (classify d article unitWeight tolerance units strays p = .add
        ↔ ∃ m : Nat, 1 ≤ m ∧ within tolerance d (m * unitWeight) = true)
      ∧ (∀ i m, classify d article unitWeight tolerance units strays p = .paired i m
        ↔ (¬ ∃ k : Nat, 1 ≤ k ∧ within tolerance d (k * unitWeight) = true) ∧ p.enabled = true
          ∧ (∃ e, p.pendingTakes[i]? = some e ∧ e.article ≠ article ∧ LeastUnits d e.unitWeight tolerance e.units m)
          ∧ ∀ j e, j < i → p.pendingTakes[j]? = some e → e.article ≠ article →
              ¬ ∃ k, LeastUnits d e.unitWeight tolerance e.units k)
      ∧ (classify d article unitWeight tolerance units strays p = .add
        ∨ classify d article unitWeight tolerance units strays p = .unknown
        ∨ ∃ i m, classify d article unitWeight tolerance units strays p = .paired i m)

/-- The classes of a loss in the order of R27: TAKE of the least number of units that fits, STRAY-OUT of the newest record
that fits, whole before part, UNRESOLVED (R33 to R35). A record fits when the loss is within the tolerance of its grams or,
where its goods are known, of the weight of one to all of its units (R34). -/
def Obligations.LossIsClassifiedInOrder : Prop :=
  (∀ (loss : Int) (tolerance position : Nat) (r : Stray), matchStray loss tolerance r position = none
      ↔ within tolerance loss r.grams = false
        ∧ ∀ g, r.goods = some g → ¬ ∃ m, LeastUnits loss g.unitWeight tolerance g.units m)
    ∧ ∀ (loss article unitWeight tolerance units : Nat) (strays : List Stray) (p : Pairing), 0 < loss →
    (∀ m, classify (-(loss : Int)) article unitWeight tolerance units strays p = .take m
        ↔ LeastUnits loss unitWeight tolerance units m)
      ∧ (∀ i, classify (-(loss : Int)) article unitWeight tolerance units strays p = .strayWhole i
        ↔ (¬ ∃ m, LeastUnits loss unitWeight tolerance units m)
          ∧ (∃ r, strays[i]? = some r ∧ within tolerance loss r.grams = true)
          ∧ ∀ j r, i < j → strays[j]? = some r → matchStray loss tolerance r j = none)
      ∧ (∀ i m, classify (-(loss : Int)) article unitWeight tolerance units strays p = .strayPart i m
        ↔ (¬ ∃ k, LeastUnits loss unitWeight tolerance units k)
          ∧ (∃ r g, strays[i]? = some r ∧ within tolerance loss r.grams = false ∧ r.goods = some g
              ∧ LeastUnits loss g.unitWeight tolerance g.units m)
          ∧ ∀ j r, i < j → strays[j]? = some r → matchStray loss tolerance r j = none)
      ∧ (classify (-(loss : Int)) article unitWeight tolerance units strays p = .unresolved
        ↔ (¬ ∃ m, LeastUnits loss unitWeight tolerance units m)
          ∧ ∀ j r, strays[j]? = some r → matchStray loss tolerance r j = none)

/-- What the pairing unit keeps of each class. Nothing of an ADD (R28), an event of an UNRESOLVED (R35). A stray record of a
FOREIGN gain, with STRAY_MERGE and a merge into the oldest of four on a full list; a paired gain also takes its units off
the pending take and counts PAIR_MATCH (R29, R30, R32). A STRAY-OUT takes off the whole record, or units of it (R34). The
take record of a TAKE enters the pending-take list, whose oldest of sixteen goes with PAIR_EVICT (R33, R37), and the
filling side of the batch: as its first record it starts the ready timer, as its fourth it makes the side ready; a side that
is ready and waiting, and the station in ISOLATED, drop it with SHIFT_DROP (R40, R41, R44). With pairing disabled it is kept
nowhere (R36; in ISOLATED too, which is the model's reading, log 28). Of the bay record handed over only the configuration is
read; the stray list is that of the table. -/
def Obligations.ClassificationKeepsItsRecords : Prop :=
  ∀ (s : State) (n : Nat) (b x : Bay) (d : Int), s.bay? n = some x → x.cfg = b.cfg →
    s.applyChange n b d .add = s
      ∧ s.applyChange n b d .unresolved = s.raise .unresolved 0 0
      ∧ (x.strays.length < 4 →
        s.applyChange n b d .unknown
          = s.modBay n fun y => { y with strays := x.strays ++ [{ goods := none, grams := d.toNat }] })
      ∧ (∀ oldest rest, x.strays = oldest :: rest → 4 ≤ x.strays.length →
        s.applyChange n b d .unknown
          = (s.modBay n fun y =>
              { y with strays := { goods := none, grams := min 2000000 (oldest.grams + d.toNat) } :: rest }).raise
              .strayMerge n b.cfg.article)
      ∧ (∀ i m p, s.pru.pendingTakes[i]? = some p →
        ∀ u : State, u = { s with pru := { s.pru with
            pendingTakes :=
              if m < p.units then s.pru.pendingTakes.set i { p with units := p.units - m }
              else s.pru.pendingTakes.eraseIdx i } } →
        (x.strays.length < 4 →
          s.applyChange n b d (.paired i m)
            = (u.modBay n fun y =>
                { y with strays := x.strays ++ [{ goods := some { article := p.article, unitWeight := p.unitWeight
                                                                  units := m }
                                                  grams := m * p.unitWeight }] }).count .pairMatch)
        ∧ ∀ oldest rest, x.strays = oldest :: rest → 4 ≤ x.strays.length →
          s.applyChange n b d (.paired i m)
            = ((u.modBay n fun y =>
                { y with strays :=
                    { goods := none, grams := min 2000000 (oldest.grams + m * p.unitWeight) } :: rest }).raise
                .strayMerge n b.cfg.article).count .pairMatch)
      ∧ (∀ i r, x.strays[i]? = some r →
        s.applyChange n b d (.strayWhole i) = s.modBay n fun y => { y with strays := x.strays.eraseIdx i })
      ∧ (∀ i m r g, x.strays[i]? = some r → r.goods = some g →
        s.applyChange n b d (.strayPart i m)
          = s.modBay n fun y =>
              { y with strays :=
                  if m < g.units then
                    x.strays.set i { goods := some { g with units := g.units - m }, grams := r.grams - m * g.unitWeight }
                  else x.strays.eraseIdx i })
      ∧ (∀ m, s.pru.enabled = false → s.applyChange n b d (.take m) = s)
      ∧ ∀ (m : Nat) (t : Take) (p : PendingTake) (u : State), s.pru.enabled = true →
        t = { source := s.ownNumber, bay := n, article := b.cfg.article, unitWeight := s.unitWeight b.cfg.article
              units := m } →
        p = { source := s.ownNumber, article := b.cfg.article, unitWeight := s.unitWeight b.cfg.article, units := m
              arrival := s.now } →
        (s.pru.pendingTakes.length < 16
            ∧ u = { s with pru := { s.pru with pendingTakes := s.pru.pendingTakes ++ [p] } }
          ∨ 16 ≤ s.pru.pendingTakes.length ∧ ∃ oldest rest, s.pru.pendingTakes = oldest :: rest
            ∧ u = ({ s with pru := { s.pru with pendingTakes := rest ++ [p] } } : State).raise .pairEvict oldest.source
                oldest.article) →
        (s.stc.state = .isolated → s.applyChange n b d (.take m) = u.raise .shiftDrop n b.cfg.article)
        ∧ (s.stc.state = .joining ∨ s.stc.state = .running →
          (s.pru.filling = [] →
            s.applyChange n b d (.take m)
              = { u with pru := { u.pru with filling := [t], readyTimer := some (s.now + 1000000) } })
          ∧ (s.pru.filling ≠ [] → s.pru.ready = true →
            s.applyChange n b d (.take m) = u.raise .shiftDrop n b.cfg.article)
          ∧ (s.pru.filling ≠ [] → s.pru.ready = false → s.pru.filling.length ≠ 3 →
            s.applyChange n b d (.take m) = { u with pru := { u.pru with filling := s.pru.filling ++ [t] } })
          ∧ (s.pru.filling.length = 3 → s.pru.ready = false →
            ∀ filled : State, filled = { u with pru := { u.pru with
                sending := s.pru.filling ++ [t], filling := [], ready := false, readyTimer := none } } →
            (s.pru.sending = [] → s.applyChange n b d (.take m) = filled.requestShift)
            ∧ (∀ e rest, s.pru.sending = e :: rest → (∃ z ∈ s.bsc.waiting, z.req = .shift) → s.pru.mode = .latest →
              s.applyChange n b d (.take m) = filled.raiseN .shiftDrop 0 e.article (rest.length + 1))
            ∧ (s.pru.sending ≠ [] → ((∀ e ∈ s.bsc.waiting, e.req ≠ .shift) ∨ s.pru.mode = .keep) →
              s.applyChange n b d (.take m)
                = { u with pru := { u.pru with
                      filling := s.pru.filling ++ [t], ready := true, readyTimer := none } })))

/-- The pending take at a place whose pairing window has passed is removed with PAIR_EVICT, in JOINING, RUNNING and
ISOLATED; in HALTED those expiries do not take place, and in STRAP and LOADING, whose list a reset left empty, none is taken
(R37, R44). Before the window has passed, and at a place that holds none, only time passes (R38; log 2). -/
def Obligations.PendingTakeExpires : Prop :=
  ∀ (s : State) (dt : Time) (i : Nat), s.held = none →
    (∀ p, s.listening = true → s.pru.pendingTakes[i]? = some p → p.arrival + s.pru.window ≤ s.now + dt →
      exec (.pendingExpiry dt i) s
        = .next (({ s.elapse dt with
            pru := { s.pru with pendingTakes := s.pru.pendingTakes.eraseIdx i } } : State).raise .pairEvict p.source
            p.article).showLamps)
      ∧ (s.listening = false → exec (.pendingExpiry dt i) s = .next (s.elapse dt).showLamps)
      ∧ ((∀ p, s.pru.pendingTakes[i]? = some p → s.now + dt < p.arrival + s.pru.window) →
        exec (.pendingExpiry dt i) s = .next (s.elapse dt).showLamps)

/-- The ready timer makes the filling side ready (R40), and the sending side decides (R41): empty, the sides move over and
a SHIFT is requested; still QUEUED in LATEST, the filling side takes its place with SHIFT_DROP; else the side waits. -/
def Obligations.ReadyTimerActsOnTheSendingSide : Prop :=
  ∀ (s : State) (dt : Time) (e : Time), s.held = none → s.pru.readyTimer = some e → e ≤ s.now + dt →
    (s.pru.sending = [] →
      exec (.readyTimer dt) s
        = .next (({ s.elapse dt with pru := { s.pru with
            sending := s.pru.filling, filling := [], ready := false, readyTimer := none } } : State).requestShift).showLamps)
      ∧ (∀ t rest, s.pru.sending = t :: rest → (∃ x ∈ s.bsc.waiting, x.req = .shift) → s.pru.mode = .latest →
        exec (.readyTimer dt) s
          = .next (({ s.elapse dt with pru := { s.pru with
              sending := s.pru.filling, filling := [], ready := false, readyTimer := none } } : State).raiseN .shiftDrop 0
              t.article (rest.length + 1)).showLamps)
      ∧ (s.pru.sending ≠ [] → ((∀ x ∈ s.bsc.waiting, x.req ≠ .shift) ∨ s.pru.mode = .keep) →
        exec (.readyTimer dt) s
          = .next ({ s.elapse dt with pru := { s.pru with ready := true, readyTimer := none } } : State).showLamps)

/-- A heard SHIFT adds its records, but for those with a zero field or a unit weight above 1,000,000, as pending takes of
the frame's source and arrival time; the list keeps the newest sixteen, and each entry it loses raises PAIR_EVICT; with
pairing disabled nothing is taken (R36, R37, R39, R198). -/
def Obligations.ShiftFrameJoinsThePendingTakes : Prop :=
  ∀ (s : State) (dt : Time) (heard : List Character) (f : Frame), s.takes heard f → f.kind = .shift →
    (s.pru.enabled = false → exec (.shift dt heard) s = .next (s.elapse dt).showLamps)
      ∧ (s.pru.enabled = true → s.pru.pendingTakes.length ≤ 16 →
        ∀ all, all = s.pru.pendingTakes ++ (((shiftRecords f.payload).filter fun g =>
            g.article != 0 && g.unitWeight != 0 && g.units != 0 && decide (g.unitWeight ≤ 1000000)).map fun g =>
            { source := f.src, article := g.article, unitWeight := g.unitWeight, units := g.units
              arrival := s.now + dt }) →
        exec (.shift dt heard) s
          = .next ({ s.elapse dt with
              pru := { s.pru with pendingTakes := all.drop (all.length - 16) }
              hlu := (all.take (all.length - 16)).foldl
                (fun h p => h.take .pairEvict p.source p.article 1 (s.now + dt)) s.hlu } : State).showLamps)

/-! ### The transmit queue -/

/-- The access classes: ALERT and CLEAR 0, CLAIM 1, HELLO and QUERY 2, TALLY 3, SHIFT 4 (R50). The entry served first and
the one served last, by class and then by request time (R50, R57, R60). -/
def Obligations.ServiceOrderIsClassThenTime : Prop :=
  (∀ (a n : Nat) (v : Variant),
      (Request.alertFrame .alert a).cls = 0 ∧ (Request.alertFrame .clear a).cls = 0
        ∧ (Request.alertFrame .claim a).cls = 1 ∧ Request.hello.cls = 2 ∧ (Request.query n).cls = 2
        ∧ (Request.tally v).cls = 3 ∧ Request.shift.cls = 4)
    ∧ ∀ l : List TxEntry,
    (headOf l = none ↔ l = []) ∧ (lastOf l = none ↔ l = [])
      ∧ (∀ h, headOf l = some h → h ∈ l ∧ ∀ e ∈ l, ServedBefore h e)
      ∧ ∀ z, lastOf l = some z → z ∈ l ∧ ∀ e ∈ l, ServedBefore e z

/-- A request made outside JOINING and RUNNING, the states in which the station sends, does not reach the queue. One taken
merges into a QUEUED entry of its merge key by the table of R58, is held for the entry IN FLIGHT with its key or merges
into the request held for it (R59), or is a new entry of the current time while fewer than eight slots are in use (R58,
R60); where none is dropped, no event is raised and nothing but the queue and the deferral moves. A deferral in progress
runs on, or is shortened to the length of the new head's class when the request made an entry of lower class the head and
that point has not passed (R51); with the bus idle and none in progress one begins (R50). The model's readings: a deferral
whose head keeps its class, or that was shortened before, runs on to the end it has, and a point at this time has not
passed (DEDUCED, log 14); no deferral begins while an attempt is in flight (DEDUCED, log 13). -/
def Obligations.RequestMergesFollowsOrEnters : Prop :=
  (∀ s : State, s.speaking = true ↔ s.stc.state = .joining ∨ s.stc.state = .running)
    ∧ (∀ b : BusController, b.used = b.waiting.length + if b.flight = none then 0 else 1)
    ∧ ∀ (s : State) (r : Request),
    (s.speaking = false → s.enqueue r = (s, some r))
      ∧ (∀ b' : BusController, s.speaking = true → s.bsc.enter r s.now = (b', none) →
        (∀ (d : Deferral) (old new : TxEntry), s.bsc.deferral = some d → headOf s.bsc.waiting = some old →
          headOf b'.waiting = some new →
          ∀ point, point = d.start + (new.req.cls * 31 + s.ownNumber) * 80 →
          (new.req.cls < old.req.cls → point < d.due → s.now ≤ point →
            s.enqueue r = ({ s with bsc := { b' with deferral := some { start := d.start, due := point } } }, none))
          ∧ (old.req.cls ≤ new.req.cls ∨ d.due ≤ point ∨ point < s.now →
            s.enqueue r = ({ s with bsc := { b' with deferral := some d } }, none)))
        ∧ (∀ h, s.bsc.deferral = none → s.bsc.busy = false → b'.flight = none → headOf b'.waiting = some h →
          s.enqueue r
            = ({ s with bsc := { b' with
                deferral := some { start := s.now, due := s.now + (h.req.cls * 31 + s.ownNumber) * 80 } } }, none))
        ∧ (s.bsc.deferral = none → s.bsc.busy = true ∨ b'.flight ≠ none →
          s.enqueue r = ({ s with bsc := { b' with deferral := none } }, none)))
      ∧ (∀ b : BusController, b.waiting.any (fun e => e.req.sameKey r) = true →
        b.enter r s.now
          = ({ b with waiting := b.waiting.map fun e => if e.req.sameKey r then e.merge r else e }, none))
      ∧ (∀ (b : BusController) (f : Flight), b.waiting.any (fun e => e.req.sameKey r) = false → b.flight = some f →
        f.entry.req.sameKey r = true →
        (f.followOn = none →
          b.enter r s.now
            = ({ b with
                flight := some { f with followOn := some { req := r, time := s.now, taken := b.takenCount, failed := 0 } }
                takenCount := b.takenCount + 1 }, none))
        ∧ ∀ x, f.followOn = some x →
          b.enter r s.now
            = ({ b with flight := some { f with followOn := some (x.merge r) }, takenCount := b.takenCount + 1 }, none))
      ∧ (∀ b : BusController, b.waiting.any (fun e => e.req.sameKey r) = false →
        (∀ f, b.flight = some f → f.entry.req.sameKey r = false) → b.used < 8 →
        b.enter r s.now
          = ({ b with
              waiting := b.waiting ++ [{ req := r, time := s.now, taken := b.takenCount, failed := 0 }]
              takenCount := b.takenCount + 1 }, none))
      ∧ (∀ e : TxEntry,
          (e.merge r).time = e.time ∧ (e.merge r).taken = e.taken
            ∧ (e.merge r).req = e.req.merge r
            ∧ (∀ k k' a a', e.req = .alertFrame k a → r = .alertFrame k' a' → k ≠ k' → (e.merge r).failed = 0)
            ∧ ((∀ k k' a a', e.req = .alertFrame k a → r = .alertFrame k' a' → k = k') → (e.merge r).failed = e.failed))
      ∧ (∀ x : Request, x.sameKey r = true
          ↔ (x = .hello ∧ r = .hello) ∨ (∃ v w, x = .tally v ∧ r = .tally w) ∨ (x = .shift ∧ r = .shift)
            ∨ (∃ k k' a, x = .alertFrame k a ∧ r = .alertFrame k' a) ∨ ∃ n, x = .query n ∧ r = .query n)
      ∧ (∀ v, (Request.tally v).merge (.tally .full) = .tally .full)
      ∧ (∀ v, (Request.tally v).merge (.tally .delta) = .tally v)
      ∧ (∀ k k' a, (Request.alertFrame k a).merge (.alertFrame k' a) = .alertFrame k' a)
      ∧ Request.shift.merge .shift = .shift ∧ Request.hello.merge .hello = .hello
      ∧ ∀ n, (Request.query n).merge (.query n) = .query n

/-- A request that meets a full queue takes the slot of the entry served last when that entry has a higher class, and is
itself dropped otherwise; what is dropped is counted by QUEUE_DROP, with the destination of a QUERY as subject and the
article of a CLAIM, ALERT or CLEAR, each absent for other kinds (R60). Nothing but queue, deferral and health unit moves. A
deferral in progress is shortened when the request displaced an entry and made one of lower class the head, and that point
has not passed; else, and with the request refused, it runs on (R51); with the bus idle and none in progress one begins
(R50), as `RequestMergesFollowsOrEnters` has it where nothing is dropped (logs 13, 14). -/
def Obligations.FullQueueDropsTheHighestClass : Prop :=
  (∀ r : Request, r.subject = (match r with | .query n => n | _ => 0)
      ∧ r.article = (match r with | .alertFrame _ a => a | _ => 0))
    ∧ ∀ (b : BusController) (r : Request) (now : Time),
    b.waiting.any (fun e => e.req.sameKey r) = false → (∀ f, b.flight = some f → f.entry.req.sameKey r = false) →
    8 ≤ b.used →
      (∀ z, lastOf b.waiting = some z → r.cls < z.req.cls →
        b.enter r now
          = ({ b with
              waiting := b.waiting.erase z ++ [{ req := r, time := now, taken := b.takenCount, failed := 0 }]
              takenCount := b.takenCount + 1 }, some z.req))
      ∧ ((∀ e ∈ b.waiting, e.req.cls ≤ r.cls) → b.enter r now = (b, some r))
      ∧ ∀ (s : State) (d : Request) (b' : BusController), s.speaking = true → s.bsc.enter r s.now = (b', some d) →
          (s.enqueue r).2 = some d
            ∧ (s.enqueue r).1.hlu = s.hlu.take .queueDrop d.subject d.article 1 s.now
            ∧ (s.enqueue r).1.bsc.waiting = b'.waiting
            ∧ ∀ left : Option Deferral → State,
              (∀ x, left x
                = { s with
                    bsc := { b' with deferral := x }
                    hlu := s.hlu.take .queueDrop d.subject d.article 1 s.now }) →
              (∀ (x : Deferral) (old new : TxEntry), s.bsc.deferral = some x → headOf s.bsc.waiting = some old →
                headOf b'.waiting = some new →
                ∀ point, point = x.start + (new.req.cls * 31 + s.ownNumber) * 80 →
                (new.req.cls < old.req.cls → point < x.due → s.now ≤ point →
                  s.enqueue r = (left (some { start := x.start, due := point }), some d))
                ∧ (old.req.cls ≤ new.req.cls ∨ x.due ≤ point ∨ point < s.now →
                  s.enqueue r = (left (some x), some d)))
              ∧ (∀ h, s.bsc.deferral = none → s.bsc.busy = false → b'.flight = none → headOf b'.waiting = some h →
                s.enqueue r
                  = (left (some { start := s.now, due := s.now + (h.req.cls * 31 + s.ownNumber) * 80 }), some d))
              ∧ (s.bsc.deferral = none → s.bsc.busy = true ∨ b'.flight ≠ none → s.enqueue r = (left none, some d))

/-- A request moves nothing beside the transmit queue, the shift batch, the health unit and the ledger of outstanding
frames, a DROPPED notice that comes of it included (R43, R58 to R62, R91). It is what `RequestMergesFollowsOrEnters` says of
the queue, and where one is dropped, its requester's rule after it (that QUEUE_DROP comes first is the model's reading, log
7): nothing for a HELLO, a TALLY and a QUERY (R87, R141), the mark LOST on an outstanding alert frame of its kind (R91), and
for a SHIFT the sending side emptied, SHIFT_DROP for the records it held, and in JOINING and RUNNING a ready filling side
moved over with a new request (R43). The pairing unit's own request of a SHIFT is such a request. -/
def Obligations.RequestMovesNothingElse : Prop :=
  (∀ (s : State) (r : Request), s.requestFrame (s.request r))
    ∧ (∀ s : State, s.pru.ready = false → s.requestShift = s.request .shift)
    ∧ ∀ (s : State) (r : Request),
      ((s.enqueue r).2 = none → s.request r = (s.enqueue r).1)
      ∧ ∀ (d : Request) (u : State), (s.enqueue r).2 = some d → u = (s.enqueue r).1 →
        (d = .hello ∨ (∃ v, d = .tally v) ∨ (∃ n, d = .query n) → s.request r = u)
        ∧ (∀ k a, d = .alertFrame k a →
          s.request r
            = u.modAlert a fun x =>
                { x with outstanding := x.outstanding.map fun o =>
                    if o.kind = k then { o with standing := .lost } else o })
        ∧ (d = .shift → ∀ lost : State,
            (s.pru.sending = [] ∧ lost = u
              ∨ ∃ x rest, s.pru.sending = x :: rest
                ∧ lost = ({ u with pru := { s.pru with sending := [] } } : State).raiseN .shiftDrop 0 x.article
                    (rest.length + 1)) →
          (s.pru.ready = false ∨ s.speaking = false → s.request r = lost)
          ∧ (s.pru.ready = true → s.speaking = true →
            s.request r
              = ({ lost with pru := { s.pru with sending := s.pru.filling, filling := [], ready := false } } :
                  State).requestShift))

/-! ### The line, attempts and frames -/

/-- A start bit marks the bus busy and cancels a deferral; the characters join the frame in assembly: the first 192 are
stored, all are counted, and a stop bit of 0 marks the frame malformed (R45, R46, R51). So it is for the characters of a
whole frame. -/
def Obligations.BusyLineAssemblesCharacters : Prop :=
  (∀ heard : List Character, Receiver.reset.hearAll heard
      = { stored := (heard.map Character.byte).take 192, length := heard.length
          malformed := heard.any fun c => !c.stop, own := false })
    ∧ ∀ (s : State) (dt : Time) (heard : List Character), s.held = none → s.bsc.rx.stored.length ≤ 192 →
    exec (.busBusy dt heard) s
      = .next ({ s.elapse dt with
          bsc := { s.bsc with
            busy := true, deferral := none
            rx := { s.bsc.rx with
              stored := (s.bsc.rx.stored ++ heard.map Character.byte).take 192
              length := s.bsc.rx.length + heard.length
              malformed := s.bsc.rx.malformed || heard.any fun c => !c.stop } } } : State).showLamps

/-- The bus becomes idle (R45): the frame in assembly ends, and a deferral begins when an entry is QUEUED, of class times 31
plus the own number slots of 80 microseconds (R50). The station's own frame is discarded without a check (R46). A frame of
another device has the effect of the command of its kind, in every station state, and one that fails a check raises that
check's event (R46 to R48); the deferral begins after it, unless a request that the frame
brings about has begun it, which is the model's order (log 29). A silence on an idle bus is no event. A deferral begins in
JOINING and RUNNING, with the bus idle and an entry QUEUED, when none is in progress (R50), and no attempt is in flight
(DEDUCED, log 13). -/
def Obligations.IdleBusBeginsTheDeferral : Prop :=
  (∀ s : State,
      (∀ h, s.speaking = true → s.bsc.busy = false → s.bsc.deferral = none → s.bsc.flight = none →
          headOf s.bsc.waiting = some h →
        s.beginDeferral = { s with bsc := { s.bsc with
          deferral := some { start := s.now, due := s.now + (h.req.cls * 31 + s.ownNumber) * 80 } } })
        ∧ (s.speaking = false ∨ s.bsc.busy = true ∨ s.bsc.deferral ≠ none ∨ s.bsc.flight ≠ none ∨ s.bsc.waiting = [] →
          s.beginDeferral = s))
    ∧ ∀ (s : State) (dt : Time), s.held = none →
    (s.bsc.busy = false → exec (.busIdle dt) s = .next (s.elapse dt).showLamps)
      ∧ (∀ silent, silent = { s.bsc with
          busy := false, rx := { stored := [], length := 0, malformed := false, own := false } } →
        s.bsc.busy = true → (s.bsc.rx.length = 0 ∨ s.bsc.rx.own = true) →
        (s.bsc.deferral = none → s.bsc.flight = none → s.speaking = true → ∀ h, headOf s.bsc.waiting = some h →
          exec (.busIdle dt) s
            = .next ({ s.elapse dt with
                bsc := { silent with
                  deferral := some { start := s.now + dt
                                     due := s.now + dt + (h.req.cls * 31 + s.ownNumber) * 80 } } } : State).showLamps)
        ∧ (s.speaking = false ∨ s.bsc.deferral ≠ none ∨ s.bsc.flight ≠ none ∨ s.bsc.waiting = [] →
          exec (.busIdle dt) s = .next ({ s.elapse dt with bsc := silent } : State).showLamps))
      ∧ ∀ silent, silent = { s.bsc with
          busy := false, rx := { stored := [], length := 0, malformed := false, own := false } } →
        ∀ heard : List Character, s.bsc.busy = true → heard ≠ [] → s.bsc.rx = Receiver.reset.hearAll heard →
        (∀ (k : Kind) (t : State), (∀ f, s.bsc.rx.check = .passed f → f.kind = k) →
          exec (k.command dt heard) { s with bsc := silent } = .next t → exec (.busIdle dt) s = .next t.beginDeferral)
        ∧ (∀ code, s.listening = true → s.bsc.rx.check = .failed code →
          exec (.busIdle dt) s
            = .next (({ s.elapse dt with bsc := silent } : State).raise code 0 0).beginDeferral.showLamps)
        ∧ (∀ f, s.listening = true → s.bsc.rx.check = .passed f → f.dst ≠ 0 → f.dst ≠ s.ownNumber →
          exec (.busIdle dt) s = .next ({ s.elapse dt with bsc := silent } : State).beginDeferral.showLamps)

/-- The checks of R47 that look at the frame alone, in their order: length and framing, CRC, kind, source and payload
length (R47, R196). The kind codes are 0x31 to 0x39, and no other byte is one. The payload lengths are, in bytes: HELLO
2 + 5k for k from 1 to 16; TALLY 1 + 8n for n to 16 after a variant byte of 0x01, and 36 + 8n for n from 1 to 16 after 0x02,
with no length allowed after another byte or without one; SHIFT 10r for r from 1 to 4; CLAIM 6; ALERT 8; CLEAR and ACCEPT 5;
QUERY and RESTART 0 (R196). -/
def Obligations.ReceiveChecksInOrder : Prop :=
  ([Kind.hello, .tally, .shift, .claim, .alert, .clear, .accept, .query, .restart].map Kind.code
      = [0x31, 0x32, 0x33, 0x34, 0x35, 0x36, 0x37, 0x38, 0x39]
    ∧ ∀ (b : Byte) (k : Kind), Kind.ofCode b = some k ↔ b = k.code)
  ∧ (∀ p : List Byte,
      (payloadAllowed .hello p = true ↔ ∃ k, 1 ≤ k ∧ k ≤ 16 ∧ p.length = 2 + 5 * k)
        ∧ (payloadAllowed .tally p = true
          ↔ (∃ rest n, p = 0x01 :: rest ∧ n ≤ 16 ∧ p.length = 1 + 8 * n)
            ∨ ∃ rest n, p = 0x02 :: rest ∧ 1 ≤ n ∧ n ≤ 16 ∧ p.length = 36 + 8 * n)
        ∧ (payloadAllowed .shift p = true ↔ ∃ r, 1 ≤ r ∧ r ≤ 4 ∧ p.length = 10 * r)
        ∧ (payloadAllowed .claim p = true ↔ p.length = 6) ∧ (payloadAllowed .alert p = true ↔ p.length = 8)
        ∧ (payloadAllowed .clear p = true ↔ p.length = 5) ∧ (payloadAllowed .accept p = true ↔ p.length = 5)
        ∧ (payloadAllowed .query p = true ↔ p = []) ∧ (payloadAllowed .restart p = true ↔ p = []))
  ∧ ∀ r : Receiver,
    let len := field r.stored 0 1
    let form := r.length < 7 ∨ 192 < r.length ∨ len < 7 ∨ 192 < len ∨ len ≠ r.length ∨ r.malformed = true
    let crcBad := (crc16 (r.stored.take (len - 2))).toNat ≠ field r.stored (len - 2) 2
    let kind := Kind.ofCode (BitVec.ofNat 8 (field r.stored 1 1))
    let src := field r.stored 2 1
    let payload := (r.stored.drop 5).take (len - 7)
    (form → r.check = .failed .rxForm)
      ∧ (¬ form → crcBad → r.check = .failed .rxCrc)
      ∧ (¬ form → ¬ crcBad →
          (kind = none ∨ src = 0 ∨ 30 < src ∨ (∃ k, kind = some k ∧ payloadAllowed k payload = false)) →
          r.check = .failed .rxForm)
      ∧ ∀ k, ¬ form → ¬ crcBad → kind = some k → 1 ≤ src → src ≤ 30 → payloadAllowed k payload = true →
          r.check = .passed { kind := k, src := src, dst := field r.stored 3 1
                              seq := BitVec.ofNat 8 (field r.stored 4 1), payload := payload }

/-- A frame that fails a check raises that check's event alone; one for another station, and the station's own completed
frame, is discarded without an event; in STRAP and LOADING every frame is discarded, and in HALTED every one but a
RESTART addressed to the station that passes the checks, without an event even where a check fails (R46 to R48, R170).
Stated for the command of every kind. -/
def Obligations.UnacceptedFramesAreDiscarded : Prop :=
  ∀ (s : State) (dt : Time) (heard : List Character) (k : Kind), s.held = none →
    (∀ code, s.listening = true → s.bsc.rx.own = false → (Receiver.reset.hearAll heard).check = .failed code →
      exec (k.command dt heard) s = .next ((s.elapse dt).raise code 0 0).showLamps)
      ∧ (∀ f, s.listening = true → (Receiver.reset.hearAll heard).check = .passed f → f.dst ≠ 0 → f.dst ≠ s.ownNumber →
        exec (k.command dt heard) s = .next (s.elapse dt).showLamps)
      ∧ (s.bsc.rx.own = true ∨ s.stc.state = .strap ∨ s.stc.state = .loading →
        exec (k.command dt heard) s = .next (s.elapse dt).showLamps)
      ∧ (s.stc.state = .halted →
          (∀ f, (Receiver.reset.hearAll heard).check = .passed f → f.kind ≠ .restart ∨ f.dst = 0 ∨ f.dst ≠ s.ownNumber) →
        exec (k.command dt heard) s = .next (s.elapse dt).showLamps)

/-- A frame under the station's own number from another device halts the station with DUP_STATION: its timers stop, and the
transmit queue, attempt and deferral are discarded (R26, R44, R49, R63, R88, R115, R137, R148). That every other field
stands (the abandon run, HELLO done, the changed marks, the received characters) is the model's reading (log 25). Stated for
the command of every kind. -/
def Obligations.DuplicateNumberHalts : Prop :=
  ∀ (s : State) (dt : Time) (heard : List Character) (k : Kind) (f : Frame),
    s.held = none → s.listening = true → s.bsc.rx.own = false → (Receiver.reset.hearAll heard).check = .passed f →
    (f.dst = 0 ∨ f.dst = s.ownNumber) → f.src = s.ownNumber →
      exec (k.command dt heard) s
        = .next ({ s.elapse dt with
            stc := { s.stc with
              state := .halted, halt := .dupStation, joinTimer := none, isolationTimer := none, read := none }
            bays := s.bays.map fun b => { b with settleTimer := none }
            pru := { s.pru with readyTimer := none }
            bsc := { s.bsc with waiting := [], flight := none, deferral := none }
            tly := { s.tly with beaconTimer := none, deltaTimer := none }
            peers := s.peers.map fun p => { p with staleTimer := none }
            slots := s.slots.map fun sl =>
              { sl with alert := { sl.alert with
                  claimHold := none, repeatTimer := none, escalationTimer := none, takeover := none } } } :
            State).showLamps

/-- The end of the deferral begins an attempt of the head entry: its frame is built from the state of this moment, and for
a TALLY the marked articles move into it (R51, R52, R64, R65). The frame is of its request's kind, a QUERY without a
payload (R196, R198). It carries the own number as SRC, the key of a QUERY
as DST and 0 otherwise, the sequence counter as SEQ of a TALLY and 0 otherwise; the entries of a TALLY, each with own
units, flags and stored epoch, and the records of a SHIFT stand in table and batch order (R42, R64 to R66, R84, R190). A
CLAIM or ALERT carries its record's level, and 0x01 or 0x02 where that is NONE (R198); which of the two is a free choice,
counted as one (log 20). A HELLO carries reset cause, last halt cause, and number and digest of every article in table
order (R140, R198). The health section of a FULL carries station state, reset cause, last halt cause, the DEGRADE and the
SEVERE record, each with its age in whole periods of 100 ms up to 65,535, or eight bytes of 0, and the counters (R189,
R190, R197). -/
def Obligations.DeferralEndSendsTheHeadAsItStands : Prop :=
  (∀ sl : Slot, sl.entry
      = { article := sl.art.number, units := sl.art.own.units, flags := sl.art.own.flags
          epoch := if sl.alert.known then some sl.alert.epoch else none })
    ∧ (∀ (s : State) (dt : Time) (d : Deferral) (h : TxEntry),
    s.held = none → s.bsc.deferral = some d → d.due ≤ s.now + dt → s.bsc.busy = false → s.speaking = true →
    s.bsc.flight = none → headOf s.bsc.waiting = some h →
      (∀ choices, (∀ v, h.req ≠ .tally v) →
          ((∃ k a sl, h.req = .alertFrame k a ∧ k ≠ .clear ∧ s.slot? a = some sl ∧ sl.alert.level = .none)
              ∧ choices = s.freeCount + 1
            ∨ (∀ k a sl, h.req = .alertFrame k a → k ≠ .clear → s.slot? a = some sl → sl.alert.level ≠ .none)
              ∧ choices = s.freeCount) →
        exec (.deferralEnd dt) s
          = .next ({ s.elapse dt with
              freeCount := choices
              bsc := { s.bsc with
                waiting := s.bsc.waiting.erase h, deferral := none
                flight := some { entry := h, frame := ((s.elapse dt).buildFrame h.req).bytes, moved := []
                                 followOn := none } } } : State).showLamps)
      ∧ (∀ v, h.req = .tally v →
        exec (.deferralEnd dt) s
          = .next ({ s.elapse dt with
              bsc := { s.bsc with
                waiting := s.bsc.waiting.erase h, deferral := none
                flight := some { entry := h, frame := ((s.elapse dt).buildFrame h.req).bytes
                                 moved := (s.slots.filter fun sl => sl.art.changed).map fun sl => sl.art.number
                                 followOn := none } }
              slots := s.slots.map fun sl => { sl with art := { sl.art with changed := false } } } : State).showLamps))
    ∧ (∀ s : State,
      ((s.buildFrame .hello).kind = .hello ∧ (∀ v, (s.buildFrame (.tally v)).kind = .tally)
          ∧ (s.buildFrame .shift).kind = .shift
          ∧ (∀ a, (s.buildFrame (.alertFrame .claim a)).kind = .claim ∧ (s.buildFrame (.alertFrame .alert a)).kind = .alert
            ∧ (s.buildFrame (.alertFrame .clear a)).kind = .clear)
          ∧ ∀ n, (s.buildFrame (.query n)).kind = .query ∧ (s.buildFrame (.query n)).payload = [])
        ∧ (∀ r, (s.buildFrame r).src = s.stc.number)
        ∧ (∀ r, (s.buildFrame r).dst = match r with | .query n => n | _ => 0)
        ∧ (∀ r, (s.buildFrame r).seq = match r with | .tally _ => s.bsc.seq | _ => 0)
        ∧ (s.buildFrame .shift).payload = s.pru.sending.flatMap Take.bytes
        ∧ (s.buildFrame (.tally .delta)).payload
            = 0x01 :: ((s.slots.filter fun sl => sl.art.changed).map Slot.entry).flatMap TallyEntry.bytes
        ∧ (s.buildFrame (.tally .full)).payload
            = 0x02 :: (s.slots.map Slot.entry).flatMap TallyEntry.bytes ++ s.healthSection
        ∧ (∀ a sl k, s.slot? a = some sl → sl.alert.level ≠ .none ∨ k = .clear →
            (s.buildFrame (.alertFrame k a)).payload = sl.alert.payload a k)
        ∧ ∀ a sl k, s.slot? a = some sl → sl.alert.level = .none → k ≠ .clear →
            ∃ l : Level, l ≠ .none
              ∧ (s.buildFrame (.alertFrame k a)).payload = { sl.alert with level := l }.payload a k)
    ∧ (∀ s : State,
      (s.buildFrame .hello).payload
          = [s.stc.resetCause.code, s.stc.lastHalt.code] ++ s.slots.flatMap (fun sl =>
              [BitVec.ofNat 8 (sl.art.number / 65536), BitVec.ofNat 8 (sl.art.number / 256),
                BitVec.ofNat 8 sl.art.number, BitVec.ofNat 8 (sl.art.digest.toNat / 256),
                BitVec.ofNat 8 sl.art.digest.toNat])
        ∧ (∀ record : Option Capture → List Byte, record none = List.replicate 8 0 →
          (∀ (c : Capture) (age : Nat), age = min 65535 ((s.now - c.time) / 100000) →
            record (some c)
              = [c.code.code, BitVec.ofNat 8 c.subject, BitVec.ofNat 8 (c.article / 65536),
                  BitVec.ofNat 8 (c.article / 256), BitVec.ofNat 8 c.article, BitVec.ofNat 8 (age / 256),
                  BitVec.ofNat 8 age, BitVec.ofNat 8 c.further]) →
          s.healthSection
            = [s.stc.state.code, s.stc.resetCause.code, s.stc.lastHalt.code] ++ record s.hlu.degrade
                ++ record s.hlu.severe ++ s.hlu.counters.map fun v => BitVec.ofNat 8 v))
    ∧ [StationState.strap, .loading, .joining, .running, .isolated, .halted].map StationState.code
        = [0x01, 0x02, 0x03, 0x04, 0x05, 0x06]
    ∧ [ResetKind.power, .pin, .restart].map ResetKind.code = [0x01, 0x02, 0x03]
    ∧ [HaltCause.noHalt, .badStrap, .noImage, .badLength, .badCrc, .stationMismatch, .badValue, .holderCount, .orphan,
        .dupStation].map HaltCause.code = [0x00, 0x01, 0x02, 0x03, 0x04, 0x05, 0x06, 0x07, 0x08, 0x09]
    ∧ [FaultCode.txAbandon, .queueDrop, .tallyGap, .holderStale, .unlistedHolder, .missingEntry, .shiftDrop, .pairEvict,
        .strayMerge, .bayUnsteady].map FaultCode.code
        = [0x11, 0x12, 0x13, 0x14, 0x15, 0x16, 0x17, 0x18, 0x19, 0x1A]
    ∧ [FaultCode.bayFault, .bayOverload, .isolation, .disputed].map FaultCode.code = [0x21, 0x22, 0x23, 0x24]

/-- A collision below the eighth failed attempt queues the entry again with one failed attempt more, keeping its request
time, a follow-on merged into it; the articles of a TALLY return to the changed set; with the bus idle a deferral begins
(R53, R59, R65). The eighth abandons the entry: TX_ABANDON with the destination of a QUERY or the article of an alert frame,
the articles of a TALLY back in the changed set, a follow-on as a new entry, the notice to the requester, one more on the
abandon run, below its third in a row, and a deferral with the bus idle (R55, R56). The notice calls for nothing of a TALLY
and a QUERY (R87), a HELLO again in JOINING with HELLO done clear (R141), SHIFT_DROP for the records of a SHIFT, whose ready
filling side moves over with a new request (R43), and the mark LOST on an outstanding alert frame of its kind, unless a
follow-on was held (R91). -/
def Obligations.CollisionRequeuesOrAbandons : Prop :=
  ∀ (s : State) (dt : Time) (f : Flight), s.held = none → s.bsc.flight = some f →
    (f.entry.failed < 7 →
      exec (.txCollision dt) s
        = .next (({ (s.elapse dt).raise .txCollision 0 0 with
            slots := s.slots.map fun sl =>
              if f.moved.contains sl.art.number then { sl with art := { sl.art with changed := true } } else sl
            bsc := { s.bsc with
              flight := none
              waiting := s.bsc.waiting ++
                [match f.followOn with
                  | some x => ({ f.entry with failed := f.entry.failed + 1 } : TxEntry).merge x.req
                  | none => { f.entry with failed := f.entry.failed + 1 }] } } : State).beginDeferral).showLamps)
      ∧ ∀ (u : State) (finish : State → State),
        u = { ((s.elapse dt).raise .txCollision 0 0).raise .txAbandon
                (match f.entry.req with | .query n => n | _ => 0)
                (match f.entry.req with | .alertFrame _ a => a | _ => 0) with
              slots := s.slots.map fun sl =>
                if f.moved.contains sl.art.number then { sl with art := { sl.art with changed := true } } else sl
              bsc := { s.bsc with
                flight := none
                waiting := s.bsc.waiting ++ (f.followOn.map fun e => { e with failed := 0 }).toList } } →
        (∀ x : State, finish x
          = ({ x with bsc := { x.bsc with abandonRun := s.bsc.abandonRun + 1 } } : State).beginDeferral.showLamps) →
        f.entry.failed = 7 → s.bsc.abandonRun < 2 →
        ((∃ n, f.entry.req = .query n) ∨ (∃ v, f.entry.req = .tally v) →
          exec (.txCollision dt) s = .next (finish u))
        ∧ (f.entry.req = .hello → s.stc.state = .joining → s.stc.helloDone = false →
          exec (.txCollision dt) s = .next (finish (u.request .hello)))
        ∧ (f.entry.req = .hello → s.stc.state ≠ .joining ∨ s.stc.helloDone = true →
          exec (.txCollision dt) s = .next (finish u))
        ∧ (f.entry.req = .shift → ∀ lost : State,
            (s.pru.sending = [] ∧ lost = u
              ∨ ∃ x rest, s.pru.sending = x :: rest
                ∧ lost = ({ u with pru := { s.pru with sending := [] } } : State).raiseN .shiftDrop 0 x.article
                    (rest.length + 1)) →
          (s.pru.ready = false ∨ s.speaking = false → exec (.txCollision dt) s = .next (finish lost))
          ∧ (s.pru.ready = true → s.speaking = true →
            exec (.txCollision dt) s
              = .next (finish ({ lost with pru := { s.pru with
                  sending := s.pru.filling, filling := [], ready := false } } : State).requestShift)))
        ∧ (∀ k a, f.entry.req = .alertFrame k a → f.followOn ≠ none →
          exec (.txCollision dt) s = .next (finish u))
        ∧ ∀ k a, f.entry.req = .alertFrame k a → f.followOn = none →
          exec (.txCollision dt) s
            = .next (finish (u.modAlert a fun r =>
                { r with outstanding := r.outstanding.map fun o =>
                    if o.kind = k then { o with standing := .lost } else o }))

/-- The third frame abandoned in a row isolates the station: ISOLATED with its timer of ten seconds, the queue emptied,
the abandon run 0, every alert record QUIET with nothing outstanding, its epoch, known flag and level kept, the shift
batch empty, the beacon and delta timers stopped (R44, R56, R63, R88, R114, R149). An empty SEVERE record takes ISOLATION
of this moment, without subject and article, and a full one counts it (R149, R185, R188). An empty DEGRADE record takes
the TX_ABANDON before it, without a further count of its own, and a full one counts it once (R55, R188); SHIFT_DROP
follows, which counts every record of both sides once (R43, R44), and the DEGRADE record once for each SHIFT_DROP: one for
each side that held records when the abandoned frame is the SHIFT; else a single one for both sides, or, with the SHIFT
queued and both sides holding records, one or one for each side, since the drop notice and the emptying come in either
order (R44, R188; log 8). TX_COLLISION and TX_ABANDON are counted, QUEUE_DROP and every other counter stand (R53, R55,
R63). The articles of a TALLY that was in flight return to the changed set, a record that leaves CLAIMING or OWNER marks
its article through OWNING, and every other mark stands (R65, R70, R82). -/
def Obligations.ThirdAbandonIsolates : Prop :=
  ∀ (s : State) (dt : Time) (f : Flight),
    s.Inv → s.bsc.flight = some f → f.entry.failed = 7 → s.bsc.abandonRun = 2 →
      ∃ t, exec (.txCollision dt) s = .next t
        ∧ t.stc = { s.stc with
            state := .isolated, isolationTimer := some (s.now + dt + 10000000), joinTimer := none, helloDone := false }
        ∧ t.bsc = { s.bsc with
            waiting := [], flight := none, deferral := none, abandonRun := 0, takenCount := t.bsc.takenCount }
        ∧ (∀ sl ∈ t.slots, sl.alert.state = .quiet ∧ sl.alert.owner = none ∧ sl.alert.outstanding = none
            ∧ sl.alert.accepted = false ∧ sl.alert.terminal = none ∧ sl.alert.escalated = false
            ∧ sl.alert.claimSent = false ∧ sl.alert.closing = false ∧ sl.alert.claimHold = none
            ∧ sl.alert.repeatTimer = none ∧ sl.alert.escalationTimer = none ∧ sl.alert.takeover = none
            ∧ sl.art.own.flags.owning = false)
        ∧ t.slots.map (fun sl => (sl.art.config, sl.art.peers)) = s.slots.map (fun sl => (sl.art.config, sl.art.peers))
        ∧ t.slots.map (fun sl => (sl.alert.epoch, sl.alert.known, sl.alert.level))
            = s.slots.map (fun sl => (sl.alert.epoch, sl.alert.known, sl.alert.level))
        ∧ t.pru = { s.pru with filling := [], sending := [], ready := false, readyTimer := none }
        ∧ t.tly = { s.tly with beaconTimer := none, deltaTimer := none }
        ∧ (s.hlu.severe = none →
            t.hlu.severe = some { code := .isolation, subject := 0, article := 0, time := s.now + dt, further := 0 })
        ∧ (∀ c, s.hlu.severe = some c → t.hlu.severe = some { c with further := min 255 (c.further + 1) })
        ∧ (∀ n : Nat, t.hlu.counters[n]? = (s.hlu.counters[n]?).map fun v =>
            if n = 2 ∨ n = 3 then min 255 (v + 1)
            else if n = 8 then min 255 (v + (s.pru.sending ++ s.pru.filling).length)
            else v)
        ∧ (∃ drops sides : Nat, sides = (if s.pru.sending = [] then 0 else 1) + (if s.pru.filling = [] then 0 else 1)
          ∧ (f.entry.req = .shift → drops = sides)
          ∧ (f.entry.req ≠ .shift → (∀ e ∈ s.bsc.waiting, e.req ≠ .shift) → drops = min 1 sides)
          ∧ (f.entry.req ≠ .shift → (∃ e ∈ s.bsc.waiting, e.req = .shift) → drops = min 1 sides ∨ drops = sides)
          ∧ (∀ c, s.hlu.degrade = some c → t.hlu.degrade = some { c with further := min 255 (c.further + 1 + drops) })
          ∧ (s.hlu.degrade = none → t.hlu.degrade
            = some { code := .txAbandon, subject := (match f.entry.req with | .query n => n | _ => 0)
                     article := (match f.entry.req with | .alertFrame _ a => a | _ => 0), time := s.now + dt
                     further := drops }))
        ∧ t.slots = s.slots.map (fun sl =>
            { art := { sl.art with
                own := { sl.art.own with flags := { sl.art.own.flags with owning := false } }
                changed := sl.art.changed || f.moved.contains sl.art.number
                  || sl.alert.state == .claiming || sl.alert.state == .owner }
              alert := { sl.alert with
                state := .quiet, owner := none, outstanding := none, accepted := false, terminal := none
                escalated := false, claimSent := false, closing := false, claimHold := none, repeatTimer := none
                escalationTimer := none, takeover := none } })
        ∧ (s.hlu.degrade = none → ∃ n, t.hlu.degrade
            = some { code := .txAbandon, subject := (match f.entry.req with | .query n => n | _ => 0)
                     article := (match f.entry.req with | .alertFrame _ a => a | _ => 0), time := s.now + dt
                     further := n })
        ∧ t.now = s.now + dt ∧ t.channels = s.channels ∧ t.bays = s.bays ∧ t.peers = s.peers ∧ t.alu = s.alu
        ∧ t.held = none ∧ t.lamps = t.bays.map t.selectPattern ∧ t.pending = s.pending

/-- A TALLY completes: it leaves the queue, the sequence counter advances modulo 256, the abandon run is 0; a FULL empties
the capture records; the delta timer stops, or runs 250 ms when the changed set is not empty (R54, R59, R62, R66, R85,
R192; logs 12 and 4 for the line). -/
def Obligations.CompletedTallyAdvancesTheSequence : Prop :=
  ∀ (s : State) (dt : Time) (f : Flight) (v : Variant),
    s.held = none → s.bsc.flight = some f → f.entry.req = .tally v →
      exec (.attemptComplete dt) s
        = .next ({ s.elapse dt with
            bsc := { s.bsc with
              flight := none, abandonRun := 0, busy := true, rx := { s.bsc.rx with own := true }
              seq := s.bsc.seq + 1
              waiting := s.bsc.waiting ++ (f.followOn.map fun e => { e with failed := 0 }).toList }
            hlu := if v = .full then { s.hlu with degrade := none, severe := none } else s.hlu
            tly := { s.tly with
              lastCompletion := some (s.now + dt)
              deltaTimer := if s.slots.any (fun sl => sl.art.changed) then some (s.now + dt + 250000) else none } } :
            State).showLamps

/-- What every completed frame of another kind does at the queue (R54, R59), and what its requester does: a QUERY nothing
more (R87); a HELLO in JOINING sets HELLO done and starts the join window (R141); a SHIFT empties the sending side, and a
ready filling side moves over (R42). An alert frame said to have had a follow-on goes to no rule of its record (R91). Any
other takes an outstanding frame of its own kind off the ledger and leaves one of another kind (R91). Then a CLAIM of a
record in CLAIMING sets claim sent and starts the claim hold of 300 ms (R99); a CLEAR that was outstanding takes a record in
OWNER, or closing in CLAIMING, into QUIET (R101, R125; `QuietRecordClaimsWhenShort` says what that entry does); and
otherwise, an ALERT (R119) and a CLAIM of a record elsewhere (R99) among it, nothing more happens. -/
def Obligations.CompletedFrameTellsItsRequester : Prop :=
  ∀ (s : State) (dt : Time) (f : Flight), s.held = none → s.bsc.flight = some f →
    ∀ b, b = { s.bsc with
        flight := none, abandonRun := 0, busy := true, rx := { s.bsc.rx with own := true }
        waiting := s.bsc.waiting ++ (f.followOn.map fun e => { e with failed := 0 }).toList } →
      (∀ n, f.entry.req = .query n →
        exec (.attemptComplete dt) s = .next ({ s.elapse dt with bsc := b } : State).showLamps)
      ∧ (f.entry.req = .hello → s.stc.state = .joining → s.stc.helloDone = false →
        exec (.attemptComplete dt) s
          = .next ({ s.elapse dt with
              bsc := b, stc := { s.stc with helloDone := true, joinTimer := some (s.now + dt + 2000000) } } :
              State).showLamps)
      ∧ (f.entry.req = .hello → s.stc.state ≠ .joining ∨ s.stc.helloDone = true →
        exec (.attemptComplete dt) s = .next ({ s.elapse dt with bsc := b } : State).showLamps)
      ∧ (f.entry.req = .shift → s.pru.ready = false →
        exec (.attemptComplete dt) s
          = .next ({ s.elapse dt with bsc := b, pru := { s.pru with sending := [] } } : State).showLamps)
      ∧ (f.entry.req = .shift → s.pru.ready = true →
        exec (.attemptComplete dt) s
          = .next ({ s.elapse dt with
              bsc := b, pru := { s.pru with sending := s.pru.filling, filling := [], ready := false } } :
              State).requestShift.showLamps)
      ∧ (∀ k a, f.entry.req = .alertFrame k a → f.followOn ≠ none →
        exec (.attemptComplete dt) s = .next ({ s.elapse dt with bsc := b } : State).showLamps)
      ∧ ∀ k a sl, f.entry.req = .alertFrame k a → f.followOn = none → s.slot? a = some sl →
        ∀ ledger : Alert → Alert,
          ((∃ q, sl.alert.outstanding = some { kind := k, standing := q })
                ∧ (∀ r, ledger r = { r with outstanding := none })
              ∨ (∀ q, sl.alert.outstanding ≠ some { kind := k, standing := q }) ∧ ∀ r, ledger r = r) →
        (k = .claim → sl.alert.state = .claiming →
          exec (.attemptComplete dt) s
            = .next (({ s.elapse dt with bsc := b } : State).modAlert a fun r =>
                { ledger r with claimSent := true, claimHold := some (s.now + dt + 300000) }).showLamps)
        ∧ (k = .clear → (∃ q, sl.alert.outstanding = some { kind := .clear, standing := q }) →
            sl.alert.state = .owner ∨ sl.alert.state = .claiming ∧ sl.alert.closing = true →
          exec (.attemptComplete dt) s
            = .next ((({ s.elapse dt with bsc := b } : State).modAlert a ledger).enterQuiet a).showLamps)
        ∧ (k = .alert
            ∨ k = .claim ∧ sl.alert.state ≠ .claiming
            ∨ k = .clear ∧ (sl.alert.state = .quiet ∨ sl.alert.state = .follower
                ∨ sl.alert.state = .claiming ∧ sl.alert.closing = false
                ∨ ∀ q, sl.alert.outstanding ≠ some { kind := .clear, standing := q }) →
          exec (.attemptComplete dt) s
            = .next (({ s.elapse dt with bsc := b } : State).modAlert a ledger).showLamps)

/-! ### Frames heard -/

/-- Every frame with a valid source and a payload length allowed for its kind reads back as it was built: header, payload
and CRC, character by character (R46, R47, R196, R199). Its bytes are LEN, KIND, SRC, DST, SEQ, the payload and the CRC of
these; every field is read most significant byte first (R196). The payloads of R198, byte by byte: article and epoch of a
CLAIM, ALERT, CLEAR and ACCEPT; level of a CLAIM and ALERT, a byte other than 0x01 and 0x02 read as NONE; status and
accepting terminal of an ALERT, the terminal absent with accepted clear and at a byte of 0 or above 30; the records of a
SHIFT, the source bay not read; the pairs of a HELLO, its cause bytes not read. A CLAIM, ALERT and CLEAR are built so, and
a SHIFT's record; a HELLO's building is in `DeferralEndSendsTheHeadAsItStands`. -/
def Obligations.FramesReadBackAsBuilt : Prop :=
  (∀ f : Frame, 1 ≤ f.src → f.src ≤ 30 → f.dst ≤ 255 → payloadAllowed f.kind f.payload = true →
      (Receiver.reset.hearAll f.characters).check = .passed f)
    ∧ (∀ f : Frame, f.characters = f.bytes.map (fun b => { byte := b, stop := true })
      ∧ ∀ body, body = [BitVec.ofNat 8 (f.payload.length + 7), f.kind.code, BitVec.ofNat 8 f.src, BitVec.ofNat 8 f.dst,
            f.seq] ++ f.payload →
        f.bytes = body ++ [BitVec.ofNat 8 ((crc16 body).toNat / 256), BitVec.ofNat 8 (crc16 body).toNat])
    ∧ (∀ (l : List Byte) (offset width : Nat), field l offset 0 = 0
      ∧ ∀ b, l[offset + width]? = some b → field l offset (width + 1) = field l offset width * 256 + b.toNat)
    ∧ (∀ (a0 a1 a2 e0 e1 level status terminal : Byte) (rest : List Byte) (article : Nat) (epoch : Epoch) (l : Level),
      article = a0.toNat * 65536 + a1.toNat * 256 + a2.toNat → epoch = BitVec.ofNat 16 (e0.toNat * 256 + e1.toNat) →
      (level = 0x01 ∧ l = .low ∨ level = 0x02 ∧ l = .empty ∨ level ≠ 0x01 ∧ level ≠ 0x02 ∧ l = .none) →
        alertArticle (a0 :: a1 :: a2 :: e0 :: e1 :: rest) = article
          ∧ alertEpoch (a0 :: a1 :: a2 :: e0 :: e1 :: rest) = epoch
          ∧ readClaim [a0, a1, a2, e0, e1, level]
              = { article := article, epoch := epoch, level := l, accepted := false, terminal := none
                  escalated := false }
          ∧ readAlert [a0, a1, a2, e0, e1, level, status, terminal]
              = { article := article, epoch := epoch, level := l
                  accepted := status.getLsbD 0
                  terminal := if status.getLsbD 0 = true ∧ 1 ≤ terminal.toNat ∧ terminal.toNat ≤ 30 then
                      some terminal.toNat else none
                  escalated := status.getLsbD 1 })
    ∧ (∀ (r : Alert) (a : Nat) (opening : List Byte),
      opening = [BitVec.ofNat 8 (a / 65536), BitVec.ofNat 8 (a / 256), BitVec.ofNat 8 a,
          BitVec.ofNat 8 (r.epoch.toNat / 256), BitVec.ofNat 8 r.epoch.toNat] →
        r.payload a .clear = opening
          ∧ ∀ level : Byte, (r.level = .none ∧ level = 0x00 ∨ r.level = .low ∧ level = 0x01
              ∨ r.level = .empty ∧ level = 0x02) →
            r.payload a .claim = opening ++ [level]
              ∧ r.payload a .alert = opening ++ [level,
                  BitVec.ofNat 8 ((if r.accepted then 1 else 0) + if r.escalated then 2 else 0),
                  BitVec.ofNat 8 (if r.accepted then r.terminal.getD 0 else 0)])
    ∧ (∀ t : Take, t.bytes
        = [BitVec.ofNat 8 t.bay, BitVec.ofNat 8 (t.article / 65536), BitVec.ofNat 8 (t.article / 256),
            BitVec.ofNat 8 t.article, BitVec.ofNat 8 (t.unitWeight / 16777216), BitVec.ofNat 8 (t.unitWeight / 65536),
            BitVec.ofNat 8 (t.unitWeight / 256), BitVec.ofNat 8 t.unitWeight, BitVec.ofNat 8 (t.units / 256),
            BitVec.ofNat 8 t.units])
    ∧ (shiftRecords [] = []
      ∧ ∀ (bay a0 a1 a2 w0 w1 w2 w3 u0 u1 : Byte) (rest : List Byte),
        shiftRecords (bay :: a0 :: a1 :: a2 :: w0 :: w1 :: w2 :: w3 :: u0 :: u1 :: rest)
          = { article := a0.toNat * 65536 + a1.toNat * 256 + a2.toNat
              unitWeight := w0.toNat * 16777216 + w1.toNat * 65536 + w2.toNat * 256 + w3.toNat
              units := u0.toNat * 256 + u1.toNat } :: shiftRecords rest)
    ∧ ∀ (c0 c1 : Byte), helloPairs [c0, c1] = []
      ∧ ∀ (a0 a1 a2 d0 d1 : Byte) (rest : List Byte),
        helloPairs (c0 :: c1 :: a0 :: a1 :: a2 :: d0 :: d1 :: rest)
          = (a0.toNat * 65536 + a1.toNat * 256 + a2.toNat, BitVec.ofNat 16 (d0.toNat * 256 + d1.toNat))
              :: helloPairs (c0 :: c1 :: rest)

/-- The entries of a TALLY read back as they were built, an unknown epoch as absent. An entry is article, units, flags and
epoch, a flag each bit; read, bits 6 and 7 are not examined, and UNKNOWN makes the epoch absent whatever its field holds. The
variant byte is 0x01 for DELTA and 0x02 for FULL, and the entries stand after it, before the 35 bytes that end a FULL (R197).
The CRC takes each byte into the upper half of its register and shifts eight times, from 0xFFFF, and has the check values of
the manual (R199). -/
def Obligations.TallyEntriesReadBackAsBuilt : Prop :=
  (∀ (e : TallyEntry) (x : Nat), x = (e.epoch.map BitVec.toNat).getD 0 → e.bytes
        = [BitVec.ofNat 8 (e.article / 65536), BitVec.ofNat 8 (e.article / 256), BitVec.ofNat 8 e.article,
            BitVec.ofNat 8 (e.units / 256), BitVec.ofNat 8 e.units,
            BitVec.ofNat 8 ((if e.flags.fault then 1 else 0) + (if e.flags.unsteady then 2 else 0)
              + (if e.flags.stray then 4 else 0) + (if e.flags.owning then 8 else 0)
              + (if e.flags.disputed then 16 else 0) + if e.epoch = none then 32 else 0),
            BitVec.ofNat 8 (x / 256), BitVec.ofNat 8 x])
    ∧ (∀ rest : List Byte, tallyVariant (0x01 :: rest) = .delta ∧ tallyVariant (0x02 :: rest) = .full)
    ∧ (∀ (v a0 a1 a2 u0 u1 flags e0 e1 : Byte) (rest : List Byte), v = 0x01 ∨ v = 0x02 ∧ 35 ≤ rest.length →
      tallyEntries (v :: a0 :: a1 :: a2 :: u0 :: u1 :: flags :: e0 :: e1 :: rest)
        = { article := a0.toNat * 65536 + a1.toNat * 256 + a2.toNat, units := u0.toNat * 256 + u1.toNat
            flags := { fault := flags.getLsbD 0, unsteady := flags.getLsbD 1, stray := flags.getLsbD 2
                       owning := flags.getLsbD 3, disputed := flags.getLsbD 4 }
            epoch := if flags.getLsbD 5 then none else some (BitVec.ofNat 16 (e0.toNat * 256 + e1.toNat)) }
          :: tallyEntries (v :: rest))
    ∧ (∀ shift : Crc → Crc, (∀ r, shift r = if r.getLsbD 15 then (r <<< 1) ^^^ 0x1021#16 else r <<< 1) →
      ∀ (l : List Byte) (b : Byte), crc16 (l ++ [b])
        = shift (shift (shift (shift (shift (shift (shift (shift (crc16 l ^^^ (b.setWidth 16 <<< 8))))))))))
    ∧ (∀ l : List TallyEntry, (∀ e ∈ l, e.article < 2 ^ 24 ∧ e.units < 2 ^ 16) →
      tallyEntries (0x01 :: l.flatMap TallyEntry.bytes) = l
        ∧ ∀ h : List Byte, h.length = 35 → tallyEntries (0x02 :: l.flatMap TallyEntry.bytes ++ h) = l)
    ∧ crc16 [0x31, 0x32, 0x33, 0x34, 0x35, 0x36, 0x37, 0x38, 0x39] = 0x29B1 ∧ crc16 [] = 0xFFFF

/-- A TALLY sets its sender's contribution to each listed article it holds (R74), the last entry standing; for the others
a FULL sets 0 units FRESH (R77), and a DELTA goes by the continuity of the sequence (R75). Totals follow the contributions
(R71), no other contribution moves, and the sender's baseline and stale timer are set (R75). Then the alert unit takes the
entries taken, in frame order, while it still goes by the aggregates before the frame, and after them the article notices
(R78, R92); what the notices do `QuietRecordClaimsWhenShort` says. A gap in a DELTA of a sharing peer raises TALLY_GAP,
and with the hold-off over, in JOINING and RUNNING, requests a QUERY, counts it and sets the hold-off; else none is
requested (R75, R76); any other DELTA requests nothing. Each entry for a held article whose holders do not list the sender
raises UNLISTED_HOLDER (R74), and then each contribution of the sender that a FULL does not list raises MISSING_ENTRY, in
table order (R77), before anything that the alert unit brings about. An entry raises an unknown or older epoch of a record
in QUIET and does nothing else there (R95); one with OWNING and precedence makes a record in CLAIMING or OWNER yield, with
CLAIM_YIELD, and one of another follower's owner change it (R106; claim sent and closing clear there: the model's choice,
log 30); the owner's own entry raises the epoch, or ends the episode without OWNING (R131); with OWNING and an UNKNOWN
epoch it changes nothing, which is the model's reading (DEDUCED, log 26). -/
def Obligations.TallySetsTheSendersContributions : Prop :=
  (∀ (s : State) (dt : Time) (heard : List Character) (f : Frame), s.Inv → s.takes heard f → f.kind = .tally →
    ∃ t, exec (.tally dt heard) s = .next t
      ∧ (∀ a sl, s.slot? a = some sl → ∃ sl', t.slot? a = some sl' ∧ sl'.art.config = sl.art.config
        ∧ sl'.art.aggregate = sl'.art.total ∧ sl'.art.coverage = sl'.art.cover
        ∧ sl'.art.peers = sl.art.peers.map fun x =>
            if x.holder = f.src then
              match (tallyEntries f.payload).reverse.find? (fun e => e.article == a), tallyVariant f.payload,
                  (s.peer? f.src).bind Peer.baseline with
              | some e, _, _ => { x with units := e.units, state := .fresh }
              | none, .full, _ => { x with units := 0, state := .fresh }
              | none, .delta, none => x
              | none, .delta, some b =>
                if f.seq = b + 1 then (if x.state = .stale then { x with state := .fresh } else x)
                else if x.state = .stale then x else { x with state := .doubtful }
            else x)
      ∧ (∃ p, t.peer? f.src = some p ∧ p.baseline = some f.seq ∧ p.staleTimer = some (s.now + dt + s.tly.staleTime))
      ∧ (∀ n, n ≠ f.src → t.peer? n = s.peer? n)
      ∧ (∀ h : Health, h = (tallyEntries f.payload).foldl (fun h e =>
            if (s.slot? e.article).any fun sl => !sl.art.holders.contains f.src then
              h.take .unlistedHolder f.src e.article 1 (s.now + dt)
            else h) s.hlu →
        ∃ u : State,
          t = ((((tallyEntries f.payload).filter fun e =>
                (s.slot? e.article).any fun sl => sl.art.holders.contains f.src).foldl
              (fun x e => x.takeEntry f.src e (s.aggregate e.article)) u).giveNotices
              (noticesBetween s.slots u.slots)).showLamps
          ∧ u.slots.map (fun sl => { sl.alert with outstanding := none })
              = s.slots.map (fun sl => { sl.alert with outstanding := none })
          ∧ u.slots.map (fun sl => sl.art.own) = s.slots.map (fun sl => sl.art.own)
          ∧ (∀ b, tallyVariant f.payload = .delta → (s.peer? f.src).bind Peer.baseline = some b → f.seq ≠ b + 1 →
              s.sharingPeer f.src = true → ∃ v : State, v.bsc = s.bsc ∧ v.now = s.now + dt ∧ v.stc = s.stc
                ∧ v.hlu.degrade = (h.take .tallyGap f.src 0 1 (s.now + dt)).degrade ∧ v.hlu.severe = h.severe
                ∧ v.hlu.counters[5]? = (s.hlu.counters[5]?).map (fun n => min 255 (n + 1))
                ∧ (s.speaking = true → (∀ e, (s.peer? f.src).bind Peer.holdOff = some e → e ≤ s.now + dt) →
                    v.hlu.counters[6]? = (s.hlu.counters[6]?).map (fun n => min 255 (n + 1))
                    ∧ (v.peer? f.src).bind Peer.holdOff = some (s.now + dt + 5000000)
                    ∧ u = v.request (.query f.src))
                ∧ (s.speaking = false ∨ (∃ e, (s.peer? f.src).bind Peer.holdOff = some e ∧ s.now + dt < e) →
                    v.hlu.counters[6]? = s.hlu.counters[6]?
                    ∧ (v.peer? f.src).bind Peer.holdOff = (s.peer? f.src).bind Peer.holdOff ∧ u = v))
          ∧ (tallyVariant f.payload = .full ∨ s.sharingPeer f.src = false
              ∨ (∀ b, (s.peer? f.src).bind Peer.baseline = some b → f.seq = b + 1) →
              u.bsc = s.bsc ∧ u.hlu.counters[5]? = s.hlu.counters[5]? ∧ u.hlu.counters[6]? = s.hlu.counters[6]?
                ∧ (tallyVariant f.payload = .delta → u.hlu = h))
          ∧ (tallyVariant f.payload = .full →
              u.hlu = (s.slots.filter fun sl =>
                  (sl.art.peers.any fun x => x.holder == f.src)
                    && !(tallyEntries f.payload).any fun e => e.article == sl.art.number).foldl
                (fun h sl => h.take .missingEntry f.src sl.art.number 1 (s.now + dt)) h))
      ∧ t.now = s.now + dt ∧ t.bays = s.bays ∧ t.stc = s.stc ∧ t.pru.pendingTakes = s.pru.pendingTakes
      ∧ t.bsc.seq = s.bsc.seq ∧ t.pending = s.pending)
    ∧ ∀ (s : State) (station n : Nat) (e : TallyEntry) (a : Nat) (sl : Slot), a = e.article → s.slot? a = some sl →
      ∀ precedes : Nat → Epoch → Prop,
        (∀ reference x, precedes reference x
          ↔ newer x sl.alert.epoch = true ∨ x = sl.alert.epoch ∧ station < reference) →
      (∀ x, sl.alert.state = .quiet → e.epoch = some x → sl.alert.known = false ∨ newer x sl.alert.epoch = true →
        s.takeEntry station e n = s.modAlert a fun r => { r with epoch := x, known := true })
      ∧ (sl.alert.state = .quiet →
          (∀ x, e.epoch = some x → sl.alert.known = true ∧ newer x sl.alert.epoch = false) →
        s.takeEntry station e n = s)
      ∧ (∀ (x : Epoch) (w y : State),
          sl.alert.state = .claiming ∨ sl.alert.state = .owner → e.flags.owning = true → e.epoch = some x →
          precedes s.ownNumber x →
          (sl.alert.outstanding = none ∧ w = s
            ∨ ∃ o, sl.alert.outstanding = some o
              ∧ w = (s.withdraw (.alertFrame o.kind a)).modAlert a fun r => { r with outstanding := none }) →
          y = (((w.modAlert a fun r =>
              { r with
                state := .follower, owner := some station, epoch := x, known := true
                level := if sl.alert.level = .none then .low else sl.alert.level
                accepted := false, escalated := false, terminal := none, claimSent := false, closing := false
                claimHold := none, repeatTimer := none, escalationTimer := none, takeover := none }).tellOwning a
              false).raise .claimYield station a) →
        (sl.art.staleHolder station = false → s.takeEntry station e n = y)
        ∧ (sl.art.staleHolder station = true →
          s.takeEntry station e n
            = y.modAlert a fun r => { r with takeover := some (s.now + ms (sl.art.rank s.ownNumber * 500)) }))
      ∧ (∀ x, sl.alert.state = .claiming ∨ sl.alert.state = .owner → e.flags.owning = true → e.epoch = some x →
          precedes s.ownNumber x →
        ∃ sl', (s.takeEntry station e n).slot? a = some sl'
          ∧ sl'.alert = { sl.alert with
              state := .follower, owner := some station, epoch := x, known := true
              level := if sl.alert.level = .none then .low else sl.alert.level
              accepted := false, escalated := false, terminal := none, claimSent := false, closing := false
              outstanding := none, claimHold := none, repeatTimer := none, escalationTimer := none
              takeover := if sl.art.staleHolder station then
                  some (s.now + ms (sl.art.rank s.ownNumber * 500)) else none }
          ∧ sl'.art.own.flags.owning = false
          ∧ (s.takeEntry station e n).hlu.counters[12]? = (s.hlu.counters[12]?).map fun v => min 255 (v + 1))
      ∧ (sl.alert.state = .claiming ∨ sl.alert.state = .owner →
          (∀ x, e.flags.owning = true → e.epoch = some x → ¬ precedes s.ownNumber x) →
        s.takeEntry station e n = s)
      ∧ (∀ x, sl.alert.state = .follower → sl.alert.owner = some station → e.flags.owning = true → e.epoch = some x →
          newer x sl.alert.epoch = true →
        s.takeEntry station e n
          = s.modAlert a fun r => { r with epoch := x, accepted := false, terminal := none, escalated := false })
      ∧ (sl.alert.state = .follower → sl.alert.owner = some station → e.flags.owning = true →
          (∀ x, e.epoch = some x → newer x sl.alert.epoch = false) →
        s.takeEntry station e n = s)
      ∧ (sl.alert.state = .follower → sl.alert.owner = some station → e.flags.owning = false →
        (∀ x, e.epoch = some x → newer x sl.alert.epoch = true →
          s.takeEntry station e n = (s.modAlert a fun r => { r with epoch := x }).enterQuietSeeing a n)
        ∧ ((∀ x, e.epoch = some x → newer x sl.alert.epoch = false) →
          s.takeEntry station e n = s.enterQuietSeeing a n))
      ∧ ∀ o, sl.alert.state = .follower → sl.alert.owner = some o → o ≠ station →
        (∀ x, e.flags.owning = true → e.epoch = some x → precedes o x →
          s.takeEntry station e n
            = s.modAlert a fun r =>
                { r with
                  state := .follower, owner := some station, epoch := x, known := true, level := sl.alert.level
                  accepted := false, escalated := false, terminal := none, claimSent := false, closing := false
                  claimHold := none, repeatTimer := none, escalationTimer := none
                  takeover := if sl.art.staleHolder station then
                      some (s.now + ms (sl.art.rank s.ownNumber * 500)) else none })
        ∧ ((∀ x, e.flags.owning = true → e.epoch = some x → ¬ precedes o x) → s.takeEntry station e n = s)

/-- A HELLO marks the held articles whose digest differs DISPUTED, in the article record and, as the tally unit takes it,
in the own flags, with the event DISPUTED for each (R70, R145), and makes the sender's baseline absent (R81);
contributions, bays, pending takes and the station controller stand. Its requests come in this order (R144): a HELLO in
reply in JOINING and RUNNING when a flag was set anew (R146); a FULL there when the sender is a sharing peer (R81); an
ALERT for each record in OWNER, closing clear, whose holders list the sender (R132). -/
def Obligations.HelloMarksDisputesAndClearsTheBaseline : Prop :=
  (∀ (s : State) (dt : Time) (heard : List Character) (f : Frame), s.Inv → s.takes heard f → f.kind = .hello →
    ∃ t, exec (.hello dt heard) s = .next t
      ∧ (∀ a sl, s.slot? a = some sl → ∃ sl', t.slot? a = some sl' ∧ sl'.art.config = sl.art.config
        ∧ sl'.art.disputed
            = (sl.art.disputed || (helloPairs f.payload).any fun p => p.1 == a && p.2 != sl.art.digest)
        ∧ sl'.art.own.flags.disputed = sl'.art.disputed ∧ sl'.art.own.units = sl.art.own.units
        ∧ sl'.art.peers = sl.art.peers)
      ∧ t.peers = (s.modPeer f.src fun p => { p with baseline := none }).peers
      ∧ (∀ u v w : State,
          u = (helloPairs f.payload).foldl (State.compareDigest f.src) (s.elapse dt) →
          v = (if s.speaking && (helloPairs f.payload).any (fun p =>
                (s.slot? p.1).any fun sl => sl.art.digest != p.2 && !sl.art.disputed) then u.request .hello else u) →
          w = (if s.speaking && s.sharingPeer f.src then
                (v.modPeer f.src fun p => { p with baseline := none }).request (.tally .full)
              else v.modPeer f.src fun p => { p with baseline := none }) →
          t = ((w.slots.map fun sl => sl.art.number).foldl (State.resendRecord f.src) w).showLamps)
      ∧ t.now = s.now + dt ∧ t.bays = s.bays ∧ t.stc = s.stc ∧ t.pru.pendingTakes = s.pru.pendingTakes
      ∧ t.bsc.seq = s.bsc.seq ∧ t.pending = s.pending)
    ∧ (∀ (s : State) (a : Nat), s.markDisputed a
      = (s.modArticle a fun r => { r with disputed := true }).ownUpdate a fun o =>
          { o with flags := { o.flags with disputed := true } })
    ∧ ∀ (s : State) (source a : Nat) (sl : Slot), s.slot? a = some sl →
      (∀ x, sl.art.digest ≠ x → sl.art.disputed = false →
        s.compareDigest source (a, x) = (s.raise .disputed source a).markDisputed a)
      ∧ (∀ x, sl.art.digest = x ∨ sl.art.disputed = true → s.compareDigest source (a, x) = s)
      ∧ (sl.alert.state = .owner → source ∈ sl.art.holders → sl.alert.closing = false →
        s.resendRecord source a
          = (s.modAlert a fun r => { r with outstanding := some { kind := .alert, standing := .requested } }).request
              (.alertFrame .alert a))
      ∧ (sl.alert.state ≠ .owner ∨ source ∉ sl.art.holders ∨ sl.alert.closing = true → s.resendRecord source a = s)

/-- A QUERY addressed to the station is answered with a FULL in JOINING and RUNNING; one to station 0, and one in ISOLATED,
is discarded (R86). -/
def Obligations.QueryIsAnsweredWithAFull : Prop :=
  ∀ (s : State) (dt : Time) (heard : List Character) (f : Frame), s.takes heard f → f.kind = .query →
    (f.dst = s.ownNumber → f.dst ≠ 0 → s.speaking = true →
      exec (.query dt heard) s = .next ((s.elapse dt).request (.tally .full)).showLamps)
      ∧ (f.dst = 0 ∨ s.stc.state = .isolated → exec (.query dt heard) s = .next (s.elapse dt).showLamps)

/-- A CLAIM or ALERT of level LOW or EMPTY from a holder: a record in QUIET follows its sender at an unknown, equal or
newer epoch (R104), and a record in FOLLOWER takes its owner's own report at an equal or newer epoch (R126) and changes
its owner at precedence (R105); the takeover delay, the station's rank times 500 ms, starts for an owner whose
contribution is STALE, and the rank is the position in the holder list, counted from 1 (R67, R109). That claim sent and
closing are clear in a record that follows so is the model's choice (log 30). One for an article not held, from a sender
that is not a holder, at level NONE, or without the epoch or number that the state of the record asks for, is ignored
without an event (R96, R102). An article has one record of each table, found by its number. -/
def Obligations.ReportIsFollowedOrIgnored : Prop :=
  (∀ (s : State) (a : Nat), s.slot? a = s.slots.find? (fun sl => sl.art.number == a)
      ∧ (∀ f, s.modAlert a f
        = { s with slots := s.slots.map fun sl => if sl.art.number = a then { sl with alert := f sl.alert } else sl })
      ∧ ∀ f, s.modArticle a f
        = { s with slots := s.slots.map fun sl => if sl.art.number = a then { sl with art := f sl.art } else sl })
    ∧ (∀ n : Nat, ms n = n * 1000)
    ∧ (∀ (r : Article) (n : Nat), (r.staleHolder n = true ↔ ∃ x, r.peers.find? (fun x => x.holder == n) = some x ∧ x.state = .stale)
      ∧ (n ∈ r.holders → 1 ≤ r.rank n ∧ r.holders[r.rank n - 1]? = some n ∧ n ∉ r.holders.take (r.rank n - 1)))
    ∧ ∀ (s : State) (dt : Time) (heard : List Character) (f : Frame) (p : Report), s.takes heard f →
    (f.kind = .claim ∧ p = readClaim f.payload) ∨ (f.kind = .alert ∧ p = readAlert f.payload) →
      (∀ sl, s.slot? p.article = some sl → f.src ∈ sl.art.holders → p.level ≠ .none →
        (sl.alert.state = .quiet
            ∧ (sl.alert.known = false ∨ p.epoch = sl.alert.epoch ∨ newer p.epoch sl.alert.epoch = true)
          ∨ sl.alert.state = .follower ∧ ∃ o, sl.alert.owner = some o ∧ o ≠ f.src
              ∧ (newer p.epoch sl.alert.epoch = true ∨ p.epoch = sl.alert.epoch ∧ f.src < o)) →
        exec (f.kind.command dt heard) s
          = .next ((s.elapse dt).modAlert p.article fun r =>
              { r with
                state := .follower, owner := some f.src, epoch := p.epoch, known := true, level := p.level
                accepted := p.accepted, escalated := p.escalated, terminal := none, claimSent := false, closing := false
                claimHold := none, repeatTimer := none, escalationTimer := none
                takeover := if sl.art.staleHolder f.src then
                    some (s.now + dt + ms (sl.art.rank s.ownNumber * 500)) else none }).showLamps)
      ∧ (∀ sl, s.slot? p.article = some sl → f.src ∈ sl.art.holders → p.level ≠ .none →
          sl.alert.state = .follower → sl.alert.owner = some f.src →
          p.epoch = sl.alert.epoch ∨ newer p.epoch sl.alert.epoch = true →
        exec (f.kind.command dt heard) s
          = .next ((s.elapse dt).modAlert p.article fun r =>
              { r with
                epoch := p.epoch, level := p.level, accepted := p.accepted, terminal := none
                escalated := p.escalated }).showLamps)
      ∧ ((s.slot? p.article = none ∨ ∃ sl, s.slot? p.article = some sl
          ∧ (f.src ∉ sl.art.holders ∨ p.level = .none
            ∨ (sl.alert.state = .quiet ∧ sl.alert.known = true ∧ p.epoch ≠ sl.alert.epoch
                ∧ newer p.epoch sl.alert.epoch = false)
            ∨ ((sl.alert.state = .claiming ∨ sl.alert.state = .owner) ∧ newer p.epoch sl.alert.epoch = false
                ∧ (p.epoch ≠ sl.alert.epoch ∨ s.ownNumber ≤ f.src))
            ∨ (sl.alert.state = .follower ∧ newer p.epoch sl.alert.epoch = false
                ∧ ∃ o, sl.alert.owner = some o ∧ (p.epoch ≠ sl.alert.epoch ∨ o < f.src)))) →
        exec (f.kind.command dt heard) s = .next (s.elapse dt).showLamps)

/-- A record in CLAIMING or OWNER yields to a CLAIM or ALERT with precedence (R102, R103): the outstanding frame is
withdrawn, the record follows the sender, the tally unit is told, CLAIM_YIELD is raised, and the takeover delay starts for
a sender whose contribution is STALE, in this order and nothing else; so nothing is outstanding or queued of the frame it
had out, OWNING is clear, and CLAIM_YIELD is counted (R183, R186). A withdrawal removes a QUEUED entry of the request's
kind and key, and the deferral ends when no entry is left QUEUED (R51); it discards such a follow-on; the entry IN FLIGHT
goes on; nothing else moves and no event is raised (R61). -/
def Obligations.ReportWithPrecedenceMakesItYield : Prop :=
  (∀ (s : State) (r : Request) (kept : List TxEntry), kept = s.bsc.waiting.filter (fun e => e.req ≠ r) →
    s.withdraw r
      = { s with bsc := { s.bsc with
          waiting := kept
          flight := s.bsc.flight.map fun f => { f with followOn := f.followOn.filter fun e => e.req ≠ r }
          deferral := if kept = [] then none else s.bsc.deferral } })
    ∧ ∀ (s : State) (dt : Time) (heard : List Character) (f : Frame) (p : Report) (sl : Slot), s.takes heard f →
    (f.kind = .claim ∧ p = readClaim f.payload) ∨ (f.kind = .alert ∧ p = readAlert f.payload) →
    s.slot? p.article = some sl → f.src ∈ sl.art.holders → p.level ≠ .none →
    sl.alert.state = .claiming ∨ sl.alert.state = .owner →
    newer p.epoch sl.alert.epoch = true ∨ p.epoch = sl.alert.epoch ∧ f.src < s.ownNumber →
      (∀ w y : State,
        (sl.alert.outstanding = none ∧ w = s.elapse dt
          ∨ ∃ o, sl.alert.outstanding = some o
            ∧ w = ((s.elapse dt).withdraw (.alertFrame o.kind p.article)).modAlert p.article
              fun r => { r with outstanding := none }) →
        y = (((w.modAlert p.article fun r =>
            { r with
              state := .follower, owner := some f.src, epoch := p.epoch, known := true, level := p.level
              accepted := p.accepted, escalated := p.escalated, terminal := none, claimSent := false, closing := false
              claimHold := none, repeatTimer := none, escalationTimer := none, takeover := none }).tellOwning p.article
            false).raise .claimYield f.src p.article) →
        (sl.art.staleHolder f.src = false → exec (f.kind.command dt heard) s = .next y.showLamps)
        ∧ (sl.art.staleHolder f.src = true →
          exec (f.kind.command dt heard) s
            = .next (y.modAlert p.article fun r =>
              { r with takeover := some (s.now + dt + ms (sl.art.rank s.ownNumber * 500)) }).showLamps))
      ∧ ∃ t sl', exec (f.kind.command dt heard) s = .next t ∧ t.slot? p.article = some sl'
        ∧ sl'.alert = { sl.alert with
            state := .follower, owner := some f.src, epoch := p.epoch, known := true, level := p.level
            accepted := p.accepted, escalated := p.escalated, terminal := none, claimSent := false, closing := false
            outstanding := none, claimHold := none, repeatTimer := none, escalationTimer := none
            takeover := if sl.art.staleHolder f.src then
                some (s.now + dt + ms (sl.art.rank s.ownNumber * 500)) else none }
        ∧ sl'.art.own.flags.owning = false
        ∧ (∀ o, sl.alert.outstanding = some o → ∀ e ∈ t.bsc.waiting, e.req ≠ .alertFrame o.kind p.article)
        ∧ t.hlu.counters[12]? = (s.hlu.counters[12]?).map (fun v => min 255 (v + 1)) ∧ t.hlu.severe = s.hlu.severe
        ∧ t.now = s.now + dt ∧ t.bays = s.bays ∧ t.peers = s.peers ∧ t.stc = s.stc ∧ t.pending = s.pending

/-- A CLEAR from a holder: a record in QUIET adopts an epoch it does not know or that is newer (R95); one in FOLLOWER ends
its episode at an equal or newer epoch (R130), and one in CLAIMING or OWNER at precedence (R107). Its entry into QUIET
claims anew, under the epoch after the CLEAR's, in RUNNING, undisputed, at a target LOW or EMPTY from NONE (R93, R97), and
leaves it QUIET otherwise, with claim sent clear, which is the model's choice, and closing clear, its reading (log 30).
First the outstanding frame of a record in CLAIMING or OWNER is withdrawn, then the epoch is taken; the entry into QUIET, its
CLAIM request included, is the one `QuietRecordClaimsWhenShort` gives as an equation. Anything else is ignored (R96). -/
def Obligations.ClearEndsTheEpisode : Prop :=
  ∀ (s : State) (dt : Time) (heard : List Character) (f : Frame) (a : Nat) (x : Epoch), s.takes heard f →
    f.kind = .clear → a = alertArticle f.payload → x = alertEpoch f.payload →
      (∀ sl, s.slot? a = some sl → f.src ∈ sl.art.holders → sl.alert.state = .quiet →
          sl.alert.known = false ∨ newer x sl.alert.epoch = true →
        exec (.clear dt heard) s
          = .next ((s.elapse dt).modAlert a fun r => { r with epoch := x, known := true }).showLamps)
      ∧ (∀ (sl : Slot) (u : State), s.slot? a = some sl → f.src ∈ sl.art.holders →
          (sl.alert.state = .follower ∧ (x = sl.alert.epoch ∨ newer x sl.alert.epoch = true) ∧ u = s.elapse dt
            ∨ (sl.alert.state = .claiming ∨ sl.alert.state = .owner)
              ∧ (newer x sl.alert.epoch = true ∨ x = sl.alert.epoch ∧ f.src < s.ownNumber)
              ∧ (sl.alert.outstanding = none ∧ u = s.elapse dt
                ∨ ∃ o, sl.alert.outstanding = some o
                  ∧ u = ((s.elapse dt).withdraw (.alertFrame o.kind a)).modAlert a
                    fun r => { r with outstanding := none })) →
        exec (.clear dt heard) s
          = .next ((u.modAlert a fun r => { r with epoch := x, known := true }).enterQuiet a).showLamps)
      ∧ (∀ sl, s.Inv → s.slot? a = some sl → f.src ∈ sl.art.holders →
          s.stc.state ≠ .running ∨ sl.art.disputed = true
            ∨ targetLevel sl.art.aggregate sl.art.reorder sl.art.margin .none = .none →
          (sl.alert.state = .follower ∧ (x = sl.alert.epoch ∨ newer x sl.alert.epoch = true)
            ∨ (sl.alert.state = .claiming ∨ sl.alert.state = .owner)
              ∧ (newer x sl.alert.epoch = true ∨ x = sl.alert.epoch ∧ f.src < s.ownNumber)) →
        ∃ t sl', exec (.clear dt heard) s = .next t ∧ t.slot? a = some sl'
          ∧ sl'.alert = { sl.alert with
              state := .quiet, epoch := x, known := true, owner := none
              level := targetLevel sl.art.aggregate sl.art.reorder sl.art.margin .none
              accepted := false, terminal := none, escalated := false, claimSent := false, closing := false
              outstanding := if sl.alert.state = .follower then sl.alert.outstanding else none
              claimHold := none, repeatTimer := none, escalationTimer := none, takeover := none }
          ∧ (sl.alert.state ≠ .follower → sl'.art.own.flags.owning = false)
          ∧ t.now = s.now + dt ∧ t.bays = s.bays ∧ t.peers = s.peers ∧ t.stc = s.stc ∧ t.pending = s.pending)
      ∧ (∀ sl l, s.Inv → s.slot? a = some sl → f.src ∈ sl.art.holders →
          s.stc.state = .running → sl.art.disputed = false →
          l = targetLevel sl.art.aggregate sl.art.reorder sl.art.margin .none → l ≠ .none →
          (sl.alert.state = .follower ∧ (x = sl.alert.epoch ∨ newer x sl.alert.epoch = true)
            ∨ (sl.alert.state = .claiming ∨ sl.alert.state = .owner)
              ∧ (newer x sl.alert.epoch = true ∨ x = sl.alert.epoch ∧ f.src < s.ownNumber)) →
        ∃ t sl' q, exec (.clear dt heard) s = .next t ∧ t.slot? a = some sl'
          ∧ sl'.alert = { sl.alert with
              state := .claiming, epoch := x + 1, known := true, owner := some s.ownNumber, level := l
              accepted := false, terminal := none, escalated := false, claimSent := false, closing := false
              outstanding := some { kind := .claim, standing := q }
              claimHold := none, repeatTimer := none, escalationTimer := none, takeover := none }
          ∧ sl'.art.own.flags.owning = true
          ∧ t.now = s.now + dt ∧ t.bays = s.bays ∧ t.peers = s.peers ∧ t.stc = s.stc ∧ t.pending = s.pending)
      ∧ ((s.slot? a = none ∨ ∃ sl, s.slot? a = some sl
          ∧ (f.src ∉ sl.art.holders
            ∨ (sl.alert.state = .quiet ∧ sl.alert.known = true ∧ newer x sl.alert.epoch = false)
            ∨ (sl.alert.state = .follower ∧ x ≠ sl.alert.epoch ∧ newer x sl.alert.epoch = false)
            ∨ ((sl.alert.state = .claiming ∨ sl.alert.state = .owner) ∧ newer x sl.alert.epoch = false
                ∧ (x ≠ sl.alert.epoch ∨ s.ownNumber ≤ f.src)))) →
        exec (.clear dt heard) s = .next (s.elapse dt).showLamps)

/-- An ACCEPT at the record's epoch: the owner records acceptance and terminal, stops the repeat timer, starts the
escalation time and requests an ALERT, or with closing set records alone (R120); a follower records the acceptance (R129);
in QUIET and CLAIMING, and for an article not held, it is ignored (R96). -/
def Obligations.AcceptIsRecorded : Prop :=
  ∀ (s : State) (dt : Time) (heard : List Character) (f : Frame) (a : Nat), s.takes heard f → f.kind = .accept →
    a = alertArticle f.payload →
      (∀ sl, s.slot? a = some sl → sl.alert.state = .owner → alertEpoch f.payload = sl.alert.epoch →
          sl.alert.closing = false →
        exec (.accept dt heard) s
          = .next (((s.elapse dt).modAlert a fun r =>
              { r with
                accepted := true, terminal := some f.src, repeatTimer := none
                escalationTimer := some (s.now + dt + s.alu.escalationTime)
                outstanding := some { kind := .alert, standing := .requested } }).request
              (.alertFrame .alert a)).showLamps)
      ∧ (∀ sl, s.slot? a = some sl → sl.alert.state = .owner → alertEpoch f.payload = sl.alert.epoch →
          sl.alert.closing = true →
        exec (.accept dt heard) s
          = .next ((s.elapse dt).modAlert a fun r => { r with accepted := true, terminal := some f.src }).showLamps)
      ∧ (∀ sl, s.slot? a = some sl → sl.alert.state = .follower → alertEpoch f.payload = sl.alert.epoch →
        exec (.accept dt heard) s = .next ((s.elapse dt).modAlert a fun r => { r with accepted := true }).showLamps)
      ∧ ((s.slot? a = none ∨ ∃ sl, s.slot? a = some sl ∧ (sl.alert.state = .quiet ∨ sl.alert.state = .claiming)) →
        exec (.accept dt heard) s = .next (s.elapse dt).showLamps)

/-- An ACCEPT whose epoch differs from that of a record in OWNER raises ACCEPT_STALE with its source and article and changes
nothing else: record, timers and outstanding frame stand and no ALERT is requested; at a record in FOLLOWER it is ignored
without an event (R121). -/
def Obligations.StaleAcceptIsIgnored : Prop :=
  ∀ (s : State) (dt : Time) (heard : List Character) (f : Frame) (a : Nat) (sl : Slot), s.takes heard f →
    f.kind = .accept → a = alertArticle f.payload → s.slot? a = some sl → alertEpoch f.payload ≠ sl.alert.epoch →
      (sl.alert.state = .owner →
        exec (.accept dt heard) s = .next ((s.elapse dt).raise .acceptStale f.src a).showLamps)
      ∧ (sl.alert.state = .follower → exec (.accept dt heard) s = .next (s.elapse dt).showLamps)

/-! ### Timers -/

/-- A command's time passes on the timebase alone. A timer's command while the timer is stopped or not yet due changes
nothing but the time: the model's choice (log 2). -/
def Obligations.TimersNotDueDoNothing : Prop :=
  (∀ (s : State) (dt : Time), s.elapse dt = { s with now := s.now + dt })
    ∧ ∀ (s : State) (dt : Time), s.held = none →
    ∀ due : Option Time → Prop, (∀ o, due o ↔ ∃ e, o = some e ∧ e ≤ s.now + dt) →
      (¬ due s.pru.readyTimer → exec (.readyTimer dt) s = .next (s.elapse dt).showLamps)
      ∧ (∀ n, (∀ b, s.bay? n = some b → ¬ due b.settleTimer) →
          exec (.settleTimeout dt n) s = .next (s.elapse dt).showLamps)
      ∧ (∀ a, (∀ sl, s.slot? a = some sl → ¬ due sl.alert.claimHold) →
          exec (.claimHold dt a) s = .next (s.elapse dt).showLamps)
      ∧ (∀ a, (∀ sl, s.slot? a = some sl → ¬ due sl.alert.repeatTimer) →
          exec (.repeatTimer dt a) s = .next (s.elapse dt).showLamps)
      ∧ (∀ a, (∀ sl, s.slot? a = some sl → ¬ due sl.alert.escalationTimer) →
          exec (.escalationTimer dt a) s = .next (s.elapse dt).showLamps)
      ∧ (∀ a, (∀ sl, s.slot? a = some sl → ¬ due sl.alert.takeover) →
          exec (.takeoverDelay dt a) s = .next (s.elapse dt).showLamps)
      ∧ (∀ n, (∀ p, s.peer? n = some p → ¬ due p.staleTimer) →
          exec (.staleTimer dt n) s = .next (s.elapse dt).showLamps)
      ∧ (¬ due s.tly.beaconTimer → exec (.beaconTick dt) s = .next (s.elapse dt).showLamps)
      ∧ (¬ due s.tly.deltaTimer → exec (.deltaTimer dt) s = .next (s.elapse dt).showLamps)
      ∧ (¬ due s.stc.joinTimer → exec (.joinTimer dt) s = .next (s.elapse dt).showLamps)
      ∧ (¬ due s.stc.isolationTimer → exec (.isolationTimer dt) s = .next (s.elapse dt).showLamps)
      ∧ (¬ due (s.bsc.deferral.map Deferral.due) → exec (.deferralEnd dt) s = .next (s.elapse dt).showLamps)

/-- A record in QUIET claims exactly in RUNNING, undisputed, at a target LOW or EMPTY, and nothing else happens then:
first the next epoch, CLAIMING by the station itself with the fields of R97, then the tally unit told, which sets OWNING,
then a CLAIM outstanding and requested (R90, R91, R97). A record that enters QUIET, at the aggregate the alert unit goes
by, takes the target level from NONE, keeps its epoch, tells the tally unit if it leaves CLAIMING or OWNER, and is tested
in the same way (R90, R93, R97); that claim sent is clear then is the model's choice, and that closing is, its reading
(log 30). The requests themselves are what `RequestMovesNothingElse` says. What an article notice does, by the record's
state: in QUIET the level follows and a claim is tested (R93, R97); in CLAIMING the level follows (R93), a closing record
with a shortage becomes OWNER with an ALERT (R101), and one whose CLAIM is not sent goes QUIET at NONE with its CLAIM
withdrawn (R98); in OWNER the level follows between LOW and EMPTY with an ALERT (R118), a CLEAR begins at NONE with
COMPLETE coverage (R123), and a shortage reverses it (R124); in FOLLOWER the takeover delay starts when the notice names
the owner STALE and stops when it names it FRESH (R109). -/
def Obligations.QuietRecordClaimsWhenShort : Prop :=
  ∀ (s : State) (a : Nat) (sl : Slot), s.slot? a = some sl →
    (∀ claim : State → Level → State,
      (∀ (u : State) (level : Level), claim u level
        = (((u.modAlert a fun r =>
            { r with
              state := .claiming, owner := some s.ownNumber, level := level, known := true
              epoch := if r.known then r.epoch + 1 else 1
              accepted := false, terminal := none, escalated := false, claimSent := false, closing := false
              takeover := none }).tellOwning a true).modAlert a fun r =>
            { r with outstanding := some { kind := .claim, standing := .requested } }).request (.alertFrame .claim a)) →
      (sl.alert.state = .quiet → s.stc.state = .running → sl.art.disputed = false → sl.target ≠ .none →
        s.claimTest a = claim s sl.target)
      ∧ ∀ (n : Nat) (l : Level) (u : State), l = targetLevel n sl.art.reorder sl.art.margin .none →
        (∀ quieted : State, quieted = (s.modAlert a fun r =>
            { r with
              state := .quiet, owner := none, level := l, accepted := false, terminal := none, escalated := false
              claimSent := false, closing := false, claimHold := none, repeatTimer := none, escalationTimer := none
              takeover := none }) →
          ((sl.alert.state = .claiming ∨ sl.alert.state = .owner) ∧ u = quieted.tellOwning a false
            ∨ (sl.alert.state = .quiet ∨ sl.alert.state = .follower) ∧ u = quieted)) →
        (s.stc.state ≠ .running ∨ sl.art.disputed = true ∨ l = .none → s.enterQuietSeeing a n = u)
        ∧ (s.stc.state = .running → sl.art.disputed = false → l ≠ .none → s.enterQuietSeeing a n = claim u l))
    ∧ (sl.alert.state = .quiet → s.stc.state = .running → sl.art.disputed = false → sl.target ≠ .none →
      ∃ sl' q, (s.claimTest a).slot? a = some sl'
        ∧ sl'.alert = { sl.alert with
            state := .claiming, owner := some s.ownNumber, level := sl.target, known := true
            epoch := if sl.alert.known then sl.alert.epoch + 1 else 1
            accepted := false, terminal := none, escalated := false, claimSent := false, closing := false
            takeover := none, outstanding := some { kind := .claim, standing := q } }
        ∧ sl'.art.own.flags.owning = true)
      ∧ (sl.alert.state ≠ .quiet ∨ s.stc.state ≠ .running ∨ sl.art.disputed = true ∨ sl.target = .none →
        s.claimTest a = s)
      ∧ s.enterQuiet a = s.enterQuietSeeing a sl.art.aggregate
      ∧ (∀ (n : Nat) (l : Level), l = targetLevel n sl.art.reorder sl.art.margin .none →
        (s.stc.state ≠ .running ∨ sl.art.disputed = true ∨ l = .none →
          ∃ sl', (s.enterQuietSeeing a n).slot? a = some sl'
            ∧ sl'.alert = { sl.alert with
                state := .quiet, owner := none, level := l, accepted := false, terminal := none, escalated := false
                claimSent := false, closing := false, claimHold := none, repeatTimer := none, escalationTimer := none
                takeover := none
                outstanding := sl'.alert.outstanding }
            ∧ (sl.alert.outstanding = none → sl'.alert.outstanding = none)
            ∧ (sl.alert.state = .claiming ∨ sl.alert.state = .owner → sl'.art.own.flags.owning = false))
        ∧ (s.stc.state = .running → sl.art.disputed = false → l ≠ .none →
          ∃ sl' q, (s.enterQuietSeeing a n).slot? a = some sl'
            ∧ sl'.alert = { sl.alert with
                state := .claiming, owner := some s.ownNumber, level := l, known := true
                epoch := if sl.alert.known then sl.alert.epoch + 1 else 1
                accepted := false, terminal := none, escalated := false, claimSent := false, closing := false
                claimHold := none, repeatTimer := none, escalationTimer := none, takeover := none
                outstanding := some { kind := .claim, standing := q } }
            ∧ sl'.art.own.flags.owning = true))
      ∧ ∀ moved : List (Nat × Freshness), ∀ t, t = sl.target →
        (sl.alert.state = .quiet →
          s.articleNotice a moved = (s.modAlert a fun r => { r with level := t }).claimTest a)
        ∧ (sl.alert.state = .claiming → sl.alert.closing = true → t ≠ .none →
          s.articleNotice a moved
            = (s.modAlert a fun r =>
                { r with
                  state := .owner, level := t, accepted := false, terminal := none, escalated := false, closing := false
                  claimHold := none, escalationTimer := none, repeatTimer := some (s.now + s.alu.repeatInterval)
                  outstanding := some { kind := .alert, standing := .requested } }).request (.alertFrame .alert a))
        ∧ (sl.alert.state = .claiming →
            sl.alert.closing = true ∧ t = .none
              ∨ sl.alert.closing = false ∧ (sl.alert.claimSent = true ∨ t ≠ .none) →
          s.articleNotice a moved = s.modAlert a fun r => { r with level := t })
        ∧ (sl.alert.state = .claiming → sl.alert.closing = false → sl.alert.claimSent = false → t = .none →
          (∀ o, sl.alert.outstanding = some o →
            s.articleNotice a moved
              = ((s.withdraw (.alertFrame o.kind a)).modAlert a fun r => { r with outstanding := none }).enterQuiet a)
          ∧ (sl.alert.outstanding = none → s.articleNotice a moved = s.enterQuiet a))
        ∧ (sl.alert.state = .owner → sl.alert.closing = true → t ≠ .none →
          s.articleNotice a moved
            = (s.modAlert a fun r =>
                { r with
                  level := t, closing := false
                  escalationTimer := if r.accepted then some (s.now + s.alu.escalationTime) else r.escalationTimer
                  repeatTimer := if r.accepted then r.repeatTimer else some (s.now + s.alu.repeatInterval)
                  outstanding := some { kind := .alert, standing := .requested } }).request (.alertFrame .alert a))
        ∧ (sl.alert.state = .owner → sl.alert.closing = false → t ≠ .none → t ≠ sl.alert.level →
          s.articleNotice a moved
            = (s.modAlert a fun r =>
                { r with level := t, outstanding := some { kind := .alert, standing := .requested } }).request
                (.alertFrame .alert a))
        ∧ (sl.alert.state = .owner → sl.alert.closing = false → t = .none → sl.art.coverage = .complete →
          s.articleNotice a moved
            = (s.modAlert a fun r =>
                { r with
                  closing := true, repeatTimer := none, escalationTimer := none
                  outstanding := some { kind := .clear, standing := .requested } }).request (.alertFrame .clear a))
        ∧ (sl.alert.state = .owner →
            sl.alert.closing = true ∧ t = .none
              ∨ sl.alert.closing = false ∧ (t = .none ∧ sl.art.coverage ≠ .complete ∨ t ≠ .none ∧ t = sl.alert.level) →
          s.articleNotice a moved = s)
        ∧ ∀ o, sl.alert.state = .follower → sl.alert.owner = some o →
          ∀ named, named = (moved.find? fun m => m.1 == o).map Prod.snd →
          (named = some .stale → sl.art.staleHolder o = true →
            s.articleNotice a moved
              = s.modAlert a fun r => { r with takeover := some (s.now + ms (sl.art.rank s.ownNumber * 500)) })
          ∧ (named = some .fresh → s.articleNotice a moved = s.modAlert a fun r => { r with takeover := none })
          ∧ (named ≠ some .stale → named ≠ some .fresh → s.articleNotice a moved = s)

/-- The claim hold ends in OWNER at a target LOW or EMPTY, with an ALERT and the repeat timer (R100, R116, R117), else in
closing with a CLEAR (R100). The repeat timer requests an ALERT and starts again from the expiry just taken (R117). The
escalation timer at a target LOW or EMPTY makes the alert escalated and unaccepted with an ALERT and the repeat timer, and
at NONE starts again from its expiry (R122; log 3). -/
def Obligations.AlertTimersKeepTheAlertAlive : Prop :=
  ∀ (s : State) (dt : Time) (a : Nat) (sl : Slot) (e : Time), s.held = none → s.slot? a = some sl → e ≤ s.now + dt →
    (sl.alert.claimHold = some e → sl.alert.state = .claiming → sl.target ≠ .none →
      exec (.claimHold dt a) s
        = .next (((s.elapse dt).modAlert a fun r =>
            { r with
              state := .owner, level := sl.target, accepted := false, terminal := none, escalated := false
              closing := false, claimHold := none, escalationTimer := none
              repeatTimer := some (s.now + dt + s.alu.repeatInterval)
              outstanding := some { kind := .alert, standing := .requested } }).request
            (.alertFrame .alert a)).showLamps)
      ∧ (sl.alert.claimHold = some e → sl.alert.state = .claiming → sl.target = .none →
        exec (.claimHold dt a) s
          = .next (((s.elapse dt).modAlert a fun r =>
              { r with
                claimHold := none, closing := true
                outstanding := some { kind := .clear, standing := .requested } }).request
              (.alertFrame .clear a)).showLamps)
      ∧ (sl.alert.repeatTimer = some e →
        exec (.repeatTimer dt a) s
          = .next (((s.elapse dt).modAlert a fun r =>
              { r with
                repeatTimer := some (e + s.alu.repeatInterval)
                outstanding := some { kind := .alert, standing := .requested } }).request
              (.alertFrame .alert a)).showLamps)
      ∧ (sl.alert.escalationTimer = some e → sl.target ≠ .none →
        exec (.escalationTimer dt a) s
          = .next (((s.elapse dt).modAlert a fun r =>
              { r with
                escalated := true, accepted := false, terminal := none, escalationTimer := none
                repeatTimer := some (s.now + dt + s.alu.repeatInterval)
                outstanding := some { kind := .alert, standing := .requested } }).request
              (.alertFrame .alert a)).showLamps)
      ∧ (sl.alert.escalationTimer = some e → sl.target = .none →
        exec (.escalationTimer dt a) s
          = .next ((s.elapse dt).modAlert a fun r =>
              { r with escalationTimer := some (e + s.alu.escalationTime) }).showLamps)

/-- At the end of the takeover delay a follower claims under the next epoch, with a CLAIM requested and then a TAKEOVER
count, in RUNNING, undisputed, at a target LOW or EMPTY, and nothing else happens; else the record enters QUIET at the
target level from NONE (R93, R97, R110), with claim sent clear, which is the model's choice, and closing clear, its
reading (log 30). -/
def Obligations.TakeoverClaimsOrGoesQuiet : Prop :=
  ∀ (s : State) (dt : Time) (a : Nat) (sl : Slot) (e : Time), s.held = none → s.slot? a = some sl →
    sl.alert.takeover = some e → e ≤ s.now + dt → sl.alert.state = .follower → 1 ≤ sl.art.margin →
      (s.stc.state = .running → sl.art.disputed = false → sl.target ≠ .none →
        exec (.takeoverDelay dt a) s
          = .next ((((((s.elapse dt).modAlert a fun r =>
              { r with
                state := .claiming, owner := some s.ownNumber, level := sl.target, known := true
                epoch := if r.known then r.epoch + 1 else 1
                accepted := false, terminal := none, escalated := false, claimSent := false, closing := false
                takeover := none }).tellOwning a true).modAlert a fun r =>
              { r with outstanding := some { kind := .claim, standing := .requested } }).request
              (.alertFrame .claim a)).count .takeover).showLamps)
      ∧ (s.stc.state = .running → sl.art.disputed = false → sl.target ≠ .none →
        ∃ t sl' q, exec (.takeoverDelay dt a) s = .next t ∧ t.slot? a = some sl'
          ∧ sl'.alert = { sl.alert with
              state := .claiming, owner := some s.ownNumber, level := sl.target, known := true
              epoch := if sl.alert.known then sl.alert.epoch + 1 else 1
              accepted := false, terminal := none, escalated := false, claimSent := false, closing := false
              takeover := none, outstanding := some { kind := .claim, standing := q } }
          ∧ sl'.art.own.flags.owning = true
          ∧ t.hlu.counters[13]? = (s.hlu.counters[13]?).map (fun v => min 255 (v + 1)) ∧ t.hlu.severe = s.hlu.severe
          ∧ t.now = s.now + dt ∧ t.bays = s.bays ∧ t.peers = s.peers ∧ t.stc = s.stc ∧ t.pending = s.pending)
      ∧ (s.stc.state ≠ .running ∨ sl.art.disputed = true ∨ sl.target = .none →
        exec (.takeoverDelay dt a) s
          = .next ((s.elapse dt).modAlert a fun r =>
              { r with
                state := .quiet, owner := none
                level := targetLevel sl.art.aggregate sl.art.reorder sl.art.margin .none
                accepted := false, terminal := none, escalated := false, claimSent := false, closing := false
                claimHold := none, repeatTimer := none, escalationTimer := none, takeover := none }).showLamps)

/-- A sharing peer is a station other than the own one in the holder list of an article (R73). The stale timer stops at its
expiry; a sharing peer's contributions become STALE with their units kept, and no other
contribution moves (R79); a station that is no sharing peer moves nothing else. HOLDER_STALE is raised once, for the station
and no article, when at least one of them was not STALE before, and else not at all (R79). Then come the article notices, in
table order, at most one for an article: of each whose aggregate, coverage or contribution's state has changed, naming every
holder whose contribution changed state with the new one (R72); what the alert unit does with one
`QuietRecordClaimsWhenShort` says. -/
def Obligations.StaleTimerSilencesThePeer : Prop :=
  (∀ (s : State) (n : Nat), s.sharingPeer n = true ↔ n ≠ s.stc.number ∧ ∃ sl ∈ s.slots, n ∈ sl.art.holders)
    ∧ (∀ (s : State) (f : Peer → Peer), s.peer? 0 = none ∧ s.modPeer 0 f = s
      ∧ ∀ n, s.peer? (n + 1) = s.peers[n]? ∧ s.modPeer (n + 1) f = { s with peers := s.peers.modify n f })
    ∧ (∀ before after : List Slot, noticesBetween before after
      = (before.zip after).filterMap fun p =>
          if p.1.art.aggregate = p.2.art.aggregate ∧ p.1.art.coverage = p.2.art.coverage
              ∧ ∀ x ∈ p.1.art.peers.zip p.2.art.peers, x.1.state = x.2.state then none
          else some (p.2.art.number, ((p.1.art.peers.zip p.2.art.peers).filter fun x => x.1.state ≠ x.2.state).map
            fun x => (x.2.holder, x.2.state)))
    ∧ (∀ (s : State) (l : List (Nat × List (Nat × Freshness))),
      s.giveNotices l = l.foldl (fun u x => u.articleNotice x.1 x.2) s)
    ∧ ∀ (s : State) (dt : Time) (n : Nat) (p : Peer) (e : Time), s.held = none → s.peer? n = some p →
    p.staleTimer = some e → e ≤ s.now + dt →
      (s.sharingPeer n = false →
        exec (.staleTimer dt n) s
          = .next ((s.elapse dt).modPeer n fun q => { q with staleTimer := none }).showLamps)
      ∧ (s.sharingPeer n = true →
        ∃ t, exec (.staleTimer dt n) s = .next t
          ∧ (∀ (changed : Prop) (u : State), (changed ↔ ∃ sl ∈ s.slots, ∃ x ∈ sl.art.peers, x.holder = n ∧ x.state ≠ .stale) →
            u = { (s.elapse dt).modPeer n (fun q => { q with staleTimer := none }) with
              slots := s.slots.map fun sl =>
                { sl with art := Article.recount { sl.art with peers := sl.art.peers.map fun x =>
                    if x.holder = n then { x with state := .stale } else x } } } →
            (changed → t = (({ u with hlu := s.hlu.take .holderStale n 0 1 (s.now + dt) } : State).giveNotices
              (noticesBetween s.slots u.slots)).showLamps)
            ∧ (¬ changed → t = (u.giveNotices (noticesBetween s.slots u.slots)).showLamps))
          ∧ (∀ a sl, s.slot? a = some sl → ∃ sl', t.slot? a = some sl' ∧ sl'.art.config = sl.art.config
            ∧ sl'.art.aggregate = sl'.art.total ∧ sl'.art.coverage = sl'.art.cover
            ∧ sl'.art.peers = sl.art.peers.map fun x => if x.holder = n then { x with state := .stale } else x)
          ∧ t.peers = (s.modPeer n fun q => { q with staleTimer := none }).peers
          ∧ t.now = s.now + dt ∧ t.bays = s.bays ∧ t.stc = s.stc ∧ t.pending = s.pending)

/-- A beacon tick starts the timer again from its expiry, counts, and requests a FULL at every Nth tick and a DELTA at the
others (R83). Then the alert unit sweeps its records in article-table order and requests a LOST frame of one in CLAIMING or
OWNER again (R113), and the station controller requests a HELLO in JOINING with HELLO done clear and none standing queued, IN
FLIGHT or held (R141). The delta timer stops at its expiry and requests a DELTA when the changed set is not empty (R85). -/
def Obligations.BeaconAndDeltaTimersRequestATally : Prop :=
  (∀ s : State, s.beaconSweep = (s.slots.map fun sl => sl.art.number).foldl State.sweepRecord s)
    ∧ (∀ (s : State) (a : Nat) (sl : Slot), s.slot? a = some sl →
      (∀ k, sl.alert.outstanding = some { kind := k, standing := .lost } →
          sl.alert.state = .claiming ∨ sl.alert.state = .owner →
        s.sweepRecord a
          = (s.modAlert a fun r => { r with outstanding := some { kind := k, standing := .requested } }).request
              (.alertFrame k a))
      ∧ ((∀ k, sl.alert.outstanding ≠ some { kind := k, standing := .lost })
            ∨ sl.alert.state = .quiet ∨ sl.alert.state = .follower → s.sweepRecord a = s))
    ∧ (∀ s : State, ∀ stands : Prop,
      (stands ↔ (∃ e ∈ s.bsc.waiting, e.req = .hello)
        ∨ ∃ f, s.bsc.flight = some f ∧ (f.entry.req = .hello ∨ ∃ e, f.followOn = some e ∧ e.req = .hello)) →
      (s.stc.state = .joining → s.stc.helloDone = false → ¬ stands → s.beaconHello = s.request .hello)
      ∧ (s.stc.state ≠ .joining ∨ s.stc.helloDone = true ∨ stands → s.beaconHello = s))
    ∧ ∀ (s : State) (dt : Time) (e : Time), s.held = none → e ≤ s.now + dt →
    (s.tly.beaconTimer = some e → s.tly.beaconCount + 1 < s.tly.fullInterval →
      exec (.beaconTick dt) s
        = .next ((({ s.elapse dt with tly := { s.tly with
            beaconTimer := some (e + s.tly.beaconPeriod), beaconCount := s.tly.beaconCount + 1 } } : State).request
            (.tally .delta)).beaconSweep.beaconHello).showLamps)
      ∧ (s.tly.beaconTimer = some e → s.tly.fullInterval ≤ s.tly.beaconCount + 1 →
        exec (.beaconTick dt) s
          = .next ((({ s.elapse dt with tly := { s.tly with
              beaconTimer := some (e + s.tly.beaconPeriod), beaconCount := 0 } } : State).request
              (.tally .full)).beaconSweep.beaconHello).showLamps)
      ∧ (s.tly.deltaTimer = some e → (∀ sl ∈ s.slots, sl.art.changed = false) →
        exec (.deltaTimer dt) s
          = .next ({ s.elapse dt with tly := { s.tly with deltaTimer := none } } : State).showLamps)
      ∧ (s.tly.deltaTimer = some e → (∃ sl ∈ s.slots, sl.art.changed = true) →
        exec (.deltaTimer dt) s
          = .next (({ s.elapse dt with tly := { s.tly with deltaTimer := none } } : State).request
              (.tally .delta)).showLamps)

/-- The join window ends in RUNNING: the first one after a reset turns every ABSENT contribution into STALE with 0 units
first, each with HOLDER_STALE for its holder and article, in article-table and holder-list order, and gives the article
notices (R72, R80); a later one changes none. Then, in RUNNING, the records are tested for a claim in article-table order,
as `QuietRecordClaimsWhenShort` says (R97, R142). -/
def Obligations.JoinWindowEndsInRunning : Prop :=
  ∀ (s : State) (dt : Time) (e : Time), s.held = none → s.stc.state = .joining → s.stc.joinTimer = some e →
    e ≤ s.now + dt →
      ∀ tested : State → State,
        (∀ u, tested u = ((u.slots.map fun sl => sl.art.number).foldl State.claimTest u).showLamps) →
      (s.tly.firstWindow = true →
        exec (.joinTimer dt) s
          = .next (tested { s.elapse dt with stc := { s.stc with joinTimer := none, state := .running } }))
      ∧ (s.tly.firstWindow = false →
        ∀ u w : State,
          u = { s.elapse dt with
            stc := { s.stc with joinTimer := none }
            tly := { s.tly with firstWindow := true }
            slots := s.slots.map fun sl =>
              { sl with art := Article.recount { sl.art with peers := sl.art.peers.map fun x =>
                  if x.state = .absent then { x with units := 0, state := .stale } else x } }
            hlu := (s.slots.flatMap fun sl =>
                (sl.art.peers.filter fun x => x.state == .absent).map fun x => (x.holder, sl.art.number)).foldl
              (fun h x => h.take .holderStale x.1 x.2 1 (s.now + dt)) s.hlu } →
          w = u.giveNotices (noticesBetween s.slots u.slots) →
        ∃ t, exec (.joinTimer dt) s = .next t
          ∧ t = tested { w with stc := { w.stc with state := .running } }
          ∧ t.stc = { s.stc with joinTimer := none, state := .running } ∧ t.tly.firstWindow = true
          ∧ (∀ a sl, s.slot? a = some sl → ∃ sl', t.slot? a = some sl' ∧ sl'.art.config = sl.art.config
            ∧ sl'.art.aggregate = sl'.art.total ∧ sl'.art.coverage = sl'.art.cover
            ∧ sl'.art.peers = sl.art.peers.map fun x =>
                if x.state = .absent then { x with units := 0, state := .stale } else x)
          ∧ t.now = s.now + dt ∧ t.bays = s.bays ∧ t.peers = s.peers ∧ t.pending = s.pending)

/-- The isolation timer brings the station back to JOINING: HELLO done clear, a HELLO and a FULL queued in this order, the
beacon timer started and nothing else moved (R140, R151) but the two that these bring about. On an idle bus a deferral of
the HELLO begins (R50). The delta timer stands stopped with an empty changed set, and with marks it runs, as for a
marking, to the last completion plus 250 ms when that is to come; else it expires at once, and its DELTA merges into the
FULL (R58, R85, R88; in the same event, which is the model's reading, log 10). The order of two requests of one time is
kept by a number of the taking (log 19). -/
def Obligations.IsolationEndsInJoining : Prop :=
  ∀ (s : State) (dt : Time) (e : Time), s.Inv → s.stc.state = .isolated → s.stc.isolationTimer = some e →
    e ≤ s.now + dt →
    ∀ timer : Option Time,
      ((∀ sl ∈ s.slots, sl.art.changed = false) ∧ timer = none
        ∨ (∃ sl ∈ s.slots, sl.art.changed = true)
          ∧ ((∀ c, s.tly.lastCompletion = some c → c + 250000 ≤ s.now + dt) ∧ timer = none
            ∨ ∃ c, s.tly.lastCompletion = some c ∧ s.now + dt < c + 250000 ∧ timer = some (c + 250000))) →
      exec (.isolationTimer dt) s
        = .next ({ s.elapse dt with
            stc := { s.stc with state := .joining, helloDone := false, joinTimer := none, isolationTimer := none }
            bsc := { s.bsc with
              waiting := [{ req := .hello, time := s.now + dt, taken := s.bsc.takenCount, failed := 0 },
                { req := .tally .full, time := s.now + dt, taken := s.bsc.takenCount + 1, failed := 0 }]
              takenCount := s.bsc.takenCount + 2
              deferral := if s.bsc.busy then none
                else some { start := s.now + dt, due := s.now + dt + (2 * 31 + s.ownNumber) * 80 } }
            tly := { s.tly with
              beaconTimer := some (s.now + dt + s.tly.beaconPeriod), deltaTimer := timer } } : State).showLamps

/-! ### Resets and start-up -/

/-- A POWER or PIN reset, asserted in any state, a held one included, puts every block at its reset values; the release,
once every kind asserted has met its condition, and a RESTART addressed to the station, leave the reset cause and the last
halt cause of R157 (R152, R155 to R157). While a reset is held every other command changes nothing (R156; log 23). The reset
values the manual does not give are the model's (log 6). -/
def Obligations.ResetsPutEveryBlockAtItsResetValues : Prop :=
  ∀ (s : State), ∀ after : ResetKind → HaltCause → Option HeldReset → State,
    (∀ cause last held, after cause last held
      = { State.reset with
          stc := { State.reset.stc with resetCause := cause, lastHalt := last }, held := held
          freeCount := s.freeCount, pending := s.pending }) →
      (s.held = none →
        exec .powerReset s = .next (after .power .noHalt (some { kinds := [.power], haltAtFirst := s.stc.halt }))
          ∧ exec .pinReset s = .next (after .pin s.stc.halt (some { kinds := [.pin], haltAtFirst := s.stc.halt })))
      ∧ (∀ h, s.held = some h →
        exec .powerReset s = .next (after .power .noHalt (some { h with kinds := h.kinds ++ [.power] }))
          ∧ exec .pinReset s = .next (after .pin (if .power ∈ h.kinds then .noHalt else h.haltAtFirst)
              (some { h with kinds := h.kinds ++ [.pin] })))
      ∧ (∀ h k up stood, s.held = some h → h.kinds.getLast? = some k →
        ((.pin ∈ h.kinds → up = true) ∧ (.power ∈ h.kinds → 20000 ≤ stood) →
          exec (.resetRelease up stood) s
            = .next (after k (if .power ∈ h.kinds then .noHalt else h.haltAtFirst) none))
        ∧ (¬ ((.pin ∈ h.kinds → up = true) ∧ (.power ∈ h.kinds → 20000 ≤ stood)) →
          exec (.resetRelease up stood) s = .next s))
      ∧ (∀ up stood, s.held = none → exec (.resetRelease up stood) s = .next s)
      ∧ (∀ c, s.held ≠ none → c ≠ .powerReset → c ≠ .pinReset → (∀ up stood, c ≠ .resetRelease up stood) →
        exec c s = .next s)
      ∧ (∀ dt heard f, s.held = none → s.bsc.rx.own = false → (Receiver.reset.hearAll heard).check = .passed f →
          f.kind = .restart → f.dst = s.ownNumber → f.dst ≠ 0 →
          (s.stc.state = .halted ∨ s.listening = true ∧ f.src ≠ s.ownNumber) →
        exec (.restart dt heard) s = .next (after .restart s.stc.halt none).showLamps)
      ∧ (∀ dt heard f, s.takes heard f → f.kind = .restart → f.dst = 0 →
        exec (.restart dt heard) s = .next (s.elapse dt).showLamps)

/-- The strap read, 2 ms after the release: a value of 1 to 30 becomes the station number, and the header read begins in
LOADING; 0 and 31 halt the station with BAD_STRAP (R135, R158 to R161); before that time, and in another state, the straps
are not read. -/
def Obligations.StrapReadSetsTheNumber : Prop :=
  ∀ (s : State) (dt : Time) (straps : BitVec 5), s.held = none →
    (s.stc.state = .strap → 2000 ≤ s.now + dt → 1 ≤ straps.toNat → straps.toNat ≤ 30 →
      exec (.strapRead dt straps) s
        = .next ({ s.elapse dt with stc := { s.stc with
            state := .loading, number := straps.toNat
            read := some { fdo := [0x0B, 0x00, 0x00, 0x00, Config.flashDummy], start := 0, count := 16 } } } :
            State).showLamps)
      ∧ (s.Inv → s.stc.state = .strap → 2000 ≤ s.now + dt → straps.toNat = 0 ∨ straps.toNat = 31 →
        exec (.strapRead dt straps) s
          = .next ({ s.elapse dt with stc := { s.stc with
              state := .halted, number := straps.toNat, halt := .badStrap } } : State).showLamps)
      ∧ (s.stc.state ≠ .strap ∨ s.now + dt < 2000 →
        exec (.strapRead dt straps) s = .next (s.elapse dt).showLamps)

/-- The header is checked for its signature and then its length, and halts the station with NO_IMAGE or BAD_LENGTH, or the
body read begins at address 16 for the length less 16 bytes (R137, R160 to R162, R200). -/
def Obligations.HeaderReadChecksSignatureAndLength : Prop :=
  ∀ (s : State) (dt : Time) (bytes : List Byte) (r : FlashRead), s.Inv → s.stc.state = .loading →
    s.stc.read = some r → r.start = 0 → r.count = 16 → bytes.length = 16 →
      (field bytes 0 4 ≠ 0x4C5A4231 →
        exec (.headerRead dt bytes) s
          = .next ({ s.elapse dt with stc := { s.stc with state := .halted, halt := .noImage, read := none } } :
              State).showLamps)
      ∧ (field bytes 0 4 = 0x4C5A4231 →
          (∀ k, 1 ≤ k → k ≤ 16 → field bytes 6 2 ≠ 336 + 20 * k) →
        exec (.headerRead dt bytes) s
          = .next ({ s.elapse dt with stc := { s.stc with state := .halted, halt := .badLength, read := none } } :
              State).showLamps)
      ∧ (∀ k, field bytes 0 4 = 0x4C5A4231 → 1 ≤ k → k ≤ 16 → field bytes 6 2 = 336 + 20 * k →
        exec (.headerRead dt bytes) s
          = .next ({ s.elapse dt with stc := { s.stc with
              header := bytes
              read := some { fdo := [0x0B, 0x00, 0x00, 0x10, Config.flashDummy], start := 16, count := 320 + 20 * k } } } :
              State).showLamps)

/-- The body read ends the load: an image that fails a check halts the station with the code of the first that fails, and
the tables keep their reset values (R136, R137); one that passes fills the tables, and the station enters JOINING with a
HELLO and a FULL queued, on an idle bus a deferral of the HELLO, the beacon timer started and nothing else moved (R7, R50,
R67, R68, R89, R140, R164, R168, R169). The header fields stand
at addresses 4 to 15, bay n at 16 + 20 × (n − 1), and article record j at 336 + 20 × (j − 1), each with its fields at the
offsets of R200. A bay without an article stays VACANT with its reset values, and any other starts a disturbance (R7). An
article starts with the listed holders, the digest over its 20 bytes, an own contribution of 0, every other holder ABSENT,
and an alert record in QUIET of unknown epoch (R67, R68, R89, R168). The checks in order: the CRC of every byte but the
CRC field (R162), the station number (R163), the ranges of parameters, bays and articles, distinct article numbers and the
two capacities in units (R164, R165), the holder lists (R166), and bays and articles that name each other (R167). -/
def Obligations.BodyReadHaltsOrFillsTheTables : Prop :=
  (∀ image : List Byte, readHeader image
      = { version := field image 4 1, station := field image 5 1, length := field image 6 2, crc := field image 8 2
          mode := field image 10 1 / 64, beacon := field image 10 1 % 64, pairing := field image 11 1 / 64
          window := field image 11 1 % 64, interval := field image 12 1, stale := field image 13 2 / 64
          repeatSteps := field image 13 2 % 64, escalation := field image 15 1 })
  ∧ (∀ image : List Byte, (imageBays image).length = 16 ∧ (imageArticles image).length = (field image 6 2 - 336) / 20
      ∧ (∀ k address, k < 16 → address = 16 + 20 * k → (imageBays image)[k]?
        = some { article := field image address 3, tare := field image (address + 3) 4
                 tolerance := field image (address + 7) 2, capacity := field image (address + 9) 4
                 disturbBand := field image (address + 13) 2, settleBand := field image (address + 15) 2
                 blankCount := field image (address + 17) 1, confirmCount := field image (address + 18) 1
                 settleTimeout := field image (address + 19) 1 * 1000000 })
      ∧ ∀ k address, k < (field image 6 2 - 336) / 20 → address = 336 + 20 * k → (imageArticles image)[k]?
        = some { number := field image address 3, unitWeight := field image (address + 3) 4
                 reorder := field image (address + 7) 2, margin := field image (address + 9) 2
                 count := field image (address + 11) 1
                 list := ((image.drop (address + 12)).take 8).map BitVec.toNat
                 digest := crc16 ((image.drop address).take 20) })
  ∧ (∀ (c : BayConfig) (now : Time),
      (c.article = 0 → Bay.start c now
        = { cfg := c, state := .vacant, settled := none, reference := none, candidate := none, runCount := 0, runSum := 0
            blankRemaining := 0, invalidRun := 0, disturbStart := 0, settleTimer := none, units := 0, strays := [] })
      ∧ (c.article ≠ 0 → Bay.start c now
        = { cfg := c, state := .disturbed, settled := none, reference := none, candidate := none, runCount := 0
            runSum := 0, blankRemaining := c.blankCount, invalidRun := 0, disturbStart := now
            settleTimer := some (now + c.settleTimeout), units := 0, strays := [] }))
  ∧ (∀ (own : Nat) (r : ImageArticle) (others : List Nat), others = (r.list.take r.count).filter (fun h => h != own) →
      r.slot own
        = { art := { number := r.number, unitWeight := r.unitWeight, reorder := r.reorder, margin := r.margin
                     holders := r.list.take r.count, digest := r.digest, disputed := false
                     own := { units := 0, flags := { fault := false, unsteady := false, stray := false, owning := false
                                                     disputed := false } }
                     peers := others.map fun h => { holder := h, units := 0, state := .absent }
                     aggregate := 0, coverage := if others = [] then .complete else .incomplete, changed := false }
            alert := { state := .quiet, level := .none, epoch := 0, known := false, owner := none, accepted := false
                       terminal := none, escalated := false, claimSent := false, closing := false, outstanding := none
                       claimHold := none, repeatTimer := none, escalationTimer := none, takeover := none } })
  ∧ (∀ (own : Nat) (image : List Byte) (h : ImageHeader) (bays : List BayConfig) (articles : List ImageArticle),
    h = readHeader image → bays = imageBays image → articles = imageArticles image →
    ∀ crc station values holders names : Prop,
      (crc ↔ (crc16 (image.take 8 ++ image.drop 10)).toNat = field image 8 2) →
      (station ↔ field image 5 1 = own) →
      (values ↔
        (h.version = 1 ∧ (1 ≤ h.beacon ∧ h.beacon ≤ 60) ∧ (1 ≤ h.interval ∧ h.interval ≤ 16)
          ∧ (3 ≤ h.stale ∧ h.stale ≤ 600) ∧ (h.pairing = 1 ∨ h.pairing = 2) ∧ (1 ≤ h.window ∧ h.window ≤ 60)
          ∧ (h.mode = 1 ∨ h.mode = 2) ∧ (1 ≤ h.repeatSteps ∧ h.repeatSteps ≤ 60)
          ∧ 5 ≤ h.escalation ∧ h.escalation ≤ 240)
        ∧ (∀ b ∈ bays, b.article ≤ 16777215 ∧ b.tare ≤ 1000000 ∧ (1 ≤ b.capacity ∧ b.capacity ≤ 1000000)
          ∧ b.tare < b.capacity ∧ (1 ≤ b.tolerance ∧ b.tolerance ≤ 65535)
          ∧ (1 ≤ b.disturbBand ∧ b.disturbBand ≤ 65535) ∧ (1 ≤ b.settleBand ∧ b.settleBand ≤ 65535)
          ∧ b.blankCount ≤ 15 ∧ (2 ≤ b.confirmCount ∧ b.confirmCount ≤ 31)
          ∧ 1000000 ≤ b.settleTimeout ∧ b.settleTimeout ≤ 120000000)
        ∧ (∀ r ∈ articles, (1 ≤ r.number ∧ r.number ≤ 16777215) ∧ (1 ≤ r.unitWeight ∧ r.unitWeight ≤ 1000000)
          ∧ r.reorder ≤ 65535 ∧ (1 ≤ r.margin ∧ r.margin ≤ 1000) ∧ (1 ≤ r.count ∧ r.count ≤ 8)
          ∧ ∀ x ∈ r.list, x ≤ 30)
        ∧ (articles.map ImageArticle.number).Nodup
        ∧ (∀ b ∈ bays, ∀ r ∈ articles, r.number = b.article → b.capacity - b.tare ≤ 65535 * r.unitWeight)
        ∧ ∀ r ∈ articles, ((bays.filter fun b => b.article == r.number).map fun b =>
            (rounded ((b.capacity : Int) - b.tare) r.unitWeight).toNat).sum ≤ 65535) →
      (holders ↔ ∀ r ∈ articles, (∀ x ∈ r.list.take r.count, x ≠ 0) ∧ (∀ x ∈ r.list.drop r.count, x = 0)
        ∧ (r.list.take r.count).Nodup ∧ own ∈ r.list.take r.count) →
      (names ↔ (∀ b ∈ bays, b.article = 0 ∨ ∃ r ∈ articles, r.number = b.article)
        ∧ ∀ r ∈ articles, ∃ b ∈ bays, b.article = r.number) →
      (¬ crc → imageFault own image = some .badCrc)
        ∧ (crc → ¬ station → imageFault own image = some .stationMismatch)
        ∧ (crc → station → ¬ values → imageFault own image = some .badValue)
        ∧ (crc → station → values → ¬ holders → imageFault own image = some .holderCount)
        ∧ (crc → station → values → holders → ¬ names → imageFault own image = some .orphan)
        ∧ (crc → station → values → holders → names → imageFault own image = none))
    ∧ ∀ (s : State) (dt : Time) (bytes : List Byte) (r : FlashRead), s.Inv → s.stc.state = .loading →
    s.stc.read = some r → r.start = 16 → bytes.length = r.count →
    ∀ image, image = s.stc.header ++ bytes →
      (∀ cause, imageFault s.ownNumber image = some cause →
        exec (.bodyRead dt bytes) s
          = .next ({ s.elapse dt with stc := { s.stc with state := .halted, halt := cause, read := none } } :
              State).showLamps)
      ∧ (imageFault s.ownNumber image = none →
        exec (.bodyRead dt bytes) s
          = .next ({ s.elapse dt with
              stc := { s.stc with state := .joining, helloDone := false, joinTimer := none, read := none, header := [] }
              bays := (imageBays image).map fun c => Bay.start c (s.now + dt)
              slots := (imageArticles image).map (ImageArticle.slot s.ownNumber)
              alu := { repeatInterval := (readHeader image).repeatSteps * 10000000
                       escalationTime := (readHeader image).escalation * 60000000 }
              tly := { s.tly with
                beaconPeriod := (readHeader image).beacon * 1000000, fullInterval := (readHeader image).interval
                staleTime := (readHeader image).stale * 1000000
                beaconTimer := some (s.now + dt + (readHeader image).beacon * 1000000) }
              pru := { s.pru with
                enabled := decide ((readHeader image).pairing = 2), window := (readHeader image).window * 60000000
                mode := if (readHeader image).mode = 1 then .latest else .keep }
              bsc := { s.bsc with
                waiting := [{ req := .hello, time := s.now + dt, taken := s.bsc.takenCount, failed := 0 },
                  { req := .tally .full, time := s.now + dt, taken := s.bsc.takenCount + 1, failed := 0 }]
                takenCount := s.bsc.takenCount + 2
                deferral := if s.bsc.busy then none
                  else some { start := s.now + dt, due := s.now + dt + (2 * 31 + s.ownNumber) * 80 } } } :
              State).showLamps)
end

