-- ==== Sys2Proof/Laws/State.lean ====
section
/-! SUPPORT. One lemma per field and named update of State, true by rfl: no later proof unfolds a record update. -/

namespace Sys2Proof.Machine

/-! ### elapse -/

@[simp] theorem State.elapse_now (s : State) (dt : Time) : (s.elapse dt).now = s.now + dt := rfl
@[simp] theorem State.elapse_held (s : State) (dt : Time) : (s.elapse dt).held = s.held := rfl
@[simp] theorem State.elapse_channels (s : State) (dt : Time) : (s.elapse dt).channels = s.channels := rfl
@[simp] theorem State.elapse_bays (s : State) (dt : Time) : (s.elapse dt).bays = s.bays := rfl
@[simp] theorem State.elapse_pru (s : State) (dt : Time) : (s.elapse dt).pru = s.pru := rfl
@[simp] theorem State.elapse_slots (s : State) (dt : Time) : (s.elapse dt).slots = s.slots := rfl
@[simp] theorem State.elapse_peers (s : State) (dt : Time) : (s.elapse dt).peers = s.peers := rfl
@[simp] theorem State.elapse_tly (s : State) (dt : Time) : (s.elapse dt).tly = s.tly := rfl
@[simp] theorem State.elapse_alu (s : State) (dt : Time) : (s.elapse dt).alu = s.alu := rfl
@[simp] theorem State.elapse_bsc (s : State) (dt : Time) : (s.elapse dt).bsc = s.bsc := rfl
@[simp] theorem State.elapse_stc (s : State) (dt : Time) : (s.elapse dt).stc = s.stc := rfl
@[simp] theorem State.elapse_hlu (s : State) (dt : Time) : (s.elapse dt).hlu = s.hlu := rfl
@[simp] theorem State.elapse_lamps (s : State) (dt : Time) : (s.elapse dt).lamps = s.lamps := rfl
@[simp] theorem State.elapse_freeCount (s : State) (dt : Time) : (s.elapse dt).freeCount = s.freeCount := rfl
@[simp] theorem State.elapse_pending (s : State) (dt : Time) : (s.elapse dt).pending = s.pending := rfl

/-! ### modBay -/

@[simp] theorem State.modBay_now (s : State) (n : Nat) (f : Bay → Bay) : (s.modBay n f).now = s.now := rfl
@[simp] theorem State.modBay_held (s : State) (n : Nat) (f : Bay → Bay) : (s.modBay n f).held = s.held := rfl
@[simp] theorem State.modBay_channels (s : State) (n : Nat) (f : Bay → Bay) :
    (s.modBay n f).channels = s.channels := rfl
@[simp] theorem State.modBay_bays (s : State) (n : Nat) (f : Bay → Bay) : (s.modBay n f).bays = mod1 s.bays n f := rfl
@[simp] theorem State.modBay_pru (s : State) (n : Nat) (f : Bay → Bay) : (s.modBay n f).pru = s.pru := rfl
@[simp] theorem State.modBay_slots (s : State) (n : Nat) (f : Bay → Bay) : (s.modBay n f).slots = s.slots := rfl
@[simp] theorem State.modBay_peers (s : State) (n : Nat) (f : Bay → Bay) : (s.modBay n f).peers = s.peers := rfl
@[simp] theorem State.modBay_tly (s : State) (n : Nat) (f : Bay → Bay) : (s.modBay n f).tly = s.tly := rfl
@[simp] theorem State.modBay_alu (s : State) (n : Nat) (f : Bay → Bay) : (s.modBay n f).alu = s.alu := rfl
@[simp] theorem State.modBay_bsc (s : State) (n : Nat) (f : Bay → Bay) : (s.modBay n f).bsc = s.bsc := rfl
@[simp] theorem State.modBay_stc (s : State) (n : Nat) (f : Bay → Bay) : (s.modBay n f).stc = s.stc := rfl
@[simp] theorem State.modBay_hlu (s : State) (n : Nat) (f : Bay → Bay) : (s.modBay n f).hlu = s.hlu := rfl
@[simp] theorem State.modBay_lamps (s : State) (n : Nat) (f : Bay → Bay) : (s.modBay n f).lamps = s.lamps := rfl
@[simp] theorem State.modBay_freeCount (s : State) (n : Nat) (f : Bay → Bay) :
    (s.modBay n f).freeCount = s.freeCount := rfl
@[simp] theorem State.modBay_pending (s : State) (n : Nat) (f : Bay → Bay) : (s.modBay n f).pending = s.pending := rfl

/-! ### modPeer -/

@[simp] theorem State.modPeer_now (s : State) (n : Nat) (f : Peer → Peer) : (s.modPeer n f).now = s.now := rfl
@[simp] theorem State.modPeer_held (s : State) (n : Nat) (f : Peer → Peer) : (s.modPeer n f).held = s.held := rfl
@[simp] theorem State.modPeer_channels (s : State) (n : Nat) (f : Peer → Peer) :
    (s.modPeer n f).channels = s.channels := rfl
@[simp] theorem State.modPeer_bays (s : State) (n : Nat) (f : Peer → Peer) : (s.modPeer n f).bays = s.bays := rfl
@[simp] theorem State.modPeer_pru (s : State) (n : Nat) (f : Peer → Peer) : (s.modPeer n f).pru = s.pru := rfl
@[simp] theorem State.modPeer_slots (s : State) (n : Nat) (f : Peer → Peer) : (s.modPeer n f).slots = s.slots := rfl
@[simp] theorem State.modPeer_peers (s : State) (n : Nat) (f : Peer → Peer) :
    (s.modPeer n f).peers = mod1 s.peers n f := rfl
@[simp] theorem State.modPeer_tly (s : State) (n : Nat) (f : Peer → Peer) : (s.modPeer n f).tly = s.tly := rfl
@[simp] theorem State.modPeer_alu (s : State) (n : Nat) (f : Peer → Peer) : (s.modPeer n f).alu = s.alu := rfl
@[simp] theorem State.modPeer_bsc (s : State) (n : Nat) (f : Peer → Peer) : (s.modPeer n f).bsc = s.bsc := rfl
@[simp] theorem State.modPeer_stc (s : State) (n : Nat) (f : Peer → Peer) : (s.modPeer n f).stc = s.stc := rfl
@[simp] theorem State.modPeer_hlu (s : State) (n : Nat) (f : Peer → Peer) : (s.modPeer n f).hlu = s.hlu := rfl
@[simp] theorem State.modPeer_lamps (s : State) (n : Nat) (f : Peer → Peer) : (s.modPeer n f).lamps = s.lamps := rfl
@[simp] theorem State.modPeer_freeCount (s : State) (n : Nat) (f : Peer → Peer) :
    (s.modPeer n f).freeCount = s.freeCount := rfl
@[simp] theorem State.modPeer_pending (s : State) (n : Nat) (f : Peer → Peer) :
    (s.modPeer n f).pending = s.pending := rfl

/-! ### modSlot -/

@[simp] theorem State.modSlot_now (s : State) (a : Nat) (f : Slot → Slot) : (s.modSlot a f).now = s.now := rfl
@[simp] theorem State.modSlot_held (s : State) (a : Nat) (f : Slot → Slot) : (s.modSlot a f).held = s.held := rfl
@[simp] theorem State.modSlot_channels (s : State) (a : Nat) (f : Slot → Slot) :
    (s.modSlot a f).channels = s.channels := rfl
@[simp] theorem State.modSlot_bays (s : State) (a : Nat) (f : Slot → Slot) : (s.modSlot a f).bays = s.bays := rfl
@[simp] theorem State.modSlot_pru (s : State) (a : Nat) (f : Slot → Slot) : (s.modSlot a f).pru = s.pru := rfl
@[simp] theorem State.modSlot_slots (s : State) (a : Nat) (f : Slot → Slot) :
    (s.modSlot a f).slots = s.slots.map fun sl => if sl.art.number == a then f sl else sl := rfl
@[simp] theorem State.modSlot_peers (s : State) (a : Nat) (f : Slot → Slot) : (s.modSlot a f).peers = s.peers := rfl
@[simp] theorem State.modSlot_tly (s : State) (a : Nat) (f : Slot → Slot) : (s.modSlot a f).tly = s.tly := rfl
@[simp] theorem State.modSlot_alu (s : State) (a : Nat) (f : Slot → Slot) : (s.modSlot a f).alu = s.alu := rfl
@[simp] theorem State.modSlot_bsc (s : State) (a : Nat) (f : Slot → Slot) : (s.modSlot a f).bsc = s.bsc := rfl
@[simp] theorem State.modSlot_stc (s : State) (a : Nat) (f : Slot → Slot) : (s.modSlot a f).stc = s.stc := rfl
@[simp] theorem State.modSlot_hlu (s : State) (a : Nat) (f : Slot → Slot) : (s.modSlot a f).hlu = s.hlu := rfl
@[simp] theorem State.modSlot_lamps (s : State) (a : Nat) (f : Slot → Slot) : (s.modSlot a f).lamps = s.lamps := rfl
@[simp] theorem State.modSlot_freeCount (s : State) (a : Nat) (f : Slot → Slot) :
    (s.modSlot a f).freeCount = s.freeCount := rfl
@[simp] theorem State.modSlot_pending (s : State) (a : Nat) (f : Slot → Slot) :
    (s.modSlot a f).pending = s.pending := rfl

/-! ### modArticle -/

@[simp] theorem State.modArticle_now (s : State) (a : Nat) (f : Article → Article) :
    (s.modArticle a f).now = s.now := rfl
@[simp] theorem State.modArticle_held (s : State) (a : Nat) (f : Article → Article) :
    (s.modArticle a f).held = s.held := rfl
@[simp] theorem State.modArticle_channels (s : State) (a : Nat) (f : Article → Article) :
    (s.modArticle a f).channels = s.channels := rfl
@[simp] theorem State.modArticle_bays (s : State) (a : Nat) (f : Article → Article) :
    (s.modArticle a f).bays = s.bays := rfl
@[simp] theorem State.modArticle_pru (s : State) (a : Nat) (f : Article → Article) :
    (s.modArticle a f).pru = s.pru := rfl
@[simp] theorem State.modArticle_slots (s : State) (a : Nat) (f : Article → Article) :
    (s.modArticle a f).slots = s.slots.map fun sl => if sl.art.number == a then { sl with art := f sl.art } else sl := rfl
@[simp] theorem State.modArticle_peers (s : State) (a : Nat) (f : Article → Article) :
    (s.modArticle a f).peers = s.peers := rfl
@[simp] theorem State.modArticle_tly (s : State) (a : Nat) (f : Article → Article) :
    (s.modArticle a f).tly = s.tly := rfl
@[simp] theorem State.modArticle_alu (s : State) (a : Nat) (f : Article → Article) :
    (s.modArticle a f).alu = s.alu := rfl
@[simp] theorem State.modArticle_bsc (s : State) (a : Nat) (f : Article → Article) :
    (s.modArticle a f).bsc = s.bsc := rfl
@[simp] theorem State.modArticle_stc (s : State) (a : Nat) (f : Article → Article) :
    (s.modArticle a f).stc = s.stc := rfl
@[simp] theorem State.modArticle_hlu (s : State) (a : Nat) (f : Article → Article) :
    (s.modArticle a f).hlu = s.hlu := rfl
@[simp] theorem State.modArticle_lamps (s : State) (a : Nat) (f : Article → Article) :
    (s.modArticle a f).lamps = s.lamps := rfl
@[simp] theorem State.modArticle_freeCount (s : State) (a : Nat) (f : Article → Article) :
    (s.modArticle a f).freeCount = s.freeCount := rfl
@[simp] theorem State.modArticle_pending (s : State) (a : Nat) (f : Article → Article) :
    (s.modArticle a f).pending = s.pending := rfl

/-! ### modAlert -/

@[simp] theorem State.modAlert_now (s : State) (a : Nat) (f : Alert → Alert) : (s.modAlert a f).now = s.now := rfl
@[simp] theorem State.modAlert_held (s : State) (a : Nat) (f : Alert → Alert) : (s.modAlert a f).held = s.held := rfl
@[simp] theorem State.modAlert_channels (s : State) (a : Nat) (f : Alert → Alert) :
    (s.modAlert a f).channels = s.channels := rfl
@[simp] theorem State.modAlert_bays (s : State) (a : Nat) (f : Alert → Alert) : (s.modAlert a f).bays = s.bays := rfl
@[simp] theorem State.modAlert_pru (s : State) (a : Nat) (f : Alert → Alert) : (s.modAlert a f).pru = s.pru := rfl
@[simp] theorem State.modAlert_slots (s : State) (a : Nat) (f : Alert → Alert) :
    (s.modAlert a f).slots = s.slots.map fun sl => if sl.art.number == a then { sl with alert := f sl.alert } else sl := rfl
@[simp] theorem State.modAlert_peers (s : State) (a : Nat) (f : Alert → Alert) :
    (s.modAlert a f).peers = s.peers := rfl
@[simp] theorem State.modAlert_tly (s : State) (a : Nat) (f : Alert → Alert) : (s.modAlert a f).tly = s.tly := rfl
@[simp] theorem State.modAlert_alu (s : State) (a : Nat) (f : Alert → Alert) : (s.modAlert a f).alu = s.alu := rfl
@[simp] theorem State.modAlert_bsc (s : State) (a : Nat) (f : Alert → Alert) : (s.modAlert a f).bsc = s.bsc := rfl
@[simp] theorem State.modAlert_stc (s : State) (a : Nat) (f : Alert → Alert) : (s.modAlert a f).stc = s.stc := rfl
@[simp] theorem State.modAlert_hlu (s : State) (a : Nat) (f : Alert → Alert) : (s.modAlert a f).hlu = s.hlu := rfl
@[simp] theorem State.modAlert_lamps (s : State) (a : Nat) (f : Alert → Alert) :
    (s.modAlert a f).lamps = s.lamps := rfl
@[simp] theorem State.modAlert_freeCount (s : State) (a : Nat) (f : Alert → Alert) :
    (s.modAlert a f).freeCount = s.freeCount := rfl
@[simp] theorem State.modAlert_pending (s : State) (a : Nat) (f : Alert → Alert) :
    (s.modAlert a f).pending = s.pending := rfl

/-! ### raiseN -/

@[simp] theorem State.raiseN_now (s : State) (c : FaultCode) (subj art k : Nat) :
    (s.raiseN c subj art k).now = s.now := rfl
@[simp] theorem State.raiseN_held (s : State) (c : FaultCode) (subj art k : Nat) :
    (s.raiseN c subj art k).held = s.held := rfl
@[simp] theorem State.raiseN_channels (s : State) (c : FaultCode) (subj art k : Nat) :
    (s.raiseN c subj art k).channels = s.channels := rfl
@[simp] theorem State.raiseN_bays (s : State) (c : FaultCode) (subj art k : Nat) :
    (s.raiseN c subj art k).bays = s.bays := rfl
@[simp] theorem State.raiseN_pru (s : State) (c : FaultCode) (subj art k : Nat) :
    (s.raiseN c subj art k).pru = s.pru := rfl
@[simp] theorem State.raiseN_slots (s : State) (c : FaultCode) (subj art k : Nat) :
    (s.raiseN c subj art k).slots = s.slots := rfl
@[simp] theorem State.raiseN_peers (s : State) (c : FaultCode) (subj art k : Nat) :
    (s.raiseN c subj art k).peers = s.peers := rfl
@[simp] theorem State.raiseN_tly (s : State) (c : FaultCode) (subj art k : Nat) :
    (s.raiseN c subj art k).tly = s.tly := rfl
@[simp] theorem State.raiseN_alu (s : State) (c : FaultCode) (subj art k : Nat) :
    (s.raiseN c subj art k).alu = s.alu := rfl
@[simp] theorem State.raiseN_bsc (s : State) (c : FaultCode) (subj art k : Nat) :
    (s.raiseN c subj art k).bsc = s.bsc := rfl
@[simp] theorem State.raiseN_stc (s : State) (c : FaultCode) (subj art k : Nat) :
    (s.raiseN c subj art k).stc = s.stc := rfl
@[simp] theorem State.raiseN_hlu (s : State) (c : FaultCode) (subj art k : Nat) :
    (s.raiseN c subj art k).hlu = s.hlu.take c subj art k s.now := rfl
@[simp] theorem State.raiseN_lamps (s : State) (c : FaultCode) (subj art k : Nat) :
    (s.raiseN c subj art k).lamps = s.lamps := rfl
@[simp] theorem State.raiseN_freeCount (s : State) (c : FaultCode) (subj art k : Nat) :
    (s.raiseN c subj art k).freeCount = s.freeCount := rfl
@[simp] theorem State.raiseN_pending (s : State) (c : FaultCode) (subj art k : Nat) :
    (s.raiseN c subj art k).pending = s.pending := rfl

/-! ### raise -/

@[simp] theorem State.raise_now (s : State) (c : FaultCode) (subj art : Nat) : (s.raise c subj art).now = s.now := rfl
@[simp] theorem State.raise_held (s : State) (c : FaultCode) (subj art : Nat) :
    (s.raise c subj art).held = s.held := rfl
@[simp] theorem State.raise_channels (s : State) (c : FaultCode) (subj art : Nat) :
    (s.raise c subj art).channels = s.channels := rfl
@[simp] theorem State.raise_bays (s : State) (c : FaultCode) (subj art : Nat) :
    (s.raise c subj art).bays = s.bays := rfl
@[simp] theorem State.raise_pru (s : State) (c : FaultCode) (subj art : Nat) : (s.raise c subj art).pru = s.pru := rfl
@[simp] theorem State.raise_slots (s : State) (c : FaultCode) (subj art : Nat) :
    (s.raise c subj art).slots = s.slots := rfl
@[simp] theorem State.raise_peers (s : State) (c : FaultCode) (subj art : Nat) :
    (s.raise c subj art).peers = s.peers := rfl
@[simp] theorem State.raise_tly (s : State) (c : FaultCode) (subj art : Nat) : (s.raise c subj art).tly = s.tly := rfl
@[simp] theorem State.raise_alu (s : State) (c : FaultCode) (subj art : Nat) : (s.raise c subj art).alu = s.alu := rfl
@[simp] theorem State.raise_bsc (s : State) (c : FaultCode) (subj art : Nat) : (s.raise c subj art).bsc = s.bsc := rfl
@[simp] theorem State.raise_stc (s : State) (c : FaultCode) (subj art : Nat) : (s.raise c subj art).stc = s.stc := rfl
@[simp] theorem State.raise_hlu (s : State) (c : FaultCode) (subj art : Nat) :
    (s.raise c subj art).hlu = s.hlu.take c subj art 1 s.now := rfl
@[simp] theorem State.raise_lamps (s : State) (c : FaultCode) (subj art : Nat) :
    (s.raise c subj art).lamps = s.lamps := rfl
@[simp] theorem State.raise_freeCount (s : State) (c : FaultCode) (subj art : Nat) :
    (s.raise c subj art).freeCount = s.freeCount := rfl
@[simp] theorem State.raise_pending (s : State) (c : FaultCode) (subj art : Nat) :
    (s.raise c subj art).pending = s.pending := rfl

/-! ### count -/

@[simp] theorem State.count_now (s : State) (c : Counter) : (s.count c).now = s.now := rfl
@[simp] theorem State.count_held (s : State) (c : Counter) : (s.count c).held = s.held := rfl
@[simp] theorem State.count_channels (s : State) (c : Counter) : (s.count c).channels = s.channels := rfl
@[simp] theorem State.count_bays (s : State) (c : Counter) : (s.count c).bays = s.bays := rfl
@[simp] theorem State.count_pru (s : State) (c : Counter) : (s.count c).pru = s.pru := rfl
@[simp] theorem State.count_slots (s : State) (c : Counter) : (s.count c).slots = s.slots := rfl
@[simp] theorem State.count_peers (s : State) (c : Counter) : (s.count c).peers = s.peers := rfl
@[simp] theorem State.count_tly (s : State) (c : Counter) : (s.count c).tly = s.tly := rfl
@[simp] theorem State.count_alu (s : State) (c : Counter) : (s.count c).alu = s.alu := rfl
@[simp] theorem State.count_bsc (s : State) (c : Counter) : (s.count c).bsc = s.bsc := rfl
@[simp] theorem State.count_stc (s : State) (c : Counter) : (s.count c).stc = s.stc := rfl
@[simp] theorem State.count_hlu (s : State) (c : Counter) : (s.count c).hlu = s.hlu.rise c 1 := rfl
@[simp] theorem State.count_lamps (s : State) (c : Counter) : (s.count c).lamps = s.lamps := rfl
@[simp] theorem State.count_freeCount (s : State) (c : Counter) : (s.count c).freeCount = s.freeCount := rfl
@[simp] theorem State.count_pending (s : State) (c : Counter) : (s.count c).pending = s.pending := rfl

/-! ### clearMarks -/

@[simp] theorem State.clearMarks_now (s : State) : (s.clearMarks).now = s.now := rfl
@[simp] theorem State.clearMarks_held (s : State) : (s.clearMarks).held = s.held := rfl
@[simp] theorem State.clearMarks_channels (s : State) : (s.clearMarks).channels = s.channels := rfl
@[simp] theorem State.clearMarks_bays (s : State) : (s.clearMarks).bays = s.bays := rfl
@[simp] theorem State.clearMarks_pru (s : State) : (s.clearMarks).pru = s.pru := rfl
@[simp] theorem State.clearMarks_slots (s : State) :
    (s.clearMarks).slots = s.slots.map fun sl => { sl with art := { sl.art with changed := false } } := rfl
@[simp] theorem State.clearMarks_peers (s : State) : (s.clearMarks).peers = s.peers := rfl
@[simp] theorem State.clearMarks_tly (s : State) : (s.clearMarks).tly = s.tly := rfl
@[simp] theorem State.clearMarks_alu (s : State) : (s.clearMarks).alu = s.alu := rfl
@[simp] theorem State.clearMarks_bsc (s : State) : (s.clearMarks).bsc = s.bsc := rfl
@[simp] theorem State.clearMarks_stc (s : State) : (s.clearMarks).stc = s.stc := rfl
@[simp] theorem State.clearMarks_hlu (s : State) : (s.clearMarks).hlu = s.hlu := rfl
@[simp] theorem State.clearMarks_lamps (s : State) : (s.clearMarks).lamps = s.lamps := rfl
@[simp] theorem State.clearMarks_freeCount (s : State) : (s.clearMarks).freeCount = s.freeCount := rfl
@[simp] theorem State.clearMarks_pending (s : State) : (s.clearMarks).pending = s.pending := rfl

/-! ### returnMarks -/

@[simp] theorem State.returnMarks_now (s : State) (m : List Nat) : (s.returnMarks m).now = s.now := rfl
@[simp] theorem State.returnMarks_held (s : State) (m : List Nat) : (s.returnMarks m).held = s.held := rfl
@[simp] theorem State.returnMarks_channels (s : State) (m : List Nat) : (s.returnMarks m).channels = s.channels := rfl
@[simp] theorem State.returnMarks_bays (s : State) (m : List Nat) : (s.returnMarks m).bays = s.bays := rfl
@[simp] theorem State.returnMarks_pru (s : State) (m : List Nat) : (s.returnMarks m).pru = s.pru := rfl
@[simp] theorem State.returnMarks_slots (s : State) (m : List Nat) :
    (s.returnMarks m).slots = s.slots.map fun sl => if m.contains sl.art.number then { sl with art := { sl.art with changed := true } } else sl := rfl
@[simp] theorem State.returnMarks_peers (s : State) (m : List Nat) : (s.returnMarks m).peers = s.peers := rfl
@[simp] theorem State.returnMarks_tly (s : State) (m : List Nat) : (s.returnMarks m).tly = s.tly := rfl
@[simp] theorem State.returnMarks_alu (s : State) (m : List Nat) : (s.returnMarks m).alu = s.alu := rfl
@[simp] theorem State.returnMarks_bsc (s : State) (m : List Nat) : (s.returnMarks m).bsc = s.bsc := rfl
@[simp] theorem State.returnMarks_stc (s : State) (m : List Nat) : (s.returnMarks m).stc = s.stc := rfl
@[simp] theorem State.returnMarks_hlu (s : State) (m : List Nat) : (s.returnMarks m).hlu = s.hlu := rfl
@[simp] theorem State.returnMarks_lamps (s : State) (m : List Nat) : (s.returnMarks m).lamps = s.lamps := rfl
@[simp] theorem State.returnMarks_freeCount (s : State) (m : List Nat) :
    (s.returnMarks m).freeCount = s.freeCount := rfl
@[simp] theorem State.returnMarks_pending (s : State) (m : List Nat) : (s.returnMarks m).pending = s.pending := rfl

/-! ### showLamps -/

@[simp] theorem State.showLamps_now (s : State) : (s.showLamps).now = s.now := rfl
@[simp] theorem State.showLamps_held (s : State) : (s.showLamps).held = s.held := rfl
@[simp] theorem State.showLamps_channels (s : State) : (s.showLamps).channels = s.channels := rfl
@[simp] theorem State.showLamps_bays (s : State) : (s.showLamps).bays = s.bays := rfl
@[simp] theorem State.showLamps_pru (s : State) : (s.showLamps).pru = s.pru := rfl
@[simp] theorem State.showLamps_slots (s : State) : (s.showLamps).slots = s.slots := rfl
@[simp] theorem State.showLamps_peers (s : State) : (s.showLamps).peers = s.peers := rfl
@[simp] theorem State.showLamps_tly (s : State) : (s.showLamps).tly = s.tly := rfl
@[simp] theorem State.showLamps_alu (s : State) : (s.showLamps).alu = s.alu := rfl
@[simp] theorem State.showLamps_bsc (s : State) : (s.showLamps).bsc = s.bsc := rfl
@[simp] theorem State.showLamps_stc (s : State) : (s.showLamps).stc = s.stc := rfl
@[simp] theorem State.showLamps_hlu (s : State) : (s.showLamps).hlu = s.hlu := rfl
@[simp] theorem State.showLamps_lamps (s : State) : (s.showLamps).lamps = s.bays.map s.selectPattern := rfl
@[simp] theorem State.showLamps_freeCount (s : State) : (s.showLamps).freeCount = s.freeCount := rfl
@[simp] theorem State.showLamps_pending (s : State) : (s.showLamps).pending = s.pending := rfl

/-! ### withQueue -/

@[simp] theorem State.withQueue_now (s : State) (q : List Instr) : (s.withQueue q).now = s.now := rfl
@[simp] theorem State.withQueue_held (s : State) (q : List Instr) : (s.withQueue q).held = s.held := rfl
@[simp] theorem State.withQueue_channels (s : State) (q : List Instr) : (s.withQueue q).channels = s.channels := rfl
@[simp] theorem State.withQueue_bays (s : State) (q : List Instr) : (s.withQueue q).bays = s.bays := rfl
@[simp] theorem State.withQueue_pru (s : State) (q : List Instr) : (s.withQueue q).pru = s.pru := rfl
@[simp] theorem State.withQueue_slots (s : State) (q : List Instr) : (s.withQueue q).slots = s.slots := rfl
@[simp] theorem State.withQueue_peers (s : State) (q : List Instr) : (s.withQueue q).peers = s.peers := rfl
@[simp] theorem State.withQueue_tly (s : State) (q : List Instr) : (s.withQueue q).tly = s.tly := rfl
@[simp] theorem State.withQueue_alu (s : State) (q : List Instr) : (s.withQueue q).alu = s.alu := rfl
@[simp] theorem State.withQueue_bsc (s : State) (q : List Instr) : (s.withQueue q).bsc = s.bsc := rfl
@[simp] theorem State.withQueue_stc (s : State) (q : List Instr) : (s.withQueue q).stc = s.stc := rfl
@[simp] theorem State.withQueue_hlu (s : State) (q : List Instr) : (s.withQueue q).hlu = s.hlu := rfl
@[simp] theorem State.withQueue_lamps (s : State) (q : List Instr) : (s.withQueue q).lamps = s.lamps := rfl
@[simp] theorem State.withQueue_freeCount (s : State) (q : List Instr) :
    (s.withQueue q).freeCount = s.freeCount := rfl
@[simp] theorem State.withQueue_pending (s : State) (q : List Instr) : (s.withQueue q).pending = q := rfl

end Sys2Proof.Machine
end

