-- ==== Sys2Proof/Laws/Queue.lean ====
section
/-! SUPPORT. The transmit queue keeps its bounds under every request, withdrawal and end of an attempt. -/

namespace Sys2Proof.Machine

/-! ### Merge keys as values -/

/-- The merge key of a request as a value. -/
def Request.key : Request → Nat × Nat
  | .hello => (0, 0)
  | .tally _ => (1, 0)
  | .shift => (2, 0)
  | .alertFrame _ a => (3, a)
  | .query n => (4, n)

theorem Request.sameKey_iff (r q : Request) : r.sameKey q = true ↔ r.key = q.key := by
  cases r <;> cases q <;> simp [Request.sameKey, Request.key]

theorem Request.sameKey_false_iff (r q : Request) : r.sameKey q = false ↔ r.key ≠ q.key := by
  rw [← Bool.not_eq_true, Request.sameKey_iff]

/-- The key of an entry. -/
def TxEntry.key (e : TxEntry) : Nat × Nat := e.req.key

theorem keysDistinct_iff (l : List TxEntry) : keysDistinct l ↔ (l.map TxEntry.key).Nodup := by
  unfold keysDistinct List.Nodup
  rw [List.pairwise_map]
  simp only [Request.sameKey_false_iff]
  rfl

theorem TxEntry.merge_key {e : TxEntry} {r : Request} (h : e.req.sameKey r = true) :
    (e.merge r).key = e.key := by
  rcases e with ⟨q, t, n, k⟩
  rcases q with _ | v | _ | ⟨k', a⟩ | n <;> rcases r with _ | v' | _ | ⟨k'', b⟩ | m <;>
    simp_all [TxEntry.merge, Request.merge, TxEntry.key, Request.key, Request.sameKey]
  all_goals (try cases v') <;> simp_all

theorem TxEntry.merge_failed_le (e : TxEntry) (r : Request) : (e.merge r).failed ≤ e.failed := by
  unfold TxEntry.merge
  split
  · dsimp only
    split <;> omega
  · exact Nat.le_refl _

/-! ### Head and last -/

theorem headOf_mem {l : List TxEntry} {h : TxEntry} (e : headOf l = some h) : h ∈ l := by
  induction l generalizing h with
  | nil => simp [headOf] at e
  | cons x rest ih => grind [headOf]

theorem lastOf_mem {l : List TxEntry} {h : TxEntry} (e : lastOf l = some h) : h ∈ l := by
  induction l generalizing h with
  | nil => simp [lastOf] at e
  | cons x rest ih => grind [lastOf]

theorem headOf_none {l : List TxEntry} : headOf l = none ↔ l = [] := by
  cases l <;> grind [headOf]

/-! ### The bus controller -/

theorem BusController.used_eq (b : BusController) : b.used = b.entries.length := by
  unfold BusController.used BusController.entries
  cases b.flight <;> simp

/-- Soundness by the list of entries, for a controller that keeps its run. -/
theorem BusController.sound_iff (b : BusController) :
    b.Sound ↔ b.entries.length ≤ 8 ∧ (b.entries.map TxEntry.key).Nodup ∧ (∀ e ∈ b.entries, e.failed ≤ 7)
      ∧ (∀ f ∈ b.flight, ∀ e ∈ f.followOn, f.entry.req.sameKey e.req = true) ∧ b.abandonRun ≤ 2
      ∧ (b.deferral.isSome → b.busy = false ∧ b.flight = none ∧ b.waiting ≠ []) := by
  unfold BusController.Sound
  rw [keysDistinct_iff, BusController.used_eq]

theorem BusController.append_entries (b : BusController) (r : Request) (now : Time) :
    (b.append r now).entries.Perm (b.newEntry r now :: b.entries) := by
  unfold BusController.entries BusController.append
  simp only [List.append_assoc, List.singleton_append]
  exact List.perm_middle

theorem BusController.append_sound {b : BusController} (h : b.Sound) (r : Request) (now : Time)
    (new : ∀ e ∈ b.entries, e.key ≠ r.key) (room : b.entries.length < 8) : (b.append r now).Sound := by
  rw [BusController.sound_iff] at h ⊢
  obtain ⟨-, h2, h3, h4, h5, h6⟩ := h
  have p := b.append_entries r now
  refine ⟨?_, ?_, ?_, h4, h5, ?_⟩
  · rw [p.length_eq]; simp; omega
  · rw [(p.map _).nodup_iff]
    simp only [List.map_cons, List.nodup_cons, List.mem_map, not_exists, not_and]
    exact ⟨fun e he => new e he, h2⟩
  · intro e he
    rcases List.mem_cons.1 (p.mem_iff.1 he) with rfl | he
    · exact Nat.zero_le _
    · exact h3 e he
  · intro hd
    obtain ⟨a1, a2, _⟩ := h6 hd
    exact ⟨a1, a2, by simp [BusController.append]⟩

/-- A queued entry leaves while the deferral is over or another is added at once. -/
theorem BusController.erase_entries (b : BusController) {v : TxEntry} (hv : v ∈ b.waiting) :
    b.entries.Perm (v :: ({ b with waiting := b.waiting.erase v } : BusController).entries) := by
  unfold BusController.entries
  exact (List.perm_cons_erase hv).append_right _

theorem BusController.enterNew_sound {b : BusController} (h : b.Sound) (r : Request) (now : Time)
    (new : ∀ e ∈ b.entries, e.key ≠ r.key) : (b.enterNew r now).1.Sound := by
  unfold BusController.enterNew
  split
  case isTrue hlt => exact append_sound h r now new (by rw [← b.used_eq]; exact hlt)
  case isFalse hge =>
    split
    case h_2 => exact h
    case h_1 v hv =>
      split
      case isFalse => exact h
      case isTrue =>
        have hm := lastOf_mem hv
        have p := b.erase_entries hm
        rw [BusController.sound_iff] at h
        obtain ⟨h1, h2, h3, h4, h5, h6⟩ := h
        have q := ({ b with waiting := b.waiting.erase v } : BusController).append_entries r now
        have hl := p.length_eq
        rw [BusController.sound_iff]
        refine ⟨?_, ?_, ?_, h4, h5, ?_⟩
        · rw [q.length_eq]; simp at hl ⊢; omega
        · rw [(q.map _).nodup_iff]
          rw [(p.map _).nodup_iff] at h2
          simp only [List.map_cons, List.nodup_cons, List.mem_map, not_exists, not_and] at h2 ⊢
          exact ⟨fun e he => new e (p.mem_iff.2 (List.mem_cons_of_mem _ he)), h2.2⟩
        · intro e he
          rcases List.mem_cons.1 (q.mem_iff.1 he) with rfl | he
          · exact Nat.zero_le _
          · exact h3 e (p.mem_iff.2 (List.mem_cons_of_mem _ he))
        · intro hd
          obtain ⟨a1, a2, _⟩ := h6 hd
          exact ⟨a1, a2, by simp [BusController.append]⟩

theorem BusController.enter_sound {b : BusController} (h : b.Sound) (r : Request) (now : Time) :
    (b.enter r now).1.Sound := by
  unfold BusController.enter
  split
  case isTrue hany =>
    rw [BusController.sound_iff] at h ⊢
    obtain ⟨h1, h2, h3, h4, h5, h6⟩ := h
    have hk : (({ b with waiting := b.waiting.map fun e => if e.req.sameKey r then e.merge r else e } :
        BusController).entries.map TxEntry.key) = b.entries.map TxEntry.key := by
      unfold BusController.entries
      simp only [List.map_append, List.map_map]
      congr 1
      apply List.map_congr_left
      intro e _
      simp only [Function.comp]
      split
      · exact TxEntry.merge_key (by assumption)
      · rfl
    refine ⟨?_, ?_, ?_, h4, h5, ?_⟩
    · have := congrArg List.length hk
      simp only [List.length_map] at this
      rw [this]; exact h1
    · rw [hk]; exact h2
    · intro e he
      unfold BusController.entries at he h3
      simp only [List.mem_append, List.mem_map] at he h3
      rcases he with ⟨x, hx, rfl⟩ | he
      · have := h3 x (Or.inl hx)
        split
        · exact Nat.le_trans (x.merge_failed_le r) this
        · exact this
      · exact h3 e (Or.inr he)
    · intro hd
      obtain ⟨a1, a2, a3⟩ := h6 hd
      exact ⟨a1, a2, by simpa using a3⟩
  case isFalse hany =>
    have hw : ∀ e ∈ b.waiting, e.key ≠ r.key := by
      intro e he hk
      exact hany (List.any_eq_true.2 ⟨e, he, (Request.sameKey_iff _ _).2 hk⟩)
    split
    case h_1 f hf =>
      split
      case isTrue hs =>
        rw [BusController.sound_iff] at h ⊢
        obtain ⟨h1, h2, h3, h4, h5, h6⟩ := h
        have he : ({ b with flight := some (f.follow (b.newEntry r now)), takenCount := b.takenCount + 1 } :
            BusController).entries = b.entries := by
          unfold BusController.entries
          simp [hf, Flight.follow]
        rw [he]
        refine ⟨h1, h2, h3, ?_, h5, ?_⟩
        · intro g hg e heg
          simp only [Option.mem_def, Option.some.injEq] at hg
          subst hg
          unfold Flight.follow at heg ⊢
          cases hfo : f.followOn with
          | none =>
            rw [hfo] at heg
            simp only [Option.mem_def, Option.some.injEq] at heg
            subst heg
            exact hs
          | some x =>
            rw [hfo] at heg
            simp only [Option.mem_def, Option.some.injEq] at heg
            subst heg
            have hx := h4 f hf x hfo
            have hxr : x.req.sameKey r = true := by
              rw [Request.sameKey_iff] at hx hs ⊢
              rw [← hx, hs]
            have hm := TxEntry.merge_key hxr
            rw [Request.sameKey_iff] at hx ⊢
            rw [hx]; exact hm.symm
        · intro hd
          obtain ⟨_, a2, _⟩ := h6 hd
          rw [hf] at a2; cases a2
      case isFalse hs =>
        refine enterNew_sound h r now fun e he => ?_
        unfold BusController.entries at he
        rcases List.mem_append.1 he with he | he
        · exact hw e he
        · simp [hf] at he
          subst he
          intro hk
          exact hs ((Request.sameKey_iff _ _).2 hk)
    case h_2 hf =>
      refine enterNew_sound h r now fun e he => ?_
      unfold BusController.entries at he
      rw [hf] at he
      simp at he
      exact hw e he

end Sys2Proof.Machine
end

