-- ==== Sys2Proof/Laws/Live.lean ====
section
/-! SUPPORT. Soundness of a state in which the blocks run (JOINING, RUNNING, ISOLATED), and the primitive updates that
keep it. `Live c s` carries the station controller's fields `c` along, so that it also says they have not moved. -/

namespace Sys2Proof.Machine

/-- A sound state in JOINING, RUNNING or ISOLATED whose station controller holds `c`. -/
structure State.Live (c : Controller) (s : State) : Prop where
  stc : s.stc = c
  on : s.listening = true
  held : s.held = none
  channels16 : s.channels.length = 16
  bays16 : s.bays.length = 16
  peers30 : s.peers.length = 30
  hlu : s.hlu.Sound
  bsc : s.bsc.Sound
  pru : s.pru.Sound
  ctl : s.stc.Sound
  bays : ∀ b ∈ s.bays, b.Sound s.unitWeight
  nodup : (s.slots.map fun sl => sl.art.number).Nodup
  slots : ∀ sl ∈ s.slots, sl.Sound s.ownNumber ∧ sl.ShareFits s.bays
  hush : s.speaking = false → s.bsc.Silent ∧ s.tly.beaconTimer = none ∧ s.tly.deltaTimer = none
  first : s.tly.firstWindow = true → ∀ sl ∈ s.slots, ∀ x ∈ sl.art.peers, x.state ≠ .absent

theorem State.live_iff (c : Controller) (s : State) :
    s.Live c ↔ s.Sound ∧ s.stc = c ∧ s.listening = true := by
  constructor
  · intro h
    refine ⟨⟨h.channels16, h.bays16, h.peers30, h.hlu, h.bsc, h.pru, h.ctl, h.bays, h.nodup, h.slots, h.hush, ?_, ?_, ?_,
      h.first⟩, h.stc, h.on⟩
    · intro hl; rw [h.on] at hl; cases hl
    · intro hh; have := h.on; simp [State.listening, hh] at this
    · intro hh; rw [h.held] at hh; cases hh
  · rintro ⟨⟨h1, h2, h3, h4, h5, h6, h7, h8, h9, h10, h11, -, -, h14, h15⟩, hc, hl⟩
    refine ⟨hc, hl, ?_, h1, h2, h3, h4, h5, h6, h7, h8, h9, h10, h11, h15⟩
    cases hh : s.held with
    | none => rfl
    | some x =>
      have := h14 (by simp [hh])
      simp [State.listening, this] at hl

/-! ### Health unit -/

theorem Health.rise_sound {h : Health} (hs : h.Sound) (c : Counter) (n : Nat) : (h.rise c n).Sound := by
  obtain ⟨h1, h2, h3⟩ := hs
  refine ⟨by simp [Health.rise, h1], ?_, h3⟩
  intro v hv
  simp only [Health.rise] at hv
  obtain ⟨i, hi, rfl⟩ := List.mem_iff_getElem.1 hv
  rw [List.getElem_modify]
  split
  · exact Nat.min_le_left _ _
  · exact h2 _ (List.getElem_mem _)

theorem captured_fits (o : Option Capture) (code : FaultCode) (subject article : Nat) (now : Time) (k : Severity)
    (hk : code.severity = k) (ho : ∀ c ∈ o, c.code.severity = k ∧ c.further ≤ 255) :
    ∀ c ∈ captured o code subject article now, c.code.severity = k ∧ c.further ≤ 255 := by
  intro c hc
  cases o with
  | none => simp [captured] at hc; subst hc; exact ⟨hk, Nat.zero_le _⟩
  | some d =>
    simp [captured] at hc; subst hc
    exact ⟨(ho d rfl).1, Nat.min_le_left _ _⟩

theorem Health.take_sound {h : Health} (hs : h.Sound) (code : FaultCode) (subject article n : Nat) (now : Time) :
    (h.take code subject article n now).Sound := by
  have step : ∀ g : Health, g.Sound → (match code.severity with
      | .note => g
      | .degrade => { g with degrade := captured g.degrade code subject article now }
      | .severe => { g with severe := captured g.severe code subject article now } : Health).Sound := by
    rintro g ⟨a1, a2, a3, a4⟩
    split
    · exact ⟨a1, a2, a3, a4⟩
    · exact ⟨a1, a2, captured_fits _ _ _ _ _ _ (by assumption) a3, a4⟩
    · exact ⟨a1, a2, a3, captured_fits _ _ _ _ _ _ (by assumption) a4⟩
  unfold Health.take
  refine step _ ?_
  split
  · exact Health.rise_sound hs _ _
  · exact hs

theorem State.Live.setFree {c : Controller} {s : State} (h : s.Live c) (n : Nat) : ({ s with freeCount := n } : State).Live c :=
  { h with }

theorem State.Live.setHlu {c : Controller} {s : State} (h : s.Live c) {x : Health} (hx : x.Sound) :
    ({ s with hlu := x } : State).Live c :=
  { h with hlu := hx }

theorem State.Live.raiseN {c : Controller} {s : State} (h : s.Live c) (code : FaultCode) (i a n : Nat) :
    (s.raiseN code i a n).Live c := h.setHlu (Health.take_sound h.hlu _ _ _ _ _)

theorem State.Live.raise {c : Controller} {s : State} (h : s.Live c) (code : FaultCode) (i a : Nat) :
    (s.raise code i a).Live c := h.raiseN _ _ _ _

theorem State.Live.count {c : Controller} {s : State} (h : s.Live c) (k : Counter) : (s.count k).Live c :=
  h.setHlu (Health.rise_sound h.hlu _ _)

/-! ### Bus controller, pairing unit, peers, timers -/

theorem State.Live.setBsc {c : Controller} {s : State} (h : s.Live c) {b : BusController} (hb : b.Sound)
    (hq : s.speaking = false → b.Silent) : ({ s with bsc := b } : State).Live c :=
  { h with bsc := hb, hush := fun k => ⟨hq k, (h.hush k).2⟩ }

theorem State.Live.setPru {c : Controller} {s : State} (h : s.Live c) {p : Pairing} (hp : p.Sound) :
    ({ s with pru := p } : State).Live c :=
  { h with pru := hp }

theorem State.Live.setDelta {c : Controller} {s : State} (h : s.Live c) (t : Option Time)
    (ht : s.speaking = false → t = none) : ({ s with tly := { s.tly with deltaTimer := t } } : State).Live c :=
  { h with hush := fun k => ⟨(h.hush k).1, (h.hush k).2.1, ht k⟩ }

theorem mod1_length {α : Type} (l : List α) (n : Nat) (f : α → α) : (mod1 l n f).length = l.length := by
  cases n <;> simp [mod1]

theorem State.Live.modPeer {c : Controller} {s : State} (h : s.Live c) (n : Nat) (f : Peer → Peer) :
    (s.modPeer n f).Live c :=
  { h with peers30 := by rw [State.modPeer_peers, mod1_length]; exact h.peers30 }

/-! ### Slots -/

/-- The unit weight of an article depends on the configuration parts alone. -/
theorem State.unitWeight_map (s t : State) (g : Slot → Slot) (hs : t.slots = s.slots.map g)
    (hg : ∀ sl ∈ s.slots, (g sl).art.config = sl.art.config) : t.unitWeight = s.unitWeight := by
  funext a
  unfold State.unitWeight State.slot?
  rw [hs]
  generalize s.slots = l at hg
  induction l with
  | nil => rfl
  | cons x rest ih =>
    have hx := hg x (List.mem_cons_self ..)
    simp only [Article.config, ArticleConfig.mk.injEq] at hx
    have ih := ih fun sl hsl => hg sl (List.mem_cons_of_mem _ hsl)
    simp only [List.map_cons, List.find?_cons, hx.1]
    cases hxa : (x.art.number == a) with
    | true => simp [hx.2.1]
    | false => simpa using ih

/-- Records mapped by a function that keeps their configuration and leaves each sound. -/
theorem State.Live.mapSlots {c : Controller} {s : State} (h : s.Live c) (g : Slot → Slot)
    (hg : ∀ sl ∈ s.slots, (g sl).art.config = sl.art.config)
    (hs : ∀ sl ∈ s.slots, (g sl).Sound s.ownNumber ∧ (g sl).ShareFits s.bays)
    (hf : s.tly.firstWindow = true → ∀ sl ∈ s.slots, ∀ x ∈ (g sl).art.peers, x.state ≠ .absent) :
    ({ s with slots := s.slots.map g } : State).Live c where
  stc := h.stc
  on := h.on
  held := h.held
  channels16 := h.channels16
  bays16 := h.bays16
  peers30 := h.peers30
  hlu := h.hlu
  bsc := h.bsc
  pru := h.pru
  ctl := h.ctl
  bays := by
    have e := State.unitWeight_map s { s with slots := s.slots.map g } g rfl hg
    intro b hb
    rw [e]
    exact h.bays b hb
  nodup := by
    have e : ((s.slots.map g).map fun sl => sl.art.number) = s.slots.map fun sl => sl.art.number := by
      rw [List.map_map]
      apply List.map_congr_left
      intro sl hsl
      have := hg sl hsl
      simp only [Article.config, ArticleConfig.mk.injEq] at this
      exact this.1
    show ((s.slots.map g).map fun sl => sl.art.number).Nodup
    rw [e]
    exact h.nodup
  slots := by
    intro sl hsl
    obtain ⟨x, hx, rfl⟩ := List.mem_map.1 hsl
    exact hs x hx
  hush := h.hush
  first := by
    intro k sl hsl
    obtain ⟨x, hx, rfl⟩ := List.mem_map.1 hsl
    exact hf k x hx

/-- The record a lookup finds is in the table and has the number asked for. -/
theorem State.slot?_some {s : State} {a : Nat} {sl : Slot} (e : s.slot? a = some sl) :
    sl ∈ s.slots ∧ sl.art.number = a := by
  unfold State.slot? at e
  exact ⟨List.mem_of_find?_eq_some e, by simpa using List.find?_some e⟩

theorem nodup_map_inj {α β : Type} {f : α → β} {l : List α} (h : (l.map f).Nodup) {x y : α} (hx : x ∈ l) (hy : y ∈ l)
    (e : f x = f y) : x = y := by
  induction l with
  | nil => cases hx
  | cons z rest ih =>
    simp only [List.map_cons, List.nodup_cons, List.mem_map, not_exists, not_and] at h
    rcases List.mem_cons.1 hx with hx' | hx' <;> rcases List.mem_cons.1 hy with hy' | hy'
    · rw [hx', hy']
    · rw [hx'] at e; exact absurd e.symm (h.1 y hy')
    · rw [hy'] at e; exact absurd e (h.1 x hx')
    · exact ih h.2 hx' hy'

/-- With distinct numbers the record found is the only one of its number. -/
theorem State.Live.slot_unique {c : Controller} {s : State} (h : s.Live c) {a : Nat} {sl x : Slot}
    (e : s.slot? a = some sl) (hx : x ∈ s.slots) (ha : x.art.number = a) : x = sl := by
  obtain ⟨h1, h2⟩ := State.slot?_some e
  exact nodup_map_inj h.nodup hx h1 (ha.trans h2.symm)

/-- A record replaced by a function of it that keeps its configuration and leaves it sound. -/
theorem State.Live.modSlot {c : Controller} {s : State} (h : s.Live c) {a : Nat} {sl : Slot} (e : s.slot? a = some sl)
    (f : Slot → Slot) (hg : (f sl).art.config = sl.art.config) (hs : (f sl).Sound s.ownNumber)
    (hb : (f sl).ShareFits s.bays)
    (hf : s.tly.firstWindow = true → ∀ x ∈ (f sl).art.peers, x.state ≠ .absent) : (s.modSlot a f).Live c := by
  unfold State.modSlot
  refine h.mapSlots _ ?_ ?_ ?_
  · intro x hx
    split
    · rename_i k; rw [h.slot_unique e hx (by simpa using k)]; exact hg
    · rfl
  · intro x hx
    split
    · rename_i k; rw [h.slot_unique e hx (by simpa using k)]; exact ⟨hs, hb⟩
    · exact h.slots x hx
  · intro k x hx
    split
    · rename_i k'; rw [h.slot_unique e hx (by simpa using k')]; exact hf k
    · exact h.first k x hx

/-- A record's alert part replaced: the article part stands, and the OWNING flag must still agree. -/
theorem State.Live.modAlert {c : Controller} {s : State} (h : s.Live c) {a : Nat} {sl : Slot} (e : s.slot? a = some sl)
    (f : Alert → Alert) (h1 : (f sl.alert).OwnerFits s.ownNumber sl.art.holders) (h2 : (f sl.alert).TimersFit)
    (h3 : (f sl.alert).state.owning = sl.alert.state.owning) : (s.modAlert a f).Live c := by
  have hm := (State.slot?_some e).1
  obtain ⟨⟨k1, k2, k3, k4⟩, k5⟩ := h.slots sl hm
  refine h.modSlot e (fun sl => { sl with alert := f sl.alert }) rfl ⟨k1, h1, h2, ?_⟩ k5 (fun k => h.first k sl hm)
  simp only [h3, k4]

/-- No record of the article: nothing to change. -/
theorem State.modSlot_none {s : State} {a : Nat} (e : s.slot? a = none) (f : Slot → Slot) : s.modSlot a f = s := by
  unfold State.slot? at e
  rw [List.find?_eq_none] at e
  have : (s.slots.map fun sl => if sl.art.number == a then f sl else sl) = s.slots := by
    conv_rhs => rw [← List.map_id s.slots]
    apply List.map_congr_left
    intro x hx
    simp only [id]
    split
    · exact absurd (by assumption) (e x hx)
    · rfl
  unfold State.modSlot
  rw [this]

end Sys2Proof.Machine
end

