-- ==== Sys2Proof/Laws/Sent.lean ====
section
/-! SUPPORT. What a request can do (R58 to R61): the frame of the requests, and their soundness. A request moves the
transmit queue, the health unit, the shift batch and the standing of outstanding frames, and nothing else. -/

namespace Sys2Proof.Machine

/-! ### The frame of a request -/

/-- The fields of the bus controller that no request and no withdrawal moves: the line, the received frame, the abandon
run and the sequence counter. -/
def BusController.line (b : BusController) : Bool × Receiver × Nat × Seq := (b.busy, b.rx, b.abandonRun, b.seq)

theorem BusController.enterNew_line (b : BusController) (r : Request) (now : Time) :
    (b.enterNew r now).1.line = b.line := by
  unfold BusController.enterNew BusController.append
  split
  · rfl
  · split
    · split <;> rfl
    · rfl

theorem BusController.enter_line (b : BusController) (r : Request) (now : Time) : (b.enter r now).1.line = b.line := by
  unfold BusController.enter
  split
  · rfl
  · split
    · split
      · rfl
      · exact b.enterNew_line r now
    · exact b.enterNew_line r now

/-- `t` differs from `s` at most in the transmit queue, the health unit, the shift batch, the delta timer and the
standing of outstanding frames. -/
structure State.Sent (s t : State) : Prop where
  now : t.now = s.now
  held : t.held = s.held
  channels : t.channels = s.channels
  bays : t.bays = s.bays
  peers : t.peers = s.peers
  alu : t.alu = s.alu
  stc : t.stc = s.stc
  lamps : t.lamps = s.lamps
  freeCount : t.freeCount = s.freeCount
  pending : t.pending = s.pending
  tly : t.tly = { s.tly with deltaTimer := t.tly.deltaTimer }
  pru : t.pru = { s.pru with filling := t.pru.filling, ready := t.pru.ready, sending := t.pru.sending }
  line : t.bsc.line = s.bsc.line
  slots : ∃ g : Slot → Slot, t.slots = s.slots.map g ∧ ∀ sl, (g sl).art = sl.art ∧
    ∃ o, (g sl).alert = { sl.alert with outstanding := o } ∧ (sl.alert.outstanding = none → o = none)

theorem State.Sent.refl (s : State) : s.Sent s :=
  ⟨rfl, rfl, rfl, rfl, rfl, rfl, rfl, rfl, rfl, rfl, rfl, rfl, rfl, id, by simp, fun _ => ⟨rfl, _, rfl, id⟩⟩

theorem State.Sent.trans {s t u : State} (h : s.Sent t) (k : t.Sent u) : s.Sent u := by
  obtain ⟨g, hg, hg'⟩ := h.slots
  obtain ⟨f, hf, hf'⟩ := k.slots
  refine ⟨k.now.trans h.now, k.held.trans h.held, k.channels.trans h.channels, k.bays.trans h.bays,
    k.peers.trans h.peers, k.alu.trans h.alu, k.stc.trans h.stc, k.lamps.trans h.lamps,
    k.freeCount.trans h.freeCount, k.pending.trans h.pending, ?_, ?_, k.line.trans h.line, f ∘ g, ?_, ?_⟩
  · rw [k.tly, h.tly]
  · rw [k.pru, h.pru]
  · rw [hf, hg, List.map_map]
  · intro sl
    obtain ⟨a1, o, a2, a3⟩ := hg' sl
    obtain ⟨b1, p, b2, b3⟩ := hf' (g sl)
    refine ⟨b1.trans a1, p, ?_, ?_⟩
    · simp only [Function.comp, b2, a2]
    · intro n
      apply b3
      rw [a2]
      exact a3 n

/-- A change of bus controller, health unit and pairing unit alone. -/
theorem State.Sent.of_parts (s : State) (b : BusController) (h : Health) (p : Pairing) (hb : b.line = s.bsc.line)
    (hp : p = { s.pru with filling := p.filling, ready := p.ready, sending := p.sending }) :
    s.Sent { s with bsc := b, hlu := h, pru := p } :=
  ⟨rfl, rfl, rfl, rfl, rfl, rfl, rfl, rfl, rfl, rfl, rfl, hp, hb, id, by simp, fun _ => ⟨rfl, _, rfl, id⟩⟩

theorem State.Sent.raiseN (s : State) (c : FaultCode) (i a n : Nat) : s.Sent (s.raiseN c i a n) :=
  State.Sent.of_parts s s.bsc _ s.pru rfl rfl

theorem State.Sent.delta (s : State) (t : Option Time) :
    s.Sent { s with tly := { s.tly with deltaTimer := t } } :=
  ⟨rfl, rfl, rfl, rfl, rfl, rfl, rfl, rfl, rfl, rfl, rfl, rfl, rfl, id, by simp, fun _ => ⟨rfl, _, rfl, id⟩⟩

theorem State.Sent.speaking {s t : State} (h : s.Sent t) : t.speaking = s.speaking := by
  unfold State.speaking; rw [h.stc]

theorem State.Sent.ownNumber {s t : State} (h : s.Sent t) : t.ownNumber = s.ownNumber := by
  unfold State.ownNumber; rw [h.stc]

/-- A record after a request: its article part stands, and so does its alert part but for the outstanding frame. -/
theorem State.Sent.slot? {s t : State} (h : s.Sent t) {a : Nat} {sl : Slot} (e : s.slot? a = some sl) :
    ∃ sl', t.slot? a = some sl' ∧ sl'.art = sl.art ∧
      ∃ o, sl'.alert = { sl.alert with outstanding := o } ∧ (sl.alert.outstanding = none → o = none) := by
  obtain ⟨g, hg, hg'⟩ := h.slots
  refine ⟨g sl, ?_, hg' sl⟩
  unfold State.slot? at e ⊢
  rw [hg, List.find?_map]
  have : ((fun sl : Slot => sl.art.number == a) ∘ g) = fun sl => sl.art.number == a := by
    funext x
    simp only [Function.comp, (hg' x).1]
  rw [this, e]
  rfl

/-! ### The frames of the operations -/

theorem State.beginDeferral_sent (s : State) : s.Sent s.beginDeferral := by
  unfold State.beginDeferral
  split
  · split
    · exact State.Sent.of_parts s _ s.hlu s.pru rfl rfl
    · exact State.Sent.refl s
  · exact State.Sent.refl s

theorem State.shortenDeferral_sent (s : State) (before : Option TxEntry) : s.Sent (s.shortenDeferral before) := by
  unfold State.shortenDeferral
  split
  · dsimp only
    split
    · exact State.Sent.of_parts s _ s.hlu s.pru rfl rfl
    · exact State.Sent.refl s
  · exact State.Sent.refl s

theorem State.endDeferralIfEmpty_sent (s : State) : s.Sent s.endDeferralIfEmpty := by
  unfold State.endDeferralIfEmpty
  split
  · exact State.Sent.of_parts s _ s.hlu s.pru rfl rfl
  · exact State.Sent.refl s

theorem State.enqueue_sent (s : State) (r : Request) : s.Sent (s.enqueue r).1 := by
  unfold State.enqueue
  split
  · dsimp only
    refine State.Sent.trans ?_ ((State.beginDeferral_sent _).trans (State.shortenDeferral_sent _ _))
    split
    · exact (State.Sent.of_parts s _ s.hlu s.pru (BusController.enter_line _ _ _) rfl).trans
        (State.Sent.raiseN _ _ _ _ _)
    · exact State.Sent.of_parts s _ s.hlu s.pru (BusController.enter_line _ _ _) rfl
  · exact State.Sent.refl s

theorem State.loseSending_sent (s : State) : s.Sent s.loseSending := by
  unfold State.loseSending
  split
  · exact State.Sent.refl s
  · exact (State.Sent.of_parts s s.bsc s.hlu _ rfl rfl).trans (State.Sent.raiseN _ _ _ _ _)

theorem State.requestShift_sent (s : State) : s.Sent s.requestShift := by
  unfold State.requestShift
  have := s.enqueue_sent .shift
  split <;> rename_i e <;> rw [e] at this
  · exact this
  · exact this.trans (State.loseSending_sent _)
  · exact this

theorem State.shiftLost_sent (s : State) : s.Sent s.shiftLost := by
  unfold State.shiftLost
  dsimp only
  split
  · exact (s.loseSending_sent.trans (State.Sent.of_parts _ _ _ _ rfl rfl)).trans (State.requestShift_sent _)
  · exact s.loseSending_sent

theorem Alert.lost_eq (r : Alert) (k : AlertKind) :
    ∃ o, r.lost k = { r with outstanding := o } ∧ (r.outstanding = none → o = none) := by
  unfold Alert.lost
  split
  · split
    · exact ⟨_, rfl, fun n => by simp_all⟩
    · exact ⟨r.outstanding, rfl, id⟩
  · exact ⟨r.outstanding, rfl, id⟩

theorem State.noticeDropped_sent (s : State) (r : Request) : s.Sent (s.noticeDropped r) := by
  cases r with
  | shift => exact s.shiftLost_sent
  | alertFrame k a =>
    refine ⟨rfl, rfl, rfl, rfl, rfl, rfl, rfl, rfl, rfl, rfl, rfl, rfl, rfl, _, rfl, ?_⟩
    intro sl
    dsimp only
    split
    · exact ⟨rfl, sl.alert.lost_eq k⟩
    · exact ⟨rfl, sl.alert.outstanding, rfl, id⟩
  | hello => exact State.Sent.refl s
  | tally v => exact State.Sent.refl s
  | query n => exact State.Sent.refl s

theorem State.request_sent (s : State) (r : Request) : s.Sent (s.request r) := by
  unfold State.request
  have := s.enqueue_sent r
  split <;> rename_i e <;> rw [e] at this
  · exact this
  · exact this.trans (State.noticeDropped_sent _ _)

theorem State.withdraw_sent (s : State) (r : Request) : s.Sent (s.withdraw r) := by
  unfold State.withdraw
  dsimp only
  refine State.Sent.trans ?_ (State.endDeferralIfEmpty_sent _)
  exact State.Sent.of_parts s _ s.hlu s.pru rfl rfl

/-! ### Soundness of the operations -/

variable {c : Controller}

theorem State.Live.beginDeferral {s : State} (h : s.Live c) : s.beginDeferral.Live c := by
  unfold State.beginDeferral
  split
  · rename_i hd hh hw
    split
    · rename_i hs
      simp only [Bool.and_eq_true, Bool.not_eq_true'] at hs
      refine h.setBsc ?_ (fun k => by rw [hs.1] at k; cases k)
      obtain ⟨a1, a2, a3, a4, a5, -⟩ := h.bsc
      refine ⟨a1, a2, a3, a4, a5, fun _ => ⟨hs.2, hh, ?_⟩⟩
      intro e
      rw [headOf_none.2 e] at hw
      cases hw
    · exact h
  · exact h

theorem State.Live.shortenDeferral {s : State} (h : s.Live c) (before : Option TxEntry) :
    (s.shortenDeferral before).Live c := by
  unfold State.shortenDeferral
  split
  · rename_i d e hd hw
    dsimp only
    split
    · refine h.setBsc ?_ ?_
      · obtain ⟨a1, a2, a3, a4, a5, a6⟩ := h.bsc
        exact ⟨a1, a2, a3, a4, a5, fun _ => a6 (by rw [hd]; rfl)⟩
      · intro k
        have := (h.hush k).1.2.2
        rw [hd] at this; cases this
    · exact h
  · exact h

theorem State.Live.endDeferralIfEmpty {s : State} (h : s.Live c) : s.endDeferralIfEmpty.Live c := by
  unfold State.endDeferralIfEmpty
  split
  · refine h.setBsc ?_ (fun k => ?_)
    · obtain ⟨a1, a2, a3, a4, a5, a6⟩ := h.bsc
      exact ⟨a1, a2, a3, a4, a5, fun k => by cases k⟩
    · obtain ⟨b1, b2, -⟩ := (h.hush k).1
      exact ⟨b1, b2, rfl⟩
  · exact h

theorem State.Live.enqueue {s : State} (h : s.Live c) (r : Request) : (s.enqueue r).1.Live c := by
  unfold State.enqueue
  split
  · rename_i hs
    dsimp only
    have h1 : ({ s with bsc := (s.bsc.enter r s.now).1 } : State).Live c :=
      h.setBsc (BusController.enter_sound h.bsc r s.now) (fun k => by rw [hs] at k; cases k)
    refine State.Live.shortenDeferral (State.Live.beginDeferral ?_) _
    split
    · exact h1.raise _ _ _
    · exact h1
  · exact h

theorem State.Live.loseSending {s : State} (h : s.Live c) : s.loseSending.Live c := by
  unfold State.loseSending
  split
  · exact h
  · refine (h.setPru ?_).raiseN _ _ _ _
    obtain ⟨a1, a2, a3, a4, a5, a6, a7, a8⟩ := h.pru
    exact ⟨a1, a2, a3, by simp, a5, a6, a7, fun k => ⟨(a8 k).1, (a8 k).2.1, rfl⟩⟩

theorem State.Live.requestShift {s : State} (h : s.Live c) : s.requestShift.Live c := by
  unfold State.requestShift
  have := h.enqueue .shift
  split <;> rename_i e <;> rw [e] at this
  · exact this
  · exact this.loseSending
  · exact this

/-- A ready filling side moves over. -/
theorem Pairing.moveOver_sound {p : Pairing} (h : p.Sound) (hr : p.ready = true) : p.moveOver.Sound := by
  obtain ⟨a1, a2, a3, a4, a5, a6, a7, a8⟩ := h
  refine ⟨a1, a2, by simp [Pairing.moveOver], a3, fun _ => by simp [Pairing.moveOver],
    fun k => by simp [Pairing.moveOver] at k, ?_, fun k => ⟨(a8 k).1, rfl, (a8 k).2.1⟩⟩
  intro k
  have := (a7 k).2
  rw [hr] at this; cases this

theorem State.Live.shiftLost {s : State} (h : s.Live c) : s.shiftLost.Live c := by
  unfold State.shiftLost
  dsimp only
  split
  · rename_i k
    simp only [Bool.and_eq_true] at k
    exact (h.loseSending.setPru (Pairing.moveOver_sound h.loseSending.pru k.1)).requestShift
  · exact h.loseSending

theorem Alert.OwnerFits.outstanding {own : Nat} {hl : List Nat} {r : Alert} (h : r.OwnerFits own hl)
    (o : Option Outstanding) : ({ r with outstanding := o } : Alert).OwnerFits own hl := h

theorem Alert.TimersFit.outstanding {r : Alert} (h : r.TimersFit) (o : Option Outstanding)
    (ho : r.state.owning = false → o = none) : ({ r with outstanding := o } : Alert).TimersFit := by
  obtain ⟨a1, a2, a3, a4, a5⟩ := h
  exact ⟨a1, a2, a3, a4, fun k => ⟨(a5 k).1, ho k⟩⟩

theorem State.Live.modLost {s : State} (h : s.Live c) (a : Nat) (k : AlertKind) :
    (s.modAlert a fun r => r.lost k).Live c := by
  cases e : s.slot? a with
  | none => unfold State.modAlert; rw [State.modSlot_none e]; exact h
  | some sl =>
    obtain ⟨o, ho, hn⟩ := sl.alert.lost_eq k
    obtain ⟨⟨-, k2, k3, -⟩, -⟩ := h.slots sl (State.slot?_some e).1
    refine h.modAlert e _ ?_ ?_ ?_ <;> rw [ho]
    · exact k2
    · exact k3.outstanding o fun q => hn (k3.2.2.2.2 q).2

theorem State.Live.noticeDropped {s : State} (h : s.Live c) (r : Request) : (s.noticeDropped r).Live c := by
  cases r with
  | shift => exact h.shiftLost
  | alertFrame k a => exact h.modLost a k
  | hello => exact h
  | tally v => exact h
  | query n => exact h

theorem State.Live.request {s : State} (h : s.Live c) (r : Request) : (s.request r).Live c := by
  unfold State.request
  have := h.enqueue r
  split <;> rename_i e <;> rw [e] at this
  · exact this
  · exact this.noticeDropped _

theorem BusController.Silent.withdraw {b : BusController} (h : b.Silent) (p : TxEntry → Bool)
    (f : Flight → Flight) : ({ b with waiting := b.waiting.filter p, flight := b.flight.map f } :
      BusController).Silent := by
  obtain ⟨h1, h2, h3⟩ := h
  exact ⟨by simp [h1], by simp [h2], h3⟩

theorem State.Live.withdraw {s : State} (h : s.Live c) (r : Request) : (s.withdraw r).Live c := by
  unfold State.withdraw State.endDeferralIfEmpty
  dsimp only
  have hf : ∀ f : Flight, (match f.followOn with
      | some e => if e.req = r then { f with followOn := none } else f
      | none => f).entry = f.entry ∧ ∀ e ∈ (match f.followOn with
      | some e => if e.req = r then { f with followOn := none } else f
      | none => f).followOn, e ∈ f.followOn := by
    intro f
    split
    · split
      · exact ⟨rfl, fun e he => by cases he⟩
      · exact ⟨rfl, fun e he => he⟩
    · exact ⟨rfl, fun e he => he⟩
  generalize hff : (fun f : Flight => match f.followOn with
      | some e => if e.req = r then { f with followOn := none } else f
      | none => f) = ff
  have hf : ∀ f : Flight, (ff f).entry = f.entry ∧ ∀ e ∈ (ff f).followOn, e ∈ f.followOn := by
    intro f; rw [← hff]; exact hf f
  have hs : ∀ d : Option Deferral, (d.isSome → s.bsc.deferral.isSome ∧ s.bsc.waiting.filter (fun e => e.req ≠ r) ≠ []) →
      ({ s.bsc with waiting := s.bsc.waiting.filter (fun e => e.req ≠ r), flight := s.bsc.flight.map ff, deferral := d } :
        BusController).Sound := by
    intro d hd
    have h0 := h.bsc
    rw [BusController.sound_iff] at h0 ⊢
    obtain ⟨a1, a2, a3, a4, a5, a6⟩ := h0
    have sub : (({ s.bsc with waiting := s.bsc.waiting.filter (fun e => e.req ≠ r), flight := s.bsc.flight.map ff, deferral := d } :
        BusController).entries).Sublist s.bsc.entries := by
      unfold BusController.entries
      refine List.Sublist.append List.filter_sublist ?_
      dsimp only
      cases s.bsc.flight with
      | none => simp
      | some f => simp [(hf f).1]
    refine ⟨Nat.le_trans sub.length_le a1, (sub.map _).nodup a2, fun e he => a3 e (sub.subset he), ?_, a5, ?_⟩
    · intro f hf' e he
      simp only [Option.mem_def, Option.map_eq_some_iff] at hf'
      obtain ⟨f0, h0, rfl⟩ := hf'
      rw [(hf f0).1]
      exact a4 f0 h0 e ((hf f0).2 e he)
    · intro k
      obtain ⟨b1, b2⟩ := hd k
      obtain ⟨c1, c2, c3⟩ := a6 b1
      exact ⟨c1, by simp [c2], b2⟩
  split
  · refine h.setBsc (hs none (fun k => by cases k)) fun k => ?_
    obtain ⟨b1, b2, b3⟩ := (h.hush k).1
    exact ⟨by simp [b1], by simp [b2], rfl⟩
  · rename_i k
    refine h.setBsc (hs s.bsc.deferral (fun q => ⟨q, ?_⟩)) fun k => ?_
    · simpa using k
    · obtain ⟨b1, b2, b3⟩ := (h.hush k).1
      exact ⟨by simp [b1], by simp [b2], b3⟩

end Sys2Proof.Machine
end

