-- ==== Sys2Proof/Laws/Share.lean ====
section
/-! SUPPORT. The station's own share (R70, R82, R85): frame and soundness of the tally unit's operations on it, and of an
alert record's move with the OWNING flag it brings. -/

namespace Sys2Proof.Machine

variable {c : Controller}

/-! ### The delta timer -/

theorem State.deltaExpires_sent (s : State) : s.Sent s.deltaExpires := by
  unfold State.deltaExpires
  dsimp only
  split
  · exact State.Sent.delta s none
  · exact (State.Sent.delta s none).trans (State.request_sent _ _)

theorem State.Live.deltaExpires {s : State} (h : s.Live c) : s.deltaExpires.Live c := by
  unfold State.deltaExpires
  dsimp only
  split
  · exact h.setDelta none fun _ => rfl
  · exact (h.setDelta none fun _ => rfl).request _

theorem State.startDelta_sent (s : State) : s.Sent s.startDelta := by
  unfold State.startDelta
  split
  · split
    · exact s.deltaExpires_sent
    · exact State.Sent.delta s _
  · exact State.Sent.refl s

theorem State.Live.startDelta {s : State} (h : s.Live c) : s.startDelta.Live c := by
  unfold State.startDelta
  split
  · rename_i k
    simp only [Bool.and_eq_true] at k
    split
    · exact h.deltaExpires
    · exact h.setDelta _ fun q => by rw [k.1] at q; cases q
  · exact h

/-! ### Lookups after an update -/

theorem State.slot?_modSlot {s : State} {a : Nat} {sl : Slot} (e : s.slot? a = some sl) (f : Slot → Slot)
    (hf : ∀ x, (f x).art.number = x.art.number) : (s.modSlot a f).slot? a = some (f sl) := by
  unfold State.slot? State.modSlot at *
  dsimp only
  rw [List.find?_map]
  have : ((fun sl : Slot => sl.art.number == a) ∘ fun sl => if sl.art.number == a then f sl else sl)
      = fun sl => sl.art.number == a := by
    funext x
    simp only [Function.comp]
    split
    · rw [hf]
    · rfl
  rw [this, e]
  have hn : sl.art.number == a := by simpa using List.find?_some e
  simp only [Option.map_some, hn, if_true]

theorem State.modSlot_modSlot (s : State) (a : Nat) (f g : Slot → Slot)
    (hf : ∀ x, (f x).art.number = x.art.number) : (s.modSlot a f).modSlot a g = s.modSlot a (g ∘ f) := by
  unfold State.modSlot
  simp only [List.map_map]
  congr 1
  apply List.map_congr_left
  intro x _
  simp only [Function.comp]
  by_cases k : (x.art.number == a)
  · simp only [k, if_true, hf]
  · simp only [k]; simp [k]

/-- Functions that agree on the record found make the same change. -/
theorem State.Live.modSlot_congr {s : State} (h : s.Live c) {a : Nat} {sl : Slot} (e : s.slot? a = some sl)
    {f g : Slot → Slot} (k : f sl = g sl) : s.modSlot a f = s.modSlot a g := by
  unfold State.modSlot
  congr 1
  apply List.map_congr_left
  intro x hx
  split
  · rename_i q; rw [h.slot_unique e hx (by simpa using q)]; exact k
  · rfl

/-! ### Records after an operation -/

/-- `sl'` is `sl` but for the own contribution's flags, the changed mark and the outstanding frame. -/
structure Slot.Follows (sl sl' : Slot) : Prop where
  config : sl'.art.config = sl.art.config
  disputed : sl'.art.disputed = sl.art.disputed
  peers : sl'.art.peers = sl.art.peers
  aggregate : sl'.art.aggregate = sl.art.aggregate
  coverage : sl'.art.coverage = sl.art.coverage
  alert : ∃ o, sl'.alert = { sl.alert with outstanding := o } ∧ (sl.alert.outstanding = none → o = none)

theorem Slot.Follows.refl (sl : Slot) : sl.Follows sl := ⟨rfl, rfl, rfl, rfl, rfl, _, rfl, id⟩

theorem Slot.Follows.state {sl sl' : Slot} (h : sl.Follows sl') : sl'.alert.state = sl.alert.state := by
  obtain ⟨o, ho, _⟩ := h.alert
  rw [ho]

theorem State.Sent.follows {s t : State} (h : s.Sent t) {a : Nat} {sl : Slot} (e : s.slot? a = some sl) :
    ∃ sl', t.slot? a = some sl' ∧ sl.Follows sl' := by
  obtain ⟨sl', e', ha, o, ho⟩ := h.slot? e
  exact ⟨sl', e', by rw [ha], by rw [ha], by rw [ha], by rw [ha], by rw [ha], o, ho⟩

/-! ### A record's move with its OWNING flag -/

/-- The share of an article, field by field. -/
theorem Slot.shareFits_iff (bays : List Bay) (sl : Slot) :
    sl.ShareFits bays ↔ sl.art.own.units = ownUnits bays sl.art.number
      ∧ sl.art.own.flags.fault = ownFault bays sl.art.number
      ∧ sl.art.own.flags.unsteady = ownUnsteady bays sl.art.number
      ∧ sl.art.own.flags.stray = ownStray bays sl.art.number := by
  unfold Slot.ShareFits OwnContribution.fromBays
  generalize sl.art.own = o
  rcases o with ⟨u, f⟩
  rcases f with ⟨a, b, d, e, g⟩
  simp only [OwnContribution.mk.injEq, OwnFlags.mk.injEq, and_true]
  tauto

/-- The own contribution with OWNING set as told. -/
def OwnContribution.told (o : OwnContribution) (standing : Bool) : OwnContribution :=
  { o with flags := { o.flags with owning := standing } }

theorem Article.recount_flags {own : Nat} {r : Article} (h : r.Sound own) (o : OwnContribution)
    (hu : o.units = r.own.units) (ch : Bool) :
    Article.recount { r with own := o, changed := ch } = { r with own := o, changed := ch } := by
  obtain ⟨-, h2, h3, -⟩ := h
  have e1 : ({ r with own := o, changed := ch } : Article).total = r.aggregate := by
    rw [h2]; unfold Article.total; rw [hu]
  have e2 : ({ r with own := o, changed := ch } : Article).cover = r.coverage := by
    rw [h3]; rfl
  unfold Article.recount
  rw [e1, e2]

/-- The records of an article moved by `g` on the alert side, with OWNING told and marked on the other. -/
def Slot.moved (g : Alert → Alert) (standing : Bool) (x : Slot) : Slot :=
  { art := Article.recount { x.art with own := x.art.own.told standing, changed := true }, alert := g x.alert }

/-- An alert record moves by `g`, and the tally unit is told whether it now stands in CLAIMING or OWNER. The state is
sound again, and the record is the moved one but for its standing. -/
theorem State.Live.moveAndTell {s : State} (h : s.Live c) {a : Nat} {sl : Slot} (e : s.slot? a = some sl)
    (g : Alert → Alert) (h1 : (g sl.alert).OwnerFits s.ownNumber sl.art.holders) (h2 : (g sl.alert).TimersFit) :
    ((s.modAlert a g).tellOwning a (g sl.alert).state.owning).Live c ∧
      ∃ sl', ((s.modAlert a g).tellOwning a (g sl.alert).state.owning).slot? a = some sl' ∧
        ({ sl with alert := g sl.alert } : Slot).Follows sl' := by
  have hm := (State.slot?_some e).1
  obtain ⟨⟨k1, k2, k3, k4⟩, k5⟩ := h.slots sl hm
  have e1 : (s.modAlert a g).slot? a = some { sl with alert := g sl.alert } :=
    State.slot?_modSlot e _ fun _ => rfl
  unfold State.tellOwning State.ownUpdate
  rw [e1]
  dsimp only
  split
  · rename_i q
    have q' : (g sl.alert).state.owning = sl.art.own.flags.owning := by
      have := congrArg (fun o => o.flags.owning) q
      exact this
    exact ⟨h.modAlert e g h1 h2 (q'.trans k4), _, e1, Slot.Follows.refl _⟩
  · have e2 : (s.modAlert a g).modArticle a (fun r => Article.recount
        { r with own := r.own.told (g sl.alert).state.owning, changed := true })
        = s.modSlot a (Slot.moved g (g sl.alert).state.owning) := by
      unfold State.modAlert State.modArticle
      rw [State.modSlot_modSlot s a (fun sl => { sl with alert := g sl.alert }) _ (fun _ => rfl)]
      rfl
    have hr : Slot.moved g (g sl.alert).state.owning sl
        = { art := { sl.art with own := sl.art.own.told (g sl.alert).state.owning, changed := true },
            alert := g sl.alert } := by
      unfold Slot.moved
      rw [Article.recount_flags k1 (sl.art.own.told (g sl.alert).state.owning) rfl true]
    have h3 : (s.modSlot a (Slot.moved g (g sl.alert).state.owning)).Live c := by
      refine h.modSlot e _ ?_ ?_ ?_ ?_
      · rfl
      · rw [hr]
        exact ⟨k1, h1, h2, rfl⟩
      · rw [hr]
        rw [Slot.shareFits_iff] at k5 ⊢
        exact k5
      · intro k
        exact h.first k sl hm
    have e3 := State.slot?_modSlot e (Slot.moved g (g sl.alert).state.owning) fun _ => rfl
    rw [show (fun r : Article => Article.recount
        { r with own := { r.own with flags := { r.own.flags with owning := (g sl.alert).state.owning } }, changed := true })
        = fun r => Article.recount { r with own := r.own.told (g sl.alert).state.owning, changed := true } from rfl, e2]
    refine ⟨h3.startDelta, ?_⟩
    obtain ⟨sl', e4, f⟩ := (State.startDelta_sent _).follows e3
    refine ⟨sl', e4, ?_⟩
    rw [hr] at f
    exact ⟨f.config, f.disputed, f.peers, f.aggregate, f.coverage, f.alert⟩

end Sys2Proof.Machine
end

