-- ==== Sys2Proof/Laws/Alerts.lean ====
section
/-! SUPPORT. Soundness of the alert unit's operations (chapters 5 and 6). -/

namespace Sys2Proof.Machine

variable {c : Controller} {s : State}

theorem State.Live.fits (h : s.Live c) {a : Nat} {sl : Slot} (e : s.slot? a = some sl) :
    sl.Sound s.ownNumber ∧ sl.ShareFits s.bays := h.slots sl (State.slot?_some e).1

theorem State.modAlert_none {a : Nat} (e : s.slot? a = none) (f : Alert → Alert) : s.modAlert a f = s :=
  State.modSlot_none e _

theorem State.slot?_modAlert {a : Nat} {sl : Slot} (e : s.slot? a = some sl) (f : Alert → Alert) :
    (s.modAlert a f).slot? a = some { sl with alert := f sl.alert } := State.slot?_modSlot e _ fun _ => rfl

/-! ### Requests and withdrawals -/

theorem State.Live.requestAlert (h : s.Live c) (k : AlertKind) (a : Nat)
    (ho : ∀ sl, s.slot? a = some sl → sl.alert.state.owning = true) : (s.requestAlert k a).Live c := by
  unfold State.requestAlert
  refine State.Live.request ?_ _
  cases e : s.slot? a with
  | none => rw [State.modAlert_none e]; exact h
  | some sl =>
    obtain ⟨⟨-, k2, k3, -⟩, -⟩ := h.fits e
    exact h.modAlert e _ k2 (k3.outstanding _ fun q => by rw [ho sl e] at q; cases q) rfl

theorem State.Live.withdrawAlert (h : s.Live c) {a : Nat} {sl : Slot} (e : s.slot? a = some sl) :
    (s.withdrawAlert a).Live c ∧ ∃ sl', (s.withdrawAlert a).slot? a = some sl' ∧ sl'.art = sl.art
      ∧ sl'.alert = { sl.alert with outstanding := none } := by
  unfold State.withdrawAlert
  rw [e]
  dsimp only
  split
  · rename_i o ho
    obtain ⟨sl', e', ha, q, hq, -⟩ := (s.withdraw_sent (.alertFrame o.kind a)).slot? e
    have hw := h.withdraw (.alertFrame o.kind a)
    obtain ⟨⟨-, k2, k3, -⟩, -⟩ := hw.fits e'
    refine ⟨hw.modAlert e' _ k2 (k3.outstanding _ fun _ => rfl) rfl, _, State.slot?_modAlert e' _, ha, ?_⟩
    dsimp only
    rw [hq]
  · rename_i ho
    refine ⟨h, sl, e, rfl, ?_⟩
    rw [← ho]

/-! ### Entering CLAIMING and QUIET -/

theorem Alert.claimed_fits {own : Nat} {hl : List Nat} (r : Alert) (l : Level) : (r.claimed own l).OwnerFits own hl :=
  ⟨rfl, rfl, rfl, rfl, rfl⟩

theorem Alert.claimed_timers {r : Alert} (h : r.TimersFit) (hs : r.state.owning = false) (own : Nat) (l : Level) :
    (r.claimed own l).TimersFit := by
  obtain ⟨a1, a2, a3, a4, a5⟩ := h
  refine ⟨fun _ => rfl, ?_, ?_, fun k => (by cases k), fun k => (by cases k)⟩
  · intro k; have := (a2 k).1; rw [this] at hs; cases hs
  · intro k; have := (a3 k).1; rw [this] at hs; cases hs

theorem State.Live.claimAt (h : s.Live c) {a : Nat} (l : Level)
    (hs : ∀ sl, s.slot? a = some sl → sl.alert.state.owning = false) : (s.claimAt a l).Live c := by
  unfold State.claimAt
  cases e : s.slot? a with
  | none => exact h
  | some sl =>
    dsimp only
    obtain ⟨⟨-, k2, k3, -⟩, -⟩ := h.fits e
    obtain ⟨h1, sl', e', f⟩ := h.moveAndTell e (fun r => r.claimed s.ownNumber l)
      (Alert.claimed_fits _ _) (Alert.claimed_timers k3 (hs sl e) _ _)
    refine State.Live.requestAlert h1 _ _ fun x hx => ?_
    change (State.tellOwning _ a true).slot? a = some x at hx
    have : (State.tellOwning (s.modAlert a fun r => r.claimed s.ownNumber l) a true).slot? a = some sl' := e'
    rw [this] at hx
    injection hx with hx
    rw [← hx, f.state]
    rfl

theorem State.Live.claim (h : s.Live c) {a : Nat} (hs : ∀ sl, s.slot? a = some sl → sl.alert.state.owning = false) :
    (s.claim a).Live c := by
  unfold State.claim
  split
  · exact h.claimAt _ hs
  · exact h

theorem State.Live.claimTestSeeing (h : s.Live c) (a n : Nat) : (s.claimTestSeeing a n).Live c := by
  unfold State.claimTestSeeing
  cases e : s.slot? a with
  | none => exact h
  | some sl =>
    dsimp only
    split
    · rename_i k
      refine h.claimAt _ fun x hx => ?_
      rw [e] at hx
      injection hx with hx
      rw [← hx, k.1]; rfl
    · exact h

theorem State.Live.claimTest (h : s.Live c) (a : Nat) : (s.claimTest a).Live c := h.claimTestSeeing a _

theorem Alert.quieted_fits {own : Nat} {hl : List Nat} (r : Alert) (l : Level) : (r.quieted l).OwnerFits own hl :=
  ⟨rfl, rfl, rfl, rfl⟩

theorem Alert.quieted_timers {r : Alert} (ho : r.outstanding = none) (l : Level) : (r.quieted l).TimersFit :=
  by refine ⟨?_, ?_, ?_, ?_, fun _ => ⟨rfl, ho⟩⟩ <;> intro k <;> cases k

theorem State.Live.enterQuietSeeing (h : s.Live c) {a : Nat} (n : Nat)
    (ho : ∀ sl, s.slot? a = some sl → sl.alert.outstanding = none) : (s.enterQuietSeeing a n).Live c := by
  unfold State.enterQuietSeeing
  cases e : s.slot? a with
  | none => exact h
  | some sl =>
    dsimp only
    refine State.Live.claimTestSeeing ?_ a n
    have q := Alert.quieted_timers (ho sl e) ((sl.seeing n).art.target .none)
    split
    · exact (h.moveAndTell e (fun r => r.quieted ((sl.seeing n).art.target .none)) (Alert.quieted_fits _ _) q).1
    · rename_i k
      refine h.modAlert e _ (Alert.quieted_fits _ _) q ?_
      simp only [Bool.not_eq_true] at k
      rw [k]; rfl

theorem State.Live.enterQuiet (h : s.Live c) {a : Nat} (ho : ∀ sl, s.slot? a = some sl → sl.alert.outstanding = none) :
    (s.enterQuiet a).Live c := h.enterQuietSeeing _ ho

/-- A record that is neither CLAIMING nor OWNER has nothing outstanding. -/
theorem Slot.Sound.outstanding_none {own : Nat} {sl : Slot} (h : sl.Sound own) (hs : sl.alert.state.owning = false) :
    sl.alert.outstanding = none := (h.2.2.1.2.2.2.2 hs).2

/-! ### Ownership -/

theorem State.Live.becomeOwner (h : s.Live c) {a : Nat} {sl : Slot} (e : s.slot? a = some sl)
    (hc : sl.alert.state = .claiming) {l : Level} (hl : l.short = true) : (s.becomeOwner a l).Live c := by
  unfold State.becomeOwner
  obtain ⟨⟨-, k2, k3, -⟩, -⟩ := h.fits e
  unfold Alert.OwnerFits at k2
  rw [hc] at k2
  have hm := State.slot?_modAlert e (fun r => r.owned l (s.now + s.alu.repeatInterval))
  refine State.Live.requestAlert (h.modAlert e _ ?_ ?_ ?_) _ _ fun x hx => ?_
  · exact ⟨k2.1, k2.2.1, hl⟩
  · obtain ⟨a1, a2, a3, a4, a5⟩ := k3
    refine ⟨fun k => (by cases k), fun _ => ⟨rfl, rfl, rfl⟩, fun k => (by cases k), ?_, fun k => (by cases k)⟩
    intro k
    have := a4 k
    rw [hc] at this; cases this
  · rw [hc]; rfl
  · rw [hm] at hx
    injection hx with hx
    rw [← hx]; rfl

theorem State.Live.beginClear (h : s.Live c) {a : Nat} {sl : Slot} (e : s.slot? a = some sl)
    (hc : sl.alert.state = .owner) : (s.beginClear a).Live c := by
  unfold State.beginClear
  obtain ⟨⟨-, k2, k3, -⟩, -⟩ := h.fits e
  unfold Alert.OwnerFits at k2
  rw [hc] at k2
  have hm := State.slot?_modAlert e (fun r => { r with closing := true, repeatTimer := none, escalationTimer := none })
  refine State.Live.requestAlert (h.modAlert e _ ?_ ?_ rfl) _ _ fun x hx => ?_
  · unfold Alert.OwnerFits; dsimp only; rw [hc]; exact k2
  · obtain ⟨a1, a2, a3, a4, a5⟩ := k3
    exact ⟨a1, fun k => (by cases k), fun k => (by cases k), a4, fun k => (by rw [hc] at k; cases k)⟩
  · rw [hm] at hx
    injection hx with hx
    rw [← hx]; dsimp only; rw [hc]; rfl

theorem State.Live.reverseClear (h : s.Live c) {a : Nat} {sl : Slot} (e : s.slot? a = some sl)
    (hc : sl.alert.state = .owner) (hk : sl.alert.closing = true) {l : Level} (hl : l.short = true) :
    (s.reverseClear a l).Live c := by
  unfold State.reverseClear
  obtain ⟨⟨-, k2, k3, -⟩, -⟩ := h.fits e
  unfold Alert.OwnerFits at k2
  rw [hc] at k2
  refine State.Live.requestAlert (h.modAlert e _ ?_ ?_ rfl) _ _ fun x hx => ?_
  · unfold Alert.OwnerFits; dsimp only; rw [hc]; exact ⟨k2.1, k2.2.1, hl⟩
  · obtain ⟨a1, a2, a3, a4, a5⟩ := k3
    have n2 : sl.alert.repeatTimer = none := by
      cases q : sl.alert.repeatTimer with
      | none => rfl
      | some t => have := (a2 (by rw [q]; rfl)).2.2; rw [hk] at this; cases this
    have n3 : sl.alert.escalationTimer = none := by
      cases q : sl.alert.escalationTimer with
      | none => rfl
      | some t => have := (a3 (by rw [q]; rfl)).2.2; rw [hk] at this; cases this
    refine ⟨a1, ?_, ?_, a4, fun k => (by rw [hc] at k; cases k)⟩
    · dsimp only
      rw [n2, hc]
      split
      · intro k; cases k
      · rename_i q; intro _; exact ⟨rfl, by simpa using q, rfl⟩
    · dsimp only
      rw [n3, hc]
      split
      · rename_i q; intro _; exact ⟨rfl, q, rfl⟩
      · intro k; cases k
  · rw [State.slot?_modAlert e] at hx
    injection hx with hx
    rw [← hx]; dsimp only; rw [hc]; rfl

/-! ### Following -/

theorem Article.contribution?_mem {r : Article} {h : Nat} {x : Contribution} (e : r.contribution? h = some x) :
    x ∈ r.peers ∧ x.holder = h := by
  unfold Article.contribution? at e
  exact ⟨List.mem_of_find?_eq_some e, by simpa using List.find?_some e⟩

/-- Only another holder than the own station can be found STALE. -/
theorem Article.staleHolder_other {own : Nat} {r : Article} (h : r.Sound own) {o : Nat} (k : r.staleHolder o = true) :
    o ≠ own := by
  unfold Article.staleHolder at k
  cases e : r.contribution? o with
  | none => rw [e] at k; cases k
  | some x =>
    obtain ⟨h1, h2⟩ := Article.contribution?_mem e
    have : x.holder ∈ r.peers.map Contribution.holder := List.mem_map_of_mem h1
    rw [h.1, List.mem_filter, h2] at this
    simpa using this.2

theorem State.Live.takeoverIfStale (h : s.Live c) (a : Nat) : (s.takeoverIfStale a).Live c := by
  unfold State.takeoverIfStale
  cases e : s.slot? a with
  | none => exact h
  | some sl =>
    dsimp only
    split
    · rename_i o ho
      split
      · rename_i hst
        obtain ⟨⟨k1, k2, k3, -⟩, -⟩ := h.fits e
        have hne := Article.staleHolder_other k1 hst
        have hf : sl.alert.state = .follower := by
          unfold Alert.OwnerFits at k2
          split at k2
          · rw [k2.1] at ho; cases ho
          · rw [k2.1] at ho; injection ho with ho; exact absurd ho.symm hne
          · rw [k2.1] at ho; injection ho with ho; exact absurd ho.symm hne
          · assumption
        obtain ⟨a1, a2, a3, a4, a5⟩ := k3
        exact h.modAlert e _ k2 ⟨a1, a2, a3, fun _ => hf, a5⟩ rfl
      · exact h
    · exact h

theorem Alert.follow_fits {own : Nat} {hl : List Nat} (r : Alert) {o : Nat} (ho : o ∈ hl) (hn : o ≠ own) (x : Epoch)
    {l : Level} (h : l.short = true) (p q : Bool) : (r.follow o x l p q).OwnerFits own hl :=
  ⟨⟨o, ho, hn, rfl⟩, rfl, h, rfl⟩

theorem Alert.follow_timers {r : Alert} (h : r.outstanding = none) (o : Nat) (x : Epoch) (l : Level) (p q : Bool) :
    (r.follow o x l p q).TimersFit :=
  by refine ⟨?_, ?_, ?_, fun _ => rfl, fun _ => ⟨rfl, h⟩⟩ <;> intro k <;> cases k

theorem State.Live.followStation (h : s.Live c) {a : Nat} {sl : Slot} (e : s.slot? a = some sl)
    (hs : sl.alert.state.owning = false) {o : Nat} (ho : o ∈ sl.art.holders) (hn : o ≠ s.ownNumber) (x : Epoch)
    {l : Level} (hl : l.short = true) (p q : Bool) : (s.followStation a o x l p q).Live c := by
  unfold State.followStation
  refine State.Live.takeoverIfStale ?_ a
  refine h.modAlert e _ (Alert.follow_fits _ ho hn x hl p q) ?_ ?_
  · exact Alert.follow_timers ((h.fits e).1.outstanding_none hs) ..
  · rw [hs]; rfl

theorem State.Live.yieldTo (h : s.Live c) {a : Nat} {sl : Slot} (e : s.slot? a = some sl) {o : Nat}
    (ho : o ∈ sl.art.holders) (hn : o ≠ s.ownNumber) (x : Epoch) {l : Level} (hl : l.short = true) (p q : Bool) :
    (s.yieldTo a o x l p q).Live c := by
  unfold State.yieldTo
  dsimp only
  obtain ⟨h1, sl1, e1, f1, f2⟩ := h.withdrawAlert e
  have hown : (s.withdrawAlert a).ownNumber = s.ownNumber := by
    unfold State.ownNumber; rw [h1.stc, h.stc]
  refine State.Live.takeoverIfStale (State.Live.raise ?_ _ _ _) a
  refine (h1.moveAndTell e1 (fun r => r.follow o x l p q) ?_ ?_).1
  · rw [f1, hown]; exact Alert.follow_fits _ ho hn x hl p q
  · rw [f2]; exact Alert.follow_timers rfl ..

/-! ### Article notices -/

theorem State.Live.setLevel (h : s.Live c) {a : Nat} {sl : Slot} (e : s.slot? a = some sl) (l : Level)
    (hl : sl.alert.state = .quiet ∨ sl.alert.state = .claiming ∨ l.short = true) :
    (s.modAlert a fun r => { r with level := l }).Live c := by
  obtain ⟨⟨-, k2, k3, -⟩, -⟩ := h.fits e
  refine h.modAlert e _ ?_ k3 rfl
  unfold Alert.OwnerFits at k2 ⊢
  dsimp only
  split <;> rename_i q <;> rw [q] at k2 hl <;> simp at hl <;> dsimp only at k2
  · exact k2
  · exact k2
  · exact ⟨k2.1, k2.2.1, hl⟩
  · exact ⟨k2.1, k2.2.1, hl, k2.2.2.2⟩

theorem State.Live.articleNotice (h : s.Live c) (a : Nat) (m : List (Nat × Freshness)) :
    (s.articleNotice a m).Live c := by
  unfold State.articleNotice
  cases e : s.slot? a with
  | none => exact h
  | some sl =>
    dsimp only
    obtain ⟨⟨k1, k2, k3, k4⟩, k5⟩ := h.fits e
    split <;> rename_i hst
    · exact (h.setLevel e _ (Or.inl hst)).claimTest a
    · split
      · split
        · exact h.becomeOwner e hst (by assumption)
        · exact h.setLevel e _ (Or.inr (Or.inl hst))
      · split
        · exact h.setLevel e _ (Or.inr (Or.inl hst))
        · obtain ⟨h1, sl1, e1, -, f2⟩ := h.withdrawAlert e
          refine h1.enterQuiet fun x hx => ?_
          rw [e1] at hx; injection hx with hx
          rw [← hx, f2]
    · split
      · split
        · exact h.reverseClear e hst (by assumption) (by assumption)
        · exact h
      · split
        · split
          · exact h
          · refine (h.setLevel e _ (Or.inr (Or.inr (by assumption)))).requestAlert _ _ fun x hx => ?_
            rw [State.slot?_modAlert e] at hx
            injection hx with hx
            rw [← hx]; dsimp only; rw [hst]; rfl
        · split
          · exact h.beginClear e hst
          · exact h
    · split
      · exact h.takeoverIfStale a
      · obtain ⟨a1, a2, a3, a4, a5⟩ := k3
        exact h.modAlert e _ k2 ⟨a1, a2, a3, fun q => (by cases q), a5⟩ rfl
      · exact h
      · exact h
      · exact h

/-! ### Frames and entries heard -/

theorem State.Live.takeReport (h : s.Live c) (station : Nat) (p : Report) (hn : station ≠ s.ownNumber) :
    (s.takeReport station p).Live c := by
  unfold State.takeReport
  cases e : s.slot? p.article with
  | none => exact h
  | some sl =>
    dsimp only
    obtain ⟨⟨k1, k2, k3, k4⟩, k5⟩ := h.fits e
    split
    case isFalse => exact h
    case isTrue hh =>
      simp only [Bool.and_eq_true, List.contains_iff_mem] at hh
      split <;> rename_i hst
      · split
        · exact h.followStation e (by rw [hst]; rfl) hh.1 hn _ hh.2 _ _
        · exact h
      · split
        · exact h.yieldTo e hh.1 hn _ hh.2 _ _
        · exact h
      · split
        · exact h.yieldTo e hh.1 hn _ hh.2 _ _
        · exact h
      · split
        · split
          · refine h.modAlert e _ ?_ ?_ rfl
            · unfold Alert.OwnerFits at k2 ⊢
              dsimp only
              rw [hst] at k2 ⊢
              exact ⟨k2.1, k2.2.1, hh.2, rfl⟩
            · obtain ⟨a1, a2, a3, a4, a5⟩ := k3
              refine ⟨a1, fun q => ?_, fun q => ?_, a4, a5⟩
              · have := (a2 q).1; rw [hst] at this; cases this
              · have := (a3 q).1; rw [hst] at this; cases this
          · exact h
        · split
          · exact h.followStation e (by rw [hst]; rfl) hh.1 hn _ hh.2 _ _
          · exact h

theorem Alert.OwnerFits.epoch {own : Nat} {hl : List Nat} {r : Alert} (h : r.OwnerFits own hl) (x : Epoch) :
    ({ r with epoch := x, known := true } : Alert).OwnerFits own hl := by
  unfold Alert.OwnerFits at h ⊢
  dsimp only
  split <;> rename_i q <;> rw [q] at h <;> dsimp only at h
  · exact h
  · exact ⟨h.1, rfl, h.2.2⟩
  · exact ⟨h.1, rfl, h.2.2⟩
  · exact ⟨h.1, rfl, h.2.2⟩

theorem State.Live.adopt (h : s.Live c) (a : Nat) (x : Epoch) :
    (s.modAlert a fun r => { r with epoch := x, known := true }).Live c := by
  cases e : s.slot? a with
  | none => rw [State.modAlert_none e]; exact h
  | some sl =>
    obtain ⟨⟨k1, k2, k3, k4⟩, k5⟩ := h.fits e
    exact h.modAlert e _ (k2.epoch x) k3 rfl

theorem State.Live.takeClear (h : s.Live c) (station a : Nat) (x : Epoch) : (s.takeClear station a x).Live c := by
  unfold State.takeClear
  cases e : s.slot? a with
  | none => exact h
  | some sl =>
    dsimp only
    have own : ∀ sl1 : Slot, (s.withdrawAlert a).slot? a = some sl1 → sl1.alert.outstanding = none →
        (s.withdrawAlert a).Live c →
        (((s.withdrawAlert a).modAlert a fun r => { r with epoch := x, known := true }).enterQuiet a).Live c := by
      intro sl1 e1 f h1
      refine (h1.adopt a x).enterQuiet fun y hy => ?_
      rw [State.slot?_modAlert e1] at hy
      injection hy with hy
      rw [← hy]; exact f
    obtain ⟨h1, sl1, e1, -, f2⟩ := h.withdrawAlert e
    split
    case isFalse => exact h
    case isTrue =>
      split <;> rename_i hst
      · split
        · exact h.adopt a x
        · exact h
      · split
        · exact own sl1 e1 (by rw [f2]) h1
        · exact h
      · split
        · exact own sl1 e1 (by rw [f2]) h1
        · exact h
      · split
        · refine (h.adopt a x).enterQuiet fun y hy => ?_
          rw [State.slot?_modAlert e] at hy
          injection hy with hy
          rw [← hy]
          exact (h.fits e).1.outstanding_none (by rw [hst]; rfl)
        · exact h

theorem State.Live.takeAccept (h : s.Live c) (terminal a : Nat) (x : Epoch) : (s.takeAccept terminal a x).Live c := by
  unfold State.takeAccept
  cases e : s.slot? a with
  | none => exact h
  | some sl =>
    dsimp only
    obtain ⟨⟨k1, k2, k3, k4⟩, k5⟩ := h.fits e
    obtain ⟨a1, a2, a3, a4, a5⟩ := k3
    unfold Alert.OwnerFits at k2
    split <;> rename_i hst
    · exact h
    · exact h
    · rw [hst] at k2
      split
      · split
        · rename_i hk
          refine h.modAlert e _ ?_ ⟨a1, fun q => ?_, fun q => ?_, a4, a5⟩ rfl
          · unfold Alert.OwnerFits; dsimp only; rw [hst]; exact k2
          · have := (a2 q).2.2; rw [hk] at this; cases this
          · have := (a3 q).2.2; rw [hk] at this; cases this
        · rename_i hk
          refine State.Live.requestAlert (h.modAlert e _ ?_ ?_ rfl) _ _ fun y hy => ?_
          · unfold Alert.OwnerFits; dsimp only; rw [hst]; exact k2
          · exact ⟨a1, fun q => (by cases q), fun _ => ⟨hst, rfl, by simpa using hk⟩, a4, a5⟩
          · rw [State.slot?_modAlert e] at hy
            injection hy with hy
            rw [← hy]; dsimp only; rw [hst]; rfl
      · exact h.raise _ _ _
    · rw [hst] at k2
      split
      · refine h.modAlert e _ ?_ ⟨a1, fun q => ?_, fun q => ?_, a4, a5⟩ rfl
        · unfold Alert.OwnerFits; dsimp only; rw [hst]; exact k2
        · have := (a2 q).1; rw [hst] at this; cases this
        · have := (a3 q).1; rw [hst] at this; cases this
      · exact h

theorem Level.short_of_ne {l : Level} (h : l ≠ .none) : l.short = true := by cases l <;> simp_all [Level.short]

theorem State.Live.takeEntry (h : s.Live c) (station : Nat) (x : TallyEntry) (n : Nat) (hn : station ≠ s.ownNumber)
    (hh : ∀ sl, s.slot? x.article = some sl → station ∈ sl.art.holders) : (s.takeEntry station x n).Live c := by
  unfold State.takeEntry
  cases e : s.slot? x.article with
  | none => exact h
  | some sl =>
    have hmem := hh sl e
    dsimp only
    obtain ⟨⟨k1, k2, k3, k4⟩, k5⟩ := h.fits e
    have yield : ∀ y : Epoch, (s.yieldTo x.article station y
        (if sl.alert.level = .none then .low else sl.alert.level) false false).Live c := by
      intro y
      refine h.yieldTo e hmem hn _ ?_ _ _
      split
      · rfl
      · exact Level.short_of_ne (by assumption)
    split <;> rename_i hst
    · split
      · split
        · exact h.adopt _ _
        · exact h
      · exact h
    · split
      · split
        · exact yield _
        · exact h
      · exact h
    · split
      · split
        · exact yield _
        · exact h
      · exact h
    · have ho := (h.fits e).1.outstanding_none (by rw [hst]; rfl)
      unfold Alert.OwnerFits at k2
      rw [hst] at k2
      obtain ⟨a1, a2, a3, a4, a5⟩ := k3
      have quiet : (s.enterQuietSeeing x.article n).Live c := h.enterQuietSeeing n fun y hy => by
        rw [e] at hy; injection hy with hy; rw [← hy]; exact ho
      split
      · split
        · split
          · split
            · refine h.modAlert e _ ?_ ⟨a1, fun q => ?_, fun q => ?_, a4, a5⟩ rfl
              · unfold Alert.OwnerFits; dsimp only; rw [hst]; exact ⟨k2.1, k2.2.1, k2.2.2.1, rfl⟩
              · have := (a2 q).1; rw [hst] at this; cases this
              · have := (a3 q).1; rw [hst] at this; cases this
            · exact h
          · exact h
        · split
          · rename_i y _
            split
            · have hy : (s.modAlert x.article fun r => { r with epoch := y }).Live c := by
                refine h.modAlert e _ ?_ ⟨a1, a2, a3, a4, a5⟩ rfl
                unfold Alert.OwnerFits; dsimp only; rw [hst]; exact k2
              refine hy.enterQuietSeeing n fun z hz => ?_
              rw [State.slot?_modAlert e] at hz
              injection hz with hz
              rw [← hz]; exact ho
            · exact quiet
          · exact quiet
      · split
        · split
          · exact h.followStation e (by rw [hst]; rfl) hmem hn _ k2.2.2.1 _ _
          · exact h
        · exact h

/-! ### Notices and sweeps -/

theorem State.Live.clearOutstanding (h : s.Live c) (a : Nat) :
    (s.modAlert a fun r => { r with outstanding := none }).Live c := by
  cases e : s.slot? a with
  | none => rw [State.modAlert_none e]; exact h
  | some sl =>
    obtain ⟨⟨-, k2, k3, -⟩, -⟩ := h.fits e
    exact h.modAlert e _ k2 (k3.outstanding _ fun _ => rfl) rfl

theorem State.Live.alertCompleted (h : s.Live c) (k : AlertKind) (a : Nat) (held : Bool) :
    (s.alertCompleted k a held).Live c := by
  unfold State.alertCompleted
  cases e : s.slot? a with
  | none => exact h
  | some sl =>
    dsimp only
    split
    · exact h
    · obtain ⟨⟨-, k2, k3, -⟩, -⟩ := h.fits e
      generalize sl.alert.awaits k = same
      have h1 : (if same = true then s.modAlert a fun r => { r with outstanding := none } else s).Live c := by
        split
        · exact h.clearOutstanding a
        · exact h
      have e1 : ∃ o, (if same = true then s.modAlert a fun r => { r with outstanding := none } else s).slot? a
          = some { sl with alert := { sl.alert with outstanding := o } } ∧ (same = true → o = none) := by
        split
        · exact ⟨none, State.slot?_modAlert e _, fun _ => rfl⟩
        · exact ⟨sl.alert.outstanding, e, fun q => absurd q (by assumption)⟩
      obtain ⟨o, e1, e2⟩ := e1
      have quiet : same = true →
          ((if same = true then s.modAlert a fun r => { r with outstanding := none } else s).enterQuiet a).Live c := by
        intro q
        refine h1.enterQuiet fun y hy => ?_
        rw [e1] at hy; injection hy with hy
        rw [← hy]; exact e2 q
      split <;> rename_i hst
      · obtain ⟨⟨-, j2, j3, -⟩, -⟩ := h1.fits e1
        obtain ⟨a1, a2, a3, a4, a5⟩ := j3
        exact h1.modAlert e1 (fun r => { r with claimSent := true, claimHold := some (s.now + ms 300) }) j2
          ⟨fun _ => hst, a2, a3, a4, a5⟩ rfl
      · split
        · rename_i q
          simp only [Bool.and_eq_true] at q
          exact quiet q.1
        · exact h1
      · cases same with
        | true => exact quiet rfl
        | false => exact h1
      · exact h1

theorem State.Live.alertAbandoned (h : s.Live c) (k : AlertKind) (a : Nat) (held : Bool) :
    (s.alertAbandoned k a held).Live c := by
  unfold State.alertAbandoned
  split
  · exact h
  · exact h.modLost a k

theorem State.Live.foldl {α : Type} (f : State → α → State) (hf : ∀ s x, s.Live c → (f s x).Live c) (l : List α)
    (h : s.Live c) : (l.foldl f s).Live c := by
  induction l generalizing s with
  | nil => exact h
  | cons x rest ih => exact ih (hf s x h)

theorem State.Live.sweepRecord (h : s.Live c) (a : Nat) : (s.sweepRecord a).Live c := by
  unfold State.sweepRecord
  cases e : s.slot? a with
  | none => exact h
  | some sl =>
    dsimp only
    split
    · split
      · rename_i q
        simp only [Bool.and_eq_true] at q
        refine h.requestAlert _ _ fun x hx => ?_
        rw [e] at hx; injection hx with hx; rw [← hx]; exact q.1
      · exact h
    · exact h

theorem State.Live.beaconSweep (h : s.Live c) : s.beaconSweep.Live c :=
  State.Live.foldl _ (fun _ a k => k.sweepRecord a) _ h

theorem State.Live.resendRecord (h : s.Live c) (station a : Nat) : (State.resendRecord station s a).Live c := by
  unfold State.resendRecord
  cases e : s.slot? a with
  | none => exact h
  | some sl =>
    dsimp only
    split
    · rename_i q
      refine h.requestAlert _ _ fun x hx => ?_
      rw [e] at hx; injection hx with hx; rw [← hx, q.1]; rfl
    · exact h

theorem State.Live.resendAlerts (h : s.Live c) (station : Nat) : (s.resendAlerts station).Live c :=
  State.Live.foldl _ (fun _ a k => k.resendRecord station a) _ h

theorem State.Live.claimTests (h : s.Live c) : s.claimTests.Live c :=
  State.Live.foldl _ (fun _ a k => k.claimTest a) _ h

theorem State.Live.isolateRecord (h : s.Live c) (a : Nat) : (s.isolateRecord a).Live c := by
  unfold State.isolateRecord
  cases e : s.slot? a with
  | none => exact h
  | some sl =>
    dsimp only
    have f1 : ({ sl.alert.quieted sl.alert.level with outstanding := none } : Alert).OwnerFits s.ownNumber sl.art.holders :=
      Alert.quieted_fits (own := s.ownNumber) (hl := sl.art.holders) sl.alert sl.alert.level
    have f2 : ({ sl.alert.quieted sl.alert.level with outstanding := none } : Alert).TimersFit :=
      (Alert.quieted_timers (r := { sl.alert with outstanding := none }) rfl sl.alert.level)
    split
    · exact (h.moveAndTell e (fun r => { r.quieted r.level with outstanding := none }) f1 f2).1
    · rename_i k
      refine h.modAlert e _ f1 f2 ?_
      simp only [Bool.not_eq_true] at k
      rw [k]; rfl

theorem State.Live.isolateAlerts (h : s.Live c) : s.isolateAlerts.Live c :=
  State.Live.foldl _ (fun _ a k => k.isolateRecord a) _ h

end Sys2Proof.Machine
end

