-- ==== Sys2Proof/Laws/Steady.lean ====
section
/-! SUPPORT. The frame of the alert unit's operations: beside the records' moving parts, the transmit queue, the health
unit, the shift batch and the delta timer, nothing moves. -/

namespace Sys2Proof.Machine

/-- What the alert unit's operations leave of an article record: all but the totals, the changed mark and the own entry's
OWNING flag. -/
structure Kept where
  config : ArticleConfig
  disputed : Bool
  peers : List Contribution
  own : OwnContribution
  deriving DecidableEq, Repr

/-- The part of an article record that an operation of the alert unit leaves as it is. -/
def Article.kept (r : Article) : Kept :=
  { config := r.config, disputed := r.disputed, peers := r.peers
    own := { r.own with flags := { r.own.flags with owning := false } } }

/-- The totals of a record are those of its contributions (R71). -/
def Article.Totalled (r : Article) : Prop := r.aggregate = r.total ∧ r.coverage = r.cover

/-- `t` differs from `s` at most in the moving parts of the article and alert records, the transmit queue, the health
unit, the shift batch and the delta timer. -/
structure State.Steady (s t : State) : Prop where
  now : t.now = s.now
  held : t.held = s.held
  channels : t.channels = s.channels
  bays : t.bays = s.bays
  peers : t.peers = s.peers
  alu : t.alu = s.alu
  stc : t.stc = s.stc
  lamps : t.lamps = s.lamps
  freeCount : t.freeCount = s.freeCount
  pending : t.pending = s.pending
  tly : t.tly = { s.tly with deltaTimer := t.tly.deltaTimer }
  pru : t.pru = { s.pru with filling := t.pru.filling, ready := t.pru.ready, sending := t.pru.sending }
  line : t.bsc.line = s.bsc.line
  kept : t.slots.map (fun sl => sl.art.kept) = s.slots.map fun sl => sl.art.kept
  totals : (∀ sl ∈ s.slots, sl.art.Totalled) → ∀ sl ∈ t.slots, sl.art.Totalled

theorem State.Steady.refl (s : State) : s.Steady s :=
  ⟨rfl, rfl, rfl, rfl, rfl, rfl, rfl, rfl, rfl, rfl, rfl, rfl, rfl, rfl, id⟩

theorem State.Steady.trans {s t u : State} (h : s.Steady t) (k : t.Steady u) : s.Steady u := by
  refine ⟨k.now.trans h.now, k.held.trans h.held, k.channels.trans h.channels, k.bays.trans h.bays,
    k.peers.trans h.peers, k.alu.trans h.alu, k.stc.trans h.stc, k.lamps.trans h.lamps,
    k.freeCount.trans h.freeCount, k.pending.trans h.pending, ?_, ?_, k.line.trans h.line, k.kept.trans h.kept,
    fun q => k.totals (h.totals q)⟩
  · rw [k.tly, h.tly]
  · rw [k.pru, h.pru]

theorem State.Sent.steady {s t : State} (h : s.Sent t) : s.Steady t := by
  refine ⟨h.now, h.held, h.channels, h.bays, h.peers, h.alu, h.stc, h.lamps, h.freeCount, h.pending, h.tly, h.pru,
    h.line, ?_, ?_⟩ <;> obtain ⟨g, hg, hg'⟩ := h.slots <;> rw [hg]
  · rw [List.map_map]
    apply List.map_congr_left
    intro sl _
    simp only [Function.comp, (hg' sl).1]
  · intro q sl hsl
    obtain ⟨x, hx, rfl⟩ := List.mem_map.1 hsl
    rw [(hg' x).1]
    exact q x hx

theorem State.modSlot_steady (s : State) (a : Nat) (f : Slot → Slot) (hf : ∀ sl, (f sl).art.kept = sl.art.kept)
    (ht : ∀ sl, sl.art.Totalled → (f sl).art.Totalled) : s.Steady (s.modSlot a f) := by
  refine ⟨rfl, rfl, rfl, rfl, rfl, rfl, rfl, rfl, rfl, rfl, rfl, rfl, rfl, ?_, ?_⟩ <;> unfold State.modSlot
  · rw [List.map_map]
    apply List.map_congr_left
    intro sl _
    simp only [Function.comp]
    split
    · exact hf sl
    · rfl
  · intro q sl hsl
    obtain ⟨x, hx, rfl⟩ := List.mem_map.1 hsl
    split
    · exact ht x (q x hx)
    · exact q x hx

theorem State.modArticle_steady (s : State) (a : Nat) (f : Article → Article)
    (hf : ∀ r, (f r).kept = r.kept) (ht : ∀ r, r.Totalled → (f r).Totalled) : s.Steady (s.modArticle a f) :=
  s.modSlot_steady a _ (fun sl => hf sl.art) fun sl => ht sl.art

theorem State.modAlert_steady (s : State) (a : Nat) (f : Alert → Alert) : s.Steady (s.modAlert a f) :=
  s.modSlot_steady a _ (fun _ => rfl) fun _ => id

theorem State.raise_steady (s : State) (code : FaultCode) (i a : Nat) : s.Steady (s.raise code i a) :=
  (State.Sent.raiseN s code i a 1).steady

theorem State.count_steady (s : State) (k : Counter) : s.Steady (s.count k) :=
  ⟨rfl, rfl, rfl, rfl, rfl, rfl, rfl, rfl, rfl, rfl, rfl, rfl, rfl, rfl, id⟩

theorem State.foldl_steady {α : Type} (f : State → α → State) (hf : ∀ (s : State) (x : α), s.Steady (f s x)) (l : List α) (s : State) :
    s.Steady (l.foldl f s) := by
  induction l generalizing s with
  | nil => exact State.Steady.refl s
  | cons x rest ih => exact (hf s x).trans (ih _)

theorem State.request_steady (s : State) (r : Request) : s.Steady (s.request r) := (s.request_sent r).steady

theorem State.ownUpdate_steady (s : State) (a : Nat) (f : OwnContribution → OwnContribution)
    (hf : ∀ r : Article, ({ r with own := f r.own } : Article).kept = r.kept) : s.Steady (s.ownUpdate a f) := by
  unfold State.ownUpdate
  split
  · split
    · exact State.Steady.refl s
    · exact State.Steady.trans
        (s.modArticle_steady a (fun r => Article.recount { r with own := f r.own, changed := true }) hf fun _ _ => ⟨rfl, rfl⟩)
        (State.startDelta_sent _).steady
  · exact State.Steady.refl s

theorem State.tellOwning_steady (s : State) (a : Nat) (b : Bool) : s.Steady (s.tellOwning a b) :=
  s.ownUpdate_steady a _ fun _ => rfl

theorem State.requestAlert_steady (s : State) (k : AlertKind) (a : Nat) : s.Steady (s.requestAlert k a) :=
  (s.modAlert_steady a _).trans (State.request_steady _ _)

theorem State.withdrawAlert_steady (s : State) (a : Nat) : s.Steady (s.withdrawAlert a) := by
  unfold State.withdrawAlert
  split
  · split
    · exact (s.withdraw_sent _).steady.trans (State.modAlert_steady _ a _)
    · exact State.Steady.refl s
  · exact State.Steady.refl s

theorem State.claimAt_steady (s : State) (a : Nat) (l : Level) : s.Steady (s.claimAt a l) := by
  unfold State.claimAt
  split
  · exact ((s.modAlert_steady a _).trans (State.tellOwning_steady _ a true)).trans (State.requestAlert_steady _ _ a)
  · exact State.Steady.refl s

theorem State.claim_steady (s : State) (a : Nat) : s.Steady (s.claim a) := by
  unfold State.claim
  split
  · exact s.claimAt_steady a _
  · exact State.Steady.refl s

theorem State.claimTestSeeing_steady (s : State) (a n : Nat) : s.Steady (s.claimTestSeeing a n) := by
  unfold State.claimTestSeeing
  split
  · split
    · exact s.claimAt_steady a _
    · exact State.Steady.refl s
  · exact State.Steady.refl s

theorem State.claimTest_steady (s : State) (a : Nat) : s.Steady (s.claimTest a) := s.claimTestSeeing_steady a _

theorem State.enterQuietSeeing_steady (s : State) (a n : Nat) : s.Steady (s.enterQuietSeeing a n) := by
  unfold State.enterQuietSeeing
  split
  · dsimp only
    refine State.Steady.trans ?_ (State.claimTestSeeing_steady _ a n)
    split
    · exact (s.modAlert_steady a _).trans (State.tellOwning_steady _ a false)
    · exact s.modAlert_steady a _
  · exact State.Steady.refl s

theorem State.enterQuiet_steady (s : State) (a : Nat) : s.Steady (s.enterQuiet a) := s.enterQuietSeeing_steady a _

theorem State.becomeOwner_steady (s : State) (a : Nat) (l : Level) : s.Steady (s.becomeOwner a l) :=
  (s.modAlert_steady a _).trans (State.requestAlert_steady _ _ a)

theorem State.beginClear_steady (s : State) (a : Nat) : s.Steady (s.beginClear a) :=
  (s.modAlert_steady a _).trans (State.requestAlert_steady _ _ a)

theorem State.reverseClear_steady (s : State) (a : Nat) (l : Level) : s.Steady (s.reverseClear a l) :=
  (s.modAlert_steady a _).trans (State.requestAlert_steady _ _ a)

theorem State.takeoverIfStale_steady (s : State) (a : Nat) : s.Steady (s.takeoverIfStale a) := by
  unfold State.takeoverIfStale
  split
  · split
    · split
      · exact s.modAlert_steady a _
      · exact State.Steady.refl s
    · exact State.Steady.refl s
  · exact State.Steady.refl s

theorem State.followStation_steady (s : State) (a o : Nat) (x : Epoch) (l : Level) (p q : Bool) :
    s.Steady (s.followStation a o x l p q) := (s.modAlert_steady a _).trans (State.takeoverIfStale_steady _ a)

theorem State.yieldTo_steady (s : State) (a o : Nat) (x : Epoch) (l : Level) (p q : Bool) :
    s.Steady (s.yieldTo a o x l p q) :=
  ((((s.withdrawAlert_steady a).trans (State.modAlert_steady _ a _)).trans (State.tellOwning_steady _ a false)).trans
    (State.raise_steady _ _ _ _)).trans (State.takeoverIfStale_steady _ a)

theorem State.articleNotice_steady (s : State) (a : Nat) (m : List (Nat × Freshness)) :
    s.Steady (s.articleNotice a m) := by
  unfold State.articleNotice
  split
  · exact State.Steady.refl s
  · dsimp only
    split
    · exact (s.modAlert_steady a _).trans (State.claimTest_steady _ a)
    · split
      · split
        · exact s.becomeOwner_steady a _
        · exact s.modAlert_steady a _
      · split
        · exact s.modAlert_steady a _
        · exact (s.withdrawAlert_steady a).trans (State.enterQuiet_steady _ a)
    · split
      · split
        · exact s.reverseClear_steady a _
        · exact State.Steady.refl s
      · split
        · split
          · exact State.Steady.refl s
          · exact (s.modAlert_steady a _).trans (State.requestAlert_steady _ _ a)
        · split
          · exact s.beginClear_steady a
          · exact State.Steady.refl s
    · split
      · exact s.takeoverIfStale_steady a
      · exact s.modAlert_steady a _
      · exact State.Steady.refl s
      · exact State.Steady.refl s
      · exact State.Steady.refl s

theorem State.takeReport_steady (s : State) (station : Nat) (p : Report) : s.Steady (s.takeReport station p) := by
  unfold State.takeReport
  split
  · exact State.Steady.refl s
  · dsimp only
    split
    · split
      · split
        · exact s.followStation_steady ..
        · exact State.Steady.refl s
      · split
        · exact s.yieldTo_steady ..
        · exact State.Steady.refl s
      · split
        · exact s.yieldTo_steady ..
        · exact State.Steady.refl s
      · split
        · split
          · exact s.modAlert_steady _ _
          · exact State.Steady.refl s
        · split
          · exact s.followStation_steady ..
          · exact State.Steady.refl s
    · exact State.Steady.refl s

theorem State.takeClear_steady (s : State) (station a : Nat) (x : Epoch) : s.Steady (s.takeClear station a x) := by
  unfold State.takeClear
  split
  · exact State.Steady.refl s
  · dsimp only
    split
    · split
      · split
        · exact s.modAlert_steady a _
        · exact State.Steady.refl s
      · split
        · exact ((s.withdrawAlert_steady a).trans (State.modAlert_steady _ a _)).trans (State.enterQuiet_steady _ a)
        · exact State.Steady.refl s
      · split
        · exact ((s.withdrawAlert_steady a).trans (State.modAlert_steady _ a _)).trans (State.enterQuiet_steady _ a)
        · exact State.Steady.refl s
      · split
        · exact (s.modAlert_steady a _).trans (State.enterQuiet_steady _ a)
        · exact State.Steady.refl s
    · exact State.Steady.refl s

theorem State.takeAccept_steady (s : State) (terminal a : Nat) (x : Epoch) :
    s.Steady (s.takeAccept terminal a x) := by
  unfold State.takeAccept
  split
  · exact State.Steady.refl s
  · split
    · exact State.Steady.refl s
    · exact State.Steady.refl s
    · split
      · split
        · exact s.modAlert_steady a _
        · exact (s.modAlert_steady a _).trans (State.requestAlert_steady _ _ a)
      · exact s.raise_steady _ _ _
    · split
      · exact s.modAlert_steady a _
      · exact State.Steady.refl s

theorem State.takeEntry_steady (s : State) (station : Nat) (e : TallyEntry) (n : Nat) :
    s.Steady (s.takeEntry station e n) := by
  unfold State.takeEntry
  split
  · exact State.Steady.refl s
  · dsimp only
    split
    · split
      · split
        · exact s.modAlert_steady _ _
        · exact State.Steady.refl s
      · exact State.Steady.refl s
    · split
      · split
        · exact s.yieldTo_steady ..
        · exact State.Steady.refl s
      · exact State.Steady.refl s
    · split
      · split
        · exact s.yieldTo_steady ..
        · exact State.Steady.refl s
      · exact State.Steady.refl s
    · split
      · split
        · split
          · split
            · exact s.modAlert_steady _ _
            · exact State.Steady.refl s
          · exact State.Steady.refl s
        · split
          · split
            · exact (s.modAlert_steady _ _).trans (State.enterQuietSeeing_steady _ _ _)
            · exact s.enterQuietSeeing_steady _ _
          · exact s.enterQuietSeeing_steady _ _
      · split
        · split
          · exact s.followStation_steady ..
          · exact State.Steady.refl s
        · exact State.Steady.refl s

theorem State.alertCompleted_steady (s : State) (k : AlertKind) (a : Nat) (held : Bool) :
    s.Steady (s.alertCompleted k a held) := by
  unfold State.alertCompleted
  split
  · exact State.Steady.refl s
  · split
    · exact State.Steady.refl s
    · dsimp only
      generalize Alert.awaits _ _ = same
      have h1 : s.Steady (if same = true then s.modAlert a fun r => { r with outstanding := none } else s) := by
        split
        · exact s.modAlert_steady a _
        · exact State.Steady.refl s
      split
      · exact h1.trans (State.modAlert_steady _ a _)
      · split
        · exact h1.trans (State.enterQuiet_steady _ a)
        · exact h1
      · cases same with
        | true => exact h1.trans (State.enterQuiet_steady _ a)
        | false => exact h1
      · exact h1

theorem State.alertAbandoned_steady (s : State) (k : AlertKind) (a : Nat) (held : Bool) :
    s.Steady (s.alertAbandoned k a held) := by
  unfold State.alertAbandoned
  split
  · exact State.Steady.refl s
  · exact s.modAlert_steady a _

theorem State.sweepRecord_steady (s : State) (a : Nat) : s.Steady (s.sweepRecord a) := by
  unfold State.sweepRecord
  split
  · split
    · split
      · exact s.requestAlert_steady _ a
      · exact State.Steady.refl s
    · exact State.Steady.refl s
  · exact State.Steady.refl s

theorem State.beaconSweep_steady (s : State) : s.Steady s.beaconSweep :=
  State.foldl_steady _ State.sweepRecord_steady _ s

theorem State.resendRecord_steady (station : Nat) (s : State) (a : Nat) :
    s.Steady (State.resendRecord station s a) := by
  unfold State.resendRecord
  split
  · split
    · exact s.requestAlert_steady _ a
    · exact State.Steady.refl s
  · exact State.Steady.refl s

theorem State.resendAlerts_steady (s : State) (station : Nat) : s.Steady (s.resendAlerts station) :=
  State.foldl_steady _ (State.resendRecord_steady station) _ s

theorem State.claimTests_steady (s : State) : s.Steady s.claimTests :=
  State.foldl_steady _ State.claimTest_steady _ s

theorem State.isolateRecord_steady (s : State) (a : Nat) : s.Steady (s.isolateRecord a) := by
  unfold State.isolateRecord
  split
  · dsimp only
    split
    · exact (s.modAlert_steady a _).trans (State.tellOwning_steady _ a false)
    · exact s.modAlert_steady a _
  · exact State.Steady.refl s

theorem State.isolateAlerts_steady (s : State) : s.Steady s.isolateAlerts :=
  State.foldl_steady _ State.isolateRecord_steady _ s

theorem State.giveNotices_steady (s : State) (l : List (Nat × List (Nat × Freshness))) :
    s.Steady (s.giveNotices l) :=
  State.foldl_steady _ (fun s (n : Nat × List (Nat × Freshness)) => s.articleNotice_steady n.1 n.2) l s

/-- A table whose records keep a part that gives their numbers: what is found has its part from what was found. -/
theorem State.slot?_of_map {s t : State} {κ : Type} (part : Slot → κ) (number : κ → Nat)
    (hn : ∀ sl, number (part sl) = sl.art.number) (hc : t.slots.map part = s.slots.map part) {a : Nat} {sl' : Slot}
    (e : t.slot? a = some sl') : ∃ sl, s.slot? a = some sl ∧ part sl = part sl' := by
  unfold State.slot? at e ⊢
  generalize t.slots = l' at hc e
  generalize s.slots = l at hc ⊢
  induction l generalizing l' with
  | nil =>
    cases l' with
    | nil => cases e
    | cons y rest => cases hc
  | cons x rest ih =>
    cases l' with
    | nil => cases e
    | cons y rest' =>
      simp only [List.map_cons, List.cons.injEq] at hc
      have hx : y.art.number = x.art.number := by rw [← hn y, ← hn x, hc.1]
      simp only [List.find?_cons, hx] at e ⊢
      cases k : (x.art.number == a) with
      | true => rw [k] at e; injection e with e; exact ⟨x, rfl, by rw [← hc.1, e]⟩
      | false => rw [k] at e; exact ih rest' e hc.2

/-- The record found is the record found before, but for its moving parts. -/
theorem State.Steady.slot? {s t : State} (h : s.Steady t) {a : Nat} {sl' : Slot} (e : t.slot? a = some sl') :
    ∃ sl, s.slot? a = some sl ∧ sl.art.kept = sl'.art.kept :=
  State.slot?_of_map (fun sl => sl.art.kept) (fun k => k.config.number) (fun _ => rfl) h.kept e

/-- A record found before is found again. -/
theorem State.Steady.slot?' {s t : State} (h : s.Steady t) {a : Nat} {sl : Slot} (e : s.slot? a = some sl) :
    ∃ sl', t.slot? a = some sl' ∧ sl'.art.kept = sl.art.kept :=
  State.slot?_of_map (fun sl => sl.art.kept) (fun k => k.config.number) (fun _ => rfl) h.kept.symm e

/-- The configuration parts stand. -/
theorem State.Steady.config {s t : State} (h : s.Steady t) :
    t.slots.map (fun sl => sl.art.config) = s.slots.map fun sl => sl.art.config := by
  have := congrArg (List.map Kept.config) h.kept
  rw [List.map_map, List.map_map] at this
  exact this

theorem State.Steady.ownNumber {s t : State} (h : s.Steady t) : t.ownNumber = s.ownNumber := by
  unfold State.ownNumber; rw [h.stc]

theorem State.Steady.speaking {s t : State} (h : s.Steady t) : t.speaking = s.speaking := by
  unfold State.speaking; rw [h.stc]

theorem State.Steady.unitWeight {s t : State} (h : s.Steady t) : t.unitWeight = s.unitWeight := by
  funext a
  unfold State.unitWeight
  have hc := h.config
  unfold State.slot?
  generalize t.slots = l' at hc
  generalize s.slots = l at hc
  clear h
  induction l generalizing l' with
  | nil =>
    cases l' with
    | nil => rfl
    | cons y rest => cases hc
  | cons x rest ih =>
    cases l' with
    | nil => cases hc
    | cons y rest' =>
      simp only [List.map_cons, List.cons.injEq] at hc
      have hn : y.art.number = x.art.number := congrArg ArticleConfig.number hc.1
      have hw : y.art.unitWeight = x.art.unitWeight := congrArg ArticleConfig.unitWeight hc.1
      simp only [List.find?_cons, hn]
      cases k : (x.art.number == a) with
      | true => exact hw
      | false => exact ih rest' hc.2

end Sys2Proof.Machine
end

