-- ==== Sys2Proof/Laws/Traffic.lean ====
section
/-! SUPPORT. Soundness of the tally unit's traffic (R74 to R87): heard frames, silence, the first window, the beacon. -/

namespace Sys2Proof.Machine

variable {c : Controller} {s : State}

/-! ### Contributions -/

/-- An article record whose peer contributions are changed holder by holder, its totals computed anew, is sound. -/
theorem Article.mapPeers_sound {own : Nat} {r : Article} (h : r.Sound own) (f : Contribution → Contribution)
    (hf : ∀ x, (f x).holder = x.holder) :
    (Article.recount { r with peers := r.peers.map f }).Sound own := by
  obtain ⟨h1, -, -, h4⟩ := h
  refine ⟨?_, rfl, rfl, h4⟩
  show (r.peers.map f).map Contribution.holder = _
  rw [List.map_map]
  refine Eq.trans ?_ h1
  apply List.map_congr_left
  intro x _
  exact hf x

/-- Every record's contributions changed so: sound again, as no contribution becomes ABSENT after the first window. -/
theorem State.Live.mapPeers (h : s.Live c) (g : Slot → Contribution → Contribution)
    (hg : ∀ sl x, (g sl x).holder = x.holder)
    (hf : s.tly.firstWindow = true → ∀ sl x, x.state ≠ .absent → (g sl x).state ≠ .absent) (p : Slot → Bool) :
    ({ s with
      slots := s.slots.map fun sl =>
        if p sl then sl else { sl with art := Article.recount { sl.art with peers := sl.art.peers.map (g sl) } } } :
      State).Live c := by
  refine h.mapSlots _ ?_ ?_ ?_
  · intro sl _
    split <;> rfl
  · intro sl hsl
    obtain ⟨⟨k1, k2, k3, k4⟩, k5⟩ := h.slots sl hsl
    split
    · exact ⟨⟨k1, k2, k3, k4⟩, k5⟩
    · exact ⟨⟨Article.mapPeers_sound k1 _ (hg sl), k2, k3, k4⟩, k5⟩
  · intro k sl hsl
    split
    · exact h.first k sl hsl
    · intro x hx
      obtain ⟨y, hy, rfl⟩ := List.mem_map.1 hx
      exact hf k sl y (h.first k sl hsl y hy)

theorem State.Live.modUnlisted (h : s.Live c) (source : Nat) (listed : List Nat) (f : Contribution → Contribution)
    (hh : ∀ x, (f x).holder = x.holder) (hf : ∀ x, x.state ≠ .absent → (f x).state ≠ .absent) :
    (s.modUnlisted source listed f).Live c := by
  refine h.mapPeers (fun _ x => if x.holder == source then f x else x) ?_ ?_ (fun sl => listed.contains sl.art.number)
  · intro _ x; split
    · exact hh x
    · rfl
  · intro _ _ x hx; split
    · exact hf x hx
    · exact hx

theorem State.Live.tallyEntry (h : s.Live c) (source : Nat) (x : TallyEntry) : (State.tallyEntry source s x).Live c := by
  unfold State.tallyEntry
  cases e : s.slot? x.article with
  | none => exact h
  | some sl =>
    dsimp only
    split
    · obtain ⟨⟨k1, k2, k3, k4⟩, k5⟩ := h.fits e
      refine h.modSlot e _ rfl ?_ k5 ?_
      · exact ⟨Article.mapPeers_sound k1 _ (fun x => by dsimp only; split <;> rfl), k2, k3, k4⟩
      · intro k y hy
        obtain ⟨z, hz, rfl⟩ := List.mem_map.1 hy
        split
        · intro q; cases q
        · exact h.first k sl (State.slot?_some e).1 z hz
    · exact h.raise _ _ _

theorem State.Live.giveNotices (h : s.Live c) (l : List (Nat × List (Nat × Freshness))) : (s.giveNotices l).Live c :=
  State.Live.foldl _ (fun _ n k => k.articleNotice n.1 n.2) _ h

theorem State.Live.queryOnGap (h : s.Live c) (source : Nat) : (s.queryOnGap source).Live c := by
  unfold State.queryOnGap
  split
  · exact ((h.modPeer _ _).count _).request _
  · exact h

theorem State.Live.raiseMissing (h : s.Live c) (source : Nat) (listed : List Nat) :
    (s.raiseMissing source listed).Live c :=
  State.Live.foldl _ (fun _ _ k => k.raise _ _ _) _ h

theorem Contribution.unlisted_holder (x : Contribution) (k : Continuity) : (x.unlisted k).holder = x.holder := by
  unfold Contribution.unlisted
  cases k
  · rfl
  · dsimp only; split <;> rfl
  · dsimp only; split <;> rfl

theorem Contribution.unlisted_state (x : Contribution) (k : Continuity) (h : x.state ≠ .absent) :
    (x.unlisted k).state ≠ .absent := by
  unfold Contribution.unlisted
  cases k
  · exact h
  · dsimp only
    split
    · intro q; cases q
    · exact h
  · dsimp only
    split
    · exact h
    · intro q; cases q

theorem State.Live.tallyRest (h : s.Live c) (source : Nat) (seq : Seq) (v : Variant) (listed : List Nat) :
    (s.tallyRest source seq v listed).Live c := by
  unfold State.tallyRest
  dsimp only
  have h1 := h.modPeer source fun p => { p with baseline := some seq, staleTimer := some (s.now + s.tly.staleTime) }
  cases v with
  | full =>
    exact (h1.modUnlisted source listed (fun x => { x with units := 0, state := .fresh }) (fun _ => rfl)
      (fun _ _ => by simp)).raiseMissing _ _
  | delta =>
    have h2 := h1.modUnlisted source listed _ (fun x => x.unlisted_holder
      (continuity ((s.peer? source).bind Peer.baseline) seq)) (fun x hx => x.unlisted_state _ hx)
    dsimp only
    split
    · exact (h2.raise _ _ _).queryOnGap _
    · exact h2

end Sys2Proof.Machine
end

