-- ==== Sys2Proof/Laws/Event.lean ====
section
/-! SUPPORT. What every command shares: its event, the receive path of a frame that passes its checks, and the numbered
tables under a change. -/

namespace Sys2Proof.Machine

/-! ### Events -/

/-- A command outside a held reset: its time, its act, its lamps. -/
theorem State.event_next {s : State} (h : s.held = none) (dt : Time) (act : State → State) :
    s.event dt act = .next (act (s.elapse dt)).showLamps := by simp [State.event, h]

/-- A command under a held reset changes nothing. -/
theorem State.event_held {s : State} (h : s.held ≠ none) (dt : Time) (act : State → State) :
    s.event dt act = .next s := by
  cases hs : s.held with
  | none => exact absurd hs h
  | some x => simp [State.event, hs]

/-- The timer of an expiry command that is due. -/
theorem expired_some {now e : Time} (h : e ≤ now) : expired now (some e) = some e := by simp [expired, h]

/-- A timer's command acts exactly when the timer runs and is due. -/
theorem expired_eq_none {now : Time} {o : Option Time} : expired now o = none ↔ ¬ ∃ e, o = some e ∧ e ≤ now := by
  cases o with
  | none => simp [expired]
  | some e => simp [expired]

/-- JOINING, RUNNING and ISOLATED. -/
theorem State.listening_iff (s : State) :
    s.listening = true ↔ s.stc.state = .joining ∨ s.stc.state = .running ∨ s.stc.state = .isolated := by
  unfold State.listening; cases s.stc.state <;> simp

/-- JOINING and RUNNING. -/
theorem State.speaking_iff (s : State) : s.speaking = true ↔ s.stc.state = .joining ∨ s.stc.state = .running := by
  unfold State.speaking; cases s.stc.state <;> simp

/-! ### The receive path -/

/-- A frame that passes the checks, addressed to the station and from another device, is handed over (R46 to R48). -/
theorem State.hearFrame_passed {s : State} {heard : List Character} {f : Frame} (k : Kind) (hl : s.listening = true)
    (ho : s.bsc.rx.own = false) (hc : (Receiver.reset.hearAll heard).check = .passed f)
    (hd : f.dst = 0 ∨ f.dst = s.ownNumber) (hs : f.src ≠ s.ownNumber) :
    s.hearFrame k heard = s.dispatch (some k) f := by
  have hn : ¬ f.src = s.ownNumber := hs
  unfold State.hearFrame State.receiveFrame State.filterFrame
  rcases s.listening_iff.1 hl with hs | hs | hs <;> rw [hs, ho] <;>
    simp only [hc, hd, hn, Bool.false_eq_true, not_true_eq_false, if_false]

/-- A frame that fails a check raises its event alone (R47). -/
theorem State.hearFrame_failed {s : State} {heard : List Character} {code : FaultCode} (k : Kind)
    (hl : s.listening = true) (ho : s.bsc.rx.own = false) (hc : (Receiver.reset.hearAll heard).check = .failed code) :
    s.hearFrame k heard = s.raise code 0 0 := by
  unfold State.hearFrame State.receiveFrame State.filterFrame
  rcases s.listening_iff.1 hl with hs | hs | hs <;> rw [hs, ho] <;> simp only [hc, Bool.false_eq_true, if_false]

/-! ### Numbered tables -/

theorem mod1_get {α : Type} {l : List α} {n : Nat} {b : α} (h : nth1 l n = some b) (f : α → α) :
    nth1 (mod1 l n f) n = some (f b) := by
  cases n with
  | zero => cases h
  | succ k => simp [nth1, mod1] at *; simp [h]

/-- Only what the change does to the record that stands there matters. -/
theorem mod1_congr {α : Type} {l : List α} {n : Nat} {b : α} (h : nth1 l n = some b) {f g : α → α} (e : f b = g b) :
    mod1 l n f = mod1 l n g := by
  cases n with
  | zero => rfl
  | succ k =>
    simp only [mod1]
    apply List.ext_getElem?
    intro i
    rw [List.getElem?_modify, List.getElem?_modify]
    by_cases hi : k = i
    · subst hi
      have : l[k]? = some b := h
      simp [this, e]
    · simp [hi]

theorem mod1_same {α : Type} {l : List α} {n : Nat} {b : α} (h : nth1 l n = some b) : mod1 l n (fun _ => b) = l := by
  rw [mod1_congr h (f := fun _ => b) (g := id) rfl]
  cases n with
  | zero => rfl
  | succ k => exact List.modify_id k l

theorem mod1_mod1 {α : Type} (l : List α) (n : Nat) (f g : α → α) : mod1 (mod1 l n f) n g = mod1 l n (g ∘ f) := by
  cases n with
  | zero => rfl
  | succ k =>
    simp only [mod1]
    apply List.ext_getElem?
    intro i
    simp only [List.getElem?_modify]
    by_cases hi : k = i <;> simp [hi, Function.comp_def]

theorem nth1_mod1_ne {α : Type} (l : List α) {m n : Nat} (h : m ≠ n) (f : α → α) : nth1 (mod1 l n f) m = nth1 l m := by
  cases n with
  | zero => rfl
  | succ k =>
    cases m with
    | zero => rfl
    | succ j =>
      simp only [mod1, nth1, List.getElem?_modify]
      have : ¬ k = j := by omega
      simp [this]

theorem State.modBay_congr {s : State} {n : Nat} {b : Bay} (h : s.bay? n = some b) {f g : Bay → Bay} (e : f b = g b) :
    s.modBay n f = s.modBay n g := by
  unfold State.modBay; rw [mod1_congr h e]

theorem State.modBay_modBay (s : State) (n : Nat) (f g : Bay → Bay) :
    (s.modBay n f).modBay n g = s.modBay n (g ∘ f) := by
  unfold State.modBay; rw [← mod1_mod1]

/-! ### The pending-take list -/

/-- Entries that join the pending-take list: the newest sixteen stay, and each one lost raises PAIR_EVICT (R37). -/
theorem State.addPending_foldl (l : List PendingTake) (s : State) (h : s.pru.pendingTakes.length ≤ 16) :
    l.foldl State.addPending s
      = { s with
          pru := { s.pru with
            pendingTakes := (s.pru.pendingTakes ++ l).drop ((s.pru.pendingTakes ++ l).length - 16) }
          hlu := ((s.pru.pendingTakes ++ l).take ((s.pru.pendingTakes ++ l).length - 16)).foldl
            (fun h p => h.take .pairEvict p.source p.article 1 s.now) s.hlu } := by
  induction l generalizing s with
  | nil =>
    have : (s.pru.pendingTakes ++ []).length - 16 = 0 := by simp; omega
    rw [List.foldl_nil, this]; simp
  | cons x rest ih =>
    rw [List.foldl_cons]
    by_cases hl : s.pru.pendingTakes.length < 16
    · have e : s.addPending x = { s with pru := { s.pru with pendingTakes := s.pru.pendingTakes ++ [x] } } := by
        unfold State.addPending
        split
        · rename_i hq; rw [hq] at hl ⊢; rw [if_pos hl]
        · rename_i hq; rw [hq]; rfl
      rw [e, ih _ (by simp; omega)]
      simp
    · cases hq : s.pru.pendingTakes with
      | nil => rw [hq] at hl; simp at hl
      | cons o r =>
        have e : s.addPending x
            = { s with pru := { s.pru with pendingTakes := r ++ [x] }
                       hlu := s.hlu.take .pairEvict o.source o.article 1 s.now } := by
          unfold State.addPending
          rw [hq]; dsimp only; rw [if_neg (by rw [hq] at hl; exact hl)]; rfl
        rw [hq] at hl h
        simp at hl h
        rw [e, ih _ (by simp; omega)]
        have e1 : ((o :: r) ++ x :: rest).length - 16 = rest.length + 1 := by simp; omega
        have e2 : ((r ++ [x]) ++ rest).length - 16 = rest.length := by simp; omega
        simp only [e1, e2]
        simp

end Sys2Proof.Machine
end

