-- ==== Sys2Proof/Laws/Arrivals.lean ====
section
/-! SUPPORT. The arrivals that the tally unit handles whole: a TALLY (R74 to R78), the silence of a station (R79), the end of
the first window (R80), a HELLO (R81, R144, R145). Each keeps the station sound, and moves only what its frame names. -/

namespace Sys2Proof.Machine

variable {c : Controller} {s : State}

/-! ### Frames -/

/-- `t` differs from `s` at most in the records' moving parts, the peer table, the transmit queue, the health unit, the
shift batch and the delta timer. -/
structure State.Heard (s t : State) : Prop where
  now : t.now = s.now
  held : t.held = s.held
  channels : t.channels = s.channels
  bays : t.bays = s.bays
  alu : t.alu = s.alu
  stc : t.stc = s.stc
  lamps : t.lamps = s.lamps
  freeCount : t.freeCount = s.freeCount
  pending : t.pending = s.pending
  tly : t.tly = { s.tly with deltaTimer := t.tly.deltaTimer }
  pru : t.pru = { s.pru with filling := t.pru.filling, ready := t.pru.ready, sending := t.pru.sending }
  line : t.bsc.line = s.bsc.line
  config : t.slots.map (fun sl => sl.art.config) = s.slots.map fun sl => sl.art.config

theorem State.Heard.refl (s : State) : s.Heard s :=
  ⟨rfl, rfl, rfl, rfl, rfl, rfl, rfl, rfl, rfl, rfl, rfl, rfl, rfl⟩

theorem State.Heard.trans {s t u : State} (h : s.Heard t) (k : t.Heard u) : s.Heard u := by
  refine ⟨k.now.trans h.now, k.held.trans h.held, k.channels.trans h.channels, k.bays.trans h.bays,
    k.alu.trans h.alu, k.stc.trans h.stc, k.lamps.trans h.lamps,
    k.freeCount.trans h.freeCount, k.pending.trans h.pending, ?_, ?_, k.line.trans h.line, k.config.trans h.config⟩
  · rw [k.tly, h.tly]
  · rw [k.pru, h.pru]

theorem State.Steady.heard {s t : State} (h : s.Steady t) : s.Heard t :=
  ⟨h.now, h.held, h.channels, h.bays, h.alu, h.stc, h.lamps, h.freeCount, h.pending, h.tly, h.pru, h.line, h.config⟩

theorem State.modPeer_heard (s : State) (n : Nat) (f : Peer → Peer) : s.Heard (s.modPeer n f) :=
  ⟨rfl, rfl, rfl, rfl, rfl, rfl, rfl, rfl, rfl, rfl, rfl, rfl, rfl⟩

theorem State.Heard.ownNumber {s t : State} (h : s.Heard t) : t.ownNumber = s.ownNumber := by
  unfold State.ownNumber; rw [h.stc]

/-- The records changed one by one, each keeping its configuration. -/
theorem State.mapSlots_heard (s : State) (g : Slot → Slot) (hg : ∀ sl, (g sl).art.config = sl.art.config) :
    s.Heard { s with slots := s.slots.map g } := by
  refine ⟨rfl, rfl, rfl, rfl, rfl, rfl, rfl, rfl, rfl, rfl, rfl, rfl, ?_⟩
  rw [List.map_map]
  exact List.map_congr_left fun sl _ => hg sl

theorem State.foldl_heard {α : Type} (f : State → α → State) (hf : ∀ (s : State) (x : α), s.Heard (f s x)) (l : List α)
    (s : State) : s.Heard (l.foldl f s) := by
  induction l generalizing s with
  | nil => exact State.Heard.refl s
  | cons x rest ih => exact (hf s x).trans (ih _)

/-- A record found after was found before, with the same configuration. -/
theorem State.Heard.slot? {s t : State} (h : s.Heard t) {a : Nat} {sl' : Slot} (e : t.slot? a = some sl') :
    ∃ sl, s.slot? a = some sl ∧ sl.art.config = sl'.art.config :=
  State.slot?_of_map (fun sl => sl.art.config) ArticleConfig.number (fun _ => rfl) h.config e

/-- A record found before is found after, with the same configuration. -/
theorem State.Heard.slot?' {s t : State} (h : s.Heard t) {a : Nat} {sl : Slot} (e : s.slot? a = some sl) :
    ∃ sl', t.slot? a = some sl' ∧ sl'.art.config = sl.art.config :=
  State.slot?_of_map (fun sl => sl.art.config) ArticleConfig.number (fun _ => rfl) h.config.symm e

theorem State.tallyEntry_heard (source : Nat) (s : State) (x : TallyEntry) : s.Heard (State.tallyEntry source s x) := by
  unfold State.tallyEntry
  split
  · exact State.Heard.refl s
  · split
    · refine s.mapSlots_heard _ fun sl => ?_
      split <;> rfl
    · exact (s.raise_steady _ _ _).heard

theorem State.modUnlisted_heard (s : State) (source : Nat) (listed : List Nat) (f : Contribution → Contribution) :
    s.Heard (s.modUnlisted source listed f) := by
  refine s.mapSlots_heard _ fun sl => ?_
  split <;> rfl

theorem State.queryOnGap_heard (s : State) (source : Nat) : s.Heard (s.queryOnGap source) := by
  unfold State.queryOnGap
  split
  · exact ((s.modPeer_heard _ _).trans (State.count_steady _ _).heard).trans (State.request_steady _ _).heard
  · exact State.Heard.refl s

theorem State.tallyRest_heard (s : State) (source : Nat) (seq : Seq) (v : Variant) (listed : List Nat) :
    s.Heard (s.tallyRest source seq v listed) := by
  unfold State.tallyRest
  dsimp only
  refine (s.modPeer_heard source fun p =>
    { p with baseline := some seq, staleTimer := some (s.now + s.tly.staleTime) }).trans ?_
  split
  · refine (State.modUnlisted_heard _ source listed fun x => { x with units := 0, state := .fresh }).trans ?_
    exact State.foldl_heard _ (fun s _ => (s.raise_steady _ _ _).heard) _ _
  · refine (State.modUnlisted_heard _ source listed fun x =>
      x.unlisted (continuity ((s.peer? source).bind Peer.baseline) seq)).trans ?_
    split
    · exact (State.raise_steady _ _ _ _).heard.trans (State.queryOnGap_heard _ _)
    · exact State.Heard.refl _

theorem State.takeTally_heard (s : State) (source : Nat) (seq : Seq) (v : Variant) (l : List TallyEntry) :
    s.Heard (s.takeTally source seq v l) := by
  unfold State.takeTally
  dsimp only
  refine ((State.foldl_heard _ (State.tallyEntry_heard source) l s).trans (State.tallyRest_heard _ source seq v
    ((l.filter (s.takesEntry source)).map TallyEntry.article))).trans ?_
  refine State.Steady.heard ?_
  refine State.Steady.trans ?_ (State.giveNotices_steady _ _)
  exact State.foldl_steady _ (fun t x => t.takeEntry_steady source x _) _ _

/-! ### Soundness -/

/-- Taken entries, in frame order: their articles are held with the source among the holders. -/
theorem State.Live.takeEntries (l : List TallyEntry) (source : Nat) (aggregate : Nat → Nat) {s : State} (h : s.Live c)
    (hn : source ≠ s.ownNumber)
    (hl : ∀ x ∈ l, ∀ sl, s.slot? x.article = some sl → source ∈ sl.art.holders) :
    (l.foldl (fun s e => s.takeEntry source e (aggregate e.article)) s).Live c := by
  induction l generalizing s with
  | nil => exact h
  | cons x rest ih =>
    have st := s.takeEntry_steady source x (aggregate x.article)
    refine ih (h.takeEntry source x _ hn (hl x (List.mem_cons_self ..))) (by rw [st.ownNumber]; exact hn) ?_
    intro y hy sl e
    obtain ⟨sl0, e0, k0⟩ := st.slot? e
    have := hl y (List.mem_cons_of_mem _ hy) sl0 e0
    have k1 : sl0.art.config = sl.art.config := congrArg Kept.config k0
    have k2 : sl0.art.holders = sl.art.holders := congrArg ArticleConfig.holders k1
    rw [← k2]; exact this

theorem State.Live.takeTally (h : s.Live c) (source : Nat) (seq : Seq) (v : Variant) (l : List TallyEntry)
    (hn : source ≠ s.ownNumber) : (s.takeTally source seq v l).Live c := by
  unfold State.takeTally
  dsimp only
  have f1 := State.foldl_heard _ (State.tallyEntry_heard source) l s
  have h1 : (l.foldl (State.tallyEntry source) s).Live c := State.Live.foldl _ (fun _ x k => k.tallyEntry source x) _ h
  have f2 := f1.trans (State.tallyRest_heard _ source seq v ((l.filter (s.takesEntry source)).map TallyEntry.article))
  have h2 := h1.tallyRest source seq v ((l.filter (s.takesEntry source)).map TallyEntry.article)
  refine State.Live.giveNotices (State.Live.takeEntries _ source _ h2 (by rw [f2.ownNumber]; exact hn) ?_) _
  intro x hx sl e
  obtain ⟨sl0, e0, k0⟩ := f2.slot? e
  have hx := (List.mem_filter.1 hx).2
  unfold State.takesEntry at hx
  rw [e0] at hx
  have k2 : sl0.art.holders = sl.art.holders := congrArg ArticleConfig.holders k0
  rw [← k2]
  simpa using hx

theorem State.staleExpires_heard (s : State) (station : Nat) : s.Heard (s.staleExpires station) := by
  unfold State.staleExpires
  split
  · exact State.Heard.refl s
  · dsimp only
    refine (s.modPeer_heard station fun p => { p with staleTimer := none }).trans ?_
    split
    · refine (State.modUnlisted_heard _ station [] Contribution.silence).trans ?_
      refine State.Heard.trans ?_ (State.giveNotices_steady _ _).heard
      split
      · exact (State.raise_steady _ _ _ _).heard
      · exact State.Heard.refl _
    · exact State.Heard.refl _

theorem State.Live.staleExpires (h : s.Live c) (station : Nat) : (s.staleExpires station).Live c := by
  unfold State.staleExpires
  split
  · exact h
  · dsimp only
    have h1 := h.modPeer station fun p => { p with staleTimer := none }
    split
    · have h2 := h1.modUnlisted station [] Contribution.silence (fun _ => rfl) (fun _ _ => by simp [Contribution.silence])
      refine State.Live.giveNotices ?_ _
      split
      · exact h2.raise _ _ _
      · exact h2
    · exact h1

/-! ### The first window (R80) -/

theorem State.raiseAbsent_steady (s : State) (sl : Slot) : s.Steady (s.raiseAbsent sl) :=
  State.foldl_steady _ (fun s _ => s.raise_steady _ _ _) _ _

theorem Contribution.endWindow_holder (x : Contribution) : x.endWindow.holder = x.holder := by
  unfold Contribution.endWindow; split <;> rfl

theorem Contribution.endWindow_state (x : Contribution) : x.endWindow.state ≠ .absent := by
  unfold Contribution.endWindow
  split
  · intro q; cases q
  · assumption

/-- The first window's end: the records' contributions moved, the flag set, the rest as it was. -/
theorem State.endFirstWindow_heard (s : State) :
    s.Heard { s.endFirstWindow with tly := { s.endFirstWindow.tly with firstWindow := s.tly.firstWindow } } := by
  unfold State.endFirstWindow
  split
  · exact State.Heard.refl s
  · rename_i k
    dsimp only
    let u : State :=
      { s with
        tly := { s.tly with firstWindow := true }
        slots := s.slots.map fun sl =>
          { sl with art := Article.recount { sl.art with peers := sl.art.peers.map Contribution.endWindow } } }
    have hu : u.slots.map (fun sl => sl.art.config) = s.slots.map fun sl => sl.art.config := by
      show (s.slots.map _).map _ = _
      rw [List.map_map]
      exact List.map_congr_left fun _ _ => rfl
    have f : u.Steady ((s.slots.foldl State.raiseAbsent u).giveNotices (noticesBetween s.slots u.slots)) :=
      (State.foldl_steady _ (fun s x => s.raiseAbsent_steady x) _ u).trans (State.giveNotices_steady _ _)
    refine ⟨f.now, f.held, f.channels, f.bays, f.alu, f.stc, f.lamps, f.freeCount, f.pending, ?_, f.pru, f.line,
      f.config.trans hu⟩
    have := f.tly
    dsimp only
    rw [this]

theorem State.Live.endFirstWindow (h : s.Live c) : s.endFirstWindow.Live c := by
  unfold State.endFirstWindow
  split
  · exact h
  · dsimp only
    refine State.Live.giveNotices (State.Live.foldl _ (fun s x k => ?_) _ ?_) _
    · exact State.Live.foldl _ (fun _ _ k => k.raise _ _ _) _ k
    · have h1 : ({ s with slots := s.slots.map fun sl =>
          { sl with art := Article.recount { sl.art with peers := sl.art.peers.map Contribution.endWindow } } } :
          State).Live c :=
        h.mapPeers (fun _ => Contribution.endWindow) (fun _ x => x.endWindow_holder)
          (fun _ _ x _ => x.endWindow_state) (fun _ => false)
      refine { h1 with first := fun _ sl hsl x hx => ?_ }
      obtain ⟨y, _, rfl⟩ := List.mem_map.1 hsl
      obtain ⟨z, _, rfl⟩ := List.mem_map.1 hx
      exact z.endWindow_state

/-! ### HELLO (R144 to R146, R81, R132) -/

theorem State.helloTally_heard (s : State) (source : Nat) : s.Heard (s.helloTally source) := by
  unfold State.helloTally
  dsimp only
  split
  · exact (s.modPeer_heard _ _).trans (State.request_steady _ _).heard
  · exact s.modPeer_heard _ _

theorem State.Live.helloTally (h : s.Live c) (source : Nat) : (s.helloTally source).Live c := by
  unfold State.helloTally
  dsimp only
  split
  · exact (h.modPeer _ _).request _
  · exact h.modPeer _ _

/-- The records of an article marked DISPUTED, in the article record and in the own entry. -/
def Slot.disputedBy (x : Slot) : Slot :=
  { art := Article.recount
      { x.art with
        disputed := true
        own := { x.art.own with flags := { x.art.own.flags with disputed := true } }
        changed := true }
    alert := x.alert }

/-- Marking an article whose flag was clear is one change of its records, followed by the delta timer's start. -/
theorem State.markDisputed_eq {a : Nat} {sl : Slot} (h : s.Live c) (e : s.slot? a = some sl)
    (hd : sl.art.disputed = false) : s.markDisputed a = (s.modSlot a Slot.disputedBy).startDelta := by
  unfold State.markDisputed State.ownUpdate
  have e1 : (s.modArticle a fun r => { r with disputed := true }).slot? a
      = some { sl with art := { sl.art with disputed := true } } := State.slot?_modSlot e _ fun _ => rfl
  rw [e1]
  dsimp only
  rw [if_neg]
  · unfold State.modArticle
    rw [State.modSlot_modSlot s a (fun sl => { sl with art := { sl.art with disputed := true } }) _ fun _ => rfl]
    rfl
  · intro q
    have k := (h.fits e).1.1.2.2.2
    have := congrArg (fun o => o.flags.disputed) q
    rw [hd] at k
    rw [k] at this
    cases this

theorem State.Live.disputedBy (h : s.Live c) {a : Nat} {sl : Slot} (e : s.slot? a = some sl) :
    (s.modSlot a Slot.disputedBy).Live c := by
  obtain ⟨⟨⟨k1, k2, k3, k4⟩, l2, l3, l4⟩, k5⟩ := h.fits e
  refine h.modSlot e _ rfl ⟨⟨k1, rfl, rfl, rfl⟩, l2, l3, l4⟩ ?_ (fun k => h.first k sl (State.slot?_some e).1)
  rw [Slot.shareFits_iff] at k5 ⊢
  exact k5

theorem State.Live.compareDigest (h : s.Live c) (source : Nat) (p : Nat × Crc) :
    (State.compareDigest source s p).Live c := by
  unfold State.compareDigest
  split
  · rename_i sl e
    split
    · rename_i q
      have h1 := h.raise .disputed source p.1
      have e1 : (s.raise .disputed source p.1).slot? p.1 = some sl := e
      rw [State.markDisputed_eq h1 e1 (by simpa using q.2)]
      exact (h1.disputedBy e1).startDelta
    · exact h
  · exact h

theorem State.Live.takeHello (h : s.Live c) (source : Nat) (l : List (Nat × Crc)) : (s.takeHello source l).Live c := by
  unfold State.takeHello
  dsimp only
  have h1 : (l.foldl (State.compareDigest source) s).Live c := State.Live.foldl _ (fun _ p k => k.compareDigest source p) _ h
  refine State.Live.resendAlerts (State.Live.helloTally ?_ _) _
  split
  · exact h1.request _
  · exact h1

theorem State.compareDigest_heard (source : Nat) (s : State) (p : Nat × Crc) :
    s.Heard (State.compareDigest source s p) := by
  unfold State.compareDigest
  split
  · split
    · refine (s.raise_steady .disputed source p.1).heard.trans ?_
      unfold State.markDisputed State.ownUpdate
      have h0 : (s.raise .disputed source p.1).Heard
          ((s.raise .disputed source p.1).modArticle p.1 fun r => { r with disputed := true }) :=
        State.mapSlots_heard _ _ fun sl => by split <;> rfl
      refine h0.trans ?_
      split
      · split
        · exact State.Heard.refl _
        · refine State.Heard.trans ?_ (State.startDelta_sent _).steady.heard
          exact State.mapSlots_heard _ _ fun sl => by split <;> rfl
      · exact State.Heard.refl _
    · exact State.Heard.refl s
  · exact State.Heard.refl s

theorem State.takeHello_heard (s : State) (source : Nat) (l : List (Nat × Crc)) : s.Heard (s.takeHello source l) := by
  unfold State.takeHello
  dsimp only
  refine (State.foldl_heard _ (State.compareDigest_heard source) l s).trans ?_
  refine State.Heard.trans ?_ (State.resendAlerts_steady _ _).heard
  refine State.Heard.trans ?_ (State.helloTally_heard _ _)
  split
  · exact (State.request_steady _ _).heard
  · exact State.Heard.refl _

/-! ### QUERY, beacon, completion -/

theorem State.Live.takeQuery (h : s.Live c) (dst : Nat) : (s.takeQuery dst).Live c := by
  unfold State.takeQuery
  split
  · exact h.request _
  · exact h

theorem State.Live.beaconTally (h : s.Live c) (e : Time) (hs : s.speaking = true) : (s.beaconTally e).Live c := by
  unfold State.beaconTally
  dsimp only
  refine State.Live.request ?_ _
  exact { h with hush := fun k => by rw [show s.speaking = false from k] at hs; cases hs }

theorem State.Live.tallyCompleted (h : s.Live c) (hs : s.speaking = true) : s.tallyCompleted.Live c := by
  unfold State.tallyCompleted
  exact { h with hush := fun k => by rw [show s.speaking = false from k] at hs; cases hs }

/-- Marks alone moved: nothing else of the records. -/
theorem State.Live.mapMarks (h : s.Live c) (g : Slot → Bool) :
    ({ s with slots := s.slots.map fun sl => { sl with art := { sl.art with changed := g sl } } } : State).Live c := by
  refine h.mapSlots _ (fun _ _ => rfl) (fun sl hsl => ?_) (fun k sl hsl => h.first k sl hsl)
  exact h.slots sl hsl

theorem State.Live.clearMarks (h : s.Live c) : s.clearMarks.Live c := h.mapMarks fun _ => false

theorem State.returnMarks_eq (s : State) (moved : List Nat) :
    s.returnMarks moved = { s with slots := s.slots.map fun sl =>
      { sl with art := { sl.art with changed := moved.contains sl.art.number || sl.art.changed } } } := by
  unfold State.returnMarks
  congr 1
  apply List.map_congr_left
  intro sl _
  cases moved.contains sl.art.number <;> rfl

theorem State.Live.returnMarks (h : s.Live c) (moved : List Nat) : (s.returnMarks moved).Live c := by
  rw [State.returnMarks_eq]
  exact h.mapMarks fun sl => moved.contains sl.art.number || sl.art.changed

end Sys2Proof.Machine
end

