-- ==== Sys2Proof/Laws/Ledger.lean ====
section
/-! SUPPORT. What the alert unit's operations leave in the record they name: the ledger after a request (R91), a withdrawal
(R61), the OWNING flag after it is told (R70), a follow, a claim and an entry into QUIET. -/

namespace Sys2Proof.Machine

/-! ### Slots under the transmit queue -/

theorem State.beginDeferral_slots (s : State) : s.beginDeferral.slots = s.slots := by
  unfold State.beginDeferral; repeat' split
  all_goals rfl

theorem State.shortenDeferral_slots (s : State) (before : Option TxEntry) :
    (s.shortenDeferral before).slots = s.slots := by
  unfold State.shortenDeferral; dsimp only; repeat' split
  all_goals rfl

theorem State.enqueue_slots (s : State) (r : Request) : (s.enqueue r).1.slots = s.slots := by
  unfold State.enqueue
  split
  · dsimp only
    rw [State.shortenDeferral_slots, State.beginDeferral_slots]
    split <;> rfl
  · rfl

theorem State.loseSending_slots (s : State) : s.loseSending.slots = s.slots := by
  unfold State.loseSending; split <;> rfl

theorem State.requestShift_slots (s : State) : s.requestShift.slots = s.slots := by
  unfold State.requestShift
  have := s.enqueue_slots .shift
  split <;> rename_i q <;> rw [q] at this
  · exact this
  · rw [State.loseSending_slots]; exact this
  · exact this

theorem State.shiftLost_slots (s : State) : s.shiftLost.slots = s.slots := by
  unfold State.shiftLost
  dsimp only
  split
  · rw [State.requestShift_slots]; exact s.loseSending_slots
  · exact s.loseSending_slots

theorem State.slot?_of_slots {s t : State} (h : t.slots = s.slots) (a : Nat) : t.slot? a = s.slot? a := by
  unfold State.slot?; rw [h]

/-- A lookup past a change of another article's records. -/
theorem State.slot?_modSlot_ne {s : State} {a b : Nat} (h : a ≠ b) (f : Slot → Slot)
    (hf : ∀ x, (f x).art.number = x.art.number) : (s.modSlot b f).slot? a = s.slot? a := by
  unfold State.slot? State.modSlot
  dsimp only
  generalize s.slots = l
  induction l with
  | nil => rfl
  | cons x rest ih =>
    simp only [List.map_cons, List.find?_cons, ih]
    by_cases k : (x.art.number == b)
    · have : ¬ x.art.number = a := by
        intro q; apply h; rw [← q]; simpa using k
      have ha : (x.art.number == a) = false := by simpa using this
      simp only [k, if_true, hf, ha]
    · simp [k]

/-- After a request of `k` for article `a` its record has that frame outstanding, REQUESTED or already LOST (R91). -/
theorem State.requestAlert_slot {s : State} {a : Nat} {sl : Slot} (e : s.slot? a = some sl) (k : AlertKind) :
    ∃ q, (s.requestAlert k a).slot? a
      = some { art := sl.art, alert := { sl.alert with outstanding := some { kind := k, standing := q } } } := by
  unfold State.requestAlert
  have e4 := State.slot?_modAlert e fun r => { r with outstanding := some { kind := k, standing := .requested } }
  generalize (s.modAlert a fun r => { r with outstanding := some { kind := k, standing := .requested } }) = u at e4
  unfold State.request
  have en := u.enqueue_slots (.alertFrame k a)
  split <;> rename_i q <;> rw [q] at en <;> dsimp only at en
  · exact ⟨.requested, (State.slot?_of_slots en a).trans e4⟩
  · rename_i w d
    have e5 : w.slot? a = _ := (State.slot?_of_slots en a).trans e4
    unfold State.noticeDropped
    split
    · exact ⟨.requested, (State.slot?_of_slots w.shiftLost_slots a).trans e5⟩
    · rename_i k' b
      by_cases hb : a = b
      · subst hb
        have := State.slot?_modAlert e5 fun r => r.lost k'
        by_cases hk : k' = k
        · subst hk
          refine ⟨.lost, this.trans ?_⟩
          simp only [Alert.lost, if_true]
        · refine ⟨.requested, this.trans ?_⟩
          have hk' : ¬ k = k' := fun z => hk z.symm
          simp only [Alert.lost, hk', if_false]
      · exact ⟨.requested, (State.slot?_modSlot_ne hb (fun x => { x with alert := x.alert.lost k' }) fun _ => rfl).trans e5⟩
    all_goals exact ⟨.requested, e5⟩

/-- After a withdrawal nothing is outstanding of the record (R61, R91). -/
theorem State.withdrawAlert_slot {s : State} {a : Nat} {sl : Slot} (e : s.slot? a = some sl) :
    (s.withdrawAlert a).slot? a = some { sl with alert := { sl.alert with outstanding := none } } := by
  unfold State.withdrawAlert
  rw [e]
  dsimp only
  split
  · rename_i o _
    have : (s.withdraw (.alertFrame o.kind a)).slot? a = some sl := by
      unfold State.withdraw State.endDeferralIfEmpty State.slot?
      dsimp only
      split <;> exact e
    exact State.slot?_modAlert this _
  · rename_i h
    rw [e]
    congr 1
    obtain ⟨art, al⟩ := sl
    dsimp only at h ⊢
    rw [← h]

/-- No withdrawn entry stands queued (R61). -/
theorem State.withdraw_waiting (s : State) (r : Request) : ∀ e ∈ (s.withdraw r).bsc.waiting, e.req ≠ r := by
  intro e he
  unfold State.withdraw State.endDeferralIfEmpty at he
  dsimp only at he
  have : e ∈ s.bsc.waiting.filter fun e => e.req ≠ r := by split at he <;> exact he
  simpa using (List.mem_filter.1 this).2

/-- The own entry's OWNING flag is as told, and the record stands but for it, its totals, its mark and a frame that was
outstanding. -/
theorem State.tellOwning_slot {s : State} {a : Nat} {sl : Slot} (e : s.slot? a = some sl) (b : Bool) :
    ∃ sl', (s.tellOwning a b).slot? a = some sl' ∧ sl'.art.own.flags.owning = b ∧ sl'.art.kept = sl.art.kept
      ∧ (sl.art.aggregate = sl.art.total → sl'.art.aggregate = sl.art.aggregate)
      ∧ ∃ o, sl'.alert = { sl.alert with outstanding := o } ∧ (sl.alert.outstanding = none → o = none) := by
  unfold State.tellOwning State.ownUpdate
  rw [e]
  dsimp only
  split
  · rename_i h
    exact ⟨sl, e, (congrArg (fun o => o.flags.owning) h).symm, rfl, fun _ => rfl, _, rfl, id⟩
  · have e1 := State.slot?_modSlot e (fun x => { x with art := Article.recount { x.art with
        own := { x.art.own with flags := { x.art.own.flags with owning := b } }, changed := true } }) fun _ => rfl
    obtain ⟨sl', e2, ha, ho⟩ := (State.startDelta_sent _).slot? e1
    refine ⟨sl', e2, ?_, ?_, ?_, ho⟩
    · rw [ha]; rfl
    · rw [ha]; rfl
    · intro hh; rw [ha]; exact hh.symm

/-- A record that follows a station, as one change of it (R103 to R106, R109). -/
theorem State.followStation_eq {s : State} {a : Nat} {sl : Slot} (e : s.slot? a = some sl) (o : Nat) (x : Epoch)
    (l : Level) (p q : Bool) :
    s.followStation a o x l p q = s.modAlert a fun r =>
      { r.follow o x l p q with
        takeover := if sl.art.staleHolder o then some (s.now + ms (sl.art.rank s.ownNumber * 500)) else none } := by
  unfold State.followStation State.takeoverIfStale
  rw [State.slot?_modAlert e]
  dsimp only [Alert.follow]
  split
  · unfold State.modAlert
    rw [State.modSlot_modSlot _ _ _ _ (by intro _; rfl)]
    rfl
  · rfl

/-- The record after a claim at a level (R97). -/
theorem State.claimAt_slot {s : State} {a : Nat} {sl : Slot} (e : s.slot? a = some sl) (l : Level) :
    ∃ sl' q, (s.claimAt a l).slot? a = some sl' ∧ sl'.art.own.flags.owning = true ∧ sl'.art.kept = sl.art.kept
      ∧ sl'.alert = { sl.alert.claimed s.ownNumber l with outstanding := some { kind := .claim, standing := q } } := by
  unfold State.claimAt
  rw [e]
  dsimp only
  obtain ⟨s1, e1, o1, k1, -, o, h1, -⟩ := State.tellOwning_slot
    (State.slot?_modAlert e fun r => r.claimed s.ownNumber l) true
  obtain ⟨q, e2⟩ := State.requestAlert_slot e1 .claim
  refine ⟨_, q, e2, o1, k1, ?_⟩
  dsimp only
  rw [h1]

theorem State.claim_eq {s : State} {a : Nat} {sl : Slot} (e : s.slot? a = some sl) : s.claim a = s.claimAt a sl.target := by
  unfold State.claim
  rw [e]

theorem State.aggregate_of {s : State} {a : Nat} {sl : Slot} (e : s.slot? a = some sl) :
    s.aggregate a = sl.art.aggregate := by
  unfold State.aggregate
  rw [e]

/-- The claim test of a record by the aggregate of its article (R97). -/
theorem State.claimTest_eq {s : State} {a : Nat} {sl : Slot} (e : s.slot? a = some sl) :
    s.claimTest a = if sl.alert.state = .quiet ∧ s.claimable sl = true then s.claimAt a sl.target else s := by
  unfold State.claimTest State.claimTestSeeing
  rw [State.aggregate_of e, e]
  rfl

/-- A record claims nothing where the conditions of R97 fail. -/
theorem State.claimTest_none {s : State} {a : Nat} {sl : Slot} (e : s.slot? a = some sl)
    (h : s.stc.state ≠ .running ∨ sl.art.disputed = true ∨ sl.target = .none) : s.claimTest a = s := by
  rw [State.claimTest_eq e, if_neg]
  rintro ⟨-, k⟩
  unfold State.claimable at k
  simp only [Bool.and_eq_true, Bool.not_eq_true', beq_iff_eq] at k
  rcases h with h | h | h
  · exact h k.1.1
  · rw [h] at k; cases k.1.2
  · rw [h] at k; cases k.2

end Sys2Proof.Machine
end

