-- ==== Sys2Proof/Laws/Entries.lean ====
section
/-! SUPPORT. What the entries into JOINING (R140), RUNNING (R142), ISOLATED (R149, R44, R63, R88, R114) and HALTED (R137)
leave, and the soundness of the first three. -/

namespace Sys2Proof.Machine

variable {c : Controller} {s : State}

/-! ### Deferrals, and a request that merges -/

theorem State.beginDeferral_eq (s : State) : ∃ d, s.beginDeferral = { s with bsc := { s.bsc with deferral := d } } := by
  unfold State.beginDeferral; repeat' split
  all_goals exact ⟨_, rfl⟩

theorem State.shortenDeferral_eq (s : State) (before : Option TxEntry) :
    ∃ d, s.shortenDeferral before = { s with bsc := { s.bsc with deferral := d } } := by
  unfold State.shortenDeferral; dsimp only; repeat' split
  all_goals exact ⟨_, rfl⟩

/-- A request that begins no deferral and leaves the head of the queue in its class moves the queue alone. -/
theorem State.request_taken {s : State} {r : Request} {b : BusController} {d : Deferral} (hs : s.speaking = true)
    (he : s.bsc.enter r s.now = (b, none)) (hb : b.deferral = s.bsc.deferral) (hy : b.busy = s.bsc.busy)
    (hd : s.bsc.deferral = some d ∨ s.bsc.busy = true ∧ s.bsc.deferral = none)
    (hh : headLowered (headOf s.bsc.waiting) (headOf b.waiting) = false) : s.request r = { s with bsc := b } := by
  unfold State.request State.enqueue
  rw [if_pos hs, he]
  dsimp only
  have e : ({ s with bsc := b } : State).beginDeferral = { s with bsc := b } := by
    unfold State.beginDeferral
    dsimp only
    split
    · rename_i k _ _
      rcases hd with hd | ⟨hd, _⟩
      · rw [hb, hd] at k; cases k
      · rw [if_neg (by rw [hy, hd]; simp)]
    · rfl
  rw [e]
  unfold State.shortenDeferral
  dsimp only
  split
  · rename_i k
    rw [k] at hh
    rw [if_neg (by rw [hh]; simp)]
  · rfl

/-! ### JOINING (R140) -/

/-- The entry into JOINING on an empty queue: the station controller's fields, a HELLO and a FULL queued with the deferral
that they begin on an idle bus, the beacon timer, and the delta timer where the changed set is not empty and no expiry at this
moment merges its DELTA into the FULL; nothing else. -/
theorem State.enterJoining_eq {s : State} (q : s.bsc.Silent) (hd : s.tly.deltaTimer = none) :
    s.enterJoining = { s with
      stc := { s.stc with state := .joining, helloDone := false, joinTimer := none }
      bsc := { s.bsc with
        waiting := [{ req := .hello, time := s.now, taken := s.bsc.takenCount, failed := 0 },
          { req := .tally .full, time := s.now, taken := s.bsc.takenCount + 1, failed := 0 }]
        takenCount := s.bsc.takenCount + 2
        deferral := if s.bsc.busy then none
          else some { start := s.now, due := s.now + deferralLength 2 s.ownNumber } }
      tly := { s.tly with
        beaconTimer := some (s.now + s.tly.beaconPeriod)
        deltaTimer := if s.changedSet.isEmpty ∨ s.deltaDue ≤ s.now then none else some s.deltaDue } } := by
  obtain ⟨q1, q2, q3⟩ := q
  -- the two requests, on a queue with nothing in it, reduce by evaluation
  have e : (({ s with stc := { s.stc with state := .joining, helloDone := false, joinTimer := none } } :
      State).request .hello).request (.tally .full) = { s with
      stc := { s.stc with state := .joining, helloDone := false, joinTimer := none }
      bsc := { s.bsc with
        waiting := [{ req := .hello, time := s.now, taken := s.bsc.takenCount, failed := 0 },
          { req := .tally .full, time := s.now, taken := s.bsc.takenCount + 1, failed := 0 }]
        takenCount := s.bsc.takenCount + 2
        deferral := if s.bsc.busy then none
          else some { start := s.now, due := s.now + deferralLength 2 s.ownNumber } } } := by
    cases s with
    | mk now held channels bays pru slots peers tly alu bsc stc hlu lamps freeCount pending =>
    cases bsc with
    | mk busy rx waiting flight deferral abandonRun seq takenCount =>
    cases q1; cases q2; cases q3
    cases busy <;> rfl
  unfold State.enterJoining
  dsimp only
  rw [e]
  by_cases hc : s.changedSet.isEmpty = true
  · rw [if_pos (Or.inl hc), ← hd]
    exact if_pos hc
  · refine (if_neg hc).trans ?_
    unfold State.startDelta
    refine (if_pos (show (true && s.tly.deltaTimer.isNone) = true by rw [hd]; rfl)).trans ?_
    by_cases ht : s.deltaDue ≤ s.now
    · rw [if_pos (Or.inr ht)]
      refine (if_pos ht).trans ?_
      unfold State.deltaExpires
      refine (if_neg hc).trans ?_
      by_cases hy : s.bsc.busy = true
      · rw [if_pos hy]
        exact State.request_taken (d := ⟨0, 0⟩) rfl rfl rfl rfl (Or.inr ⟨hy, rfl⟩) rfl
      · rw [if_neg hy]
        exact State.request_taken rfl rfl rfl rfl (Or.inl rfl) rfl
    · rw [if_neg (not_or.2 ⟨hc, ht⟩)]
      exact if_neg ht

/-! ### Soundness with another station controller -/

/-- The station controller's fields changed, the number kept. -/
theorem State.Live.setStc (h : s.Live c) (d : Controller) (hs : d.Sound) (hn : d.number = s.stc.number)
    (hl : ({ s with stc := d } : State).listening = true)
    (hq : ({ s with stc := d } : State).speaking = false →
      s.bsc.Silent ∧ s.tly.beaconTimer = none ∧ s.tly.deltaTimer = none) :
    ({ s with stc := d } : State).Live d where
  stc := rfl
  on := hl
  held := h.held
  channels16 := h.channels16
  bays16 := h.bays16
  peers30 := h.peers30
  hlu := h.hlu
  bsc := h.bsc
  pru := h.pru
  ctl := hs
  bays := h.bays
  nodup := h.nodup
  slots := by
    have : ({ s with stc := d } : State).ownNumber = s.ownNumber := hn
    intro sl hsl
    rw [this]
    exact h.slots sl hsl
  hush := hq
  first := h.first

/-- The entry into JOINING from a state that is sound with the controller of JOINING. -/
theorem State.Live.enterJoining
    (h : ({ s with stc := { s.stc with state := .joining, helloDone := false, joinTimer := none } } : State).Live c) :
    s.enterJoining.Live c := by
  unfold State.enterJoining
  dsimp only
  have h1 := (h.request .hello).request (.tally .full)
  have hsp : ((({ s with stc := { s.stc with state := .joining, helloDone := false, joinTimer := none } } :
      State).request .hello).request (.tally .full)).speaking = true := by
    rw [(State.request_steady _ _).speaking, (State.request_steady _ _).speaking]
    rfl
  generalize ((({ s with stc := { s.stc with state := .joining, helloDone := false, joinTimer := none } } :
      State).request .hello).request (.tally .full)) = u at h1 hsp
  have h2 : ({ u with tly := { u.tly with beaconTimer := some (u.now + u.tly.beaconPeriod) } } : State).Live c :=
    { h1 with hush := fun k => by rw [show u.speaking = false from k] at hsp; cases hsp }
  split
  · exact h2
  · exact h2.startDelta

/-- The end of a join window: RUNNING, its timer stopped. -/
theorem State.Live.endJoinWindow (h : s.Live c) (hj : s.stc.state = .joining) :
    s.endJoinWindow.Live { c with joinTimer := none, state := .running } := by
  unfold State.endJoinWindow
  dsimp only
  obtain ⟨a1, a2, a3, a4, a5⟩ := h.ctl
  have hc := h.stc
  have e : ({ s with stc := { s.stc with joinTimer := none } } : State).Live { c with joinTimer := none } := by
    have := h.setStc { s.stc with joinTimer := none } ⟨fun q => (by cases q), a2, a3, a4, a5⟩ rfl h.on (fun q => h.hush q)
    rw [hc] at this ⊢
    exact this
  have e2 := e.endFirstWindow
  generalize ({ s with stc := { s.stc with joinTimer := none } } : State).endFirstWindow = u at e2
  have hu := e2.stc
  refine State.Live.claimTests ?_
  have hi : c.isolationTimer = none := by
    cases q : c.isolationTimer with
    | none => rfl
    | some x => have := a2.1 (by rw [hc, q]; rfl); rw [hj] at this; cases this
  have hh : c.halt = .noHalt := by
    by_contra q; have := a3.1 (by rw [hc]; exact q); rw [hj] at this; cases this
  have hr : c.read = none := by
    cases q : c.read with
    | none => rfl
    | some x => have := a4.1 (by rw [hc, q]; rfl); rw [hj] at this; cases this
  have := e2.setStc { u.stc with state := .running } ?_ rfl rfl (fun q => by cases q)
  · rw [hu] at this ⊢; exact this
  · rw [hu]
    refine ⟨fun q => (by cases q), ?_, ?_, ?_, ?_⟩
    · simp [hi]
    · simp [hh]
    · simp [hr]
    · intro _ _
      have := a5 (by rw [hj]; simp) (by rw [hj]; simp)
      rw [hc] at this
      exact this

/-! ### ISOLATED (R149) -/

/-- The records of one article at the entry into ISOLATED: QUIET, nothing outstanding, and OWNING told where it stood
(R114). -/
def Slot.isolated (x : Slot) : Slot :=
  { art := if x.alert.state.owning then
        Article.recount { x.art with own := x.art.own.told false, changed := true } else x.art
    alert := { x.alert.quieted x.alert.level with outstanding := none } }

theorem State.startDelta_mute (h : s.speaking = false) : s.startDelta = s := by
  unfold State.startDelta; rw [h]; rfl

theorem Slot.isolated_number (x : Slot) : x.isolated.art.number = x.art.number := by
  unfold Slot.isolated; dsimp only; split <;> rfl

/-- Distinct articles, and OWNING in the own entry as the record stands: all that the isolation of the records asks. -/
structure State.Tidy (s : State) : Prop where
  nodup : (s.slots.map fun sl => sl.art.number).Nodup
  owning : ∀ sl ∈ s.slots, sl.art.own.flags.owning = sl.alert.state.owning

theorem State.Live.tidy (h : s.Live c) : s.Tidy := ⟨h.nodup, fun sl hsl => (h.slots sl hsl).1.2.2.2⟩

/-- In a tidy state functions that agree on the record found make the same change. -/
theorem State.Tidy.modSlot_congr (h : s.Tidy) {a : Nat} {sl : Slot} (e : s.slot? a = some sl) {f g : Slot → Slot}
    (k : f sl = g sl) : s.modSlot a f = s.modSlot a g := by
  obtain ⟨h1, h2⟩ := State.slot?_some e
  unfold State.modSlot
  congr 1
  apply List.map_congr_left
  intro x hx
  split
  · rename_i q
    rw [nodup_map_inj h.nodup hx h1 ((by simpa using q : x.art.number = a).trans h2.symm)]; exact k
  · rfl

theorem State.Tidy.modIsolated (h : s.Tidy) (a : Nat) : (s.modSlot a Slot.isolated).Tidy := by
  refine ⟨?_, ?_⟩
  · unfold State.modSlot
    rw [List.map_map]
    have : (s.slots.map ((fun sl => sl.art.number) ∘ fun sl => if sl.art.number == a then sl.isolated else sl))
        = s.slots.map fun sl => sl.art.number := by
      apply List.map_congr_left
      intro x _
      simp only [Function.comp]
      split
      · exact x.isolated_number
      · rfl
    rw [this]
    exact h.nodup
  · intro sl hsl
    obtain ⟨x, hx, rfl⟩ := List.mem_map.1 hsl
    split
    · unfold Slot.isolated
      dsimp only
      have := h.owning x hx
      by_cases q : x.alert.state.owning = true
      · rw [if_pos q]; rfl
      · rw [if_neg q, this]
        simp only [Bool.not_eq_true] at q
        rw [q]; rfl
    · exact h.owning x hx

/-- With the station silent the isolation of a record is one change of it. -/
theorem State.Tidy.isolateRecord_eq (h : s.Tidy) (hs : s.speaking = false) {a : Nat} {sl : Slot}
    (e : s.slot? a = some sl) : s.isolateRecord a = s.modSlot a Slot.isolated := by
  have hk := h.owning sl (State.slot?_some e).1
  unfold State.isolateRecord
  rw [e]
  dsimp only
  by_cases ho : sl.alert.state.owning = true
  · rw [if_pos ho]
    unfold State.tellOwning State.ownUpdate
    rw [State.slot?_modAlert e]
    dsimp only
    rw [if_neg (by
      intro q
      have := congrArg (fun o => o.flags.owning) q
      rw [ho] at hk
      dsimp only at this
      rw [hk] at this
      cases this)]
    rw [State.startDelta_mute (by exact hs)]
    unfold State.modAlert State.modArticle
    rw [State.modSlot_modSlot s a (fun x => { x with alert := { x.alert.quieted x.alert.level with outstanding := none } })
      _ fun _ => rfl]
    refine h.modSlot_congr e ?_
    unfold Slot.isolated
    rw [if_pos ho]
    rfl
  · rw [if_neg ho]
    unfold State.modAlert
    refine h.modSlot_congr e ?_
    unfold Slot.isolated
    rw [if_neg ho]

/-- Records changed one after the other in table order are records all changed. -/
theorem State.modSlots_foldl (f : Slot → Slot) (hf : ∀ x, (f x).art.number = x.art.number) (s : State)
    (hn : (s.slots.map fun sl => sl.art.number).Nodup) :
    (s.slots.map fun sl => sl.art.number).foldl (fun u a => u.modSlot a f) s
      = { s with slots := s.slots.map f } := by
  have key : ∀ (l : List Nat) (u : State), l.Nodup →
      (l.foldl (fun u a => u.modSlot a f) u).slots = u.slots.map (fun x => if x.art.number ∈ l then f x else x)
        ∧ l.foldl (fun u a => u.modSlot a f) u
          = { u with slots := (l.foldl (fun u a => u.modSlot a f) u).slots } := by
    intro l
    induction l with
    | nil => intro u _; exact ⟨by simp, rfl⟩
    | cons a rest ih =>
      intro u hl
      rw [List.nodup_cons] at hl
      obtain ⟨i1, i2⟩ := ih (u.modSlot a f) hl.2
      rw [List.foldl_cons]
      refine ⟨?_, i2.trans rfl⟩
      rw [i1]
      unfold State.modSlot
      dsimp only
      rw [List.map_map]
      apply List.map_congr_left
      intro x _
      simp only [Function.comp]
      by_cases hx : x.art.number = a
      · have : a ∉ rest := hl.1
        simp [hx, hf, this]
      · have : (x.art.number == a) = false := by simp [hx]
        simp only [this, Bool.false_eq_true, if_false, List.mem_cons, hx, false_or]
  obtain ⟨k1, k2⟩ := key _ s hn
  rw [k2, k1]
  congr 1
  apply List.map_congr_left
  intro x hx
  rw [if_pos (List.mem_map_of_mem hx)]

/-- The alert unit at the entry into ISOLATED: every record isolated, nothing else. -/
theorem State.Tidy.isolateAlerts_eq (h : s.Tidy) (hs : s.speaking = false) :
    s.isolateAlerts = { s with slots := s.slots.map Slot.isolated } := by
  have step : ∀ (l : List Nat) (u : State), u.Tidy → u.speaking = false → (∀ a ∈ l, ∃ sl, u.slot? a = some sl) →
      l.foldl State.isolateRecord u = l.foldl (fun u a => u.modSlot a Slot.isolated) u := by
    intro l
    induction l with
    | nil => intro u _ _ _; rfl
    | cons a rest ih =>
      intro u hu hs hl
      obtain ⟨sl, e⟩ := hl a (List.mem_cons_self ..)
      rw [List.foldl_cons, List.foldl_cons, hu.isolateRecord_eq hs e]
      refine ih _ (hu.modIsolated a) hs fun b hb => ?_
      obtain ⟨x, ex⟩ := hl b (List.mem_cons_of_mem _ hb)
      by_cases hab : b = a
      · subst hab
        exact ⟨_, State.slot?_modSlot e _ Slot.isolated_number⟩
      · exact ⟨x, (State.slot?_modSlot_ne hab _ Slot.isolated_number).trans ex⟩
  unfold State.isolateAlerts State.articles
  rw [step _ s h hs ?_]
  · exact State.modSlots_foldl Slot.isolated Slot.isolated_number s h.nodup
  · intro a ha
    obtain ⟨x, hx, rfl⟩ := List.mem_map.1 ha
    unfold State.slot?
    cases q : s.slots.find? fun sl => sl.art.number == x.art.number with
    | some y => exact ⟨y, rfl⟩
    | none =>
      rw [List.find?_eq_none] at q
      exact absurd (by simp) (q x hx)

/-- `b` is the record `a` after events of its class: a full one keeps all but its further count (R188). -/
def Grown (a b : Option Capture) : Prop := ∀ c, a = some c → ∃ n, b = some { c with further := n }

theorem Grown.refl (a : Option Capture) : Grown a a := fun c h => ⟨c.further, h⟩

theorem Grown.trans {a b d : Option Capture} (h : Grown a b) (k : Grown b d) : Grown a d := by
  intro c hc
  obtain ⟨n, e⟩ := h c hc
  obtain ⟨m, e2⟩ := k { c with further := n } e
  exact ⟨m, e2⟩

theorem Grown.captured (a : Option Capture) (code : FaultCode) (i n : Nat) (t : Time) :
    Grown a (captured a code i n t) := by
  intro c h
  subst h
  exact ⟨_, rfl⟩

/-- `h` is `g` after events of class DEGRADE: sound with it, the SEVERE record as it was, the DEGRADE record grown. -/
structure Health.Degraded (g h : Health) : Prop where
  sound : g.Sound → h.Sound
  severe : h.severe = g.severe
  degrade : Grown g.degrade h.degrade

theorem Health.Degraded.refl (g : Health) : g.Degraded g := ⟨id, rfl, Grown.refl _⟩

theorem Health.Degraded.trans {f g h : Health} (k : f.Degraded g) (l : g.Degraded h) : f.Degraded h :=
  ⟨fun q => l.sound (k.sound q), l.severe.trans k.severe, k.degrade.trans l.degrade⟩

theorem Health.take_shiftDrop (g : Health) (a n : Nat) (t : Time) : g.Degraded (g.take .shiftDrop 0 a n t) :=
  ⟨fun k => Health.take_sound k _ _ _ _ _, rfl, Grown.captured _ _ _ _ _⟩

/-- The health unit after SHIFT_DROP for the records of one list, nothing for an empty one (R43, R44). -/
def Health.dropTakes (h : Health) (l : List Take) (now : Time) : Health :=
  match l with
  | [] => h
  | t :: rest => h.take .shiftDrop 0 t.article (rest.length + 1) now

theorem Health.dropTakes_degraded (h : Health) (l : List Take) (now : Time) : h.Degraded (h.dropTakes l now) := by
  cases l with
  | nil => exact Health.Degraded.refl _
  | cons t rest => exact Health.take_shiftDrop _ _ _ _

theorem State.loseSending_eq (s : State) :
    s.loseSending = { s with hlu := s.hlu.dropTakes s.pru.sending s.now, pru := { s.pru with sending := [] } } := by
  unfold State.loseSending
  split
  · rename_i q
    have : s.pru = { s.pru with sending := [] } := by
      generalize s.pru = p at q
      cases p
      dsimp only at q
      subst q
      rfl
    rw [← this, q]
    rfl
  · rename_i q
    rw [q]
    rfl

theorem State.emptyBatch_eq (s : State) :
    s.emptyBatch = { s with
      hlu := s.hlu.dropTakes (s.pru.sending ++ s.pru.filling) s.now
      pru := { s.pru with sending := [], filling := [], ready := false, readyTimer := none } } := by
  unfold State.emptyBatch
  dsimp only
  split <;> rename_i q <;> rw [q] <;> rfl

/-- The health unit after the batch is emptied at the entry into ISOLATED (R44): one SHIFT_DROP for both sides, or one for
each where a queued SHIFT's drop notice comes first. -/
def State.isolatedHealth (s : State) (shiftStood : Bool) : Health :=
  if (shiftStood && !s.pru.sending.isEmpty && !s.pru.filling.isEmpty && Config.dropNoticeFirst s.freeCount) = true then
    (s.hlu.dropTakes s.pru.sending s.now).dropTakes s.pru.filling s.now
  else s.hlu.dropTakes (s.pru.sending ++ s.pru.filling) s.now

/-- The pairing unit at the entry into ISOLATED: both sides empty, whichever order the notice and the emptying take, with
SHIFT_DROP in the health unit alone (R44). -/
theorem State.isolateBatch_eq (s : State) (b : Bool) :
    s.isolateBatch b = { s with
        freeCount := s.freeCount + 1, hlu := s.isolatedHealth b
        pru := { s.pru with sending := [], filling := [], ready := false, readyTimer := none } }
      ∧ s.hlu.Degraded (s.isolatedHealth b) := by
  unfold State.isolateBatch State.isolatedHealth
  refine ⟨?_, ?_⟩
  · dsimp only
    rw [State.loseSending_eq, State.emptyBatch_eq, State.emptyBatch_eq]
    cases b && !s.pru.sending.isEmpty && !s.pru.filling.isEmpty <;> cases Config.dropNoticeFirst s.freeCount <;> rfl
  · split
    · exact (Health.dropTakes_degraded _ _ _).trans (Health.dropTakes_degraded _ _ _)
    · exact Health.dropTakes_degraded _ _ _

/-- The DROPPED notices of an emptied queue mark frames LOST and move nothing else; a record isolated next is what it would
have been without them. -/
theorem State.dropNotices_eq (s : State) (l : List Request) :
    ∃ g : Slot → Slot, s.dropNotices l = { s with slots := s.slots.map g }
      ∧ ∀ x, (g x).art = x.art ∧ (g x).alert.state = x.alert.state ∧ (g x).isolated = x.isolated := by
  unfold State.dropNotices
  have key : ∀ (l : List Request), (∀ r ∈ l, r ≠ .shift) → ∀ u : State,
      ∃ g : Slot → Slot, l.foldl State.noticeDropped u = { u with slots := u.slots.map g }
        ∧ ∀ x, (g x).art = x.art ∧ (g x).alert.state = x.alert.state ∧ (g x).isolated = x.isolated := by
    intro l
    induction l with
    | nil => intro _ u; exact ⟨id, by simp, fun _ => ⟨rfl, rfl, rfl⟩⟩
    | cons r rest ih =>
      intro hl u
      obtain ⟨g, e, hg⟩ := ih (fun q hq => hl q (List.mem_cons_of_mem _ hq)) (u.noticeDropped r)
      rw [List.foldl_cons]
      cases r with
      | shift => exact absurd rfl (hl .shift (List.mem_cons_self ..))
      | alertFrame k a =>
        refine ⟨g ∘ fun x => if x.art.number == a then { x with alert := x.alert.lost k } else x, ?_, ?_⟩
        · rw [e]
          show ({ u with slots := (u.slots.map _).map g } : State) = _
          rw [List.map_map]
        · intro x
          simp only [Function.comp]
          obtain ⟨h1, h2, h3⟩ := hg (if x.art.number == a then { x with alert := x.alert.lost k } else x)
          rw [h1, h2, h3]
          split
          · obtain ⟨o, ho, -⟩ := x.alert.lost_eq k
            refine ⟨rfl, by dsimp only; rw [ho], ?_⟩
            unfold Slot.isolated
            dsimp only
            rw [ho]
            rfl
          · exact ⟨rfl, rfl, rfl⟩
      | hello => exact ⟨g, e, hg⟩
      | tally v => exact ⟨g, e, hg⟩
      | query n => exact ⟨g, e, hg⟩
  refine key _ (fun r hr => ?_) s
  have := (List.mem_filter.1 hr).2
  simpa using this

/-- The station controller's fields at the entry into ISOLATED at time `t` (R149). -/
def Controller.isolated (d : Controller) (t : Time) : Controller :=
  { d with state := .isolated, joinTimer := none, helloDone := false, isolationTimer := some (t + seconds 10) }

/-- The state before the notices at the entry into ISOLATED: controller, event, queue, marks and timers. -/
def State.mute (s : State) : State :=
  { s with
    stc := s.stc.isolated s.now
    hlu := s.hlu.take .isolation 0 0 1 s.now
    bsc := { s.bsc with waiting := [], flight := none, deferral := none, abandonRun := 0 }
    tly := { s.tly with beaconTimer := none, deltaTimer := none }
    slots := (s.returnMarks (match s.bsc.flight with
      | some f => f.moved
      | none => [])).slots }

theorem Controller.Sound.isolated {d : Controller} (h : d.Sound) (hl : d.state = .joining ∨ d.state = .running)
    (t : Time) : (d.isolated t).Sound := by
  obtain ⟨a1, a2, a3, a4, a5⟩ := h
  have hs : d.state ≠ .strap ∧ d.state ≠ .halted ∧ d.state ≠ .loading := by
    rcases hl with q | q <;> rw [q] <;> simp
  have hh : d.halt = .noHalt := by by_contra q; exact hs.2.1 (a3.1 q)
  have hr : d.read = none := by
    cases q : d.read with
    | none => rfl
    | some x => exact absurd (a4.1 (by rw [q]; rfl)) hs.2.2
  refine ⟨fun q => (by cases q), ?_, ?_, ?_, fun _ _ => a5 hs.1 hs.2.1⟩
  · simp [Controller.isolated]
  · simp [Controller.isolated, hh]
  · simp [Controller.isolated, hr]

theorem State.Live.mute (h : s.Live c) (hs : s.speaking = true) : s.mute.Live (c.isolated s.now) := by
  have hc := h.stc
  have h1 := h.returnMarks (match s.bsc.flight with
    | some f => f.moved
    | none => [])
  obtain ⟨b1, b2, b3, b4, b5, b6⟩ := h.bsc
  have h2 : ({ s.mute with stc := s.stc } : State).Live c :=
    { h1 with
      hlu := Health.take_sound h.hlu _ _ _ _ _
      bsc := ⟨Nat.zero_le _, List.Pairwise.nil, fun e he => (by cases he), fun f hf => (by cases hf), Nat.zero_le _,
        fun q => (by cases q)⟩
      hush := fun _ => ⟨⟨rfl, rfl, rfl⟩, rfl, rfl⟩ }
  have hl : s.stc.state = .joining ∨ s.stc.state = .running := s.speaking_iff.1 hs
  have := h2.setStc (s.stc.isolated s.now) (h.ctl.isolated hl s.now) rfl rfl fun _ => ⟨⟨rfl, rfl, rfl⟩, rfl, rfl⟩
  rw [hc] at this
  have e : ({ s.mute with stc := c.isolated s.now } : State) = s.mute := by
    unfold State.mute; rw [← hc]
  exact e ▸ this

/-- An isolated record is sound. -/
theorem Slot.Sound.isolated {own : Nat} {bays : List Bay} {x : Slot} (h : x.Sound own) (k : x.ShareFits bays) :
    x.isolated.Sound own ∧ x.isolated.ShareFits bays := by
  obtain ⟨⟨a1, a2, a3, a4⟩, a5, a6, a7⟩ := h
  have f1 : (x.isolated.alert).OwnerFits own x.art.holders := Alert.quieted_fits (own := own) (hl := x.art.holders) x.alert x.alert.level
  have f2 : x.isolated.alert.TimersFit := Alert.quieted_timers (r := { x.alert with outstanding := none }) rfl x.alert.level
  rw [Slot.shareFits_iff] at k
  unfold Slot.isolated
  dsimp only
  split
  · refine ⟨⟨⟨a1, rfl, rfl, a4⟩, f1, f2, rfl⟩, ?_⟩
    rw [Slot.shareFits_iff]; exact k
  · rename_i q
    simp only [Bool.not_eq_true] at q
    refine ⟨⟨⟨a1, a2, a3, a4⟩, f1, f2, a7.trans q⟩, ?_⟩
    rw [Slot.shareFits_iff]; exact k

/-- The entry into ISOLATED from JOINING or RUNNING (R149, R44, R63, R88, R114): what each block is left with; and the
state is sound. -/
theorem State.Live.enterIsolated (h : s.Live c) (hs : s.speaking = true) :
    s.enterIsolated = { s.mute with
        slots := s.mute.slots.map Slot.isolated
        freeCount := s.freeCount + 1, hlu := s.mute.isolatedHealth (s.bsc.requests.contains .shift)
        pru := { s.pru with sending := [], filling := [], ready := false, readyTimer := none } }
      ∧ s.enterIsolated.Live (c.isolated s.now) := by
  have hm := h.mute hs
  obtain ⟨g, e1, hg⟩ := State.dropNotices_eq { s.mute with tly := s.tly } s.bsc.requests
  have tidy : ({ s.mute with tly := s.tly, slots := s.mute.slots.map g } : State).Tidy := by
    have ht := hm.tidy
    refine ⟨?_, ?_⟩
    · show ((s.mute.slots.map g).map fun sl => sl.art.number).Nodup
      rw [List.map_map]
      have : (s.mute.slots.map ((fun sl => sl.art.number) ∘ g)) = s.mute.slots.map fun sl => sl.art.number :=
        List.map_congr_left fun x _ => by simp only [Function.comp, (hg x).1]
      rw [this]
      exact ht.nodup
    · intro sl hsl
      obtain ⟨x, hx, rfl⟩ := List.mem_map.1 hsl
      rw [(hg x).1, ht.owning x hx, (hg x).2.1]
  have e2 := tidy.isolateAlerts_eq rfl
  obtain ⟨e3, k3⟩ := State.isolateBatch_eq { s.mute with
    tly := s.tly, slots := (s.mute.slots.map g).map Slot.isolated } (s.bsc.requests.contains .shift)
  have e4 : (s.mute.slots.map g).map Slot.isolated = s.mute.slots.map Slot.isolated := by
    rw [List.map_map]
    exact List.map_congr_left fun x _ => (hg x).2.2
  have e : s.enterIsolated = { s.mute with
      slots := s.mute.slots.map Slot.isolated
      freeCount := s.freeCount + 1, hlu := s.mute.isolatedHealth (s.bsc.requests.contains .shift)
      pru := { s.pru with sending := [], filling := [], ready := false, readyTimer := none } } := by
    have e0 : s.enterIsolated = { ((({ s.mute with tly := s.tly } : State).dropNotices s.bsc.requests).isolateAlerts).isolateBatch
        (s.bsc.requests.contains .shift) with
          tly := { (((({ s.mute with tly := s.tly } : State).dropNotices s.bsc.requests).isolateAlerts).isolateBatch
            (s.bsc.requests.contains .shift)).tly with beaconTimer := none, deltaTimer := none } } := rfl
    rw [e0, e1]
    rw [show ({ ({ s.mute with tly := s.tly } : State) with slots := ({ s.mute with tly := s.tly } : State).slots.map g } :
      State).isolateAlerts = _ from e2, e3, ← e4]
    rfl
  refine ⟨e, ?_⟩
  rw [e]
  have h1 : ({ s.mute with slots := s.mute.slots.map Slot.isolated } : State).Live (c.isolated s.now) := by
    refine hm.mapSlots _ ?_ ?_ ?_
    · intro y _; unfold Slot.isolated; dsimp only; split <;> rfl
    · intro y hy; exact (hm.slots y hy).1.isolated (hm.slots y hy).2
    · intro k y hy
      have : y.isolated.art.peers = y.art.peers := by unfold Slot.isolated; dsimp only; split <;> rfl
      rw [this]
      exact hm.first k y hy
  obtain ⟨p1, p2, p3, p4, p5, p6, p7, p8⟩ := h.pru
  exact { h1 with
    hlu := k3.sound hm.hlu
    pru := ⟨p1, p2, by simp, by simp, by simp, by simp, by simp, fun q => ⟨(p8 q).1, rfl, rfl⟩⟩ }

end Sys2Proof.Machine
end

