-- ==== Sys2Proof/Laws/Batch.lean ====
section
/-! SUPPORT. Soundness of the pairing unit's stores: the pending-take list (R37, R39) and the shift batch (R40 to R42). -/

namespace Sys2Proof.Machine

variable {c : Controller} {s : State}

/-! ### The pending-take list -/

/-- The pending-take list replaced by one that keeps its bounds. -/
theorem State.Live.setPending (h : s.Live c) (l : List PendingTake) (h1 : l.length ≤ 16) (h2 : ∀ t ∈ l, 1 ≤ t.units)
    (h3 : s.pru.enabled = false → l = []) : ({ s with pru := { s.pru with pendingTakes := l } } : State).Live c := by
  obtain ⟨-, -, a3, a4, a5, a6, a7, a8⟩ := h.pru
  exact h.setPru ⟨h1, h2, a3, a4, a5, a6, a7, fun k => ⟨h3 k, (a8 k).2⟩⟩

theorem State.Live.addPending (h : s.Live c) (p : PendingTake) (hp : 1 ≤ p.units) (he : s.pru.enabled = true) :
    (s.addPending p).Live c := by
  obtain ⟨a1, a2, -⟩ := h.pru
  have hne : s.pru.enabled = false → False := fun k => by rw [he] at k; cases k
  unfold State.addPending
  split
  · rename_i oldest rest e
    split
    · rename_i hl
      refine h.setPending _ (by simpa using hl) ?_ (fun k => (hne k).elim)
      intro t ht
      rcases List.mem_append.1 ht with q | q
      · exact a2 t q
      · rw [List.mem_singleton.1 q]; exact hp
    · refine (h.setPending _ ?_ ?_ (fun k => (hne k).elim)).raise _ _ _
      · rw [e] at a1; simpa using a1
      · intro t ht
        rcases List.mem_append.1 ht with q | q
        · exact a2 t (by rw [e]; exact List.mem_cons_of_mem _ q)
        · rw [List.mem_singleton.1 q]; exact hp
  · refine h.setPending _ (by simp) ?_ (fun k => (hne k).elim)
    intro t ht
    rw [List.mem_singleton.1 ht]; exact hp

theorem State.addPending_enabled (s : State) (p : PendingTake) : (s.addPending p).pru.enabled = s.pru.enabled := by
  unfold State.addPending; repeat' split
  all_goals rfl

theorem Goods.taken_units {g : Goods} (h : g.taken = true) : 1 ≤ g.units := by
  unfold Goods.taken at h
  simp only [Bool.and_eq_true, decide_eq_true_eq] at h
  omega

theorem State.Live.takeShift (h : s.Live c) (source : Nat) (records : List Goods) :
    (s.takeShift source records).Live c := by
  unfold State.takeShift
  split
  · rename_i he
    have key : ∀ (l : List Goods) (u : State), u.Live c → u.pru.enabled = true →
        (l.foldl (State.hearTake source) u).Live c := by
      intro l
      induction l with
      | nil => intro u hu _; exact hu
      | cons g rest ih =>
        intro u hu hb
        rw [List.foldl_cons]
        unfold State.hearTake
        split
        · rename_i k
          exact ih _ (hu.addPending _ (Goods.taken_units k) hb) ((State.addPending_enabled _ _).trans hb)
        · exact ih _ hu hb
    exact key _ _ h he
  · exact h

/-! ### The shift batch -/

/-- The filling side becomes ready, given that it holds records. -/
theorem State.Live.fillingReady
    (h : ({ s with pru := { s.pru with ready := true, readyTimer := none } } : State).Live c) :
    s.fillingReady.Live c := by
  unfold State.fillingReady
  dsimp only
  split
  · exact (h.setPru (Pairing.moveOver_sound h.pru rfl)).requestShift
  · split
    · exact (h.setPru (Pairing.moveOver_sound h.pru rfl)).raiseN _ _ _ _
    · exact h

/-- READY_TIMER (R40, R41). -/
theorem State.Live.readyExpires (h : s.Live c) (ht : s.pru.readyTimer.isSome) : s.fillingReady.Live c := by
  obtain ⟨a1, a2, a3, a4, a5, a6, a7, a8⟩ := h.pru
  exact State.Live.fillingReady (h.setPru ⟨a1, a2, a3, a4, fun k => (by cases k), fun _ => (a7 ht).1, fun k => (by cases k), a8⟩)

theorem State.Live.joinBatch (h : s.Live c) (t : Take) (he : s.pru.enabled = true) : (s.joinBatch t).Live c := by
  obtain ⟨a1, a2, a3, a4, a5, a6, a7, a8⟩ := h.pru
  have hne : s.pru.enabled = false → False := fun k => by rw [he] at k; cases k
  unfold State.joinBatch
  split
  case h_4 | h_5 | h_6 => exact h
  case h_3 => exact h.raise _ _ _
  all_goals
    split
    · rename_i e
      have hr : s.pru.ready = false := by
        cases q : s.pru.ready with
        | false => rfl
        | true => exact absurd e (a6 q)
      refine h.setPru ⟨a1, a2, by simp, a4, fun _ => by simp, fun k => ?_, fun _ => ⟨by simp, hr⟩, fun k => (hne k).elim⟩
      rw [show s.pru.ready = true from k] at hr; cases hr
    · rename_i x rest e
      split
      · exact h.raise _ _ _
      · rename_i hr
        simp only [Bool.not_eq_true] at hr
        have hl := a5 hr
        dsimp only
        split
        · refine State.Live.fillingReady (s := { s with pru := { s.pru with filling := s.pru.filling ++ [t] } })
            (h.setPru ⟨a1, a2, ?_, a4, fun k => (by cases k), fun _ => by simp, fun k => (by cases k),
              fun k => (hne k).elim⟩)
          simp only [List.length_append, List.length_singleton]; omega
        · rename_i h4
          simp only [List.length_append, List.length_singleton] at h4
          refine h.setPru ⟨a1, a2, ?_, a4, fun _ => ?_, fun k => ?_, fun _ => ⟨by simp, hr⟩, fun k => (hne k).elim⟩
          · simp only [List.length_append, List.length_singleton]; omega
          · simp only [List.length_append, List.length_singleton]; omega
          · rw [show s.pru.ready = true from k] at hr; cases hr

/-- An own take record (R33, R37, R40). -/
theorem State.Live.takeRecord (h : s.Live c) (t : Take) (ht : 1 ≤ t.units) : (s.takeRecord t).Live c := by
  unfold State.takeRecord
  split
  · rename_i he
    exact (h.addPending _ ht he).joinBatch t ((State.addPending_enabled _ _).trans he)
  · exact h

/-- The sending side's SHIFT has completed (R42). -/
theorem State.Live.shiftCompleted (h : s.Live c) : s.shiftCompleted.Live c := by
  obtain ⟨a1, a2, a3, a4, a5, a6, a7, a8⟩ := h.pru
  have h1 : ({ s with pru := { s.pru with sending := [] } } : State).Live c :=
    h.setPru ⟨a1, a2, a3, by simp, a5, a6, a7, fun k => ⟨(a8 k).1, (a8 k).2.1, rfl⟩⟩
  unfold State.shiftCompleted
  dsimp only
  split
  · rename_i hr
    exact (h1.setPru (Pairing.moveOver_sound h1.pru hr)).requestShift
  · exact h1

/-- PENDING_EXPIRY (R38). -/
theorem State.Live.dropPending (h : s.Live c) (i : Nat) :
    ({ s with pru := { s.pru with pendingTakes := s.pru.pendingTakes.eraseIdx i } } : State).Live c := by
  obtain ⟨a1, a2, -, -, -, -, -, a8⟩ := h.pru
  refine h.setPending _ ?_ (fun t ht => a2 t (List.mem_of_mem_eraseIdx ht)) (fun k => by rw [(a8 k).1]; rfl)
  exact Nat.le_trans (List.length_eraseIdx_le ..) a1

end Sys2Proof.Machine
end

