-- ==== Sys2Proof/Laws/Attempts.lean ====
section
/-! SUPPORT. Soundness of the attempts (R52 to R56), of the entry into HALTED and the resets, and of the receive path (R46
to R49) and the line monitor (R45). -/

namespace Sys2Proof.Machine

variable {c : Controller} {s : State}

theorem State.Live.sound (h : s.Live c) : s.Sound := ((State.live_iff c s).1 h).1

/-! ### An attempt in flight -/

theorem State.Live.flight_speaking (h : s.Live c) {f : Flight} (e : s.bsc.flight = some f) : s.speaking = true := by
  cases q : s.speaking with
  | true => rfl
  | false => have := (h.hush q).1.2.1; rw [e] at this; cases this

/-- A queue and flight replaced while an attempt is in progress, the line with them. -/
theorem State.Live.setFlight (h : s.Live c) {f : Flight} (e : s.bsc.flight = some f) {b : BusController}
    (h1 : b.entries.length ≤ 8) (h2 : (b.entries.map TxEntry.key).Nodup) (h3 : ∀ e ∈ b.entries, e.failed ≤ 7)
    (h4 : ∀ f ∈ b.flight, ∀ e ∈ f.followOn, f.entry.req.sameKey e.req = true) (h5 : b.abandonRun ≤ 2)
    (h6 : b.deferral = s.bsc.deferral) : ({ s with bsc := b } : State).Live c := by
  refine h.setBsc ((BusController.sound_iff b).2 ⟨h1, h2, h3, h4, h5, fun k => ?_⟩) fun k => ?_
  · obtain ⟨-, -, -, -, -, a6⟩ := h.bsc
    have := (a6 (by rw [← h6]; exact k)).2.1
    rw [e] at this; cases this
  · have := h.flight_speaking e
    rw [this] at k; cases k

/-- The entries when one is in flight. -/
theorem BusController.entries_flight {b : BusController} {f : Flight} (e : b.flight = some f) :
    b.entries = b.waiting ++ [f.entry] := by
  unfold BusController.entries; rw [e]; rfl

/-- The entry IN FLIGHT leaves, with at most one entry of its merge key in its place. -/
theorem State.Live.replaceFlight (h : s.Live c) {f : Flight} (e : s.bsc.flight = some f) (l : List TxEntry)
    (hl : l.length ≤ 1) (hk : ∀ x ∈ l, x.key = f.entry.key) (hf : ∀ x ∈ l, x.failed ≤ 7) :
    ({ s with bsc := { s.bsc with flight := none, waiting := s.bsc.waiting ++ l } } : State).Live c := by
  have hb := (BusController.sound_iff _).1 h.bsc
  rw [BusController.entries_flight e] at hb
  obtain ⟨a1, a2, a3, -, a5, -⟩ := hb
  have en : ({ s.bsc with flight := none, waiting := s.bsc.waiting ++ l } : BusController).entries
      = s.bsc.waiting ++ l := by unfold BusController.entries; simp
  have hs : s.bsc.entries.length ≤ 8 := ((BusController.sound_iff _).1 h.bsc).1
  have hd : ∀ x ∈ l, l = [x] := by
    intro x hx
    match l, hl, hx with
    | [y], _, hx => rw [List.mem_singleton.1 hx]
  refine h.setFlight e ?_ ?_ ?_ ?_ a5 rfl
  · rw [en]; simp only [List.length_append, List.length_singleton] at a1 ⊢; omega
  · rw [en]
    cases l with
    | nil => simp only [List.append_nil, List.map_append] at a2 ⊢; exact (List.nodup_append.1 a2).1
    | cons x rest =>
      obtain rfl : rest = [] := by simpa using hl
      simp only [List.map_append, List.map_cons, List.map_nil] at a2 ⊢
      rw [hk x (List.mem_cons_self ..)]; exact a2
  · rw [en]
    intro x hx
    rcases List.mem_append.1 hx with q | q
    · exact a3 x (List.mem_append_left _ q)
    · exact hf x q
  · intro g hg; cases hg

theorem Flight.follow_key {b : BusController} (hb : b.Sound) {f : Flight} (e : b.flight = some f) :
    ∀ x, f.followOn = some x → x.key = f.entry.key := by
  intro x hx
  obtain ⟨-, -, -, a4, -, -⟩ := hb
  exact ((Request.sameKey_iff _ _).1 (a4 f e x hx)).symm

theorem State.Live.leaveFlight (h : s.Live c) {f : Flight} (e : s.bsc.flight = some f) : (s.leaveFlight f).Live c := by
  unfold State.leaveFlight
  refine h.replaceFlight e _ ?_ ?_ ?_ <;> cases q : f.followOn with
    | none => simp
    | some x => first | (simp; done) | simpa [TxEntry.key] using Flight.follow_key h.bsc e x q

/-! ### Completion -/

theorem State.Live.helloCompleted (h : s.Live c) : s.helloCompleted.Sound := by
  unfold State.helloCompleted
  split
  · rename_i k
    obtain ⟨a1, a2, a3, a4, a5⟩ := h.ctl
    refine (h.setStc { s.stc with helloDone := true, joinTimer := some (s.now + ms 2000) }
      ⟨fun _ => ⟨k.1, rfl⟩, a2, a3, a4, a5⟩ rfl h.on fun q => h.hush q).sound
  · exact h.sound

theorem State.Live.noticeCompleted (h : s.Live c) (hs : s.speaking = true) (n : Completion) :
    (s.noticeCompleted n).Sound := by
  unfold State.noticeCompleted
  split
  · exact h.helloCompleted
  · exact (h.tallyCompleted hs).sound
  · exact h.shiftCompleted.sound
  · exact (h.alertCompleted _ _ _).sound
  · exact h.sound

theorem State.Live.completeAttempt (h : s.Live c) : s.completeAttempt.Sound := by
  unfold State.completeAttempt
  split
  · exact h.sound
  · rename_i f e
    dsimp only
    obtain ⟨a1, a2, a3, a4, a5, -⟩ := (BusController.sound_iff _).1 h.bsc
    have k1 : ∀ q : Seq, ({ s with bsc := { s.bsc with
        abandonRun := 0, busy := true, rx := { s.bsc.rx with own := true }, seq := q } } : State).Live c :=
      fun q => h.setFlight e a1 a2 a3 a4 (Nat.zero_le _) rfl
    have hsp := h.flight_speaking e
    have key : ∀ u : State, u.Live c → u.bsc.flight = some f → u.speaking = true →
        ((u.leaveFlight f).noticeCompleted f.completion).Sound :=
      fun u hu eu su => (hu.leaveFlight eu).noticeCompleted su _
    split
    · refine key _ ?_ e hsp
      obtain ⟨b1, b2, -, -⟩ := h.hlu
      exact (k1 (s.bsc.seq + 1)).setHlu ⟨b1, b2, fun c hc => (by cases hc), fun c hc => (by cases hc)⟩
    · exact key _ (k1 (s.bsc.seq + 1)) e hsp
    all_goals exact key _ (k1 s.bsc.seq) e hsp

/-! ### Collision and abandonment -/

theorem State.Live.helloAbandoned (h : s.Live c) : s.helloAbandoned.Live c := by
  unfold State.helloAbandoned
  split
  · exact h.request _
  · exact h

theorem State.Live.noticeAbandoned (h : s.Live c) (r : Request) (held : Bool) : (s.noticeAbandoned r held).Live c := by
  cases r with
  | hello => exact h.helloAbandoned
  | shift => exact h.shiftLost
  | alertFrame k a => exact h.alertAbandoned k a held
  | tally v => exact h
  | query n => exact h

theorem State.noticeAbandoned_steady (s : State) (r : Request) (held : Bool) : s.Steady (s.noticeAbandoned r held) := by
  cases r with
  | hello =>
    show s.Steady s.helloAbandoned
    unfold State.helloAbandoned
    split
    · exact s.request_steady _
    · exact State.Steady.refl s
  | shift => exact s.shiftLost_sent.steady
  | alertFrame k a => exact s.alertAbandoned_steady k a held
  | tally v => exact State.Steady.refl s
  | query n => exact State.Steady.refl s

/-- The entry into ISOLATED overrides the abandon run (R56). -/
theorem State.enterIsolated_run (s : State) (n : Nat) :
    ({ s with bsc := { s.bsc with abandonRun := n } } : State).enterIsolated = s.enterIsolated := rfl

theorem State.Live.countAbandon (h : s.Live c) (hs : s.speaking = true) :
    s.countAbandon.Live c ∨ s.countAbandon.Live (c.isolated s.now) := by
  unfold State.countAbandon
  dsimp only
  split
  · rw [State.enterIsolated_run]
    exact Or.inr (h.enterIsolated hs).2
  · rename_i k
    obtain ⟨a1, a2, a3, a4, a5, a6⟩ := h.bsc
    refine Or.inl (h.setBsc ⟨a1, a2, a3, a4, ?_, a6⟩ fun q => by rw [hs] at q; cases q)
    show min 3 (s.bsc.abandonRun + 1) ≤ 2
    have : min 3 (s.bsc.abandonRun + 1) ≠ 3 := k
    omega

theorem State.Live.abandon (h : s.Live c) {f : Flight} (e : s.bsc.flight = some f) : (s.abandon f).Sound := by
  have hsp := h.flight_speaking e
  unfold State.abandon
  dsimp only
  generalize hu : s.raise .txAbandon f.entry.req.subject f.entry.req.article = u
  have h0 : u.Live c := by rw [← hu]; exact h.raise _ _ _
  have e0 : u.bsc.flight = some f := by rw [← hu]; exact e
  have s0 : u.speaking = true := by rw [← hu]; exact hsp
  have h1 := (h0.leaveFlight e0).noticeAbandoned f.entry.req f.followOn.isSome
  have s1 : ((u.leaveFlight f).noticeAbandoned f.entry.req f.followOn.isSome).speaking = true :=
    (State.noticeAbandoned_steady _ _ _).speaking.trans s0
  rcases h1.countAbandon s1 with k | k
  · exact k.beginDeferral.sound
  · exact k.beginDeferral.sound

theorem State.Live.collide (h : s.Live c) : s.collide.Sound := by
  unfold State.collide
  split
  · exact h.sound
  · rename_i f e
    dsimp only
    have h1 := (h.raise .txCollision 0 0).returnMarks f.moved
    have e1 : ((s.raise .txCollision 0 0).returnMarks f.moved).bsc.flight = some f := e
    generalize (s.raise .txCollision 0 0).returnMarks f.moved = u at h1 e1
    split
    · rename_i hlt
      refine (h1.replaceFlight e1 [_] (by simp) ?_ ?_).beginDeferral.sound
      · intro x hx
        rw [List.mem_singleton.1 hx]
        split
        · rename_i y hy
          rw [TxEntry.merge_key]
          · rfl
          · exact (Request.sameKey_iff _ _).2 (Flight.follow_key h1.bsc e1 y hy).symm
        · rfl
      · intro x hx
        rw [List.mem_singleton.1 hx]
        split
        · refine Nat.le_trans (TxEntry.merge_failed_le _ _) ?_
          dsimp only; omega
        · dsimp only; omega
    · exact h1.abandon e1

/-! ### The start of an attempt -/

theorem State.Live.startAttempt (h : s.Live c) (hs : s.speaking = true) (hf : s.bsc.flight = none) :
    s.startAttempt.Live c := by
  unfold State.startAttempt
  split
  · exact h
  · rename_i x hx
    have hm := headOf_mem hx
    have key : ∀ m : List Nat, ∀ fr : List Byte, ({ s with bsc := { s.bsc with
        waiting := s.bsc.waiting.erase x
        flight := some { entry := x, frame := fr, moved := m, followOn := none }, deferral := none } } : State).Live c := by
      intro m fr
      obtain ⟨a1, a2, a3, -, a5, -⟩ := (BusController.sound_iff _).1 h.bsc
      have p : ({ s.bsc with
          waiting := s.bsc.waiting.erase x
          flight := some { entry := x, frame := fr, moved := m, followOn := none }, deferral := none } :
          BusController).entries.Perm s.bsc.entries := by
        have e1 : s.bsc.entries = s.bsc.waiting := by unfold BusController.entries; rw [hf]; simp
        rw [e1, BusController.entries_flight rfl]
        exact (List.perm_append_comm).trans (List.perm_cons_erase hm).symm
      refine h.setBsc ((BusController.sound_iff _).2 ⟨?_, ?_, ?_, ?_, a5, fun k => (by cases k)⟩)
        fun q => by rw [hs] at q; cases q
      · rw [p.length_eq]; exact a1
      · rw [(p.map _).nodup_iff]; exact a2
      · intro y hy; exact a3 y (p.mem_iff.1 hy)
      · intro g hg y hy
        simp only [Option.mem_def, Option.some.injEq] at hg
        subst hg
        cases hy
    dsimp only
    split
    · exact (key _ _).clearMarks
    all_goals exact (key _ _).setFree _

theorem State.Live.endDeferral (h : s.Live c) : s.endDeferral.Live c := by
  unfold State.endDeferral
  split
  · split
    · rename_i k
      exact h.startAttempt k.2.2.1 k.2.2.2
    · exact h
  · exact h

/-! ### HALTED and the resets -/

theorem Bay.Sound.stopTimer {w : Nat → Nat} {b : Bay} (h : b.Sound w) : ({ b with settleTimer := none } : Bay).Sound w := by
  obtain ⟨a1, a2, a3, a4, a5, a6, a7, -, a9⟩ := h
  exact ⟨a1, a2, a3, a4, a5, a6, a7, fun k => (by cases k), a9⟩

theorem State.unitWeight_slots (s : State) (f : Alert → Alert) (b : List Bay) :
    ({ s with bays := b, slots := s.slots.map fun sl => { sl with alert := f sl.alert } } : State).unitWeight
      = s.unitWeight :=
  State.unitWeight_map s _ (fun sl => { sl with alert := f sl.alert }) rfl fun _ _ => rfl

theorem fromBays_stopTimers (o : OwnContribution) (bays : List Bay) (a : Nat) :
    o.fromBays (bays.map fun b => { b with settleTimer := none }) a = o.fromBays bays a := by
  have e : baysOf (bays.map fun b => { b with settleTimer := none }) a
      = (baysOf bays a).map fun b => { b with settleTimer := none } := by
    unfold baysOf
    rw [List.filter_map]
    rfl
  unfold OwnContribution.fromBays ownUnits ownFault ownUnsteady ownStray
  rw [e]
  simp only [List.map_map, List.any_map]
  rfl

/-- The entry into HALTED from a sound state in which no reset is held: sound, whatever the station state was (R137). -/
theorem State.Sound.enterHalted (h : s.Sound) (hh : s.held = none) {cause : HaltCause} (hc : cause ≠ .noHalt) :
    (s.enterHalted cause).Sound := by
  obtain ⟨h1, h2, h3, h4, h5, h6, h7, h8, h9, h10, h11, h12, h13, h14, h15⟩ := h
  refine ⟨h1, ?_, ?_, h4, ?_, ?_, ?_, ?_, ?_, ?_, fun _ => ⟨⟨rfl, rfl, rfl⟩, rfl, rfl⟩,
    fun _ k => absurd rfl k, fun _ => ⟨?_, rfl, ?_, ?_⟩, fun k => ?_, ?_⟩
  · simpa [State.enterHalted] using h2
  · simpa [State.enterHalted] using h3
  · obtain ⟨-, -, -, -, a5, -⟩ := h5
    exact ⟨Nat.zero_le _, List.Pairwise.nil, fun e he => (by cases he), fun f hf => (by cases hf), a5,
      fun k => (by cases k)⟩
  · obtain ⟨a1, a2, a3, a4, a5, a6, -, a8⟩ := h6
    exact ⟨a1, a2, a3, a4, a5, a6, fun k => (by cases k), a8⟩
  · refine ⟨fun k => (by cases k), ?_, ?_, ?_, fun _ k => absurd rfl k⟩
    · simp [State.enterHalted]
    · simp [State.enterHalted, hc]
    · simp [State.enterHalted]
  · intro b hb
    obtain ⟨x, hx, rfl⟩ := List.mem_map.1 hb
    have e : (s.enterHalted cause).unitWeight = s.unitWeight :=
      State.unitWeight_slots s (fun r => { r with
        claimHold := none, repeatTimer := none, escalationTimer := none, takeover := none }) s.bays
    rw [e]
    exact (h8 x hx).stopTimer
  · unfold State.enterHalted
    dsimp only
    rw [List.map_map]
    exact h9
  · intro sl hsl
    obtain ⟨x, hx, rfl⟩ := List.mem_map.1 hsl
    obtain ⟨⟨k1, k2, ⟨-, -, -, -, t5⟩, k4⟩, k5⟩ := h10 x hx
    refine ⟨⟨k1, k2, ⟨?_, ?_, ?_, ?_, t5⟩, k4⟩, ?_⟩
    iterate 4 · intro k; cases k
    unfold Slot.ShareFits at k5 ⊢
    exact (fromBays_stopTimers _ _ _).trans k5
  · intro b hb
    obtain ⟨x, hx, rfl⟩ := List.mem_map.1 hb; rfl
  · intro p hp
    obtain ⟨x, hx, rfl⟩ := List.mem_map.1 hp; rfl
  · intro sl hsl
    obtain ⟨x, hx, rfl⟩ := List.mem_map.1 hsl
    exact ⟨rfl, rfl, rfl, rfl⟩
  · rw [show (s.enterHalted cause).held = none from hh] at k; cases k
  · intro k sl hsl
    obtain ⟨x, hx, rfl⟩ := List.mem_map.1 hsl
    exact h15 k x hx

theorem State.afterReset_sound (s : State) (cause : ResetKind) (lastHalt : HaltCause) (held : Option HeldReset) :
    (s.afterReset cause lastHalt held).Sound := by
  refine ⟨rfl, rfl, rfl, ⟨rfl, ?_, fun c hc => (by cases hc), fun c hc => (by cases hc)⟩,
    ⟨Nat.zero_le _, List.Pairwise.nil, fun e he => (by cases he), fun f hf => (by cases hf), Nat.zero_le _,
      fun k => (by cases k)⟩,
    ⟨Nat.zero_le _, fun t ht => (by cases ht), Nat.zero_le _, Nat.zero_le _, fun _ => Nat.zero_lt_succ _, fun k => (by cases k),
      fun k => (by cases k), fun _ => ⟨rfl, rfl, rfl⟩⟩,
    ⟨fun k => (by cases k), by simp [State.afterReset, Controller.reset], by simp [State.afterReset, Controller.reset],
      by simp [State.afterReset, Controller.reset], fun k => absurd rfl k⟩,
    ?_, List.Pairwise.nil, fun sl hsl => (by cases hsl), fun _ => ⟨⟨rfl, rfl, rfl⟩, rfl, rfl⟩,
    fun _ _ => ⟨rfl, rfl, rfl, rfl, rfl, rfl, rfl, rfl, rfl, rfl⟩, fun k => (by cases k), fun _ => rfl,
    fun k => (by cases k)⟩
  · intro v hv
    rw [List.eq_of_mem_replicate hv]; exact Nat.zero_le _
  · intro b hb
    rw [List.eq_of_mem_replicate hb]
    exact ⟨Nat.zero_le _, Nat.zero_le _, Nat.zero_le _, by decide, fun _ => ⟨rfl, rfl⟩, fun k => (by cases k),
      fun k => (by cases k), fun k => (by cases k), rfl⟩

theorem State.Sound.takeRestart (h : s.Sound) (dst : Nat) : (s.takeRestart dst).Sound := by
  unfold State.takeRestart
  split
  · exact s.afterReset_sound _ _ _
  · exact h

/-! ### The receive path -/

theorem State.Live.dispatch (h : s.Live c) (only : Option Kind) (f : Frame) (hn : f.src ≠ s.ownNumber) :
    (s.dispatch only f).Sound := by
  unfold State.dispatch
  split
  · split
    · exact (h.takeTally _ _ _ _ hn).sound
    · exact (h.takeShift _ _).sound
    · exact (h.takeReport _ _ hn).sound
    · exact (h.takeReport _ _ hn).sound
    · exact (h.takeClear _ _ _).sound
    · exact (h.takeAccept _ _ _).sound
    · exact (h.takeHello _ _).sound
    · exact (h.takeQuery _).sound
    · exact h.sound.takeRestart _
  · exact h.sound

/-- A sound state in JOINING, RUNNING or ISOLATED is live. -/
theorem State.Sound.live (h : s.Sound) (hl : s.listening = true) : s.Live s.stc := (State.live_iff _ _).2 ⟨h, rfl, hl⟩

theorem State.Sound.receiveFrame (h : s.Sound) (hh : s.held = none) (only : Option Kind) (r : Receiver) (own : Bool) :
    (s.receiveFrame only r own).Sound := by
  unfold State.receiveFrame
  split
  · exact h
  · unfold State.filterFrame
    split
    · exact h
    · exact h
    · split
      · exact h
      · split
        · rename_i f _ k
          unfold State.dispatch
          rw [k.2]
          split
          · exact h.takeRestart _
          · exact h
        · exact h
    all_goals
      rename_i hs
      have hl := h.live (by unfold State.listening; rw [hs])
      split
      · exact (hl.raise _ _ _).sound
      · split
        · exact h
        · split
          · exact h.enterHalted hh (by simp)
          · rename_i hn
            exact hl.dispatch only _ hn

/-! ### The line monitor -/

theorem State.Sound.beginDeferral (h : s.Sound) : s.beginDeferral.Sound := by
  cases hl : s.listening with
  | true => exact (h.live hl).beginDeferral.sound
  | false =>
    have hs : s.speaking = false := by
      unfold State.listening at hl
      unfold State.speaking
      split at hl <;> rename_i q <;> rw [q] <;> first | rfl | cases hl
    unfold State.beginDeferral
    split
    · rw [hs]; exact h
    · exact h

/-- The line of a sound state changed, a deferral in progress ended. -/
theorem State.Sound.setLine (h : s.Sound) (busy : Bool) (rx : Receiver) :
    ({ s with bsc := { s.bsc with busy := busy, deferral := none, rx := rx } } : State).Sound := by
  obtain ⟨h1, h2, h3, h4, ⟨a1, a2, a3, a4, a5, a6⟩, h6, h7, h8, h9, h10, h11, h12, h13, h14, h15⟩ := h
  refine ⟨h1, h2, h3, h4, ⟨a1, a2, a3, a4, a5, fun k => (by cases k)⟩, h6, h7, h8, h9, h10, ?_, ?_, h13, h14, h15⟩
  · intro k
    obtain ⟨⟨b1, b2, -⟩, b4⟩ := h11 k
    exact ⟨⟨b1, b2, rfl⟩, b4⟩
  · intro k q
    obtain ⟨c1, c2, c3, c4, c5, c6, c7, c8, c9, -⟩ := h12 k q
    exact ⟨c1, c2, c3, c4, c5, c6, c7, c8, c9, rfl⟩

theorem State.Sound.lineBusy (h : s.Sound) (heard : List Character) : (s.lineBusy heard).Sound := h.setLine _ _

theorem State.Sound.lineIdle (h : s.Sound) (hh : s.held = none) : s.lineIdle.Sound := by
  unfold State.lineIdle
  split
  · rename_i hb
    dsimp only
    have hd : s.bsc.deferral = none := by
      obtain ⟨-, -, -, -, ⟨-, -, -, -, -, a6⟩, -⟩ := h
      cases q : s.bsc.deferral with
      | none => rfl
      | some d => have := (a6 (by rw [q]; rfl)).1; rw [hb] at this; cases this
    have h1 : ({ s with bsc := { s.bsc with busy := false, rx := Receiver.reset } } : State).Sound := by
      have := h.setLine false Receiver.reset
      rw [← hd] at this
      exact this
    refine State.Sound.beginDeferral ?_
    split
    · exact h1
    · exact h1.receiveFrame hh _ _ _
  · exact h

end Sys2Proof.Machine
end

