-- ==== Sys2Proof/Laws/Weighing.lean ====
section
/-! SUPPORT. Soundness of the weighing path: samples, settles and settle timeouts (R3 to R35), each with the notice that
follows it (R24). -/

namespace Sys2Proof.Machine

variable {c : Controller} {s : State}

/-! ### Bay records replaced -/

/-- The state with other bay records. -/
def State.withBays (s : State) (l : List Bay) : State := { s with bays := l }

theorem State.modBay_withBays (s : State) (l : List Bay) (n : Nat) (f : Bay → Bay) :
    (s.withBays l).modBay n f = s.withBays (mod1 l n f) := rfl

theorem State.withBays_self (s : State) : s.withBays s.bays = s := rfl

/-- Bay records and records replaced at once, each sound and with its share. -/
theorem State.Live.setBays (h : s.Live c) (l : List Bay) (hl : l.length = 16) (hs : ∀ b ∈ l, b.Sound s.unitWeight)
    (g : Slot → Slot) (hg : ∀ sl ∈ s.slots, (g sl).art.config = sl.art.config)
    (hk : ∀ sl ∈ s.slots, (g sl).Sound s.ownNumber ∧ (g sl).ShareFits l)
    (hp : ∀ sl ∈ s.slots, (g sl).art.peers = sl.art.peers) :
    ({ s with bays := l, slots := s.slots.map g } : State).Live c where
  stc := h.stc
  on := h.on
  held := h.held
  channels16 := h.channels16
  bays16 := hl
  peers30 := h.peers30
  hlu := h.hlu
  bsc := h.bsc
  pru := h.pru
  ctl := h.ctl
  bays := by
    have e := State.unitWeight_map s { s with bays := l, slots := s.slots.map g } g rfl hg
    intro b hb
    rw [e]
    exact hs b hb
  nodup := by
    have e : ((s.slots.map g).map fun sl => sl.art.number) = s.slots.map fun sl => sl.art.number := by
      rw [List.map_map]
      apply List.map_congr_left
      intro sl hsl
      have := hg sl hsl
      simp only [Article.config, ArticleConfig.mk.injEq] at this
      exact this.1
    show ((s.slots.map g).map fun sl => sl.art.number).Nodup
    rw [e]
    exact h.nodup
  slots := by
    intro sl hsl
    obtain ⟨x, hx, rfl⟩ := List.mem_map.1 hsl
    exact hk x hx
  hush := h.hush
  first := by
    intro k sl hsl
    obtain ⟨x, hx, rfl⟩ := List.mem_map.1 hsl
    rw [hp x hx]
    exact h.first k x hx

/-! ### Shares under a change of one bay -/

theorem sum_filter_modify (p : Bay → Bool) (v : Bay → Nat) {l : List Bay} {k : Nat} {b b' : Bay} (e : l[k]? = some b)
    (hp : p b' = p b) (hv : p b = true → v b' = v b) :
    (((l.modify k fun _ => b').filter p).map v).sum = ((l.filter p).map v).sum := by
  induction l generalizing k with
  | nil => simp
  | cons x rest ih =>
    cases k with
    | zero =>
      obtain rfl : x = b := by simpa using e
      simp only [List.modify_zero_cons, List.filter_cons, hp]
      split
      · rename_i q; simp [hv q]
      · rfl
    | succ j =>
      simp only [List.modify_succ_cons, List.filter_cons]
      have := ih (k := j) (by simpa using e)
      split
      · simp [this]
      · exact this

theorem any_filter_modify (p q : Bay → Bool) {l : List Bay} {k : Nat} {b b' : Bay} (e : l[k]? = some b)
    (hp : p b' = p b) (hv : p b = true → q b' = q b) :
    ((l.modify k fun _ => b').filter p).any q = (l.filter p).any q := by
  induction l generalizing k with
  | nil => simp
  | cons x rest ih =>
    cases k with
    | zero =>
      obtain rfl : x = b := by simpa using e
      simp only [List.modify_zero_cons, List.filter_cons, hp]
      split
      · rename_i r; simp [hv r]
      · rfl
    | succ j =>
      simp only [List.modify_succ_cons, List.filter_cons]
      have := ih (k := j) (by simpa using e)
      split
      · simp [this]
      · exact this

/-- A bay's change moves the share of its own article alone, and that one only where a notice is due (R24, R70). -/
theorem fromBays_mod1 {l : List Bay} {n : Nat} {b b' : Bay} (e : nth1 l n = some b) (hc : b'.cfg = b.cfg) (a : Nat)
    (h : b.cfg.article = a → noticeDue b b' = false) (o : OwnContribution) :
    o.fromBays (mod1 l n fun _ => b') a = o.fromBays l a := by
  cases n with
  | zero => rfl
  | succ k =>
    have e' : l[k]? = some b := e
    have hp : (b'.cfg.article == a) = (b.cfg.article == a) := by rw [hc]
    have hd : (b.cfg.article == a) = true → b'.units = b.units ∧ b'.state.inFaultGroup = b.state.inFaultGroup
        ∧ (b'.state == .unsteady) = (b.state == .unsteady) ∧ b'.strays.isEmpty = b.strays.isEmpty := by
      intro q
      have := h (by simpa using q)
      unfold noticeDue at this
      simp only [Bool.or_eq_false_iff, bne_eq_false_iff_eq] at this
      obtain ⟨⟨⟨h1, h2⟩, h3⟩, h4⟩ := this
      exact ⟨h1.symm, h2.symm, h3.symm, h4.symm⟩
    unfold OwnContribution.fromBays ownUnits ownFault ownUnsteady ownStray baysOf
    simp only [mod1]
    rw [sum_filter_modify (fun b => b.cfg.article == a) Bay.units e' hp fun q => (hd q).1,
      any_filter_modify (fun b => b.cfg.article == a) (fun b => b.state.inFaultGroup) e' hp fun q => (hd q).2.1,
      any_filter_modify (fun b => b.cfg.article == a) (fun b => b.state == .unsteady) e' hp fun q => (hd q).2.2.1,
      any_filter_modify (fun b => b.cfg.article == a) (fun b => !b.strays.isEmpty) e' hp fun q => by
        rw [(hd q).2.2.2]]

/-! ### The notice of a bay (R24) -/

theorem mod1_mem {α : Type} {l : List α} {n : Nat} {b' x : α} (h : x ∈ mod1 l n fun _ => b') : x ∈ l ∨ x = b' := by
  cases n with
  | zero => exact Or.inl h
  | succ k =>
    simp only [mod1] at h
    obtain ⟨i, hi, rfl⟩ := List.mem_iff_getElem.1 h
    rw [List.getElem_modify]
    split
    · exact Or.inr rfl
    · exact Or.inl (List.getElem_mem _)

/-- After a sound change of a bay, the notice leaves the state sound. -/
theorem State.Live.noticeBay (h : s.Live c) {n : Nat} {b b' : Bay} (e : s.bay? n = some b) (hc : b'.cfg = b.cfg)
    (hs : b'.Sound s.unitWeight) : ((s.withBays (mod1 s.bays n fun _ => b')).noticeBay n b).Live c := by
  have len : (mod1 s.bays n fun _ => b').length = 16 := by rw [mod1_length]; exact h.bays16
  have snd : ∀ x ∈ (mod1 s.bays n fun _ => b'), x.Sound s.unitWeight := by
    intro x hx
    rcases mod1_mem hx with q | q
    · exact h.bays x q
    · rw [q]; exact hs
  have e' : (s.withBays (mod1 s.bays n fun _ => b')).bay? n = some b' := by
    unfold State.bay? State.withBays
    exact mod1_get e _
  -- the shares of the other articles stand
  have other : ∀ sl ∈ s.slots, (b.cfg.article = sl.art.number → noticeDue b b' = false) →
      sl.Sound s.ownNumber ∧ sl.ShareFits (mod1 s.bays n fun _ => b') := by
    intro sl hsl q
    obtain ⟨k1, k2⟩ := h.slots sl hsl
    refine ⟨k1, ?_⟩
    unfold Slot.ShareFits at k2 ⊢
    rw [fromBays_mod1 e hc _ q, k2]
  have idm : (s.slots.map fun x => x) = s.slots := List.map_id' _
  unfold State.noticeBay
  rw [e']
  dsimp only
  split
  · have live : ((s.withBays (mod1 s.bays n fun _ => b')).ownUpdate b.cfg.article fun o =>
        o.fromBays (s.withBays (mod1 s.bays n fun _ => b')).bays b.cfg.article).Live c := by
      unfold State.ownUpdate
      cases hsl : (s.withBays (mod1 s.bays n fun _ => b')).slot? b.cfg.article with
      | none =>
        dsimp only
        have := h.setBays _ len snd (fun x => x) (fun _ _ => rfl) (fun x hx => other x hx fun q => by
          exfalso
          have hn : s.slot? b.cfg.article = none := hsl
          unfold State.slot? at hn
          rw [List.find?_eq_none] at hn
          exact hn x hx (by simp [q])) (fun _ _ => rfl)
        rw [idm] at this
        exact this
      | some sl =>
        dsimp only
        have hsl' : s.slot? b.cfg.article = some sl := hsl
        have hnum := (State.slot?_some hsl').2
        split
        · rename_i q
          have := h.setBays _ len snd (fun x => x) (fun _ _ => rfl) (fun x hx => by
            by_cases hx' : x.art.number = b.cfg.article
            · have hxs := h.slot_unique hsl' hx hx'
              subst hxs
              refine ⟨(h.slots x hx).1, ?_⟩
              unfold Slot.ShareFits
              rw [hnum]
              exact q
            · exact other x hx fun k => absurd k.symm hx') (fun _ _ => rfl)
          rw [idm] at this
          exact this
        · refine State.Live.startDelta ?_
          refine h.setBays _ len snd (fun x => if x.art.number == b.cfg.article then { x with
            art := Article.recount { x.art with
              own := x.art.own.fromBays (mod1 s.bays n fun _ => b') b.cfg.article, changed := true } } else x) ?_ ?_ ?_
          · intro x _; dsimp only; split <;> rfl
          · intro x hx
            dsimp only
            split
            · rename_i k
              obtain ⟨⟨⟨a1, a2, a3, a4⟩, k2, k3, k4⟩, k5⟩ := h.slots x hx
              refine ⟨⟨⟨a1, rfl, rfl, a4⟩, k2, k3, k4⟩, ?_⟩
              rw [Slot.shareFits_iff]
              have : x.art.number = b.cfg.article := by simpa using k
              simp only [Article.recount, OwnContribution.fromBays]
              rw [this]
              exact ⟨rfl, rfl, rfl, rfl⟩
            · rename_i k
              exact other x hx fun q => absurd (by simp [q]) k
          · intro x _; dsimp only; split <;> rfl
    unfold State.settleNotice
    dsimp only
    split
    · split
      · exact live
      · exact live.articleNotice _ _
    · exact live
  · rename_i hd
    simp only [Bool.not_eq_true] at hd
    have := h.setBays _ len snd (fun x => x) (fun _ _ => rfl) (fun x hx => other x hx fun _ => hd) (fun _ _ => rfl)
    rw [idm] at this
    exact this

/-! ### Operations that read no bay record -/

theorem State.addPending_withBays (s : State) (l : List Bay) (p : PendingTake) :
    (s.withBays l).addPending p = (s.addPending p).withBays l := by
  unfold State.addPending
  rw [show (s.withBays l).pru = s.pru from rfl]
  split
  · split <;> rfl
  · rfl

theorem State.beginDeferral_withBays (s : State) (l : List Bay) :
    (s.withBays l).beginDeferral = s.beginDeferral.withBays l := by
  unfold State.beginDeferral
  rw [show (s.withBays l).bsc = s.bsc from rfl, show (s.withBays l).speaking = s.speaking from rfl]
  split
  · split <;> rfl
  · rfl

theorem State.shortenDeferral_withBays (s : State) (l : List Bay) (before : Option TxEntry) :
    (s.withBays l).shortenDeferral before = (s.shortenDeferral before).withBays l := by
  unfold State.shortenDeferral
  rw [show (s.withBays l).bsc = s.bsc from rfl, show (s.withBays l).ownNumber = s.ownNumber from rfl,
    show (s.withBays l).now = s.now from rfl]
  split
  · dsimp only
    split <;> rfl
  · rfl

theorem State.enqueue_withBays (s : State) (l : List Bay) (r : Request) :
    (s.withBays l).enqueue r = ((s.enqueue r).1.withBays l, (s.enqueue r).2) := by
  unfold State.enqueue
  rw [show (s.withBays l).bsc = s.bsc from rfl, show (s.withBays l).speaking = s.speaking from rfl,
    show (s.withBays l).now = s.now from rfl]
  split
  · dsimp only
    rw [← State.shortenDeferral_withBays, ← State.beginDeferral_withBays]
    cases (s.bsc.enter r s.now).2 <;> rfl
  · rfl

theorem State.loseSending_withBays (s : State) (l : List Bay) : (s.withBays l).loseSending = s.loseSending.withBays l := by
  unfold State.loseSending
  rw [show (s.withBays l).pru = s.pru from rfl]
  split <;> rfl

theorem State.requestShift_withBays (s : State) (l : List Bay) :
    (s.withBays l).requestShift = s.requestShift.withBays l := by
  unfold State.requestShift
  rw [State.enqueue_withBays]
  rcases s.enqueue .shift with ⟨u, _ | r⟩
  · rfl
  · cases r <;> try rfl
    exact u.loseSending_withBays l

theorem State.fillingReady_withBays (s : State) (l : List Bay) :
    (s.withBays l).fillingReady = s.fillingReady.withBays l := by
  unfold State.fillingReady
  dsimp only
  rw [show (s.withBays l).pru = s.pru from rfl]
  split
  · exact State.requestShift_withBays
      { s with pru := ({ s.pru with ready := true, readyTimer := none } : Pairing).moveOver } l
  · show (if (s.shiftQueued && s.pru.mode == .latest) = true then _ else _)
      = State.withBays (if (s.shiftQueued && s.pru.mode == .latest) = true then _ else _) l
    split <;> rfl

theorem State.joinBatch_withBays (s : State) (l : List Bay) (t : Take) :
    (s.withBays l).joinBatch t = (s.joinBatch t).withBays l := by
  unfold State.joinBatch
  rw [show (s.withBays l).pru = s.pru from rfl, show (s.withBays l).stc = s.stc from rfl]
  split <;> try rfl
  all_goals
    split
    · rfl
    · split
      · rfl
      · dsimp only
        split
        · exact State.fillingReady_withBays { s with pru := { s.pru with filling := s.pru.filling ++ [t] } } l
        · rfl

theorem State.takeRecord_withBays (s : State) (l : List Bay) (t : Take) :
    (s.withBays l).takeRecord t = (s.takeRecord t).withBays l := by
  unfold State.takeRecord
  rw [State.addPending_withBays, State.joinBatch_withBays, show (s.withBays l).pru = s.pru from rfl]
  split <;> rfl

/-- `t` has the bay and article records of `s`. -/
def State.SameTables (s t : State) : Prop := t.bays = s.bays ∧ t.slots = s.slots

theorem State.SameTables.trans {s t u : State} (h : s.SameTables t) (k : t.SameTables u) : s.SameTables u :=
  ⟨k.1.trans h.1, k.2.trans h.2⟩

theorem State.addPending_tables (s : State) (p : PendingTake) : s.SameTables (s.addPending p) := by
  unfold State.addPending; repeat' split
  all_goals exact ⟨rfl, rfl⟩

theorem State.requestShift_tables (s : State) : s.SameTables s.requestShift :=
  ⟨s.requestShift_sent.bays, s.requestShift_slots⟩

theorem State.fillingReady_tables (s : State) : s.SameTables s.fillingReady := by
  unfold State.fillingReady
  dsimp only
  split
  · exact State.requestShift_tables { s with pru := _ }
  · split <;> exact ⟨rfl, rfl⟩

theorem State.joinBatch_tables (s : State) (t : Take) : s.SameTables (s.joinBatch t) := by
  unfold State.joinBatch
  split <;> try exact ⟨rfl, rfl⟩
  all_goals
    split
    · exact ⟨rfl, rfl⟩
    · split
      · exact ⟨rfl, rfl⟩
      · dsimp only
        split
        · exact State.fillingReady_tables { s with pru := _ }
        · exact ⟨rfl, rfl⟩

theorem State.takeRecord_tables (s : State) (t : Take) : s.SameTables (s.takeRecord t) := by
  unfold State.takeRecord
  split
  · exact (s.addPending_tables _).trans (State.joinBatch_tables _ _)
  · exact ⟨rfl, rfl⟩

theorem State.SameTables.unitWeight {s t : State} (h : s.SameTables t) : t.unitWeight = s.unitWeight := by
  funext a; unfold State.unitWeight State.slot?; rw [h.2]

end Sys2Proof.Machine
end

