-- ==== Sys2Proof/Laws/Settles.lean ====
section
/-! SUPPORT. The course of a bay record under a sample, the hand-off of a settle and the settle itself (R9 to R35): each
leaves the station sound. -/

namespace Sys2Proof.Machine

variable {c : Controller} {s : State}

/-! ### Bay records under a sample -/

theorem Bay.computeUnits_of {b b' : Bay} (h1 : b'.cfg = b.cfg) (h2 : b'.settled = b.settled)
    (h3 : b'.strays = b.strays) (w : Nat) : b'.computeUnits w = b.computeUnits w := by
  unfold Bay.computeUnits; rw [h1, h2, h3]

/-- A bay record moved in its state, run, invalid run and timer, within its bounds, out of VACANT and SETTLED. -/
theorem Bay.Sound.move {w : Nat → Nat} {b b' : Bay} (h : b.Sound w) (hv : b.state ≠ .vacant) (h1 : b'.cfg = b.cfg)
    (h2 : b'.settled = b.settled) (h3 : b'.strays = b.strays) (h4 : b'.units = b.units) (h5 : b'.invalidRun ≤ 3)
    (h6 : b'.blankRemaining ≤ b.cfg.blankCount) (h7 : b'.state ≠ .vacant)
    (h8 : b'.state = .settled → b.settled.isSome) (h9 : b'.state = .settling → b'.candidate.isSome)
    (h10 : b'.settleTimer.isSome → b'.state = .disturbed ∨ b'.state = .settling) : b'.Sound w := by
  obtain ⟨a1, a2, a3, a4, a5, a6, a7, a8, a9⟩ := h
  refine ⟨by rw [h3]; exact a1, h5, by rw [h1]; exact h6, ?_, fun k => absurd k h7, by rw [h2]; exact h8, h9, h10, ?_⟩
  · rw [h1]
    exact ⟨fun k => absurd k h7, fun k => absurd (a4.2 k) hv⟩
  · rw [h4, a9, h1]
    exact (Bay.computeUnits_of h1 h2 h3 _).symm

theorem Bay.Sound.disturbBlank {w : Nat → Nat} {b : Bay} (h : b.Sound w) (hv : b.state ≠ .vacant) (t : Time) (g : Int) :
    (((({ b with invalidRun := 0 } : Bay).enterDisturbed t).blank g).Sound w)
      ∧ ((({ b with invalidRun := 0 } : Bay).enterDisturbed t).blank g).cfg = b.cfg := by
  unfold Bay.blank
  split
  · refine ⟨h.move hv rfl rfl rfl rfl (Nat.zero_le _) ?_ (by simp [Bay.enterDisturbed]) (by simp [Bay.enterDisturbed])
      (by simp [Bay.enterDisturbed]) (by simp [Bay.enterDisturbed]), rfl⟩
    exact Nat.sub_le _ _
  · refine ⟨h.move hv rfl rfl rfl rfl (Nat.zero_le _) ?_ (by simp [Bay.enterDisturbed]) (by simp [Bay.enterDisturbed])
      (by simp) (by simp [Bay.enterDisturbed]), rfl⟩
    exact Nat.le_refl _

/-- A bay record after a sample: sound, of the same configuration, and settling only with a reference to a weighed bay. -/
theorem Bay.Sound.takeSample {w : Nat → Nat} {b : Bay} (h : b.Sound w) (t : Time) (sample : Option Int) :
    (b.takeSample t sample).1.Sound w ∧ (b.takeSample t sample).1.cfg = b.cfg
      ∧ ((b.takeSample t sample).2 = .settles → b.cfg.article ≠ 0 ∧ (b.takeSample t sample).1.strays = b.strays) := by
  obtain ⟨a1, a2, a3, a4, a5, a6, a7, a8, a9⟩ := id h
  unfold Bay.takeSample
  split
  · exact ⟨h, rfl, fun k => by cases k⟩
  · rename_i hv
    have ha : b.cfg.article ≠ 0 := fun k => hv (a4.2 k)
    split
    · rename_i g
      unfold Bay.takeValid
      dsimp only
      split
      · split
        · rename_i ho
          exact ⟨h.move hv rfl rfl rfl rfl (Nat.zero_le _) a3 hv a6 a7 a8, rfl, fun k => by cases k⟩
        · refine ⟨h.move hv rfl rfl rfl rfl (Nat.zero_le _) (Nat.zero_le _) ?_ ?_ ?_ ?_, rfl, fun k => by cases k⟩ <;>
            simp [Bay.enterGroup]
      · split
        · exact ⟨(h.disturbBlank hv t g).1, (h.disturbBlank hv t g).2, fun k => by cases k⟩
        · exact ⟨(h.disturbBlank hv t g).1, (h.disturbBlank hv t g).2, fun k => by cases k⟩
        · split
          · split
            · exact ⟨h.move hv rfl rfl rfl rfl (Nat.zero_le _) a3 hv a6 a7 a8, rfl, fun k => by cases k⟩
            · exact ⟨(h.disturbBlank hv t g).1, (h.disturbBlank hv t g).2, fun k => by cases k⟩
          · exact ⟨h.move hv rfl rfl rfl rfl (Nat.zero_le _) a3 hv a6 a7 a8, rfl, fun k => by cases k⟩
        case h_7 => exact ⟨h, rfl, fun k => by cases k⟩
        all_goals
          rename_i hst
          split
          · rename_i x hx
            unfold Bay.confirm
            split
            · refine ⟨h.move hv rfl rfl rfl rfl (Nat.zero_le _) a3 hv a6 a7 a8, rfl, fun _ => ⟨ha, rfl⟩⟩
            · refine ⟨h.move hv rfl rfl rfl rfl (Nat.zero_le _) a3 hv a6 (fun _ => rfl) a8, rfl, fun k => by cases k⟩
          · rename_i hx
            unfold Bay.blank
            split
            · refine ⟨h.move hv rfl rfl rfl rfl (Nat.zero_le _) ?_ hv a6 a7 a8, rfl, fun k => by cases k⟩
              exact Nat.le_trans (Nat.sub_le _ _) a3
            · refine ⟨h.move hv rfl rfl rfl rfl (Nat.zero_le _) a3 ?_ ?_ (fun _ => rfl) ?_, rfl, fun k => by cases k⟩
              · simp [hst]
              · simp [hst]
              · intro k
                have := a8 k
                simp [hst] at this ⊢
    · unfold Bay.takeInvalid
      dsimp only
      split
      · refine ⟨h.move hv rfl rfl rfl rfl (Nat.min_le_left _ _) (Nat.zero_le _) ?_ ?_ ?_ ?_, rfl, fun k => by cases k⟩ <;>
          simp [Bay.enterGroup]
      · exact ⟨h.move hv rfl rfl rfl rfl (Nat.min_le_left _ _) a3 hv a6 a7 a8, rfl, fun k => by cases k⟩

/-! ### The hand-off (R21, R27 to R35) -/

theorem leastMultipleUpTo_pos {x : Int} {u t l m : Nat} (h : leastMultipleUpTo x u t l = some m) : 1 ≤ m := by
  unfold leastMultipleUpTo leastMultiple at h
  dsimp only at h
  split at h
  · rename_i k hk
    split at hk
    · simp only [Option.some.injEq] at hk
      split at h
      · simp only [Option.some.injEq] at h
        omega
      · cases h
    · cases hk
  · cases h

theorem matchStrays_not_take (loss : Int) (t : Nat) (l : List Stray) (i m : Nat) :
    matchStrays loss t l i ≠ some (.take m) := by
  induction l generalizing i with
  | nil => simp [matchStrays]
  | cons r rest ih =>
    unfold matchStrays
    split
    · rename_i x hx
      intro k
      simp only [Option.some.injEq] at k
      subst k
      exact ih _ hx
    · unfold matchStray
      split
      · simp
      · split <;> simp

/-- A TAKE is of one unit at least (R33). -/
theorem classify_take_pos {d : Int} {a w t u : Nat} {l : List Stray} {p : Pairing} {m : Nat}
    (h : classify d a w t u l p = .take m) : 1 ≤ m := by
  unfold classify at h
  split at h
  · split at h
    · cases h
    · split at h <;> cases h
  · dsimp only at h
    split at h
    · rename_i k hk
      simp only [Change.take.injEq] at h
      subst h
      exact leastMultipleUpTo_pos hk
    · exfalso
      generalize e : matchStrays _ _ _ _ = o at h
      cases o with
      | none => cases h
      | some x =>
        simp only [Option.getD_some] at h
        subst h
        exact matchStrays_not_take _ _ _ _ _ e

theorem addStray_length {l : List Stray} (h : l.length ≤ 4) (r : Stray) : (addStray l r).length ≤ 4 := by
  unfold addStray
  split
  · simp only [List.length_append, List.length_singleton]; omega
  · split
    · simpa using h
    · simp

theorem replaceAt_length {α : Type} (l : List α) (i : Nat) (f : α → List α) (hf : ∀ x, (f x).length ≤ 1) :
    (replaceAt l i f).length ≤ l.length := by
  induction l generalizing i with
  | nil => exact Nat.le_refl _
  | cons x rest ih =>
    cases i with
    | zero =>
      have := hf x
      simp only [replaceAt, List.length_append, List.length_cons]; omega
    | succ j =>
      have := ih j
      simp only [replaceAt, List.length_cons]; omega

theorem replaceAt_all {α : Type} {P : α → Prop} {l : List α} (h : ∀ x ∈ l, P x) (i : Nat) {f : α → List α}
    (hf : ∀ x, P x → ∀ y ∈ f x, P y) : ∀ y ∈ replaceAt l i f, P y := by
  induction l generalizing i with
  | nil => intro y hy; cases hy
  | cons x rest ih =>
    have hx := h x (List.mem_cons_self ..)
    have hr : ∀ z ∈ rest, P z := fun z hz => h z (List.mem_cons_of_mem _ hz)
    cases i with
    | zero =>
      intro y hy
      rcases List.mem_append.1 hy with q | q
      · exact hf x hx y q
      · exact hr y q
    | succ j =>
      intro y hy
      rcases List.mem_cons.1 hy with q | q
      · rw [q]; exact hx
      · exact ih hr j y q

theorem Stray.less_length (r : Stray) (m : Nat) : (r.less m).length ≤ 1 := by
  unfold Stray.less; repeat' split
  all_goals simp

theorem PendingTake.consume_length (m : Nat) (p : PendingTake) : (p.consume m).length ≤ 1 := by
  unfold PendingTake.consume; split <;> simp

/-- What a hand-off leaves: a live state with bay `n`'s stray list, within its bounds, in the bay record given. -/
theorem State.Live.applyChange (h : s.Live c) {n : Nat} {b0 : Bay} (e0 : s.bay? n = some b0) {x : Bay}
    (hx : x.strays.length ≤ 4) (b : Bay) (d : Int) (ch : Change) (hm : ∀ m, ch = .take m → 1 ≤ m) :
    ∃ u l, (s.withBays (mod1 s.bays n fun _ => x)).applyChange n b d ch
        = u.withBays (mod1 s.bays n fun _ => { x with strays := l })
      ∧ u.Live c ∧ s.SameTables u ∧ l.length ≤ 4 := by
  have self : mod1 s.bays n (fun _ => x) = mod1 s.bays n fun _ => { x with strays := x.strays } := rfl
  have bay : ∀ u : State, (u.withBays (mod1 s.bays n fun _ => x)).bay? n = some x := fun u => mod1_get e0 _
  have mod : ∀ (u : State) (f : Bay → Bay), (u.withBays (mod1 s.bays n fun _ => x)).modBay n f
      = u.withBays (mod1 s.bays n fun _ => f x) := by
    intro u f
    rw [State.modBay_withBays, mod1_mod1]
    rfl
  have stray : ∀ (u : State), u.Live c → s.SameTables u → ∀ r : Stray,
      ∃ v l, (u.withBays (mod1 s.bays n fun _ => x)).strayOn n r = v.withBays (mod1 s.bays n fun _ => { x with strays := l })
        ∧ v.Live c ∧ s.SameTables v ∧ l.length ≤ 4 := by
    intro u hu ht r
    unfold State.strayOn
    rw [bay]
    dsimp only
    rw [mod]
    split
    · exact ⟨u, _, rfl, hu, ht, addStray_length hx r⟩
    · exact ⟨u.raise .strayMerge n x.cfg.article, _, rfl, hu.raise _ _ _, ⟨ht.1, ht.2⟩, addStray_length hx r⟩
  cases ch with
  | add => exact ⟨s, x.strays, rfl, h, ⟨rfl, rfl⟩, hx⟩
  | unresolved => exact ⟨s.raise .unresolved 0 0, x.strays, rfl, h.raise _ _ _, ⟨rfl, rfl⟩, hx⟩
  | unknown => exact stray s h ⟨rfl, rfl⟩ _
  | paired i m =>
    unfold State.applyChange
    dsimp only
    rw [show (s.withBays (mod1 s.bays n fun _ => x)).pru = s.pru from rfl]
    split
    · rename_i p hp
      obtain ⟨a1, a2, -, -, -, -, -, a8⟩ := h.pru
      have h1 : ({ s with pru := { s.pru with
          pendingTakes := replaceAt s.pru.pendingTakes i (PendingTake.consume m) } } : State).Live c := by
        refine h.setPending _ ?_ ?_ ?_
        · exact Nat.le_trans (replaceAt_length _ _ _ (PendingTake.consume_length m)) a1
        · refine replaceAt_all a2 i ?_
          intro q hq y hy
          unfold PendingTake.consume at hy
          split at hy
          · cases hy
          · rw [List.mem_singleton.1 hy]; dsimp only; omega
        · intro k; rw [(a8 k).1]; rfl
      obtain ⟨v, l, e, hv, ht, hl⟩ := stray _ h1 ⟨rfl, rfl⟩
        { goods := some { article := p.article, unitWeight := p.unitWeight, units := m }, grams := m * p.unitWeight }
      refine ⟨v.count .pairMatch, l, ?_, hv.count _, ⟨ht.1, ht.2⟩, hl⟩
      exact (congrArg (fun u => State.count u .pairMatch) e).trans rfl
    · exact ⟨s, x.strays, rfl, h, ⟨rfl, rfl⟩, hx⟩
  | take m =>
    refine ⟨s.takeRecord _, x.strays, State.takeRecord_withBays s _ _, h.takeRecord _ ?_, s.takeRecord_tables _, hx⟩
    exact hm m rfl
  | strayWhole i =>
    exact ⟨s, _, mod s _, h, ⟨rfl, rfl⟩, Nat.le_trans (List.length_eraseIdx_le ..) hx⟩
  | strayPart i m =>
    exact ⟨s, _, mod s _, h, ⟨rfl, rfl⟩,
      Nat.le_trans (replaceAt_length _ _ _ fun r => r.less_length m) hx⟩

/-! ### The settle (R18) and the sample -/

/-- A settle of a sound bay record with the notice that follows. -/
theorem State.Live.settle (h : s.Live c) {n : Nat} {b0 b : Bay} (e0 : s.bay? n = some b0) (hb : b.Sound s.unitWeight)
    (hc : b.cfg = b0.cfg) (ha : b0.cfg.article ≠ 0) :
    (((s.withBays (mod1 s.bays n fun _ => b)).settle n b).noticeBay n b0).Live c := by
  obtain ⟨a1, a2, a3, a4, a5, a6, a7, a8, a9⟩ := hb
  have stop : (s.withBays (mod1 s.bays n fun _ => b)).modBay n (fun b => { b with settleTimer := none })
      = s.withBays (mod1 s.bays n fun _ => { b with settleTimer := none }) := by
    rw [State.modBay_withBays, mod1_mod1]; rfl
  -- the state after the hand-off, whichever way the change is resolved
  have key : ∀ (u : State) (l : List Stray), u.Live c → s.SameTables u → l.length ≤ 4 →
      (((u.withBays (mod1 s.bays n fun _ => { b with settleTimer := none, strays := l })).modBay n
        fun b' => b'.enterSettled b.mean (s.unitWeight b.cfg.article)).noticeBay n b0).Live c := by
    intro u l hu ht hl
    rw [State.modBay_withBays, mod1_mod1, ← ht.1]
    refine hu.noticeBay (by unfold State.bay?; rw [ht.1]; exact e0) hc ?_
    refine ⟨hl, a2, Nat.zero_le _, ?_, fun k => (by cases k), fun _ => rfl, fun k => (by cases k), fun k => (by cases k), ?_⟩
    · exact ⟨fun k => (by cases k), fun k => absurd k (by show b.cfg.article ≠ 0; rw [hc]; exact ha)⟩
    · show _ = Bay.computeUnits _ (u.unitWeight b.cfg.article)
      rw [ht.unitWeight]
      rfl
  unfold State.settle
  dsimp only
  rw [stop, show (s.withBays (mod1 s.bays n fun _ => b)).unitWeight = s.unitWeight from rfl]
  split
  · exact key s b.strays h ⟨rfl, rfl⟩ a1
  · split
    · exact key s b.strays h ⟨rfl, rfl⟩ a1
    · rename_i r _ _
      unfold State.handOff
      obtain ⟨u, l, e, hu, ht, hl⟩ := h.applyChange e0 (x := { b with settleTimer := none }) a1 b (b.mean - r)
        (classify (b.mean - r) b.cfg.article (s.unitWeight b.cfg.article) b.cfg.tolerance b.units b.strays s.pru)
        fun m hm => classify_take_pos hm
      rw [show (s.withBays (mod1 s.bays n fun _ => { b with settleTimer := none })).unitWeight = s.unitWeight from rfl,
        show (s.withBays (mod1 s.bays n fun _ => { b with settleTimer := none })).pru = s.pru from rfl, e]
      exact key u l hu ht hl

theorem nth1_mem {α : Type} {l : List α} {n : Nat} {x : α} (h : nth1 l n = some x) : x ∈ l := by
  cases n with
  | zero => cases h
  | succ k => exact List.mem_of_getElem? h

/-- A sample of a bay, whole (R3 to R25). -/
theorem State.Live.takeSample (h : s.Live c) (n : Nat) (sample : Option Int) : (s.takeSample n sample).Live c := by
  unfold State.takeSample
  split
  · exact h
  · rename_i b e
    have hb := h.bays b (nth1_mem e)
    obtain ⟨k1, k2, k3⟩ := hb.takeSample s.now sample
    dsimp only
    generalize b.takeSample s.now sample = r at k1 k2 k3
    obtain ⟨b1, ev⟩ := r
    dsimp only at k1 k2 k3 ⊢
    have hw : (s.modBay n fun _ => b1) = s.withBays (mod1 s.bays n fun _ => b1) := rfl
    rw [hw]
    cases ev with
    | nothing => exact h.noticeBay e k2 k1
    | faulted => exact (h.raise .bayFault n b.cfg.article).noticeBay e k2 k1
    | overloaded => exact (h.raise .bayOverload n b.cfg.article).noticeBay e k2 k1
    | settles => exact h.settle e k1 k2 (k3 rfl).1

/-- The settle timer of a bay runs out (R17). -/
theorem State.Live.settleTimeout (h : s.Live c) (n : Nat) : (s.settleTimeout n).Live c := by
  unfold State.settleTimeout
  split
  · exact h
  · rename_i b e
    split
    · exact h
    · rename_i t ht
      obtain ⟨a1, a2, a3, a4, a5, a6, a7, a8, a9⟩ := h.bays b (nth1_mem e)
      have hb := h.bays b (nth1_mem e)
      have hs : b.settleTimer.isSome := by
        unfold expired at ht
        split at ht
        · rename_i q; rw [q]; rfl
        · cases ht
      have hst := a8 hs
      dsimp only
      rw [if_pos hst, State.modBay_modBay]
      have e2 : (s.modBay n ((fun b => { b with state := .unsteady }) ∘ fun b => { b with settleTimer := none }))
          = s.withBays (mod1 s.bays n fun _ => { b with settleTimer := none, state := .unsteady }) :=
        State.modBay_congr e rfl
      rw [e2]
      refine (h.raise .bayUnsteady n b.cfg.article).noticeBay e rfl ?_
      refine hb.move ?_ rfl rfl rfl rfl a2 a3 (by simp) (by simp) (by simp) (by simp)
      rcases hst with q | q <;> rw [q] <;> simp

end Sys2Proof.Machine
end

