-- ==== Sys2Proof/Laws/Loading.lean ====
section
/-! SUPPORT. Soundness of start-up: the strap read, the header read, the body read with the tables it fills (R158 to
R169). -/

namespace Sys2Proof.Machine

variable {c : Controller} {s : State}

theorem distinct_nodup {l : List Nat} (h : distinct l = true) : l.Nodup := by
  induction l with
  | nil => exact List.Pairwise.nil
  | cons x rest ih =>
    simp only [distinct, Bool.and_eq_true, Bool.not_eq_true', List.contains_eq_mem, decide_eq_false_iff_not] at h
    exact List.nodup_cons.2 ⟨h.1, ih h.2⟩

theorem chunks_length (w n : Nat) (l : List Byte) : (chunks w n l).length = n := by
  induction n generalizing l with
  | zero => rfl
  | succ n ih => simp [chunks, ih]

/-- Record `k` of a sequence of records of one width starts after the `k` before it. -/
theorem chunks_getElem? (w n : Nat) (l : List Byte) (k : Nat) (h : k < n) :
    (chunks w n l)[k]? = some ((l.drop (w * k)).take w) := by
  induction n generalizing l k with
  | zero => omega
  | succ n ih =>
    cases k with
    | zero => simp [chunks]
    | succ k => rw [chunks, List.getElem?_cons_succ, ih _ _ (by omega), List.drop_drop, Nat.mul_succ, Nat.add_comm]

/-- A field of a record is the field of the image at the record's address and its own offset. -/
theorem field_of_record (l : List Byte) (address length offset width : Nat) (h : offset + width ≤ length) :
    field ((l.drop address).take length) offset width = field l (address + offset) width := by
  unfold field
  rw [List.drop_take, List.drop_drop, List.take_take, Nat.min_eq_left (by omega)]

theorem imageBays_length (image : List Byte) : (imageBays image).length = 16 := by
  unfold imageBays; rw [List.length_map, chunks_length]

theorem imageFault_numbers {own : Nat} {image : List Byte} (h : imageFault own image = none) :
    ((imageArticles image).map ImageArticle.number).Nodup := by
  unfold imageFault at h
  dsimp only at h
  split at h
  · cases h
  · split at h
    · cases h
    · split at h
      · cases h
      · rename_i k
        simp only [valuesFit, Bool.and_eq_true, not_not] at k
        exact distinct_nodup k.1.1.2

theorem imageFault_cause {own : Nat} {image : List Byte} {cause : HaltCause} (h : imageFault own image = some cause) :
    cause ≠ .noHalt := by
  unfold imageFault at h
  dsimp only at h
  repeat' split at h
  all_goals first
    | (simp only [Option.some.injEq] at h; subst h; simp)
    | cases h

theorem headerFault_cause {header : List Byte} {cause : HaltCause} (h : headerFault header = some cause) :
    cause ≠ .noHalt := by
  unfold headerFault at h
  repeat' split at h
  all_goals first
    | (simp only [Option.some.injEq] at h; subst h; simp)
    | cases h

theorem Bay.start_sound (w : Nat → Nat) (k : BayConfig) (t : Time) :
    (Bay.start k t).Sound w ∧ (Bay.start k t).units = 0 ∧ (Bay.start k t).state.inFaultGroup = false
      ∧ ((Bay.start k t).state == .unsteady) = false ∧ (Bay.start k t).strays = [] := by
  unfold Bay.start
  dsimp only
  split
  · rename_i h
    refine ⟨⟨Nat.zero_le _, Nat.zero_le _, Nat.zero_le _, ⟨fun _ => h, fun _ => rfl⟩, fun _ => ⟨rfl, rfl⟩, ?_, ?_, ?_, rfl⟩,
      rfl, rfl, rfl, rfl⟩ <;> intro q <;> cases q
  · rename_i h
    refine ⟨⟨Nat.zero_le _, Nat.zero_le _, Nat.le_refl _, ⟨fun q => (by cases q), fun q => absurd q h⟩, ?_, ?_, ?_,
      fun _ => Or.inl rfl, rfl⟩, rfl, rfl, rfl, rfl⟩ <;> intro q <;> cases q

theorem ImageArticle.slot_sound (own : Nat) (r : ImageArticle) (bays : List Bay)
    (hb : ∀ b ∈ bays, b.units = 0 ∧ b.state.inFaultGroup = false ∧ (b.state == .unsteady) = false ∧ b.strays = []) :
    (r.slot own).Sound own ∧ (r.slot own).ShareFits bays := by
  refine ⟨⟨⟨?_, ?_, ?_, rfl⟩, ⟨rfl, rfl, rfl, rfl⟩, ⟨?_, ?_, ?_, ?_, fun _ => ⟨rfl, rfl⟩⟩, rfl⟩, ?_⟩
  · unfold ImageArticle.slot ImageArticle.record
    dsimp only
    rw [List.map_map]
    exact List.map_id' _
  · unfold ImageArticle.slot ImageArticle.record Article.total
    dsimp only
    rw [List.map_map]
    generalize r.holders.filter (fun h => h != own) = l
    induction l with
    | nil => rfl
    | cons x rest ih => simpa using ih
  · unfold ImageArticle.slot ImageArticle.record Article.cover
    dsimp only
    cases r.holders.filter (fun h => h != own) with
    | nil => rfl
    | cons x rest => rfl
  all_goals try (intro q; cases q)
  rw [Slot.shareFits_iff]
  unfold ownUnits ownFault ownUnsteady ownStray
  have hm : ∀ a, ∀ b ∈ baysOf bays a,
      b.units = 0 ∧ b.state.inFaultGroup = false ∧ (b.state == .unsteady) = false ∧ b.strays = [] :=
    fun a b k => hb b (List.mem_filter.1 k).1
  refine ⟨?_, ?_, ?_, ?_⟩
  · show 0 = _
    symm
    rw [List.sum_eq_zero]
    intro x hx
    obtain ⟨b, k, rfl⟩ := List.mem_map.1 hx
    exact (hm _ b k).1
  all_goals
    show false = _
    symm
    rw [List.any_eq_false]
    intro b k
    obtain ⟨-, k2, k3, k4⟩ := hm _ b k
    simp only [k2, k3, k4]
    simp

/-- The state of JOINING with the tables filled from an image that passes its checks. -/
theorem State.Sound.fillTables (h : s.Sound) (hh : s.held = none) (hl : s.stc.state = .loading) {image : List Byte}
    (hi : imageFault s.ownNumber image = none) :
    ({ s.endRead.fillTables image with
        stc := { (s.endRead.fillTables image).stc with state := .joining, helloDone := false, joinTimer := none } } : State).Live
      { (s.endRead.fillTables image).stc with state := .joining, helloDone := false, joinTimer := none } := by
  obtain ⟨h1, h2, h3, h4, h5, h6, ⟨a1, a2, a3, a4, a5⟩, h8, h9, h10, h11, h12, h13, h14, h15⟩ := h
  have hln : s.listening = false := by unfold State.listening; rw [hl]
  have hsn : s.speaking = false := by unfold State.speaking; rw [hl]
  obtain ⟨-, -, b3, -, b5, -, -, -⟩ := h12 hln (by rw [hl]; simp)
  have hbay : ∀ w : Nat → Nat, ∀ b ∈ (imageBays image).map (fun k => Bay.start k s.now), b.Sound w ∧ b.units = 0
      ∧ b.state.inFaultGroup = false ∧ (b.state == .unsteady) = false ∧ b.strays = [] := by
    intro w b hb
    obtain ⟨k, -, rfl⟩ := List.mem_map.1 hb
    exact Bay.start_sound w k s.now
  have hit : s.stc.isolationTimer = none := by
    cases q : s.stc.isolationTimer with
    | none => rfl
    | some x => have := a2.1 (by rw [q]; rfl); rw [hl] at this; cases this
  have hhalt : s.stc.halt = .noHalt := by
    by_contra q; have := a3.1 q; rw [hl] at this; cases this
  refine ⟨rfl, rfl, hh, h1, ?_, h3, h4, h5, ?_, ?_, ?_, ?_, ?_, fun k => (by cases k), ?_⟩
  · show ((imageBays image).map _).length = 16
    rw [List.length_map, imageBays_length]
  · show Pairing.Sound { s.pru with enabled := _, window := _, mode := _ }
    rw [b3]
    exact ⟨Nat.zero_le _, fun t k => (by cases k), Nat.zero_le _, Nat.zero_le _, fun _ => Nat.zero_lt_succ _,
      fun k => (by cases k), fun k => (by cases k), fun _ => ⟨rfl, rfl, rfl⟩⟩
  · refine ⟨fun k => (by cases k), ?_, ?_, ?_, fun _ _ => a5 (by rw [hl]; simp) (by rw [hl]; simp)⟩
    · simp [State.endRead, State.fillTables, hit]
    · simp [State.endRead, State.fillTables, hhalt]
    · simp [State.endRead, State.fillTables]
  · intro b hb
    exact (hbay _ b hb).1
  · unfold State.endRead State.fillTables
    dsimp only
    rw [List.map_map]
    exact imageFault_numbers hi
  · intro sl hsl
    obtain ⟨r, -, rfl⟩ := List.mem_map.1 hsl
    exact r.slot_sound _ _ fun b hb => (hbay (fun _ => 0) b hb).2
  · intro k
    have : (s.endRead.fillTables image).tly.firstWindow = s.tly.firstWindow := rfl
    rw [show ({ s.endRead.fillTables image with
      stc := { (s.endRead.fillTables image).stc with state := .joining, helloDone := false, joinTimer := none } } :
      State).tly.firstWindow = s.tly.firstWindow from rfl, b5] at k
    cases k

theorem State.Sound.endBodyRead (h : s.Sound) (hh : s.held = none) (bytes : List Byte) : (s.endBodyRead bytes).Sound := by
  unfold State.endBodyRead
  split
  · rename_i r hl _
    split
    · dsimp only
      split
      · rename_i cause k
        exact h.enterHalted hh (imageFault_cause k)
      · rename_i k
        exact (h.fillTables hh hl k).enterJoining.sound
    · exact h
  · exact h

/-- A flash read in LOADING replaced, the header bytes and the number with it. -/
theorem State.Sound.setRead (h : s.Sound) (hl : s.stc.state = .loading) (header : List Byte) (r : FlashRead) :
    ({ s with stc := { s.stc with header := header, read := some r } } : State).Sound := by
  obtain ⟨h1, h2, h3, h4, h5, h6, ⟨a1, a2, a3, a4, a5⟩, h8, h9, h10, h11, h12, h13, h14, h15⟩ := h
  exact ⟨h1, h2, h3, h4, h5, h6, ⟨a1, a2, a3, ⟨fun _ => hl, fun _ => rfl⟩, a5⟩, h8, h9, h10, h11, h12, h13, h14, h15⟩

theorem State.Sound.endHeaderRead (h : s.Sound) (hh : s.held = none) (bytes : List Byte) :
    (s.endHeaderRead bytes).Sound := by
  unfold State.endHeaderRead
  split
  · rename_i r hl _
    split
    · dsimp only
      split
      · rename_i cause k
        exact h.enterHalted hh (headerFault_cause k)
      · exact h.setRead hl _ _
    · exact h
  · exact h

theorem State.Sound.readStraps (h : s.Sound) (hh : s.held = none) (straps : BitVec 5) : (s.readStraps straps).Sound := by
  unfold State.readStraps
  split
  · rename_i k
    have hl : s.listening = false := by unfold State.listening; rw [k.1]
    have hs : s.speaking = false := by unfold State.speaking; rw [k.1]
    obtain ⟨h1, h2, h3, h4, h5, h6, ⟨a1, a2, a3, a4, a5⟩, h8, h9, h10, h11, h12, h13, h14, h15⟩ := h
    obtain ⟨b1, b2, b3, b4, b5, b6, b7, b8⟩ := h12 hl (by rw [k.1]; simp)
    have hjt : s.stc.joinTimer = none := by
      cases q : s.stc.joinTimer with
      | none => rfl
      | some x => have := (a1 (by rw [q]; rfl)).1; rw [k.1] at this; cases this
    have hit : s.stc.isolationTimer = none := by
      cases q : s.stc.isolationTimer with
      | none => rfl
      | some x => have := a2.1 (by rw [q]; rfl); rw [k.1] at this; cases this
    have hhalt : s.stc.halt = .noHalt := by
      by_contra q; have := a3.1 q; rw [k.1] at this; cases this
    have hrd : s.stc.read = none := by
      cases q : s.stc.read with
      | none => rfl
      | some x => have := a4.1 (by rw [q]; rfl); rw [k.1] at this; cases this
    have h10' : ∀ own, ∀ sl ∈ s.slots, sl.Sound own ∧ sl.ShareFits s.bays := by
      intro own sl hsl; rw [b2] at hsl; cases hsl
    dsimp only
    split
    · rename_i v
      refine ⟨h1, h2, h3, h4, h5, h6, ⟨?_, ?_, ?_, ?_, fun _ _ => v⟩, h8, h9, h10' _, fun _ => h11 hs,
        fun _ _ => ⟨b1, b2, b3, b4, b5, b6, b7, b8⟩, fun q => (by cases q), fun q => ?_, h15⟩
      · intro q
        rw [show ((({ s with stc := { s.stc with number := straps.toNat, state := .loading } } : State).beginRead 0 16).stc.joinTimer)
          = none from hjt] at q
        cases q
      · simp [State.beginRead, hit]
      · simp [State.beginRead, hhalt]
      · simp [State.beginRead]
      · rw [show ((({ s with stc := { s.stc with number := straps.toNat, state := .loading } } : State).beginRead 0 16).held)
          = none from hh] at q
        cases q
    · refine State.Sound.enterHalted (s := { s with stc := { s.stc with number := straps.toNat } }) ?_ hh (by simp)
      exact ⟨h1, h2, h3, h4, h5, h6, ⟨a1, a2, a3, a4, fun q => absurd k.1 q⟩, h8, h9, h10' _, fun _ => h11 hs,
        fun _ _ => ⟨b1, b2, b3, b4, b5, b6, b7, b8⟩, h13, h14, h15⟩
  · exact h

end Sys2Proof.Machine
end

