-- ==== Sys2Proof/Laws/Commands.lean ====
section
/-! SUPPORT. Soundness of what each command does after its time has passed, in every station state: outside JOINING, RUNNING
and ISOLATED no timer runs and nothing is on the wire. -/

namespace Sys2Proof.Machine

variable {s : State}

/-- Outside JOINING, RUNNING and ISOLATED every timer is stopped, and nothing is queued, on the wire or deferred (R26, R44,
R63, R88, R115, R135, R170). -/
structure State.Still (s : State) : Prop where
  bays : ∀ b ∈ s.bays, b.settleTimer = none
  ready : s.pru.readyTimer = none
  peers : ∀ p ∈ s.peers, p.staleTimer = none
  slots : ∀ sl ∈ s.slots, sl.alert.claimHold = none ∧ sl.alert.repeatTimer = none ∧ sl.alert.escalationTimer = none
    ∧ sl.alert.takeover = none
  bsc : s.bsc.Silent
  beacon : s.tly.beaconTimer = none
  delta : s.tly.deltaTimer = none
  join : s.stc.joinTimer = none
  isolation : s.stc.isolationTimer = none

theorem State.Sound.still (h : s.Sound) (hl : s.listening = false) : s.Still := by
  obtain ⟨h1, h2, h3, h4, h5, h6, ⟨a1, a2, a3, a4, a5⟩, h8, h9, h10, h11, h12, h13, h14, h15⟩ := h
  have hs : s.speaking = false := by
    unfold State.listening at hl
    unfold State.speaking
    split at hl <;> rename_i q <;> rw [q] <;> first | rfl | cases hl
  have hj : s.stc.joinTimer = none := by
    cases q : s.stc.joinTimer with
    | none => rfl
    | some x => have := (a1 (by rw [q]; rfl)).1; unfold State.listening at hl; rw [this] at hl; cases hl
  have hi : s.stc.isolationTimer = none := by
    cases q : s.stc.isolationTimer with
    | none => rfl
    | some x => have := a2.1 (by rw [q]; rfl); unfold State.listening at hl; rw [this] at hl; cases hl
  obtain ⟨k1, k2, k3⟩ := h11 hs
  by_cases q : s.stc.state = .halted
  · obtain ⟨f1, f2, f3, f4⟩ := h13 q
    exact ⟨f1, f2, f3, f4, k1, k2, k3, hj, hi⟩
  · obtain ⟨b1, b2, b3, b4, b5, b6, b7, b8⟩ := h12 hl q
    refine ⟨?_, by rw [b3]; rfl, ?_, ?_, b8, k2, k3, hj, hi⟩
    · intro b hb; rw [b1] at hb; rw [List.eq_of_mem_replicate hb]; rfl
    · intro p hp; rw [b4] at hp; rw [List.eq_of_mem_replicate hp]; rfl
    · intro sl hsl; rw [b2] at hsl; cases hsl

/-- A map that moves no element is the list. -/
theorem map_fix {α : Type} {l : List α} {f : α → α} (h : ∀ x ∈ l, f x = x) : l.map f = l := by
  conv_rhs => rw [← List.map_id l]
  exact List.map_congr_left h

/-- Where every timer is stopped, the entry into HALTED moves the station controller's fields alone (R137). -/
theorem State.Still.enterHalted (h : s.Still) (cause : HaltCause) :
    s.enterHalted cause = { s with stc := { s.stc with state := .halted, halt := cause, read := none } } := by
  obtain ⟨h1, h2, h3, h4, ⟨b1, b2, b3⟩, h6, h7, h8, h9⟩ := h
  unfold State.enterHalted
  rw [map_fix (l := s.bays), map_fix (l := s.peers), map_fix (l := s.slots)]
  · have e1 : ({ s.pru with readyTimer := none } : Pairing) = s.pru := by
      generalize s.pru = p at h2; cases p; dsimp only at h2; subst h2; rfl
    have e2 : ({ s.bsc with waiting := [], flight := none, deferral := none } : BusController) = s.bsc := by
      generalize s.bsc = p at b1 b2 b3; cases p; dsimp only at b1 b2 b3; subst b1 b2 b3; rfl
    have e3 : ({ s.tly with beaconTimer := none, deltaTimer := none } : TallyUnit) = s.tly := by
      generalize s.tly = p at h6 h7; cases p; dsimp only at h6 h7; subst h6 h7; rfl
    have e4 : ({ s.stc with
        state := .halted, halt := cause, joinTimer := none, isolationTimer := none, read := none } : Controller)
        = { s.stc with state := .halted, halt := cause, read := none } := by
      generalize s.stc = p at h8 h9; cases p; dsimp only at h8 h9; subst h8 h9; rfl
    rw [e1, e2, e3, e4]
  · intro x hx
    have := h4 x hx
    cases x with | mk art al => cases al; simp_all
  · intro x hx
    have := h3 x hx
    cases x; simp_all
  · intro x hx
    have := h1 x hx
    cases x; simp_all
theorem expired_isSome {now e : Time} {o : Option Time} (h : expired now o = some e) : o.isSome = true := by
  unfold expired at h
  split at h
  · rfl
  · cases h

/-- A sound state in which either the blocks run, or nothing moves. -/
theorem State.Sound.cases_listening {P : Prop} (h : s.Sound) (h1 : s.listening = true → s.Live s.stc → P)
    (h2 : s.listening = false → s.Still → P) : P := by
  cases q : s.listening with
  | true => exact h1 q (h.live q)
  | false => exact h2 q (h.still q)

/-! ### Weighing and pairing -/

theorem State.Sound.setChannels (h : s.Sound) {l : List Bool} (hl : l.length = 16) :
    ({ s with channels := l } : State).Sound := by
  obtain ⟨-, h2, h3, h4, h5, h6, h7, h8, h9, h10, h11, h12, h13, h14, h15⟩ := h
  exact ⟨hl, h2, h3, h4, h5, h6, h7, h8, h9, h10, h11, h12, h13, h14, h15⟩

theorem validityAfter_length (c : Conversion) (n : Nat) (l : List Bool) : (validityAfter c n l).length = l.length := by
  cases c <;> simp [validityAfter, mod1_length]

theorem State.Sound.sample (h : s.Sound) (n : Nat) (k : Conversion) :
    (if ({ s with channels := validityAfter k n s.channels } : State).listening then
        ({ s with channels := validityAfter k n s.channels } : State).takeSample n (sampleOf k)
      else { s with channels := validityAfter k n s.channels }).Sound := by
  have h1 := h.setChannels (l := validityAfter k n s.channels) (by rw [validityAfter_length]; exact h.1)
  split
  · rename_i q
    exact ((h1.live q).takeSample _ _).sound
  · exact h1

theorem State.Sound.settleTimeout (h : s.Sound) (n : Nat) : (s.settleTimeout n).Sound := by
  refine h.cases_listening (fun _ hl => (hl.settleTimeout n).sound) fun _ hs => ?_
  unfold State.settleTimeout
  split
  · exact h
  · rename_i b e
    rw [hs.bays b (nth1_mem e)]
    exact h

theorem State.Sound.readyTimer (h : s.Sound) :
    (match expired s.now s.pru.readyTimer with
      | some _ => s.fillingReady
      | none => s).Sound := by
  refine h.cases_listening (fun _ hl => ?_) fun _ hs => ?_
  · split
    · rename_i e
      exact (hl.readyExpires (expired_isSome e)).sound
    · exact h
  · rw [hs.ready]; exact h

theorem State.Sound.pendingExpiry (h : s.Sound) (i : Nat) :
    (match s.pru.pendingTakes[i]? with
      | some p =>
        if s.listening && decide (p.arrival + s.pru.window ≤ s.now) then
          ({ s with pru := { s.pru with pendingTakes := s.pru.pendingTakes.eraseIdx i } } : State).raise
            .pairEvict p.source p.article
        else s
      | none => s).Sound := by
  split
  · split
    · rename_i q
      simp only [Bool.and_eq_true] at q
      exact (((h.live q.1).dropPending i).raise _ _ _).sound
    · exact h
  · exact h

/-! ### Attempts -/

theorem State.Sound.endDeferral (h : s.Sound) : s.endDeferral.Sound := by
  refine h.cases_listening (fun _ hl => hl.endDeferral.sound) fun _ hs => ?_
  unfold State.endDeferral
  rw [hs.bsc.2.2]
  exact h

theorem State.Sound.collide (h : s.Sound) : s.collide.Sound := by
  refine h.cases_listening (fun _ hl => hl.collide) fun _ hs => ?_
  unfold State.collide
  rw [hs.bsc.2.1]
  exact h

theorem State.Sound.completeAttempt (h : s.Sound) : s.completeAttempt.Sound := by
  refine h.cases_listening (fun _ hl => hl.completeAttempt) fun _ hs => ?_
  unfold State.completeAttempt
  rw [hs.bsc.2.1]
  exact h

/-! ### Alert timers -/

theorem State.Live.claimHoldExpires {c : Controller} (h : s.Live c) (a : Nat) : (s.claimHoldExpires a).Live c := by
  unfold State.claimHoldExpires
  split
  · exact h
  · rename_i sl e
    split
    · exact h
    · obtain ⟨⟨k1, k2, k3, k4⟩, k5⟩ := h.slots sl (State.slot?_some e).1
      obtain ⟨t1, t2, t3, t4, t5⟩ := id k3
      split
      · rename_i hs
        split
        · rename_i hl
          exact h.becomeOwner e (by simp [hs]) hl
        · refine State.Live.requestAlert ?_ _ _ ?_
          · refine h.modAlert e _ ?_ ?_ rfl
            · unfold Alert.OwnerFits at k2 ⊢; exact k2
            · refine ⟨fun q => (by cases q), ?_, ?_, t4, ?_⟩
              · intro q; have := (t2 q).1; rw [hs] at this; cases this
              · intro q; have := (t3 q).1; rw [hs] at this; cases this
              · intro q; rw [hs] at q; cases q
          · intro x ex
            rw [State.slot?_modAlert e] at ex
            simp only [Option.some.injEq] at ex
            subst ex
            simp [hs, AlertState.owning]
      · refine h.modAlert e _ k2 ?_ rfl
        exact ⟨fun q => (by cases q), t2, t3, t4, t5⟩

theorem State.Live.repeatExpires {c : Controller} (h : s.Live c) (a : Nat) : (s.repeatExpires a).Live c := by
  unfold State.repeatExpires
  split
  · exact h
  · rename_i sl e
    split
    · exact h
    · rename_i t ht
      obtain ⟨⟨k1, k2, k3, k4⟩, k5⟩ := h.slots sl (State.slot?_some e).1
      obtain ⟨t1, t2, t3, t4, t5⟩ := id k3
      have hr := t2 (expired_isSome ht)
      refine State.Live.requestAlert ?_ _ _ ?_
      · exact h.modAlert e _ k2 ⟨t1, fun _ => hr, t3, t4, t5⟩ rfl
      · intro x ex
        rw [State.slot?_modAlert e] at ex
        simp only [Option.some.injEq] at ex
        subst ex
        simp [hr.1, AlertState.owning]

theorem State.Live.escalationExpires {c : Controller} (h : s.Live c) (a : Nat) : (s.escalationExpires a).Live c := by
  unfold State.escalationExpires
  split
  · exact h
  · rename_i sl e
    split
    · exact h
    · rename_i t ht
      obtain ⟨⟨k1, k2, k3, k4⟩, k5⟩ := h.slots sl (State.slot?_some e).1
      obtain ⟨t1, t2, t3, t4, t5⟩ := id k3
      obtain ⟨r1, r2, r3⟩ := t3 (expired_isSome ht)
      have hc : sl.alert.claimHold.isSome → False := fun q => by have := t1 q; rw [r1] at this; cases this
      split
      · refine State.Live.requestAlert ?_ _ _ ?_
        · refine h.modAlert e _ ?_ ⟨fun q => (hc q).elim, fun _ => ⟨r1, rfl, r3⟩, fun q => (by cases q), t4, t5⟩ rfl
          unfold Alert.OwnerFits at k2 ⊢
          dsimp only
          rw [r1] at k2 ⊢
          exact k2
        · intro x ex
          rw [State.slot?_modAlert e] at ex
          simp only [Option.some.injEq] at ex
          subst ex
          simp [r1, AlertState.owning]
      · exact h.modAlert e _ k2 ⟨t1, t2, fun _ => ⟨r1, r2, r3⟩, t4, t5⟩ rfl

theorem State.Live.takeoverExpires {c : Controller} (h : s.Live c) (a : Nat) : (s.takeoverExpires a).Live c := by
  unfold State.takeoverExpires
  split
  · exact h
  · rename_i sl e
    split
    · exact h
    · rename_i t ht
      obtain ⟨⟨k1, k2, k3, k4⟩, k5⟩ := h.slots sl (State.slot?_some e).1
      obtain ⟨t1, t2, t3, t4, t5⟩ := id k3
      have hf := t4 (expired_isSome ht)
      rw [if_pos hf]
      have ho : sl.alert.state.owning = false := by rw [hf]; rfl
      split
      · refine (h.claim ?_).count _
        intro x ex
        rw [e] at ex
        simp only [Option.some.injEq] at ex
        subst ex
        exact ho
      · refine h.enterQuiet ?_
        intro x ex
        rw [e] at ex
        simp only [Option.some.injEq] at ex
        subst ex
        exact (t5 ho).2

/-- An alert timer's command, given what it does where the blocks run and that it looks at the timer first. -/
theorem State.Sound.alertTimer (h : s.Sound) (a : Nat) (f : State → Nat → State) (timer : Alert → Option Time)
    (hl : s.Live s.stc → (f s a).Live s.stc) (h1 : s.slot? a = none → f s a = s)
    (h2 : ∀ sl, s.slot? a = some sl → timer sl.alert = none → f s a = s)
    (h3 : ∀ sl ∈ s.slots, s.Still → timer sl.alert = none) : (f s a).Sound := by
  refine h.cases_listening (fun _ k => (hl k).sound) fun _ hs => ?_
  cases e : s.slot? a with
  | none => rw [h1 e]; exact h
  | some sl => rw [h2 sl e (h3 sl (State.slot?_some e).1 hs)]; exact h

theorem State.Sound.claimHoldExpires (h : s.Sound) (a : Nat) : (s.claimHoldExpires a).Sound := by
  refine h.alertTimer a State.claimHoldExpires Alert.claimHold (fun k => k.claimHoldExpires a) ?_ ?_
    (fun sl k q => (q.slots sl k).1)
  · intro e; unfold State.claimHoldExpires; rw [e]
  · intro sl e q; unfold State.claimHoldExpires; rw [e]; dsimp only; rw [q]; rfl

theorem State.Sound.repeatExpires (h : s.Sound) (a : Nat) : (s.repeatExpires a).Sound := by
  refine h.alertTimer a State.repeatExpires Alert.repeatTimer (fun k => k.repeatExpires a) ?_ ?_
    (fun sl k q => (q.slots sl k).2.1)
  · intro e; unfold State.repeatExpires; rw [e]
  · intro sl e q; unfold State.repeatExpires; rw [e]; dsimp only; rw [q]; rfl

theorem State.Sound.escalationExpires (h : s.Sound) (a : Nat) : (s.escalationExpires a).Sound := by
  refine h.alertTimer a State.escalationExpires Alert.escalationTimer (fun k => k.escalationExpires a) ?_ ?_
    (fun sl k q => (q.slots sl k).2.2.1)
  · intro e; unfold State.escalationExpires; rw [e]
  · intro sl e q; unfold State.escalationExpires; rw [e]; dsimp only; rw [q]; rfl

theorem State.Sound.takeoverExpires (h : s.Sound) (a : Nat) : (s.takeoverExpires a).Sound := by
  refine h.alertTimer a State.takeoverExpires Alert.takeover (fun k => k.takeoverExpires a) ?_ ?_
    (fun sl k q => (q.slots sl k).2.2.2)
  · intro e; unfold State.takeoverExpires; rw [e]
  · intro sl e q; unfold State.takeoverExpires; rw [e]; dsimp only; rw [q]; rfl

/-! ### Tally timers -/

theorem State.Sound.staleExpires (h : s.Sound) (n : Nat) : (s.staleExpires n).Sound := by
  refine h.cases_listening (fun _ hl => (hl.staleExpires n).sound) fun _ hs => ?_
  have : (s.peer? n).bind Peer.staleTimer = none := by
    cases e : s.peer? n with
    | none => rfl
    | some p => exact hs.peers p (nth1_mem e)
  unfold State.staleExpires
  rw [this]
  exact h

theorem State.Live.beaconHello {c : Controller} (h : s.Live c) : s.beaconHello.Live c := by
  unfold State.beaconHello
  split
  · exact h.request _
  · exact h

theorem State.Sound.beaconTick (h : s.Sound) :
    (match expired s.now s.tly.beaconTimer with
      | some e => ((s.beaconTally e).beaconSweep).beaconHello
      | none => s).Sound := by
  refine h.cases_listening (fun _ hl => ?_) fun _ hs => ?_
  · split
    · rename_i t e
      have hsp : s.speaking = true := by
        cases q : s.speaking with
        | true => rfl
        | false =>
          have := (hl.hush q).2.1
          have k := expired_isSome e
          rw [this] at k; cases k
      exact (hl.beaconTally t hsp).beaconSweep.beaconHello.sound
    · exact h
  · rw [hs.beacon]; exact h

theorem State.Sound.deltaTimer (h : s.Sound) :
    (match expired s.now s.tly.deltaTimer with
      | some _ => s.deltaExpires
      | none => s).Sound := by
  refine h.cases_listening (fun _ hl => ?_) fun _ hs => ?_
  · split
    · exact hl.deltaExpires.sound
    · exact h
  · rw [hs.delta]; exact h

/-! ### Station timers -/

theorem State.Sound.joinTimer (h : s.Sound) :
    (match expired s.now s.stc.joinTimer with
      | some _ => if s.stc.state = StationState.joining then s.endJoinWindow else s
      | none => s).Sound := by
  refine h.cases_listening (fun _ hl => ?_) fun _ hs => ?_
  · split
    · split
      · rename_i q
        exact (hl.endJoinWindow q).sound
      · exact h
    · exact h
  · rw [hs.join]; exact h

theorem State.Sound.isolationTimer (h : s.Sound) :
    (match expired s.now s.stc.isolationTimer with
      | some _ =>
        if s.stc.state = StationState.isolated then
          ({ s with stc := { s.stc with isolationTimer := none } } : State).enterJoining
        else s
      | none => s).Sound := by
  refine h.cases_listening (fun _ hl => ?_) fun _ hs => ?_
  · split
    · split
      · rename_i q
        obtain ⟨a1, a2, a3, a4, a5⟩ := hl.ctl
        have hhalt : s.stc.halt = .noHalt := by
          by_contra k; have := a3.1 k; rw [q] at this; cases this
        have hrd : s.stc.read = none := by
          cases k : s.stc.read with
          | none => rfl
          | some x => have := a4.1 (by rw [k]; rfl); rw [q] at this; cases this
        have hsp : s.speaking = false := by unfold State.speaking; rw [q]
        refine (State.Live.enterJoining (s := { s with stc := { s.stc with isolationTimer := none } })
          (c := { s.stc with isolationTimer := none, state := .joining, helloDone := false, joinTimer := none }) ?_).sound
        refine hl.setStc { s.stc with isolationTimer := none, state := .joining, helloDone := false, joinTimer := none }
          ⟨fun k => (by cases k), ?_, ?_, ?_, fun _ _ => a5 (by rw [q]; simp) (by rw [q]; simp)⟩ rfl rfl
          fun _ => hl.hush hsp
        · simp
        · simp [hhalt]
        · simp [hrd]
      · exact h
    · exact h
  · rw [hs.isolation]; exact h

/-! ### Resets -/

theorem State.assertReset_sound (s : State) (k : ResetKind) : (s.assertReset k).Sound := s.afterReset_sound _ _ _

theorem State.Sound.releaseReset (h : s.Sound) (up : Bool) (stood : Time) : (s.releaseReset up stood).Sound := by
  unfold State.releaseReset
  split
  · split
    · exact s.afterReset_sound _ _ _
    · exact h
  · exact h

/-- After a reset the lamps are OFF, as the selection gives them. -/
theorem State.afterReset_lamps (s : State) (cause : ResetKind) (lastHalt : HaltCause) (held : Option HeldReset) :
    (s.afterReset cause lastHalt held).lamps
      = (s.afterReset cause lastHalt held).bays.map (s.afterReset cause lastHalt held).selectPattern := rfl

end Sys2Proof.Machine
end

