-- ==== Sys2Proof/Laws/Counts.lean ====
section
/-! SUPPORT. What a request does at the health unit (R43, R60): QUEUE_DROP and SHIFT_DROP rise, and their class's capture
record takes them, a full one in its further count alone; every other counter and the SEVERE record stand. So it is for every operation that goes through a
request. -/

namespace Sys2Proof.Machine

variable {s : State}

/-- `k` differs from `h` at most in the counters of QUEUE_DROP and SHIFT_DROP and in the DEGRADE record, which has grown. -/
structure Health.Dropped (h k : Health) : Prop where
  severe : k.severe = h.severe
  degrade : Grown h.degrade k.degrade
  counter : ∀ n, n ≠ Counter.queueDrop.index → n ≠ Counter.shiftDrop.index → k.counters[n]? = h.counters[n]?

theorem Health.Dropped.refl (h : Health) : h.Dropped h := ⟨rfl, Grown.refl _, fun _ _ _ => rfl⟩

theorem Health.Dropped.trans {h k l : Health} (p : h.Dropped k) (q : k.Dropped l) : h.Dropped l :=
  ⟨q.severe.trans p.severe, p.degrade.trans q.degrade, fun n a b => (q.counter n a b).trans (p.counter n a b)⟩

/-- Another counter's rise leaves a counter as it stands. -/
theorem Health.rise_other (h : Health) (c : Counter) (amount n : Nat) (hn : n ≠ c.index) :
    (h.rise c amount).counters[n]? = h.counters[n]? := by
  unfold Health.rise
  rw [List.getElem?_modify]
  cases h.counters[n]? <;> simp [Ne.symm hn]

/-- A counter's own rise (R186). -/
theorem Health.rise_same (h : Health) (c : Counter) (amount : Nat) :
    (h.rise c amount).counters[c.index]? = (h.counters[c.index]?).map fun v => min 255 (v + amount) := by
  unfold Health.rise
  rw [List.getElem?_modify]
  cases h.counters[c.index]? <;> simp

/-- SHIFT_DROP for the records of a list moves its counter by their number, and no other (R43, R44, R186). -/
theorem Health.dropTakes_counter {h : Health} (hs : h.Sound) (l : List Take) (now : Time) (n : Nat) :
    (h.dropTakes l now).counters[n]? = (h.counters[n]?).map fun v =>
      if n = Counter.shiftDrop.index then min 255 (v + l.length) else v := by
  cases l with
  | nil =>
    show h.counters[n]? = _
    cases e : h.counters[n]? with
    | none => rfl
    | some v =>
      have := hs.2.1 v (List.mem_of_getElem? e)
      simp only [Option.map_some, List.length_nil, Nat.add_zero, Nat.min_eq_right this, ite_self]
  | cons t rest =>
    show (h.rise .shiftDrop (rest.length + 1)).counters[n]? = _
    by_cases k : n = Counter.shiftDrop.index
    · subst k
      rw [Health.rise_same]
      simp
    · rw [Health.rise_other _ _ _ _ k]
      simp [k]

/-- SHIFT_DROP for the records of a list counts once in a full DEGRADE record, and not at all for no records (R188). -/
theorem Health.dropTakes_degrade {h : Health} {c : Capture} (e : h.degrade = some c) (hc : c.further ≤ 255)
    (l : List Take) (now : Time) :
    (h.dropTakes l now).degrade = some { c with further := min 255 (c.further + if l = [] then 0 else 1) } := by
  cases l with
  | nil =>
    show h.degrade = _
    simp only [e, if_true, Nat.add_zero, Nat.min_eq_right hc]
  | cons t rest =>
    show captured h.degrade _ _ _ _ = _
    rw [e]
    rfl

theorem Health.Dropped.queueDrop (h : Health) (i a n : Nat) (t : Time) : h.Dropped (h.take .queueDrop i a n t) :=
  ⟨rfl, Grown.captured _ _ _ _ _, fun m k _ => h.rise_other .queueDrop n m k⟩

theorem Health.Dropped.shiftDrop (h : Health) (i a n : Nat) (t : Time) : h.Dropped (h.take .shiftDrop i a n t) :=
  ⟨rfl, Grown.captured _ _ _ _ _, fun m _ k => h.rise_other .shiftDrop n m k⟩

theorem State.beginDeferral_hlu (s : State) : s.beginDeferral.hlu = s.hlu := by
  obtain ⟨d, e⟩ := s.beginDeferral_eq
  rw [e]

theorem State.shortenDeferral_hlu (s : State) (before : Option TxEntry) : (s.shortenDeferral before).hlu = s.hlu := by
  obtain ⟨d, e⟩ := s.shortenDeferral_eq before
  rw [e]

theorem State.enqueue_dropped (s : State) (r : Request) : s.hlu.Dropped (s.enqueue r).1.hlu := by
  unfold State.enqueue
  split
  · dsimp only
    rw [State.shortenDeferral_hlu, State.beginDeferral_hlu]
    split
    · exact Health.Dropped.queueDrop ..
    · exact Health.Dropped.refl _
  · exact Health.Dropped.refl _

theorem State.loseSending_dropped (s : State) : s.hlu.Dropped s.loseSending.hlu := by
  unfold State.loseSending
  split
  · exact Health.Dropped.refl _
  · exact Health.Dropped.shiftDrop ..

theorem State.requestShift_dropped (s : State) : s.hlu.Dropped s.requestShift.hlu := by
  have h := s.enqueue_dropped .shift
  unfold State.requestShift
  split <;> rename_i e <;> rw [e] at h
  · exact h
  · exact h.trans (State.loseSending_dropped _)
  · exact h

theorem State.shiftLost_dropped (s : State) : s.hlu.Dropped s.shiftLost.hlu := by
  unfold State.shiftLost
  dsimp only
  split
  · exact s.loseSending_dropped.trans
      (State.requestShift_dropped { s.loseSending with pru := s.loseSending.pru.moveOver })
  · exact s.loseSending_dropped

theorem State.noticeDropped_dropped (s : State) (r : Request) : s.hlu.Dropped (s.noticeDropped r).hlu := by
  unfold State.noticeDropped
  split
  · exact s.shiftLost_dropped
  all_goals exact Health.Dropped.refl _

/-- A request moves QUEUE_DROP and SHIFT_DROP alone (R43, R60). -/
theorem State.request_dropped (s : State) (r : Request) : s.hlu.Dropped (s.request r).hlu := by
  have h := s.enqueue_dropped r
  unfold State.request
  split <;> rename_i e <;> rw [e] at h
  · exact h
  · exact h.trans (State.noticeDropped_dropped _ _)

theorem State.startDelta_dropped (s : State) : s.hlu.Dropped s.startDelta.hlu := by
  unfold State.startDelta State.deltaExpires
  dsimp only
  split
  · split
    · split
      · exact Health.Dropped.refl _
      · exact State.request_dropped { s with tly := { s.tly with deltaTimer := none } } _
    · exact Health.Dropped.refl _
  · exact Health.Dropped.refl _

theorem State.ownUpdate_dropped (s : State) (a : Nat) (f : OwnContribution → OwnContribution) :
    s.hlu.Dropped (s.ownUpdate a f).hlu := by
  unfold State.ownUpdate
  split
  · split
    · exact Health.Dropped.refl _
    · exact State.startDelta_dropped (s.modArticle a _)
  · exact Health.Dropped.refl _

theorem State.tellOwning_dropped (s : State) (a : Nat) (b : Bool) : s.hlu.Dropped (s.tellOwning a b).hlu :=
  s.ownUpdate_dropped a _

theorem State.requestAlert_dropped (s : State) (k : AlertKind) (a : Nat) : s.hlu.Dropped (s.requestAlert k a).hlu :=
  State.request_dropped (s.modAlert a _) _

theorem State.withdrawAlert_hlu (s : State) (a : Nat) : (s.withdrawAlert a).hlu = s.hlu := by
  unfold State.withdrawAlert State.withdraw State.endDeferralIfEmpty
  split
  · split
    · dsimp only [State.modAlert_hlu]
      split <;> rfl
    · rfl
  · rfl

/-- A claim moves QUEUE_DROP and SHIFT_DROP alone: it raises nothing of its own (R97). -/
theorem State.claimAt_dropped (s : State) (a : Nat) (l : Level) : s.hlu.Dropped (s.claimAt a l).hlu := by
  unfold State.claimAt
  split
  · exact ((s.modAlert a _).tellOwning_dropped a true).trans (State.requestAlert_dropped _ _ _)
  · exact Health.Dropped.refl _

end Sys2Proof.Machine
end

