-- ==== Sys2Proof/Laws/Flash.lean ====
section
/-! SUPPORT. The flash pins (R160): a read sequence begins and ends with FCS high and FCK low, FCS is low in between, and
the bytes sent on a data line most significant bit first are the bytes that its samples spell. -/

namespace Sys2Proof.Machine

@[simp] theorem State.endRead_fcs (s : State) : s.endRead.fcs = true := rfl

@[simp] theorem State.endRead_fck (s : State) : s.endRead.fck = some false := rfl

@[simp] theorem State.beginRead_fcs (s : State) (start count : Nat) : (s.beginRead start count).fcs = false := rfl

/-- What stands between the two levels at rest of a read sequence. -/
def FlashRead.busy (r : FlashRead) : List FlashPins :=
  FlashPins.selected :: ((fdoBits r.fdo).map some ++ List.replicate (8 * r.count) none).flatMap clockCycle
    ++ [FlashPins.selected]

theorem FlashRead.pins_eq (r : FlashRead) : r.pins = FlashPins.rest :: r.busy ++ [FlashPins.rest] := by
  unfold FlashRead.pins FlashRead.busy
  simp only [List.cons_append, List.nil_append, List.append_assoc]

/-- FCS is low from step 1 of a read sequence to step 6 (R160). -/
theorem FlashRead.busy_fcs (r : FlashRead) : ∀ p ∈ r.busy, p.fcs = false := by
  intro p hp
  unfold FlashRead.busy at hp
  simp only [List.cons_append, List.mem_cons, List.mem_append, List.mem_flatMap, List.not_mem_nil, or_false] at hp
  rcases hp with rfl | ⟨x, -, hx⟩ | rfl
  · rfl
  · unfold clockCycle at hx
    simp only [List.mem_cons, List.not_mem_nil, or_false] at hx
    rcases hx with rfl | rfl <;> rfl
  · rfl

/-- One byte: its eight bits spell it. -/
theorem byteOfBits_bits (b : Byte) : byteOfBits ((List.range 8).map fun i => b.getMsbD i) = b := by
  revert b
  decide +kernel

/-- Bytes sent most significant bit first are the bytes that the samples spell (R160). -/
theorem fdiBytes_fdoBits (l : List Byte) : fdiBytes l.length (fdoBits l) = l := by
  induction l with
  | nil => rfl
  | cons b rest ih =>
    have e : fdoBits (b :: rest) = ((List.range 8).map fun i => b.getMsbD i) ++ fdoBits rest := rfl
    have hl : ((List.range 8).map fun i => b.getMsbD i).length = 8 := by simp
    rw [List.length_cons, fdiBytes, e, List.take_left' hl, List.drop_left' hl, byteOfBits_bits, ih]

/-- With no flash fitted FDI reads 1 throughout, and every byte is 0xFF (R160). -/
theorem fdiBytes_ones (count : Nat) : fdiBytes count (List.replicate (8 * count) true) = List.replicate count 0xFF := by
  induction count with
  | zero => rfl
  | succ n ih =>
    have e : List.replicate (8 * (n + 1)) true = List.replicate 8 true ++ List.replicate (8 * n) true := by
      rw [List.replicate_append_replicate]
      congr 1
      omega
    rw [fdiBytes, e, List.take_left' (by simp), List.drop_left' (by simp), ih]
    rfl

end Sys2Proof.Machine
end

