-- ==== Sys2Proof/Laws/Pending.lean ====
section
/-! SUPPORT. The queue of waiting commands is the sender's: no operation of the station moves it. -/

namespace Sys2Proof.Machine

variable (s : State)

/-! ### Weighing and pairing -/

theorem State.addPending_queue (p : PendingTake) : (s.addPending p).pending = s.pending := by
  unfold State.addPending; split <;> [split; skip] <;> rfl

theorem State.requestShift_queue : s.requestShift.pending = s.pending := s.requestShift_sent.pending

theorem State.fillingReady_queue : s.fillingReady.pending = s.pending := by
  unfold State.fillingReady
  dsimp only
  split
  · exact State.requestShift_queue _
  · split <;> rfl

theorem State.joinBatch_queue (t : Take) : (s.joinBatch t).pending = s.pending := by
  unfold State.joinBatch
  split
  iterate 2
    · split
      · rfl
      · split
        · rfl
        · dsimp only; split
          · exact State.fillingReady_queue _
          · rfl
  all_goals rfl

theorem State.takeRecord_queue (t : Take) : (s.takeRecord t).pending = s.pending := by
  unfold State.takeRecord
  split
  · exact (State.joinBatch_queue _ _).trans (State.addPending_queue _ _)
  · rfl

theorem State.strayOn_queue (n : Nat) (r : Stray) : (s.strayOn n r).pending = s.pending := by
  unfold State.strayOn
  split
  · dsimp only; split <;> rfl
  · rfl

theorem State.handOff_queue (n : Nat) (b : Bay) (d : Int) : (s.handOff n b d).pending = s.pending := by
  unfold State.handOff State.applyChange
  split
  · rfl
  · split
    · exact State.strayOn_queue _ _ _
    · rfl
  · exact State.strayOn_queue _ _ _
  · exact State.takeRecord_queue _ _
  · rfl
  · rfl
  · rfl

theorem State.settle_queue (n : Nat) (b : Bay) : (s.settle n b).pending = s.pending := by
  unfold State.settle
  dsimp only
  rw [State.modBay_pending]
  split
  · rfl
  · split
    · rfl
    · exact State.handOff_queue _ _ _ _

theorem State.articleNotice_queue (a : Nat) (m : List (Nat × Freshness)) :
    (s.articleNotice a m).pending = s.pending := (s.articleNotice_steady a m).pending

theorem State.settleNotice_queue (a : Nat) : (s.settleNotice a).pending = s.pending := by
  have h : (s.ownUpdate a fun o => o.fromBays s.bays a).pending = s.pending := by
    unfold State.ownUpdate
    split
    · split
      · rfl
      · exact (State.startDelta_sent _).pending
    · rfl
  unfold State.settleNotice
  dsimp only
  split
  · split
    · exact h
    · exact (State.articleNotice_queue _ _ _).trans h
  · exact h

theorem State.noticeBay_queue (n : Nat) (b : Bay) : (s.noticeBay n b).pending = s.pending := by
  unfold State.noticeBay
  split
  · split
    · exact State.settleNotice_queue _ _
    · rfl
  · rfl

theorem State.takeSample_queue (n : Nat) (x : Option Int) : (s.takeSample n x).pending = s.pending := by
  unfold State.takeSample
  split
  · rfl
  · dsimp only
    rw [State.noticeBay_queue]
    split
    · rfl
    · rfl
    · rfl
    · exact State.settle_queue _ _ _

theorem State.settleTimeout_queue (n : Nat) : (s.settleTimeout n).pending = s.pending := by
  unfold State.settleTimeout
  split
  · rfl
  · split
    · rfl
    · dsimp only
      split
      · exact State.noticeBay_queue _ _ _
      · rfl

theorem State.takeShift_queue (source : Nat) (l : List Goods) : (s.takeShift source l).pending = s.pending := by
  unfold State.takeShift
  split
  · clear * -
    induction l generalizing s with
    | nil => rfl
    | cons g rest ih =>
      rw [List.foldl_cons, ih]
      unfold State.hearTake
      split
      · exact State.addPending_queue _ _
      · rfl
  · rfl

/-! ### Station states and resets -/

theorem State.enterJoining_queue : s.enterJoining.pending = s.pending := by
  unfold State.enterJoining
  dsimp only
  split
  · exact ((State.request_sent _ _).trans (State.request_sent _ _)).pending
  · refine (State.startDelta_sent _).pending.trans ?_
    exact ((State.request_sent _ _).trans (State.request_sent _ _)).pending

theorem State.claimTests_queue : s.claimTests.pending = s.pending :=
  (State.foldl_steady _ (fun s a => s.claimTest_steady a) _ _).pending

theorem State.endJoinWindow_queue : s.endJoinWindow.pending = s.pending := by
  unfold State.endJoinWindow
  dsimp only
  rw [State.claimTests_queue]
  exact (State.endFirstWindow_heard _).pending

theorem State.loseSending_queue : s.loseSending.pending = s.pending := s.loseSending_sent.pending

theorem State.emptyBatch_queue : s.emptyBatch.pending = s.pending := by
  unfold State.emptyBatch; dsimp only; split <;> rfl

theorem State.isolateBatch_queue (b : Bool) : (s.isolateBatch b).pending = s.pending := by
  have e := (s.isolateBatch_eq b).1
  rw [e]

theorem State.enterIsolated_queue : s.enterIsolated.pending = s.pending := by
  unfold State.enterIsolated
  dsimp only
  rw [State.isolateBatch_queue, (State.isolateAlerts_steady _).pending]
  obtain ⟨g, e, -⟩ := State.dropNotices_eq
    (({ s with stc := { s.stc with
          state := .isolated, joinTimer := none, helloDone := false,
          isolationTimer := some (s.now + seconds 10) } } : State).raise .isolation 0 0).emptyQueue s.bsc.requests
  rw [e]
  rfl

theorem State.takeRestart_queue (dst : Nat) : (s.takeRestart dst).pending = s.pending := by
  unfold State.takeRestart; split <;> rfl

theorem State.readStraps_queue (straps : BitVec 5) : (s.readStraps straps).pending = s.pending := by
  unfold State.readStraps
  split
  · dsimp only; split <;> rfl
  · rfl

theorem State.endHeaderRead_queue (bytes : List Byte) : (s.endHeaderRead bytes).pending = s.pending := by
  unfold State.endHeaderRead
  split
  · split
    · dsimp only; split <;> rfl
    · rfl
  · rfl

theorem State.endBodyRead_queue (bytes : List Byte) : (s.endBodyRead bytes).pending = s.pending := by
  unfold State.endBodyRead
  split
  · split
    · dsimp only
      split
      · rfl
      · exact State.enterJoining_queue _
    · rfl
  · rfl

/-! ### The bus controller -/

theorem State.endDeferral_queue : s.endDeferral.pending = s.pending := by
  unfold State.endDeferral
  split
  · split
    · unfold State.startAttempt
      split
      · rfl
      · dsimp only; split <;> rfl
    · rfl
  · rfl

theorem State.shiftCompleted_queue : s.shiftCompleted.pending = s.pending := by
  unfold State.shiftCompleted
  dsimp only
  split
  · exact State.requestShift_queue _
  · rfl

theorem State.noticeCompleted_queue (n : Completion) : (s.noticeCompleted n).pending = s.pending := by
  unfold State.noticeCompleted
  split
  · unfold State.helloCompleted; split <;> rfl
  · rfl
  · exact State.shiftCompleted_queue _
  · exact (State.alertCompleted_steady _ _ _ _).pending
  · rfl

theorem State.completeAttempt_queue : s.completeAttempt.pending = s.pending := by
  unfold State.completeAttempt
  split
  · rfl
  · dsimp only
    rw [State.noticeCompleted_queue]
    unfold State.leaveFlight
    dsimp only
    split <;> rfl

theorem State.countAbandon_queue : s.countAbandon.pending = s.pending := by
  unfold State.countAbandon
  dsimp only
  split
  · exact State.enterIsolated_queue _
  · rfl

theorem State.beginDeferral_queue : s.beginDeferral.pending = s.pending := s.beginDeferral_sent.pending

theorem State.collide_queue : s.collide.pending = s.pending := by
  unfold State.collide
  split
  · rfl
  · dsimp only
    split
    · exact State.beginDeferral_queue _
    · unfold State.abandon
      dsimp only
      rw [State.beginDeferral_queue, State.countAbandon_queue, (State.noticeAbandoned_steady _ _ _).pending]
      rfl

theorem State.dispatch_queue (only : Option Kind) (f : Frame) : (s.dispatch only f).pending = s.pending := by
  unfold State.dispatch
  split
  · split
    · exact (State.takeTally_heard _ _ _ _ _).pending
    · exact State.takeShift_queue _ _ _
    · exact (State.takeReport_steady _ _ _).pending
    · exact (State.takeReport_steady _ _ _).pending
    · exact (State.takeClear_steady _ _ _ _).pending
    · exact (State.takeAccept_steady _ _ _ _).pending
    · exact (State.takeHello_heard _ _ _).pending
    · unfold State.takeQuery; split
      · exact (State.request_sent _ _).pending
      · rfl
    · exact State.takeRestart_queue _ _
  · rfl

theorem State.receiveFrame_queue (only : Option Kind) (r : Receiver) (own : Bool) :
    (s.receiveFrame only r own).pending = s.pending := by
  unfold State.receiveFrame State.filterFrame
  split
  · rfl
  · split
    · rfl
    · rfl
    · split
      · rfl
      · split
        · exact State.dispatch_queue _ _ _
        · rfl
    all_goals
      split
      · rfl
      · split
        · rfl
        · split
          · rfl
          · exact State.dispatch_queue _ _ _

theorem State.lineIdle_queue : s.lineIdle.pending = s.pending := by
  unfold State.lineIdle
  split
  · dsimp only
    rw [State.beginDeferral_queue]
    split
    · rfl
    · exact State.receiveFrame_queue _ _ _ _
  · rfl

/-! ### Timers -/

theorem State.claimHoldExpires_queue (a : Nat) : (s.claimHoldExpires a).pending = s.pending := by
  unfold State.claimHoldExpires
  split
  · rfl
  · split
    · rfl
    · split
      · split
        · exact (State.becomeOwner_steady _ _ _).pending
        · exact (State.requestAlert_steady _ _ _).pending
      · rfl

theorem State.repeatExpires_queue (a : Nat) : (s.repeatExpires a).pending = s.pending := by
  unfold State.repeatExpires
  split
  · rfl
  · split
    · rfl
    · exact (State.requestAlert_steady _ _ _).pending

theorem State.escalationExpires_queue (a : Nat) : (s.escalationExpires a).pending = s.pending := by
  unfold State.escalationExpires
  split
  · rfl
  · split
    · rfl
    · split
      · exact (State.requestAlert_steady _ _ _).pending
      · rfl

theorem State.takeoverExpires_queue (a : Nat) : (s.takeoverExpires a).pending = s.pending := by
  unfold State.takeoverExpires
  split
  · rfl
  · split
    · rfl
    · split
      · split
        · exact (State.claim_steady _ _).pending
        · exact (State.enterQuiet_steady _ _).pending
      · rfl

theorem State.beaconHello_queue : s.beaconHello.pending = s.pending := by
  unfold State.beaconHello
  split
  · exact (State.request_sent _ _).pending
  · rfl

theorem State.beaconTally_queue (e : Time) : (s.beaconTally e).pending = s.pending :=
  (State.request_sent _ _).pending

theorem State.beaconSweep_queue : s.beaconSweep.pending = s.pending :=
  (State.foldl_steady _ (fun s a => s.sweepRecord_steady a) _ _).pending

/-- What every command's action leaves of the queue, its event does too. -/
theorem State.event_queue (dt : Time) (act : State → State) (h : ∀ u : State, (act u).pending = u.pending) :
    ∃ t, s.event dt act = .next t ∧ t.pending = s.pending := by
  refine ⟨_, rfl, ?_⟩
  split
  · rfl
  · exact h _

end Sys2Proof.Machine
end

