-- ==== Sys2Proof/WellFormed.lean ====
section
/-! DEFINITION. Which commands the spec's ranges allow: bays 1 to 16 (R3), stations 1 to 30 (00_scope.md
section 5), articles 1 to 16,777,215 (R67), places of a list of 16 (R37), frames of the row's own kind (R196) and
flash reads of the length asked for (R161, R162). `exec` gives every command a meaning; an ill-formed one names
nothing the station has and changes nothing but the time, or is refused by the receive filter (log 17). -/

namespace Sys2Proof

/-- The bay numbers are 1 to 16. -/
def bayInRange (bay : Nat) : Bool := decide (1 ≤ bay) && decide (bay ≤ 16)

/-- The article numbers are 1 to 16,777,215. -/
def articleInRange (article : Nat) : Bool := decide (1 ≤ article) && decide (article ≤ 16777215)

/-- The station numbers are 1 to 30. -/
def stationInRange (station : Nat) : Bool := decide (1 ≤ station) && decide (station ≤ 30)

/-- The characters carry `code` as the KIND byte at offset 1 of the frame (R196). -/
def carriesKind (code : Byte) (heard : List Character) : Bool :=
  match heard with
  | _ :: k :: _ => decide (k.byte = code)
  | _ => false

/-- The lengths a body read can have: an image of 356 to 656 bytes in steps of 20, less its 16-byte header. -/
def bodyLengthAllowed (n : Nat) : Bool := decide (340 ≤ n) && decide (n ≤ 640) && decide (n % 20 = 0)

/-- A command within the spec's ranges. -/
def Instr.wf : Instr → Bool
  | .sampleArrival _ bay _ => bayInRange bay
  | .settleTimeout _ bay => bayInRange bay
  | .readyTimer _ => true
  | .pendingExpiry _ position => decide (position < 16)
  | .busBusy _ _ => true
  | .busIdle _ => true
  | .deferralEnd _ => true
  | .txCollision _ => true
  | .attemptComplete _ => true
  | .tally _ heard => carriesKind 0x32 heard
  | .shift _ heard => carriesKind 0x33 heard
  | .claim _ heard => carriesKind 0x34 heard
  | .alert _ heard => carriesKind 0x35 heard
  | .clear _ heard => carriesKind 0x36 heard
  | .accept _ heard => carriesKind 0x37 heard
  | .hello _ heard => carriesKind 0x31 heard
  | .query _ heard => carriesKind 0x38 heard
  | .restart _ heard => carriesKind 0x39 heard
  | .claimHold _ article => articleInRange article
  | .repeatTimer _ article => articleInRange article
  | .escalationTimer _ article => articleInRange article
  | .takeoverDelay _ article => articleInRange article
  | .staleTimer _ station => stationInRange station
  | .beaconTick _ => true
  | .deltaTimer _ => true
  | .joinTimer _ => true
  | .isolationTimer _ => true
  | .powerReset => true
  | .pinReset => true
  | .resetRelease _ _ => true
  | .strapRead _ _ => true
  | .headerRead _ bytes => decide (bytes.length = 16)
  | .bodyRead _ bytes => bodyLengthAllowed bytes.length

end Sys2Proof
end

