-- ==== Sys2Proof/Tests/Slice0.lean ====
section
/-! SUPPORT. The model's own tests: ill-formed commands refused by each check, the manual's check values, one-step tests on
a small station, and, for every obligation with hypotheses, a witness that concrete values meet them all. -/

namespace Sys2Proof.Tests

set_option Elab.async false

open Sys2Proof Sys2Proof.Machine

/-! ### A small station: number 5, one article of three holders, one bay -/

/-- Bay 1: article 100, 200 g tare, SETTLED at 2200 g with 20 units. -/
def bayOne : Bay :=
  { cfg := { article := 100, tare := 200, tolerance := 10, capacity := 20000, disturbBand := 5, settleBand := 3
             blankCount := 2, confirmCount := 3, settleTimeout := seconds 10 }
    state := .settled, settled := some 2200, reference := none, candidate := none, runCount := 0, runSum := 0
    blankRemaining := 0, invalidRun := 0, disturbStart := 0, settleTimer := none, units := 20, strays := [] }

/-- Article 100: 100 g each, held by the stations 5, 7 and 9; 20 + 3 + 4 units. -/
def articleOne (reorder : Nat) : Article :=
  { number := 100, unitWeight := 100, reorder := reorder, margin := 5, holders := [5, 7, 9], digest := 0xABCD
    disputed := false
    own := { units := 20, flags := { fault := false, unsteady := false, stray := false, owning := false
                                     disputed := false } }
    peers := [{ holder := 7, units := 3, state := .fresh }, { holder := 9, units := 4, state := .fresh }]
    aggregate := 27, coverage := .complete, changed := false }

/-- The station in RUNNING with this article record and alert record, and this bay. -/
def station (r : Article) (a : Alert) (b : Bay) : State :=
  ({ State.reset with
     bays := b :: List.replicate 15 Bay.reset
     slots := [{ art := { r with own := { r.own with flags := { r.own.flags with owning := a.state.owning } } }
                 alert := a }]
     stc := { State.reset.stc with state := .running, number := 5, helloDone := true }
     pru := { Pairing.reset with enabled := true, window := 60000000 }
     tly := { TallyUnit.reset with beaconPeriod := 1000000, fullInterval := 4, staleTime := 3000000, firstWindow := true }
     alu := { repeatInterval := 10000000, escalationTime := 60000000 }
     now := 1000, bsc := { BusController.reset with busy := false } } : State).showLamps

/-- The station at rest: the aggregate of 27 is well above the reorder point. -/
def bench : State := station (articleOne 10) Alert.initial bayOne

/-- An alert record that the station owns, at epoch 4. -/
def owned : Alert :=
  { Alert.initial with state := .owner, level := .low, epoch := 4, known := true, owner := some 5 }

/-- An alert record that is being claimed, at epoch 4. -/
def claimed : Alert := { owned with state := .claiming }

/-- An alert record that station 7 owns, at epoch 4. -/
def followed : Alert := { owned with state := .follower, owner := some 7 }

/-- The station with an alert record, its aggregate of 27 at or below the reorder point. -/
def short (a : Alert) : State := station (articleOne 30) a bayOne

/-- The state a command leaves. -/
def after (c : Instr) (s : State) : State :=
  match exec c s with
  | .next t => t
  | .fault _ => s
  | .refused _ => s

/-- A frame from station 7 to all. -/
def fromSeven (k : Kind) (payload : List Byte) : Frame := { kind := k, src := 7, dst := 0, seq := 1, payload := payload }

/-- A queued request with failed attempts. -/
def queued (r : Request) (failed : Nat) : TxEntry := { req := r, time := 900, taken := 0, failed := failed }

/-- An attempt on the wire. -/
def onWire (r : Request) (failed : Nat) (followOn : Option TxEntry) : Flight :=
  { entry := queued r failed, frame := [], moved := [], followOn := followOn }

/-- The station with an attempt in progress. -/
def sendingOf (f : Flight) (s : State) : State := { s with bsc := { s.bsc with busy := true, flight := some f } }

/-! ### Ill-formed commands, one for each check -/

theorem test_wf_accepts : (Instr.sampleArrival 40000 16 (.weight 5)).wf = true
    ∧ (Instr.pendingExpiry 0 15).wf = true ∧ (Instr.claimHold 0 16777215).wf = true ∧ (Instr.staleTimer 0 30).wf = true
    ∧ (Instr.query 0 (fromSeven .query []).characters).wf = true
    ∧ (Instr.bodyRead 0 (List.replicate 340 0)).wf = true := by decide +kernel

theorem test_wf_refuses_bay : (Instr.sampleArrival 40000 0 (.weight 5)).wf = false
    ∧ (Instr.sampleArrival 40000 17 (.weight 5)).wf = false ∧ (Instr.settleTimeout 0 0).wf = false := by decide +kernel

theorem test_wf_refuses_position : (Instr.pendingExpiry 0 16).wf = false := by decide +kernel

theorem test_wf_refuses_kind :
    [Kind.hello, .tally, .shift, .claim, .alert, .clear, .accept, .query].map
        (fun k => (k.command 0 (fromSeven .restart []).characters).wf) = List.replicate 8 false
      ∧ (Instr.restart 0 (fromSeven .query []).characters).wf = false ∧ (Instr.restart 0 []).wf = false := by
  decide +kernel

theorem test_wf_refuses_article : (Instr.claimHold 0 0).wf = false ∧ (Instr.repeatTimer 0 0).wf = false
    ∧ (Instr.escalationTimer 0 0).wf = false ∧ (Instr.takeoverDelay 0 16777216).wf = false := by decide +kernel

theorem test_wf_refuses_station : (Instr.staleTimer 0 0).wf = false ∧ (Instr.staleTimer 0 31).wf = false := by
  decide +kernel

theorem test_wf_refuses_header_length : (Instr.headerRead 0 []).wf = false := by decide +kernel

theorem test_wf_refuses_body_length : (Instr.bodyRead 0 (List.replicate 339 0)).wf = false
    ∧ (Instr.bodyRead 0 (List.replicate 341 0)).wf = false ∧ (Instr.bodyRead 0 (List.replicate 660 0)).wf = false := by
  decide +kernel

/-! ### Words and layouts -/

theorem test_no_word_spells_a_command : decodeTableWord 8 0 = none ∧ State.reset.withFetchWord 8 0 = State.reset := by
  decide +kernel

/-- The check value of the manual (R199). -/
theorem test_crc_check_value : crc16 ([0x31, 0x32, 0x33, 0x34, 0x35, 0x36, 0x37, 0x38, 0x39] : List Byte) = 0x29B1 := by
  decide +kernel

/-- A CLAIM of article 100 at epoch 4, level LOW, byte by byte (R196, R198). -/
theorem test_claim_bytes :
    ((short claimed).buildFrame (.alertFrame .claim 100)).body
      = [0x0D, 0x34, 0x05, 0x00, 0x00, 0x00, 0x00, 0x64, 0x00, 0x04, 0x01] := by decide +kernel

/-- The fixed command bytes of a flash read (R160). -/
theorem test_flash_command : (flashCommand 16).take 4 = [0x0B, 0x00, 0x00, 0x10] := by decide +kernel

/-- 2.5 rounds to 3 and −2.5 to −2 (R1). -/
theorem test_rounded_halves : rounded 5 2 = 3 ∧ rounded (-5) 2 = -2 := by decide +kernel

/-! ### One-step tests -/

theorem test_sample_disturbs :
    ((after (.sampleArrival 40000 1 (.weight 2206)) bench).bay? 1).map Bay.state = some .disturbed
      ∧ ((after (.sampleArrival 40000 1 (.weight 2205)) bench).bay? 1).map Bay.state = some .settled := by decide +kernel

theorem test_take_of_two_units :
    let s := { bench with bays := mod1 bench.bays 1 fun b =>
      { b with state := .settling, reference := some 2200, candidate := some 2000, runCount := 2, runSum := 4000 } }
    ((after (.sampleArrival 40000 1 (.weight 2000)) s).bay? 1).map Bay.units = some 18
      ∧ (after (.sampleArrival 40000 1 (.weight 2000)) s).pru.filling.map Take.units = [2] := by decide +kernel

theorem test_tally_tells_the_aggregate :
    ((after (.tally 10 (fromSeven .tally [0x01, 0, 0, 100, 0, 50, 0x20, 0, 0]).characters) bench).slot? 100).map
      (fun sl => sl.art.aggregate) = some 74 := by decide +kernel

theorem test_claim_is_followed :
    ((after (.claim 10 (fromSeven .claim [0, 0, 100, 0, 9, 1]).characters) bench).slot? 100).map
      (fun sl => (sl.alert.state, sl.alert.owner, sl.alert.epoch)) = some (.follower, some 7, 9) := by decide +kernel

theorem test_accept_is_recorded :
    ((after (.accept 10 (fromSeven .accept [0, 0, 100, 0, 4]).characters) (short owned)).slot? 100).map
      (fun sl => (sl.alert.accepted, sl.alert.terminal)) = some (true, some 7) := by decide +kernel

theorem test_beacon_requests_a_delta :
    (after (.beaconTick 1000000) { bench with tly := { bench.tly with beaconTimer := some 1001000 } }).bsc.waiting.map
      TxEntry.req = [.tally .delta] := by decide +kernel

theorem test_tick_not_due :
    (after (.beaconTick 999999) { bench with tly := { bench.tly with beaconTimer := some 1001000 } }).bsc.waiting
      = [] := by decide +kernel

theorem test_restart_addressed :
    (after (.restart 10 ({ fromSeven .restart [] with dst := 5 }).characters) bench).stc
      = Controller.reset .restart .noHalt := by decide +kernel

/-- Station 7's entry without OWNING ends the episode while the aggregate is still 9, at or below the reorder point of 10, so
the record claims at LOW; the frame's own 12, in the dead band, comes with the notice and leaves it CLAIMING (R78, R92). -/
theorem test_entries_before_aggregates :
    let r := { articleOne 10 with
      margin := 6, aggregate := 9, own := { (articleOne 10).own with units := 2 } }
    ((after (.tally 10 (fromSeven .tally [0x01, 0, 0, 100, 0, 6, 0x00, 0, 4]).characters)
        (station r followed bayOne)).slot? 100).map
      (fun sl => (sl.alert.state, sl.alert.level, sl.art.aggregate)) = some (.claiming, .low, 12) := by decide +kernel

/-- A DELTA that merges into the TALLY at the head leaves a deferral of the length of SHIFT's class alone; a HELLO, of lower
class, becomes the head and shortens it (R51). -/
theorem test_only_a_new_head_shortens :
    let s := { bench with bsc := { bench.bsc with
      waiting := [queued (.tally .delta) 0], deferral := some { start := 900, due := 11220 } } }
    (s.request (.tally .delta)).bsc.deferral = some { start := 900, due := 11220 }
      ∧ (s.request .hello).bsc.deferral = some { start := 900, due := 6260 } := by decide +kernel

/-- A read sequence begins and ends with FCS high and FCK low, and clocks each bit once (R160). -/
theorem test_flash_pins :
    let r : FlashRead := { fdo := [0x0B], start := 0, count := 1 }
    r.pins.head? = some FlashPins.rest ∧ r.pins.getLast? = some FlashPins.rest
      ∧ (r.pins.filter FlashPins.fck).map FlashPins.fdo
          = [0, 0, 0, 0, 1, 0, 1, 1].map (fun n => some (n == 1)) ++ List.replicate 8 none := by decide +kernel

/-- The COMPLETED notice of a TALLY names the SEQ its frame carried, that of another frame none (R62). -/
theorem test_completion_names_the_sequence :
    let s := { bench with bsc := { bench.bsc with seq := 7 } }
    (({ onWire (.tally .delta) 0 none with frame := (s.buildFrame (.tally .delta)).bytes } : Flight).completion.seq
        = some 7) ∧ (onWire .shift 0 none).completion.seq = none := by decide +kernel

/-- The level of a CLAIM at NONE is LOW or EMPTY on the wire, and the frame takes one free choice (R198; log 20). -/
theorem test_level_none_is_not_sent (s : State) :
    (s.sentLevel .none = .low ∨ s.sentLevel .none = .empty)
      ∧ s.levelOpen (.alertFrame .clear 100) = false := by
  refine ⟨?_, rfl⟩
  unfold State.sentLevel
  split <;> simp

theorem test_bad_strap :
    (after (.strapRead 2000 31) State.reset).stc.halt = .badStrap
      ∧ (after (.strapRead 2000 30) State.reset).stc.state = .loading
      ∧ (after (.strapRead 1999 30) State.reset).stc.state = .strap := by decide +kernel

/-! ### The invariant on concrete states -/

/-- Whether the owner field fits is decided case by case. -/
@[reducible] def ownerFitsDecidable (own : Nat) (holders : List Nat) (r : Alert) :
    Decidable (r.OwnerFits own holders) := by
  unfold Alert.OwnerFits
  split <;> exact inferInstance

/-- Whether the records of an article are sound is decided part by part. -/
@[reducible] def slotDecidable (own : Nat) (bays : List Bay) (sl : Slot) :
    Decidable (sl.Sound own ∧ sl.ShareFits bays) := by
  haveI := ownerFitsDecidable
  unfold Slot.ShareFits Slot.Sound Alert.TimersFit Article.Sound
  exact inferInstance

/-- Whether a bay is sound is decided part by part. -/
@[reducible] def bayDecidable (unitWeight : Nat → Nat) (b : Bay) : Decidable (b.Sound unitWeight) := by
  unfold Bay.Sound
  exact inferInstance

/-- Whether a station is sound is decided unit by unit. -/
@[reducible] def invDecidable (s : State) : Decidable s.Inv := by
  haveI := slotDecidable s.ownNumber s.bays
  haveI := bayDecidable s.unitWeight
  haveI : Decidable s.hlu.Sound := by unfold Health.Sound; exact inferInstance
  haveI : Decidable s.bsc.Sound := by unfold BusController.Sound keysDistinct; exact inferInstance
  haveI : Decidable s.pru.Sound := by unfold Pairing.Sound; exact inferInstance
  haveI : Decidable s.stc.Sound := by unfold Controller.Sound; exact inferInstance
  haveI : Decidable s.bsc.Silent := by unfold BusController.Silent; exact inferInstance
  haveI : Decidable s.Blank := by unfold State.Blank; exact inferInstance
  haveI : Decidable s.Frozen := by unfold State.Frozen; exact inferInstance
  unfold State.Inv State.Sound
  exact inferInstance

/-- The invariant holds where its check says so. -/
theorem inv_of (s : State) (h : (@decide s.Inv (invDecidable s)) = true) : s.Inv :=
  @of_decide_eq_true _ (invDecidable s) h

/-- The hypotheses on a frame taken, decided. -/
@[reducible] def takesDecidable (s : State) (heard : List Character) (f : Frame) : Decidable (s.takes heard f) := by
  unfold State.takes
  exact inferInstance

/-- A frame is taken where its check says so. -/
theorem takes_of (s : State) (heard : List Character) (f : Frame)
    (h : (@decide (s.takes heard f) (takesDecidable s heard f)) = true) : s.takes heard f :=
  @of_decide_eq_true _ (takesDecidable s heard f) h

/-- A record of article 100 that meets a condition. -/
theorem met {s : State} {p : Slot → Prop} [∀ sl, Decidable (p sl)]
    (h : (s.slot? 100).any (fun sl => decide (p sl)) = true) : ∃ sl, s.slot? 100 = some sl ∧ p sl := by
  rw [Option.any_eq_true] at h
  obtain ⟨sl, e, k⟩ := h
  exact ⟨sl, e, of_decide_eq_true k⟩

theorem test_bench_inv : bench.Inv := inv_of _ (by decide +kernel)

/-! ### Witnesses: concrete values that meet every hypothesis of an obligation -/

theorem witness_StepRunsTheFrontCommand :
    ({ bench with pending := [.busIdle 5, .pinReset] } : State).pending = [.busIdle 5, .pinReset]
      ∧ bench.pending = [] := ⟨rfl, rfl⟩

theorem witness_InvariantKept : ∃ t, bench.Inv ∧ step { bench with pending := [.busIdle 5] } = .next t
    ∧ ({ bench with pending := [.busIdle 5] } : State).Inv :=
  ⟨_, test_bench_inv, rfl, inv_of _ (by decide +kernel)⟩

theorem witness_LampsFollowTheSelection :
    ∃ t, ({ bench with pending := [.pinReset] } : State).lamps
        = ({ bench with pending := [.pinReset] } : State).bays.map
            ({ bench with pending := [.pinReset] } : State).selectPattern
      ∧ step { bench with pending := [.pinReset] } = .next t := ⟨_, by decide +kernel, rfl⟩

theorem witness_PatternsRunOnTheTimebase :
    (bench.held = none ∧ nth1 bench.lamps 1 = some .off ∧ nth1 bench.lamps 16 = some .off ∧ (0 : Nat) < 1000
        ∧ (999 : Nat) < 1000)
      ∧ ({ kinds := [.power], haltAtFirst := .noHalt } : HeldReset).released false 20000 = true
      ∧ bench.takes ({ fromSeven .restart [] with dst := 5 }).characters { fromSeven .restart [] with dst := 5 }
      ∧ 5 = bench.ownNumber := by
  refine ⟨?_, ?_, takes_of _ _ _ ?_, ?_⟩ <;> decide +kernel

theorem witness_TargetLevelByAggregate :
    (1 : Nat) ≤ 1 ∧ (0 : Nat) = 0 ∧ ((1 : Nat) ≤ 10 ∧ 10 ≤ 10) ∧ ((1 : Nat) ≤ 15 ∧ 10 + 5 ≤ 15)
      ∧ ((10 : Nat) < 14 ∧ 14 < 10 + 5) := by decide

theorem witness_EventsAreCountedAndCaptured :
    FaultCode.shiftDrop.severity = .degrade ∧ FaultCode.isolation.severity = .severe
      ∧ FaultCode.rxCrc.severity ≠ .degrade ∧ FaultCode.rxCrc.severity ≠ .severe ∧ bench.hlu.degrade = none
      ∧ (bench.raise .pairEvict 7 3).hlu.degrade
          = some { code := .pairEvict, subject := 7, article := 3, time := 1000, further := 0 } := by decide +kernel

theorem witness_UntakenSampleChangesTheChannelOnly :
    bench.held = none ∧ (∃ b, bench.bay? 2 = some b ∧ b.state = .vacant) ∧ State.reset.held = none
      ∧ State.reset.listening = false ∧ 15 < bench.channels.length := by
  refine ⟨?_, ⟨Bay.reset, ?_⟩, ?_⟩ <;> decide +kernel

/-- The station with bay 1 changed. -/
def withBay (f : Bay → Bay) : State := station (articleOne 10) Alert.initial (f bayOne)

theorem witness_BadSamplesFaultOrOverload :
    (bench.held = none ∧ bench.listening = true ∧ bench.bay? 1 = some bayOne ∧ bayOne.state ≠ .vacant)
      ∧ (sampleOf .bridgeFault = none ∧ (bayOne.invalidRun < 2 ∨ bayOne.state = .fault))
      ∧ ((withBay fun b => { b with invalidRun := 2 }).bay? 1 = some { bayOne with invalidRun := 2 }
        ∧ (withBay fun b => { b with invalidRun := 2 }).listening = true)
      ∧ (sampleOf (.weight 20001) = some 20001 ∧ (bayOne.cfg.capacity : Int) < 20001 ∧ bayOne.state ≠ .overload)
      ∧ (withBay fun b => { b with state := .overload }).bay? 1 = some { bayOne with state := .overload } := by
  decide +kernel

theorem witness_SampleDisturbsOrConfirms_settled :
    (bench.bay? 1 = some bayOne ∧ sampleOf (.weight 2206) = some 2206 ∧ (2206 : Int) ≤ bayOne.cfg.capacity
        ∧ bayOne.settled = some 2200 ∧ bayOne.cfg.disturbBand < ((2206 : Int) - 2200).natAbs)
      ∧ (sampleOf (.weight 2205) = some 2205 ∧ ((2205 : Int) - 2200).natAbs ≤ bayOne.cfg.disturbBand)
      ∧ ((withBay fun b => { b with state := .fault, invalidRun := 3 }).bay? 1
          = some { bayOne with state := .fault, invalidRun := 3 }
        ∧ sampleOf (.weight 20000) = some 20000 ∧ (20000 : Int) ≤ bayOne.cfg.capacity) := by decide +kernel

/-- Bay 1 in SETTLING at a candidate of 2000 grams, one sample before the confirm count. -/
def almost (reference : Option Int) : Bay :=
  { bayOne with state := .settling, reference := reference, candidate := some 2000, runCount := 2, runSum := 4000 }

theorem witness_SampleDisturbsOrConfirms_running :
    ((withBay fun b => { b with state := .disturbed, blankRemaining := 1 }).bay? 1
          = some { bayOne with state := .disturbed, blankRemaining := 1 } ∧ bayOne.candidate = none)
      ∧ ((withBay fun b => { b with state := .unsteady }).bay? 1 = some { bayOne with state := .unsteady }
        ∧ bayOne.blankRemaining = 0 ∧ sampleOf (.weight 2000) = some 2000 ∧ (2000 : Int) ≤ bayOne.cfg.capacity)
      ∧ ((withBay fun _ => almost none).bay? 1 = some (almost none) ∧ (almost none).cfg.settleBand < ((2004 : Int) - 2000).natAbs
        ∧ sampleOf (.weight 2004) = some 2004)
      ∧ ((withBay fun _ => { almost none with runCount := 1, runSum := 2000 }).bay? 1
          = some { almost none with runCount := 1, runSum := 2000 }
        ∧ ((2003 : Int) - 2000).natAbs ≤ bayOne.cfg.settleBand ∧ 1 + 1 ≠ bayOne.cfg.confirmCount) := by decide +kernel

theorem witness_SettleStoresTheMean :
    ((withBay fun _ => almost (some 2010)).bay? 1 = some (almost (some 2010))
        ∧ (withBay fun _ => almost (some 2010)).listening = true ∧ (withBay fun _ => almost (some 2010)).held = none
        ∧ sampleOf (.weight 2000) = some 2000 ∧ (2000 : Int) ≤ bayOne.cfg.capacity
        ∧ ((2000 : Int) - 2000).natAbs ≤ bayOne.cfg.settleBand
        ∧ (almost (some 2010)).runCount + 1 = bayOne.cfg.confirmCount)
      ∧ ∀ r, (almost (some 2010)).reference = some r →
          (rounded ((almost (some 2010)).runSum + 2000) bayOne.cfg.confirmCount - r).natAbs ≤ bayOne.cfg.tolerance := by
  refine ⟨by decide +kernel, fun r h => ?_⟩
  obtain rfl : (2010 : Int) = r := by simpa [almost] using h
  decide +kernel

theorem witness_SettleStoresTheMean_notice :
    let fewer := withBay fun b => { b with units := 18 }
    let unsteady := withBay fun b => { b with state := .unsteady }
    let told (s : State) : State := s.ownUpdate 100 fun o => o.fromBays s.bays 100
    (bench.bay? 1 = some bayOne ∧ bayOne.cfg.article = 100)
      ∧ ((withBay fun b => { b with cfg := { b.cfg with article := 7 } }).slot? 7 = none)
      ∧ (fewer.bay? 1 = some { bayOne with units := 18 } ∧ bayOne.units ≠ 18 ∧ fewer.aggregate 100 = 27
        ∧ (told fewer).aggregate 100 = 25)
      ∧ (unsteady.bay? 1 = some { bayOne with state := .unsteady } ∧ (told unsteady).aggregate 100 = 27) := by decide +kernel

theorem witness_SettleStoresTheMean_share :
    let due (now : Time) (t : Option Time) : State := { bench with now := now, tly := { bench.tly with lastCompletion := t } }
    (∃ sl, bench.slot? 100 = some sl ∧ ({ sl.art.own with units := 20 } : OwnContribution) = sl.art.own
        ∧ ({ sl.art.own with units := 18 } : OwnContribution) ≠ sl.art.own)
      ∧ (({ bench with stc := { bench.stc with state := .isolated } } : State).speaking = false
        ∧ ({ bench.tly with deltaTimer := some 1010 } : TallyUnit).deltaTimer ≠ none)
      ∧ (bench.speaking = true ∧ bench.tly.deltaTimer = none ∧ bench.tly.lastCompletion = none)
      ∧ ((due 250900 (some 900)).tly.lastCompletion = some 900 ∧ 900 + 250000 ≤ (due 250900 (some 900)).now)
      ∧ (due 250899 (some 900)).now < 900 + 250000 := by
  refine ⟨met ?_, ?_⟩ <;> decide +kernel

theorem witness_SettleClassifiesALargerChange :
    (withBay fun _ => almost (some 2011)).bay? 1 = some (almost (some 2011))
      ∧ (withBay fun _ => almost (some 2011)).listening = true ∧ (almost (some 2011)).state = .settling
      ∧ (almost (some 2011)).candidate = some 2000 ∧ (almost (some 2011)).runCount + 1 = bayOne.cfg.confirmCount
      ∧ (almost (some 2011)).reference = some 2011
      ∧ bayOne.cfg.tolerance < (rounded ((almost (some 2011)).runSum + 2000) bayOne.cfg.confirmCount - 2011).natAbs := by
  decide +kernel

theorem witness_SettleTimeoutMakesUnsteady :
    (withBay fun b => { b with state := .disturbed, settleTimer := some 1010 }).bay? 1
        = some { bayOne with state := .disturbed, settleTimer := some 1010 }
      ∧ (withBay fun b => { b with state := .disturbed, settleTimer := some 1010 }).held = none
      ∧ 1010 ≤ (withBay fun b => { b with state := .disturbed, settleTimer := some 1010 }).now + 10 := by decide +kernel

theorem witness_GainIsClassifiedInOrder : (0 : Int) < 1
    ∧ classify 100 100 100 10 20 [] bench.pru = .add
    ∧ classify 250 100 100 10 20 [] { bench.pru with pendingTakes :=
        [{ source := 7, article := 3, unitWeight := 125, units := 2, arrival := 0 }] } = .paired 0 2
    ∧ classify 250 100 100 10 20 [] bench.pru = .unknown := by decide +kernel

theorem witness_LossIsClassifiedInOrder : (0 : Nat) < 1
    ∧ classify (-100) 100 100 10 20 [] bench.pru = .take 1
    ∧ classify (-250) 100 100 10 20 [{ goods := none, grams := 250 }] bench.pru = .strayWhole 0
    ∧ classify (-125) 100 100 10 20 [{ goods := some { article := 3, unitWeight := 125, units := 2 }, grams := 250 }]
        bench.pru = .strayPart 0 1
    ∧ classify (-250) 100 100 10 20 [] bench.pru = .unresolved := by decide +kernel

/-- A bay with a full stray list. -/
def fullStrays : Bay := { bayOne with strays := List.replicate 4 { goods := none, grams := 50 } }

theorem witness_ClassificationKeepsItsRecords :
    bench.bay? 1 = some bayOne ∧ bayOne.strays.length < 4
      ∧ (withBay fun _ => fullStrays).bay? 1 = some fullStrays ∧ 4 ≤ fullStrays.strays.length
      ∧ fullStrays.strays = { goods := none, grams := 50 } :: List.replicate 3 { goods := none, grams := 50 }
      ∧ State.reset.pru.enabled = false ∧ State.reset.bay? 1 = some Bay.reset := by decide +kernel

/-- Two units of article 3, of 125 g each. -/
def pair : Goods := { article := 3, unitWeight := 125, units := 2 }

theorem witness_ClassificationKeepsItsRecords_strays :
    let b : Bay := { bayOne with strays := [{ goods := some pair, grams := 250 }] }
    (withBay fun _ => b).bay? 1 = some b ∧ b.strays[0]? = some { goods := some pair, grams := 250 }
      ∧ 1 < pair.units ∧ ¬ 2 < pair.units := by decide +kernel

theorem witness_ClassificationKeepsItsRecords_paired :
    let p : PendingTake := { source := 7, article := 3, unitWeight := 125, units := 2, arrival := 0 }
    let s (b : Bay) : State := { withBay fun _ => b with pru := { bench.pru with pendingTakes := [p] } }
    (s bayOne).pru.pendingTakes[0]? = some p ∧ (s bayOne).bay? 1 = some bayOne ∧ bayOne.strays.length < 4
      ∧ (s fullStrays).bay? 1 = some fullStrays ∧ 1 < p.units ∧ ¬ 2 < p.units := by decide +kernel

/-- The record handed over at a settle from SETTLING, whose timer still runs, beside the one in the table. -/
theorem witness_ClassificationKeepsItsRecords_settling :
    let b : Bay := { bayOne with state := .settling, settleTimer := some 1010 }
    (withBay fun _ => { b.confirmed 5 with settleTimer := none }).bay? 1 = some { b.confirmed 5 with settleTimer := none }
      ∧ ({ b.confirmed 5 with settleTimer := none } : Bay).cfg = (b.confirmed 5).cfg
      ∧ { b.confirmed 5 with settleTimer := none } ≠ b.confirmed 5 := by decide +kernel

/-- The station with `n` records on the filling side and `k` pending takes. -/
def batching (n k : Nat) (ready : Bool) (sending : List Take) (mode : BatchMode) (l : List TxEntry) : State :=
  { bench with
    pru := { bench.pru with
      pendingTakes := List.replicate k { source := 7, article := 3, unitWeight := 125, units := 2, arrival := 0 }
      filling := List.replicate n { source := 5, bay := 1, article := 100, unitWeight := 100, units := 2 }
      ready := ready, sending := sending, mode := mode }
    bsc := { bench.bsc with waiting := l } }

theorem witness_ClassificationKeepsItsRecords_take :
    let x : Take := { source := 5, bay := 1, article := 100, unitWeight := 100, units := 1 }
    ((batching 0 15 false [] .latest []).pru.enabled = true ∧ (batching 0 15 false [] .latest []).stc.state = .running
        ∧ (batching 0 15 false [] .latest []).pru.pendingTakes.length < 16
        ∧ (batching 0 15 false [] .latest []).pru.filling = [])
      ∧ (16 ≤ (batching 0 16 false [] .latest []).pru.pendingTakes.length
        ∧ (batching 0 16 false [] .latest []).pru.pendingTakes
          = { source := 7, article := 3, unitWeight := 125, units := 2, arrival := 0 }
            :: List.replicate 15 { source := 7, article := 3, unitWeight := 125, units := 2, arrival := 0 })
      ∧ ({ bench with stc := { bench.stc with state := .isolated } } : State).stc.state = .isolated
      ∧ ((batching 1 0 true [] .latest []).pru.filling ≠ [] ∧ (batching 1 0 true [] .latest []).pru.ready = true)
      ∧ ((batching 2 0 false [] .latest []).pru.filling ≠ [] ∧ (batching 2 0 false [] .latest []).pru.filling.length ≠ 3)
      ∧ ((batching 3 0 false [] .latest []).pru.filling.length = 3 ∧ (batching 3 0 false [] .latest []).pru.sending = []
        ∧ (batching 3 0 false [x] .latest [queued .shift 0]).pru.sending = x :: []
        ∧ (∃ e ∈ (batching 3 0 false [x] .latest [queued .shift 0]).bsc.waiting, e.req = .shift)
        ∧ (batching 3 0 false [x] .latest [queued .shift 0]).pru.mode = .latest
        ∧ (∀ e ∈ (batching 3 0 false [x] .latest []).bsc.waiting, e.req ≠ .shift)
        ∧ (batching 3 0 false [x] .keep [queued .shift 0]).pru.mode = .keep) := by decide +kernel

/-- The station with one pending take of time 1000. -/
def taking : State :=
  { bench with pru := { bench.pru with pendingTakes :=
      [{ source := 7, article := 3, unitWeight := 125, units := 2, arrival := 1000 }] } }

theorem witness_PendingTakeExpires : taking.held = none ∧ taking.listening = true
    ∧ taking.pru.pendingTakes[0]? = some { source := 7, article := 3, unitWeight := 125, units := 2, arrival := 1000 }
    ∧ 1000 + taking.pru.window ≤ taking.now + 60000000 ∧ taking.now + 59999999 < 1000 + taking.pru.window := by
  decide +kernel

theorem witness_PendingTakeExpires_halted :
    let s : State := { taking with stc := { taking.stc with state := .halted } }
    s.held = none ∧ s.listening = false
      ∧ s.pru.pendingTakes[0]? = some { source := 7, article := 3, unitWeight := 125, units := 2, arrival := 1000 }
      ∧ 1000 + s.pru.window ≤ s.now + 60000000 := by decide +kernel

/-- The station with a record on the filling side and the ready timer due at 1010. -/
def filled (sending : List Take) (mode : BatchMode) (l : List TxEntry) : State :=
  { bench with
    pru := { bench.pru with
      filling := [{ source := 5, bay := 1, article := 100, unitWeight := 100, units := 2 }], sending := sending
      readyTimer := some 1010, mode := mode }
    bsc := { bench.bsc with waiting := l } }

theorem witness_ReadyTimerActsOnTheSendingSide :
    let t : Take := { source := 5, bay := 1, article := 100, unitWeight := 100, units := 1 }
    (filled [] .latest []).held = none ∧ (filled [] .latest []).pru.readyTimer = some 1010
      ∧ 1010 ≤ (filled [] .latest []).now + 10 ∧ (filled [] .latest []).pru.sending = []
      ∧ (filled [t] .latest [queued .shift 0]).pru.sending = t :: []
      ∧ (∃ x ∈ (filled [t] .latest [queued .shift 0]).bsc.waiting, x.req = .shift)
      ∧ (filled [t] .latest [queued .shift 0]).pru.mode = .latest
      ∧ (∀ x ∈ (filled [t] .latest []).bsc.waiting, x.req ≠ .shift) ∧ (filled [t] .latest []).pru.sending ≠ []
      ∧ (filled [t] .keep [queued .shift 0]).pru.mode = .keep := by decide +kernel

theorem witness_ShiftFrameJoinsThePendingTakes :
    let f := fromSeven .shift [1, 0, 0, 3, 0, 0, 0, 125, 0, 2]
    (bench.takes f.characters f ∧ ({ bench with pru := { bench.pru with enabled := false } } : State).takes f.characters f)
      ∧ f.kind = .shift ∧ bench.pru.enabled = true ∧ bench.pru.pendingTakes.length ≤ 16 := by
  refine ⟨⟨takes_of _ _ _ ?_, takes_of _ _ _ ?_⟩, ?_⟩ <;> decide +kernel

theorem witness_ServiceOrderIsClassThenTime :
    headOf [queued .hello 0, queued (.tally .full) 1, queued .shift 0] = some (queued .hello 0)
      ∧ lastOf [queued .hello 0, queued (.tally .full) 1, queued .shift 0] = some (queued .shift 0) := by decide +kernel

theorem witness_RequestMergesFollowsOrEnters :
    State.reset.speaking = false
      ∧ ({ bench.bsc with waiting := [queued (.tally .delta) 3] } : BusController).waiting.any
          (fun e => e.req.sameKey (.tally .full)) = true
      ∧ bench.bsc.waiting.any (fun e => e.req.sameKey (.tally .full)) = false
      ∧ (onWire (.tally .delta) 0 none).entry.req.sameKey (.tally .full) = true
      ∧ (onWire (.tally .delta) 0 none).followOn = none
      ∧ (onWire (.tally .delta) 0 (some (queued (.tally .delta) 0))).followOn = some (queued (.tally .delta) 0)
      ∧ bench.bsc.used < 8 := by decide +kernel

/-- The station with requests queued and a deferral. -/
def queueing (l : List TxEntry) (d : Option Deferral) (busy : Bool) : State :=
  { bench with bsc := { bench.bsc with waiting := l, deferral := d, busy := busy } }

theorem witness_RequestMergesFollowsOrEnters_deferral :
    let s := queueing [queued (.tally .full) 0] (some { start := 900, due := 8740 }) false
    (s.speaking = true ∧ (s.bsc.enter .hello s.now).2 = none ∧ s.bsc.deferral = some { start := 900, due := 8740 }
        ∧ headOf s.bsc.waiting = some (queued (.tally .full) 0)
        ∧ (headOf (s.bsc.enter .hello s.now).1.waiting).map TxEntry.req = some .hello
        ∧ Request.hello.cls < (Request.tally .full).cls
        ∧ 900 + (Request.hello.cls * 31 + s.ownNumber) * 80 = 6260 ∧ 6260 < 8740 ∧ s.now ≤ 6260)
      ∧ ((s.bsc.enter (.tally .delta) s.now).2 = none
        ∧ headOf (s.bsc.enter (.tally .delta) s.now).1.waiting = some (queued (.tally .full) 0))
      ∧ (((queueing [] none false).bsc.enter .hello 1000).2 = none
        ∧ ((queueing [] none false).bsc.enter .hello 1000).1.flight = none
        ∧ (headOf ((queueing [] none false).bsc.enter .hello 1000).1.waiting).map TxEntry.req = some .hello)
      ∧ ((queueing [] none true).bsc.deferral = none ∧ (queueing [] none true).bsc.busy = true
        ∧ ((queueing [] none true).bsc.enter .hello 1000).2 = none) := by decide +kernel

/-- Eight queued requests: a TALLY and seven QUERYs. -/
def fullQueue : List TxEntry := queued (.tally .full) 0 :: (List.range 7).map fun n => queued (.query (n + 7)) 0

theorem witness_FullQueueDropsTheHighestClass :
    let b : BusController := { bench.bsc with waiting := fullQueue }
    (b.waiting.any (fun e => e.req.sameKey .hello) = false ∧ b.flight = none ∧ 8 ≤ b.used)
      ∧ (lastOf b.waiting = some (queued (.tally .full) 0) ∧ Request.hello.cls < (queued (.tally .full) 0).req.cls)
      ∧ (b.waiting.any (fun e => e.req.sameKey .shift) = false ∧ ∀ e ∈ b.waiting, e.req.cls ≤ Request.shift.cls)
      ∧ ({ bench with bsc := b } : State).speaking = true ∧ (b.enter .hello bench.now).2 = some (.tally .full) := by
  decide +kernel

/-- A full queue in a deferral of its QUERY's class: an ALERT displaces the TALLY and becomes the head, a HELLO displaces it
and does not, a SHIFT is refused; and a full queue without a deferral, the bus idle and busy. -/
theorem witness_FullQueueDropsTheHighestClass_deferral :
    let s := queueing fullQueue (some { start := 900, due := 6260 }) false
    let entered (r : Request) := s.bsc.enter r s.now
    (s.speaking = true ∧ s.bsc.deferral = some { start := 900, due := 6260 }
        ∧ headOf s.bsc.waiting = some (queued (.query 7) 0))
      ∧ ((entered (.alertFrame .alert 100)).2 = some (.tally .full)
        ∧ (headOf (entered (.alertFrame .alert 100)).1.waiting).map TxEntry.req = some (.alertFrame .alert 100)
        ∧ 900 + ((Request.alertFrame .alert 100).cls * 31 + s.ownNumber) * 80 = 1300 ∧ 1300 < 6260 ∧ s.now ≤ 1300)
      ∧ ((entered .hello).2 = some (.tally .full) ∧ headOf (entered .hello).1.waiting = some (queued (.query 7) 0))
      ∧ ((entered .shift).2 = some .shift ∧ headOf (entered .shift).1.waiting = some (queued (.query 7) 0))
      ∧ ((queueing fullQueue none false).bsc.deferral = none ∧ (queueing fullQueue none false).bsc.busy = false
        ∧ ((queueing fullQueue none false).bsc.enter .shift 1000).1.flight = none)
      ∧ (queueing fullQueue none true).bsc.busy = true
      ∧ ((queueing fullQueue none true).bsc.enter .shift 1000).2 = some .shift := by decide +kernel

theorem witness_RequestMovesNothingElse :
    let x : Take := { source := 5, bay := 1, article := 100, unitWeight := 100, units := 1 }
    let claims := (List.range 8).map fun n => queued (.alertFrame .claim (n + 1)) 0
    let batch (sending : List Take) (ready : Bool) : State :=
      { queueing fullQueue none true with pru := { bench.pru with filling := [x], ready := ready, sending := sending } }
    ((bench.enqueue .hello).2 = none ∧ bench.pru.ready = false)
      ∧ (((queueing fullQueue none true).enqueue .hello).2 = some (.tally .full))
      ∧ (((queueing claims none true).enqueue (.alertFrame .alert 100)).2 = some (.alertFrame .claim 1))
      ∧ (((batch [] false).enqueue .shift).2 = some .shift ∧ (batch [] false).pru.sending = []
        ∧ (batch [x] true).pru.sending = x :: [] ∧ (batch [x] true).pru.ready = true ∧ (batch [x] true).speaking = true)
      ∧ State.reset.speaking = false ∧ (State.reset.enqueue .shift).2 = some .shift := by decide +kernel

theorem witness_BusyLineAssemblesCharacters : bench.held = none
    ∧ ({ bench.bsc.rx with stored := List.replicate 192 0, length := 200 } : Receiver).stored.length ≤ 192 := by
  decide +kernel

theorem witness_IdleBusBeginsTheDeferral :
    (bench.held = none ∧ bench.bsc.busy = false)
      ∧ (({ bench.bsc with busy := true, waiting := [queued .hello 0] } : BusController).busy = true
        ∧ bench.bsc.rx.length = 0 ∧ bench.bsc.deferral = none ∧ bench.bsc.flight = none ∧ bench.speaking = true
        ∧ headOf [queued .hello 0] = some (queued .hello 0))
      ∧ (State.reset.speaking = false ∧ State.reset.bsc.busy = true ∧ State.reset.bsc.rx.length = 0)
      ∧ ((sendingOf (onWire .hello 0 none) bench).bsc.busy = true
        ∧ (sendingOf (onWire .hello 0 none) bench).bsc.flight ≠ none
        ∧ (queueing [] (some { start := 900, due := 1010 }) true).bsc.deferral ≠ none)
      ∧ ({ bench.bsc.rx with own := true, length := 7 } : Receiver).own = true := by decide +kernel

/-- The station with characters in assembly on a busy line. -/
def hearing (heard : List Character) : State :=
  { bench with bsc := { bench.bsc with busy := true, rx := Receiver.reset.hearAll heard } }

theorem witness_IdleBusBeginsTheDeferral_heard :
    let query := { fromSeven .query [] with dst := 5 }
    let other := { fromSeven .query [] with dst := 6 }
    (∃ t, exec (Kind.query.command 10 query.characters)
        { hearing query.characters with bsc := { bench.bsc with rx := Receiver.reset } } = .next t)
      ∧ (hearing query.characters).bsc.busy = true ∧ query.characters ≠ []
      ∧ (hearing query.characters).bsc.rx.check = .passed query ∧ (hearing query.characters).listening = true
      ∧ (hearing [goodCharacter 7]).bsc.rx.check = .failed .rxForm ∧ [goodCharacter 7] ≠ []
      ∧ (hearing other.characters).bsc.rx.check = .passed other ∧ other.dst ≠ 0
      ∧ other.dst ≠ (hearing other.characters).ownNumber := by
  refine ⟨⟨_, rfl⟩, ?_⟩
  decide +kernel

/-- An idle bus with an entry QUEUED, where a deferral begins, and each case in which none does. -/
theorem witness_IdleBusBeginsTheDeferral_begins :
    ((queueing [queued .hello 0] none false).speaking = true
        ∧ (queueing [queued .hello 0] none false).bsc.busy = false
        ∧ (queueing [queued .hello 0] none false).bsc.deferral = none
        ∧ (queueing [queued .hello 0] none false).bsc.flight = none
        ∧ headOf (queueing [queued .hello 0] none false).bsc.waiting = some (queued .hello 0))
      ∧ State.reset.speaking = false ∧ (queueing [] none true).bsc.busy = true
      ∧ (queueing [] (some { start := 900, due := 8740 }) false).bsc.deferral ≠ none
      ∧ (sendingOf (onWire .hello 0 none) bench).bsc.flight ≠ none ∧ bench.bsc.waiting = [] := by decide +kernel

theorem witness_ReceiveChecksInOrder :
    (Receiver.reset.hearAll (fromSeven .query []).characters).check = .passed (fromSeven .query [])
      ∧ Receiver.reset.check = .failed .rxForm
      ∧ (Receiver.reset.hearAll ([7, 0x38, 7, 0, 0, 0, 0].map goodCharacter)).check = .failed .rxCrc
      ∧ (Receiver.reset.hearAll ({ fromSeven .query [] with src := 31 }).characters).check = .failed .rxForm := by
  decide +kernel

/-- The least and the greatest payload of every length rule, and one past each that is refused. -/
theorem witness_ReceiveChecksInOrder_lengths :
    let zeros (n : Nat) : List Byte := List.replicate n 0
    (([7, 82].map fun n => payloadAllowed .hello (zeros n)) = [true, true]
        ∧ ([0, 2, 6, 87].map fun n => payloadAllowed .hello (zeros n)) = [false, false, false, false])
      ∧ (([0, 8, 128].map fun n => payloadAllowed .tally (0x01 :: zeros n)) = [true, true, true]
        ∧ ([7, 136].map fun n => payloadAllowed .tally (0x01 :: zeros n)) = [false, false])
      ∧ (([43, 163].map fun n => payloadAllowed .tally (0x02 :: zeros n)) = [true, true]
        ∧ ([35, 42, 171].map fun n => payloadAllowed .tally (0x02 :: zeros n)) = [false, false, false])
      ∧ ([[], 0x00 :: zeros 8, 0x03 :: zeros 43].map fun p => payloadAllowed .tally p) = [false, false, false]
      ∧ ([0, 10, 40, 50].map fun n => payloadAllowed .shift (zeros n)) = [false, true, true, false] := by decide +kernel

theorem witness_UnacceptedFramesAreDiscarded :
    bench.held = none ∧ bench.listening = true ∧ bench.bsc.rx.own = false
      ∧ (Receiver.reset.hearAll []).check = .failed .rxForm
      ∧ (Receiver.reset.hearAll ({ fromSeven .query [] with dst := 6 }).characters).check
          = .passed { fromSeven .query [] with dst := 6 } ∧ 6 ≠ bench.ownNumber
      ∧ State.reset.held = none ∧ State.reset.stc.state = .strap := by decide +kernel

theorem witness_UnacceptedFramesAreDiscarded_halted :
    let s : State := { bench with stc := { bench.stc with state := .halted, halt := .badCrc } }
    (s.held = none ∧ s.stc.state = .halted)
      ∧ (∀ f, (Receiver.reset.hearAll (fromSeven .restart []).characters).check = .passed f →
          f.kind ≠ .restart ∨ f.dst = 0 ∨ f.dst ≠ s.ownNumber)
      ∧ ∀ f, (Receiver.reset.hearAll []).check = .passed f → f.kind ≠ .restart ∨ f.dst = 0 ∨ f.dst ≠ s.ownNumber := by
  refine ⟨by decide +kernel, fun f h => ?_, fun f h => ?_⟩
  · rw [show (Receiver.reset.hearAll (fromSeven .restart []).characters).check = .passed (fromSeven .restart []) by
      decide +kernel] at h
    cases h
    exact Or.inr (Or.inl rfl)
  · rw [show (Receiver.reset.hearAll []).check = .failed .rxForm by decide +kernel] at h
    cases h

theorem witness_DuplicateNumberHalts :
    bench.held = none ∧ bench.listening = true ∧ bench.bsc.rx.own = false
      ∧ (Receiver.reset.hearAll ({ fromSeven .query [] with src := 5 }).characters).check
          = .passed { fromSeven .query [] with src := 5 }
      ∧ (fromSeven .query []).dst = 0 ∧ 5 = bench.ownNumber := by decide +kernel

/-- The station with a request queued and its deferral due at 1010. -/
def deferring (r : Request) : State :=
  { bench with bsc := { bench.bsc with waiting := [queued r 0], deferral := some { start := 900, due := 1010 } } }

theorem witness_DeferralEndSendsTheHeadAsItStands :
    ((deferring .hello).held = none ∧ (deferring .hello).bsc.deferral = some { start := 900, due := 1010 }
        ∧ 1010 ≤ (deferring .hello).now + 10 ∧ (deferring .hello).bsc.busy = false ∧ (deferring .hello).speaking = true
        ∧ (deferring .hello).bsc.flight = none ∧ headOf (deferring .hello).bsc.waiting = some (queued .hello 0))
      ∧ headOf (deferring (.tally .delta)).bsc.waiting = some (queued (.tally .delta) 0)
      ∧ (∃ sl, (short claimed).slot? 100 = some sl ∧ sl.alert.level ≠ .none)
      ∧ ∃ sl, (short { claimed with level := .none }).slot? 100 = some sl ∧ sl.alert.level = .none := by
  refine ⟨?_, ?_, met ?_, met ?_⟩ <;> decide +kernel

theorem witness_CollisionRequeuesOrAbandons :
    let f := onWire (.query 7) 7 none
    (sendingOf (onWire .hello 6 none) bench).bsc.flight = some (onWire .hello 6 none)
      ∧ (onWire .hello 6 none).entry.failed < 7 ∧ (sendingOf f bench).held = none
      ∧ (sendingOf f bench).bsc.flight = some f ∧ f.entry.failed = 7 ∧ f.entry.req = .query 7
      ∧ (sendingOf f bench).bsc.abandonRun < 2 := by decide +kernel

theorem witness_CollisionRequeuesOrAbandons_notices :
    let x : Take := { source := 5, bay := 1, article := 100, unitWeight := 100, units := 1 }
    let claim : Request := .alertFrame .claim 100
    (onWire (.tally .full) 7 none).entry.req = .tally .full ∧ (onWire .hello 7 none).entry.req = .hello
      ∧ ({ bench.stc with state := .joining, helloDone := false } : Controller).helloDone = false
      ∧ bench.stc.state ≠ .joining ∧ (onWire .shift 7 none).entry.req = .shift
      ∧ (batching 0 0 false [] .keep []).pru.sending = [] ∧ (batching 0 0 false [x] .keep []).pru.sending = x :: []
      ∧ (batching 0 0 false [x] .keep []).pru.ready = false ∧ (batching 1 0 true [x] .keep []).pru.ready = true
      ∧ (batching 1 0 true [x] .keep []).speaking = true ∧ (onWire claim 7 none).entry.req = claim
      ∧ (onWire claim 7 none).followOn = none ∧ (onWire claim 7 (some (queued claim 0))).followOn ≠ none := by
  decide +kernel

/-- The station with its third abandon in a row at hand. -/
def losing : State :=
  { bench with bsc := { bench.bsc with busy := true, flight := some (onWire .hello 7 none), abandonRun := 2 } }

theorem witness_ThirdAbandonIsolates : losing.Inv ∧ losing.bsc.flight = some (onWire .hello 7 none)
    ∧ (onWire .hello 7 none).entry.failed = 7 ∧ losing.bsc.abandonRun = 2 ∧ losing.hlu.severe = none
    ∧ losing.hlu.degrade = none
    ∧ (losing.raise .bayFault 1 100).hlu.severe
        = some { code := .bayFault, subject := 1, article := 100, time := 1000, further := 0 } := by
  refine ⟨inv_of _ ?_, ?_⟩ <;> decide +kernel

/-- The station with its third abandon in a row at hand, records on both sides of the batch, a SHIFT in flight or not and
queued or not, and a full DEGRADE record. -/
def losingBatch (r : Request) (l : List TxEntry) : State :=
  let x : Take := { source := 5, bay := 1, article := 100, unitWeight := 100, units := 1 }
  { losing with
    bsc := { losing.bsc with flight := some (onWire r 7 none), waiting := l }
    pru := { losing.pru with filling := [x], sending := [x] }
    hlu := (losing.raise .pairEvict 7 3).hlu }

theorem witness_ThirdAbandonIsolates_batch :
    ((losingBatch .shift []).Inv ∧ (losingBatch .hello []).Inv ∧ (losingBatch .hello [queued .shift 0]).Inv)
      ∧ (losingBatch .shift []).bsc.flight = some (onWire .shift 7 none)
      ∧ (losingBatch .hello []).bsc.flight = some (onWire .hello 7 none)
      ∧ (∃ e ∈ (losingBatch .hello [queued .shift 0]).bsc.waiting, e.req = .shift)
      ∧ (losingBatch .hello []).pru.sending ≠ [] ∧ (losingBatch .hello []).pru.filling ≠ []
      ∧ (losingBatch .hello []).bsc.abandonRun = 2
      ∧ (losingBatch .hello []).hlu.degrade
          = some { code := .pairEvict, subject := 7, article := 3, time := 1000, further := 0 } := by
  refine ⟨⟨inv_of _ ?_, inv_of _ ?_, inv_of _ ?_⟩, ?_⟩ <;> decide +kernel

theorem witness_CompletedTallyAdvancesTheSequence :
    (sendingOf (onWire (.tally .full) 0 none) bench).held = none
      ∧ (sendingOf (onWire (.tally .full) 0 none) bench).bsc.flight = some (onWire (.tally .full) 0 none)
      ∧ (onWire (.tally .full) 0 none).entry.req = .tally .full
      ∧ (onWire (.tally .delta) 0 none).entry.req = .tally .delta := by decide +kernel

theorem witness_CompletedFrameTellsItsRequester :
    let claim : Request := .alertFrame .claim 100
    ((sendingOf (onWire (.query 7) 0 none) bench).held = none
        ∧ (sendingOf (onWire (.query 7) 0 none) bench).bsc.flight = some (onWire (.query 7) 0 none))
      ∧ (onWire (.query 7) 0 none).entry.req = .query 7 ∧ (onWire .hello 0 none).entry.req = .hello
      ∧ ({ bench.stc with state := .joining, helloDone := false } : Controller).state = .joining
      ∧ bench.stc.state ≠ .joining ∧ (onWire .shift 0 none).entry.req = .shift ∧ bench.pru.ready = false
      ∧ ({ bench.pru with ready := true } : Pairing).ready = true
      ∧ (onWire claim 0 (some (queued (.alertFrame .clear 100) 0))).followOn ≠ none
      ∧ (onWire claim 0 none).entry.req = claim ∧ (onWire claim 0 none).followOn = none := by decide +kernel

/-- An alert record with a frame outstanding. -/
def awaiting (k : AlertKind) (r : Alert) : Alert := { r with outstanding := some { kind := k, standing := .requested } }

theorem witness_CompletedFrameTellsItsRequester_alerts :
    (∃ sl, (short (awaiting .claim claimed)).slot? 100 = some sl ∧ sl.alert.state = .claiming
        ∧ sl.alert.outstanding = some { kind := .claim, standing := .requested })
      ∧ (∃ sl, (short (awaiting .clear owned)).slot? 100 = some sl ∧ sl.alert.state = .owner
        ∧ sl.alert.outstanding = some { kind := .clear, standing := .requested })
      ∧ (∃ sl, (short (awaiting .clear { claimed with closing := true })).slot? 100 = some sl
        ∧ sl.alert.state = .claiming ∧ sl.alert.closing = true
        ∧ sl.alert.outstanding = some { kind := .clear, standing := .requested })
      ∧ (∃ sl, (short (awaiting .alert owned)).slot? 100 = some sl ∧ sl.alert.state ≠ .claiming
        ∧ ∀ q, sl.alert.outstanding ≠ some { kind := .clear, standing := q })
      ∧ ∃ sl, (short followed).slot? 100 = some sl ∧ sl.alert.state = .follower
        ∧ ∀ k q, sl.alert.outstanding ≠ some { kind := k, standing := q } := by
  refine ⟨met (by decide +kernel), met (by decide +kernel), met (by decide +kernel), ⟨_, rfl, by decide, ?_⟩, _, rfl, rfl, ?_⟩
  · intro q h; cases h
  · intro k q h; cases h

theorem witness_FramesReadBackAsBuilt :
    let f : Frame := { kind := .tally, src := 30, dst := 255, seq := 255, payload := [0x01] }
    1 ≤ f.src ∧ f.src ≤ 30 ∧ f.dst ≤ 255 ∧ payloadAllowed f.kind f.payload = true
      ∧ payloadAllowed .tally (0x01 :: List.replicate 128 0) = true
      ∧ payloadAllowed .tally (0x02 :: List.replicate 163 0) = true := by decide +kernel

/-- Each case of a level byte, of an accepting terminal and of a record's level, and a byte that extends a field. -/
theorem witness_FramesReadBackAsBuilt_payloads :
    let frame (level status terminal : Byte) : List Byte := [0, 1, 2, 3, 4, level, status, terminal]
    (([0x00, 0x01, 0x02, 0x03].map fun b => (readAlert (frame b 0 0)).level) = [.none, .low, .empty, .none]
        ∧ ([0, 1, 30, 31].map fun b => (readAlert (frame 1 1 b)).terminal) = [none, some 1, some 30, none]
        ∧ (readAlert (frame 1 2 9)).terminal = none)
      ∧ (Alert.initial.level = .none ∧ owned.level = .low ∧ ({ owned with level := .empty } : Alert).level = .empty)
      ∧ ([7, 8, 9] : List Byte)[0 + 2]? = some 9 ∧ (258 : Nat) = (0 : Byte).toNat * 65536 + (1 : Byte).toNat * 256 + (2 : Byte).toNat
      ∧ (772 : Epoch) = BitVec.ofNat 16 ((3 : Byte).toNat * 256 + (4 : Byte).toNat) := by decide +kernel

theorem witness_TallyEntriesReadBackAsBuilt :
    (∀ e ∈ ([{ article := 16777215, units := 65535, flags := (articleOne 10).own.flags, epoch := none },
             { article := 0, units := 0, flags := (articleOne 10).own.flags, epoch := some 65535 }] : List TallyEntry),
        e.article < 2 ^ 24 ∧ e.units < 2 ^ 16)
      ∧ (List.replicate 35 (0 : Byte)).length = 35 := by decide +kernel

/-- A shift of the CRC register as the manual describes it, and the two forms of a TALLY. -/
theorem witness_TallyEntriesReadBackAsBuilt_layout :
    (∃ shift : Crc → Crc, ∀ r, shift r = if r.getLsbD 15 then (r <<< 1) ^^^ 0x1021#16 else r <<< 1)
      ∧ ((0x02 : Byte) = 0x02 ∧ 35 ≤ (List.replicate 35 (0 : Byte)).length)
      ∧ 0 = ((none : Option Epoch).map BitVec.toNat).getD 0
      ∧ 65535 = ((some 65535 : Option Epoch).map BitVec.toNat).getD 0 :=
  ⟨⟨_, fun _ => rfl⟩, by decide, by decide, by decide⟩

theorem witness_TallySetsTheSendersContributions :
    let f := fromSeven .tally [0x01, 0, 0, 100, 0, 50, 0x20, 0, 0]
    bench.Inv ∧ bench.takes f.characters f ∧ f.kind = .tally ∧ ∃ sl, bench.slot? 100 = some sl := by
  refine ⟨test_bench_inv, takes_of _ _ _ ?_, ?_, _, rfl⟩ <;> decide +kernel

/-- The station with a baseline of station 7 and the end of its QUERY hold-off. -/
def sharing (baseline : Option Seq) (holdOff : Option Time) : State :=
  bench.modPeer 7 fun p => { p with baseline := baseline, holdOff := holdOff }

theorem witness_TallySetsTheSendersContributions_gap :
    let f := fromSeven .tally [0x01, 0, 0, 100, 0, 50, 0x20, 0, 0]
    (tallyVariant f.payload = .delta ∧ ((sharing (some 5) none).peer? 7).bind Peer.baseline = some 5 ∧ f.seq ≠ 5 + 1
        ∧ (sharing (some 5) none).sharingPeer 7 = true ∧ (sharing (some 5) none).speaking = true
        ∧ ((sharing (some 5) none).peer? 7).bind Peer.holdOff = none)
      ∧ (((sharing (some 5) (some 1010)).peer? 7).bind Peer.holdOff = some 1010 ∧ (sharing (some 5) (some 1010)).now + 9 < 1010
        ∧ (sharing (some 5) (some 1010)).now + 10 = 1010)
      ∧ (({ bench with stc := { bench.stc with state := .isolated } } : State).speaking = false)
      ∧ ((bench.peer? 7).bind Peer.baseline = none ∧ ((sharing (some 0) none).peer? 7).bind Peer.baseline = some 0
        ∧ f.seq = 0 + 1 ∧ tallyVariant [0x02] = .full) := by decide +kernel

/-- An entry from a station outside the holder list raises UNLISTED_HOLDER (R74), and a FULL without the article
MISSING_ENTRY (R77). -/
theorem witness_TallySetsTheSendersContributions_events :
    let listed := fromSeven .tally [0x01, 0, 0, 100, 0, 50, 0x20, 0, 0]
    let unlisted : Frame := { listed with src := 8 }
    let full := fromSeven .tally ([0x02, 0, 0, 3, 0, 50, 0x20, 0, 0] ++ List.replicate 35 0)
    let captured (f : Frame) := (after (.tally 10 f.characters) bench).hlu.degrade
    captured listed = none
      ∧ captured unlisted = some { code := .unlistedHolder, subject := 8, article := 100, time := 1010, further := 0 }
      ∧ tallyVariant full.payload = .full
      ∧ captured full = some { code := .missingEntry, subject := 7, article := 100, time := 1010, further := 0 } := by
  decide +kernel

/-- An entry of article 100 in a TALLY. -/
def entryOf (owning : Bool) (epoch : Option Epoch) : TallyEntry :=
  { article := 100, units := 6, flags := { (articleOne 10).own.flags with owning := owning }, epoch := epoch }

/-- The station with an alert record of a short article, station 7 STALE. -/
def stale (a : Alert) : State :=
  station { articleOne 30 with
    peers := [{ holder := 7, units := 3, state := .stale }, { holder := 9, units := 4, state := .fresh }] } a bayOne

theorem witness_TallySetsTheSendersContributions_entries :
    ((∃ sl, bench.slot? 100 = some sl ∧ sl.alert.state = .quiet ∧ sl.alert.known = false)
        ∧ (∃ sl, (station (articleOne 10) { Alert.initial with known := true, epoch := 4 } bayOne).slot? 100 = some sl
          ∧ sl.alert.state = .quiet ∧ sl.alert.known = true ∧ newer (4 : Epoch) sl.alert.epoch = false)
        ∧ (entryOf false (some 4)).epoch = some 4 ∧ 100 = (entryOf false none).article)
      ∧ ((∃ sl, (short owned).slot? 100 = some sl ∧ sl.alert.state = .owner ∧ newer (5 : Epoch) sl.alert.epoch = true
          ∧ newer (4 : Epoch) sl.alert.epoch = false ∧ (4 : Epoch) = sl.alert.epoch)
        ∧ (entryOf true (some 5)).flags.owning = true ∧ ¬ 7 < (short owned).ownNumber ∧ 4 < (short owned).ownNumber)
      ∧ ((∃ sl, (short followed).slot? 100 = some sl ∧ sl.alert.state = .follower ∧ sl.alert.owner = some 7
          ∧ newer (5 : Epoch) sl.alert.epoch = true ∧ newer (4 : Epoch) sl.alert.epoch = false)
        ∧ (entryOf false (some 5)).flags.owning = false)
      ∧ (∃ sl, (short { followed with owner := some 9 }).slot? 100 = some sl ∧ sl.alert.state = .follower
        ∧ sl.alert.owner = some 9 ∧ 9 ≠ 7 ∧ 7 < 9 ∧ (4 : Epoch) = sl.alert.epoch) := by
  refine ⟨⟨met ?_, met ?_, ?_⟩, ⟨met ?_, ?_⟩, ⟨met ?_, ?_⟩, met ?_⟩ <;> decide +kernel

/-- A record that yields with nothing outstanding and one with a frame outstanding, its sender FRESH or STALE. -/
theorem witness_TallySetsTheSendersContributions_yields :
    (∃ sl, (short owned).slot? 100 = some sl ∧ sl.alert.state = .owner ∧ sl.alert.outstanding = none
        ∧ sl.art.staleHolder 7 = false)
      ∧ (∃ sl, (stale (awaiting .claim claimed)).slot? 100 = some sl ∧ sl.alert.state = .claiming
        ∧ sl.alert.outstanding = some { kind := .claim, standing := .requested } ∧ sl.art.staleHolder 7 = true)
      ∧ (entryOf true (some 5)).flags.owning = true ∧ (entryOf true (some 5)).epoch = some 5
      ∧ newer (5 : Epoch) owned.epoch = true := by
  refine ⟨met ?_, met ?_, ?_⟩ <;> decide +kernel

theorem witness_HelloMarksDisputesAndClearsTheBaseline :
    let f := fromSeven .hello [1, 0, 0, 0, 100, 0xAB, 0xCE]
    bench.Inv ∧ bench.takes f.characters f ∧ f.kind = .hello
      ∧ (∃ sl, bench.slot? 100 = some sl ∧ sl.art.digest ≠ 0xABCE ∧ sl.art.digest = 0xABCD ∧ sl.art.disputed = false
        ∧ sl.alert.state ≠ .owner)
      ∧ ∃ sl, (short owned).slot? 100 = some sl ∧ sl.alert.state = .owner ∧ 7 ∈ sl.art.holders ∧ 8 ∉ sl.art.holders
        ∧ sl.alert.closing = false := by
  refine ⟨test_bench_inv, takes_of _ _ _ ?_, ?_, met ?_, met ?_⟩ <;> decide +kernel

theorem witness_QueryIsAnsweredWithAFull :
    let f := { fromSeven .query [] with dst := 5 }
    (bench.takes f.characters f ∧ f.kind = .query ∧ f.dst = bench.ownNumber ∧ f.dst ≠ 0 ∧ bench.speaking = true)
      ∧ (bench.takes (fromSeven .query []).characters (fromSeven .query []) ∧ (fromSeven .query []).dst = 0)
      ∧ (({ bench with stc := { bench.stc with state := .isolated } } : State).takes f.characters f) := by
  refine ⟨⟨takes_of _ _ _ ?_, ?_⟩, ⟨takes_of _ _ _ ?_, ?_⟩, takes_of _ _ _ ?_⟩ <;> decide +kernel

/-- A CLAIM by station 7 of article 100, level LOW, at an epoch. -/
def claimAt (e : Byte) : Frame := fromSeven .claim [0, 0, 100, 0, e, 1]

theorem witness_ReportIsFollowedOrIgnored :
    (bench.takes (claimAt 9).characters (claimAt 9) ∧ (claimAt 9).kind = .claim
        ∧ (readClaim (claimAt 9).payload).article = 100 ∧ (readClaim (claimAt 9).payload).level ≠ .none
        ∧ ∃ sl, bench.slot? 100 = some sl ∧ 7 ∈ sl.art.holders ∧ sl.alert.state = .quiet ∧ sl.alert.known = false)
      ∧ ((short { followed with owner := some 9 }).takes (claimAt 4).characters (claimAt 4)
        ∧ ∃ sl, (short { followed with owner := some 9 }).slot? 100 = some sl ∧ sl.alert.owner = some 9
          ∧ (readClaim (claimAt 4).payload).epoch = sl.alert.epoch ∧ 7 < 9)
      ∧ ((short followed).takes (claimAt 4).characters (claimAt 4)
        ∧ ∃ sl, (short followed).slot? 100 = some sl ∧ sl.alert.state = .follower ∧ sl.alert.owner = some 7
          ∧ (readClaim (claimAt 4).payload).epoch = sl.alert.epoch)
      ∧ ((short owned).takes (claimAt 4).characters (claimAt 4)
        ∧ ∃ sl, (short owned).slot? 100 = some sl ∧ sl.alert.state = .owner
          ∧ newer (readClaim (claimAt 4).payload).epoch sl.alert.epoch = false ∧ (short owned).ownNumber ≤ 7) := by
  refine ⟨⟨takes_of _ _ _ ?_, ?_, ?_, ?_, met ?_⟩, ⟨takes_of _ _ _ ?_, met ?_⟩, ⟨takes_of _ _ _ ?_, met ?_⟩,
    takes_of _ _ _ ?_, met ?_⟩ <;> decide +kernel

/-- The first and the last holder of a list, a STALE holder, and one that is not. -/
theorem witness_ReportIsFollowedOrIgnored_rank :
    (5 ∈ (articleOne 10).holders ∧ 9 ∈ (articleOne 10).holders ∧ (articleOne 10).rank 5 = 1 ∧ (articleOne 10).rank 9 = 3)
      ∧ (articleOne 10).staleHolder 7 = false ∧ ∃ sl, (stale owned).slot? 100 = some sl ∧ sl.art.staleHolder 7 = true := by
  refine ⟨?_, ?_, met ?_⟩ <;> decide +kernel

theorem witness_ReportWithPrecedenceMakesItYield :
    (short owned).takes (claimAt 5).characters (claimAt 5) ∧ (claimAt 5).kind = .claim
      ∧ (readClaim (claimAt 5).payload).level ≠ .none
      ∧ (∃ sl, (short owned).slot? 100 = some sl ∧ 7 ∈ sl.art.holders ∧ sl.alert.state = .owner
        ∧ newer (readClaim (claimAt 5).payload).epoch sl.alert.epoch = true)
      ∧ ∃ sl, (short claimed).slot? 100 = some sl ∧ sl.alert.state = .claiming := by
  refine ⟨takes_of _ _ _ ?_, ?_, ?_, met ?_, met ?_⟩ <;> decide +kernel

/-- The yield with a frame outstanding, to a STALE sender. -/
theorem witness_ReportWithPrecedenceMakesItYield_withdrawn :
    (stale (awaiting .claim claimed)).takes (claimAt 5).characters (claimAt 5)
      ∧ ∃ sl, (stale (awaiting .claim claimed)).slot? 100 = some sl ∧ 7 ∈ sl.art.holders ∧ sl.alert.state = .claiming
        ∧ newer (readClaim (claimAt 5).payload).epoch sl.alert.epoch = true
        ∧ sl.alert.outstanding = some { kind := .claim, standing := .requested } ∧ sl.art.staleHolder 7 = true := by
  refine ⟨takes_of _ _ _ ?_, met ?_⟩ <;> decide +kernel

/-- A CLEAR by station 7 of article 100 at an epoch. -/
def clearAt (e : Byte) : Frame := fromSeven .clear [0, 0, 100, 0, e]

theorem witness_ClearEndsTheEpisode :
    (bench.takes (clearAt 9).characters (clearAt 9) ∧ (clearAt 9).kind = .clear
        ∧ ∃ sl, bench.slot? 100 = some sl ∧ alertArticle (clearAt 9).payload = 100 ∧ 7 ∈ sl.art.holders ∧ sl.alert.state = .quiet
          ∧ sl.alert.known = false)
      ∧ ((station (articleOne 10) followed bayOne).Inv
        ∧ (station (articleOne 10) followed bayOne).takes (clearAt 4).characters (clearAt 4)
        ∧ ∃ sl, (station (articleOne 10) followed bayOne).slot? 100 = some sl
          ∧ targetLevel sl.art.aggregate sl.art.reorder sl.art.margin .none = .none ∧ sl.alert.state = .follower
          ∧ alertEpoch (clearAt 4).payload = sl.alert.epoch)
      ∧ ((station (articleOne 10) owned bayOne).Inv
        ∧ ∃ sl, (station (articleOne 10) owned bayOne).slot? 100 = some sl ∧ sl.alert.state = .owner
          ∧ newer (alertEpoch (clearAt 5).payload) sl.alert.epoch = true)
      ∧ ((short owned).takes (clearAt 4).characters (clearAt 4)
        ∧ ∃ sl, (short owned).slot? 100 = some sl
          ∧ newer (alertEpoch (clearAt 4).payload) sl.alert.epoch = false ∧ (short owned).ownNumber ≤ 7) := by
  refine ⟨⟨takes_of _ _ _ ?_, ?_, met ?_⟩, ⟨inv_of _ ?_, takes_of _ _ _ ?_, met ?_⟩, ⟨inv_of _ ?_, met ?_⟩,
    takes_of _ _ _ ?_, met ?_⟩ <;> decide +kernel

theorem witness_ClearEndsTheEpisode_anew :
    ((short followed).Inv ∧ (short followed).takes (clearAt 4).characters (clearAt 4)
        ∧ (short followed).stc.state = .running
        ∧ ∃ sl, (short followed).slot? 100 = some sl ∧ 7 ∈ sl.art.holders ∧ sl.art.disputed = false
          ∧ targetLevel sl.art.aggregate sl.art.reorder sl.art.margin .none = .low ∧ sl.alert.state = .follower
          ∧ alertEpoch (clearAt 4).payload = sl.alert.epoch)
      ∧ (short owned).Inv ∧ ∃ sl, (short owned).slot? 100 = some sl ∧ sl.alert.state = .owner
        ∧ newer (alertEpoch (clearAt 5).payload) sl.alert.epoch = true := by
  refine ⟨⟨inv_of _ ?_, takes_of _ _ _ ?_, ?_, met ?_⟩, inv_of _ ?_, met ?_⟩ <;> decide +kernel

/-- A CLEAR that a record with a frame outstanding takes. -/
theorem witness_ClearEndsTheEpisode_withdrawn :
    (short (awaiting .claim claimed)).takes (clearAt 5).characters (clearAt 5)
      ∧ ∃ sl, (short (awaiting .claim claimed)).slot? 100 = some sl ∧ 7 ∈ sl.art.holders ∧ sl.alert.state = .claiming
        ∧ newer (alertEpoch (clearAt 5).payload) sl.alert.epoch = true
        ∧ sl.alert.outstanding = some { kind := .claim, standing := .requested } := by
  refine ⟨takes_of _ _ _ ?_, met ?_⟩ <;> decide +kernel

/-- An ACCEPT by station 7 of article 100 at an epoch. -/
def acceptAt (e : Byte) : Frame := fromSeven .accept [0, 0, 100, 0, e]

theorem witness_AcceptIsRecorded :
    ((short owned).takes (acceptAt 4).characters (acceptAt 4) ∧ (acceptAt 4).kind = .accept
        ∧ ∃ sl, (short owned).slot? 100 = some sl ∧ alertArticle (acceptAt 4).payload = 100 ∧ sl.alert.state = .owner
          ∧ alertEpoch (acceptAt 4).payload = sl.alert.epoch ∧ sl.alert.closing = false)
      ∧ ((short { owned with closing := true }).takes (acceptAt 4).characters (acceptAt 4)
        ∧ ∃ sl, (short { owned with closing := true }).slot? 100 = some sl ∧ sl.alert.closing = true)
      ∧ ((short followed).takes (acceptAt 4).characters (acceptAt 4)
        ∧ ∃ sl, (short followed).slot? 100 = some sl ∧ sl.alert.state = .follower)
      ∧ (bench.takes (acceptAt 4).characters (acceptAt 4)
        ∧ ∃ sl, bench.slot? 100 = some sl ∧ sl.alert.state = .quiet) := by
  refine ⟨⟨takes_of _ _ _ ?_, ?_, met ?_⟩, ⟨takes_of _ _ _ ?_, met ?_⟩, ⟨takes_of _ _ _ ?_, met ?_⟩, takes_of _ _ _ ?_,
    met ?_⟩ <;> decide +kernel

theorem witness_StaleAcceptIsIgnored :
    ((short owned).takes (acceptAt 3).characters (acceptAt 3) ∧ (acceptAt 3).kind = .accept
        ∧ ∃ sl, (short owned).slot? 100 = some sl ∧ alertArticle (acceptAt 3).payload = 100
          ∧ alertEpoch (acceptAt 3).payload ≠ sl.alert.epoch ∧ sl.alert.state = .owner)
      ∧ ((short followed).takes (acceptAt 5).characters (acceptAt 5)
        ∧ ∃ sl, (short followed).slot? 100 = some sl ∧ alertEpoch (acceptAt 5).payload ≠ sl.alert.epoch
          ∧ sl.alert.state = .follower) := by
  refine ⟨⟨takes_of _ _ _ ?_, ?_, met ?_⟩, takes_of _ _ _ ?_, met ?_⟩ <;> decide +kernel

theorem witness_TimersNotDueDoNothing : bench.held = none ∧ bench.pru.readyTimer = none
    ∧ bench.tly.beaconTimer = none ∧ bench.tly.deltaTimer = none ∧ bench.stc.joinTimer = none
    ∧ bench.stc.isolationTimer = none ∧ bench.bsc.deferral = none
    ∧ (∀ sl ∈ bench.slots, sl.alert.claimHold = none ∧ sl.alert.repeatTimer = none ∧ sl.alert.escalationTimer = none
        ∧ sl.alert.takeover = none)
    ∧ (∀ b ∈ bench.bays, b.settleTimer = none) ∧ (∀ p ∈ bench.peers, p.staleTimer = none)
    ∧ ¬ (1010 ≤ bench.now + 9) := by decide +kernel

/-- The station in ISOLATED until 1010. -/
def alone : State := { bench with stc := { bench.stc with state := .isolated, isolationTimer := some 1010 } }

theorem witness_QuietRecordClaimsWhenShort :
    (∃ sl, (short Alert.initial).slot? 100 = some sl ∧ sl.alert.state = .quiet
        ∧ (short Alert.initial).stc.state = .running ∧ sl.art.disputed = false ∧ sl.target ≠ .none)
      ∧ (∃ sl, bench.slot? 100 = some sl ∧ sl.target = .none
        ∧ targetLevel 10 sl.art.reorder sl.art.margin .none = .low ∧ targetLevel 11 sl.art.reorder sl.art.margin .none = .none)
      ∧ alone.stc.state ≠ .running := by
  refine ⟨met ?_, met ?_, ?_⟩ <;> decide +kernel

/-- The entry into QUIET from each state, with a claim after it and without one. -/
theorem witness_QuietRecordClaimsWhenShort_entries :
    (∃ claim : State → Level → State, ∀ (u : State) (level : Level), claim u level
        = (((u.modAlert 100 fun r =>
            { r with
              state := .claiming, owner := some 5, level := level, known := true
              epoch := if r.known then r.epoch + 1 else 1
              accepted := false, terminal := none, escalated := false, claimSent := false, closing := false
              takeover := none }).tellOwning 100 true).modAlert 100 fun r =>
            { r with outstanding := some { kind := .claim, standing := .requested } }).request (.alertFrame .claim 100))
      ∧ (∀ a ∈ [owned, claimed], (short a).stc.state = .running ∧ ∃ sl, (short a).slot? 100 = some sl
        ∧ sl.art.disputed = false ∧ (sl.alert.state = .claiming ∨ sl.alert.state = .owner)
        ∧ targetLevel 27 sl.art.reorder sl.art.margin .none = .low)
      ∧ (∀ a ∈ [followed, Alert.initial], ∃ sl, (short a).slot? 100 = some sl
        ∧ (sl.alert.state = .quiet ∨ sl.alert.state = .follower)
        ∧ targetLevel 0 sl.art.reorder sl.art.margin .none = .empty
        ∧ targetLevel 31 sl.art.reorder sl.art.margin .none = .none) := by
  refine ⟨⟨_, fun _ _ => rfl⟩, fun a h => ?_, fun a h => ?_⟩ <;>
    simp only [List.mem_cons, List.not_mem_nil, or_false] at h <;> rcases h with rfl | rfl
  · exact ⟨by decide +kernel, met (by decide +kernel)⟩
  · exact ⟨by decide +kernel, met (by decide +kernel)⟩
  · exact met (by decide +kernel)
  · exact met (by decide +kernel)

/-- The station with an alert record, its aggregate of 27 above the clear margin. -/
def ample (a : Alert) : State := station (articleOne 10) a bayOne

theorem witness_QuietRecordClaimsWhenShort_notices :
    (∃ sl, (short { claimed with closing := true }).slot? 100 = some sl ∧ sl.alert.state = .claiming
        ∧ sl.alert.closing = true ∧ sl.target ≠ .none)
      ∧ (∃ sl, (ample { claimed with closing := true }).slot? 100 = some sl ∧ sl.alert.closing = true ∧ sl.target = .none)
      ∧ (∃ sl, (ample { claimed with claimSent := true }).slot? 100 = some sl ∧ sl.alert.claimSent = true)
      ∧ (∃ sl, (ample (awaiting .claim claimed)).slot? 100 = some sl ∧ sl.alert.claimSent = false ∧ sl.target = .none
        ∧ sl.alert.outstanding = some { kind := .claim, standing := .requested })
      ∧ (∃ sl, (ample claimed).slot? 100 = some sl ∧ sl.alert.outstanding = none)
      ∧ (∃ sl, (short { owned with closing := true }).slot? 100 = some sl ∧ sl.alert.state = .owner
        ∧ sl.alert.closing = true ∧ sl.target ≠ .none)
      ∧ (∃ sl, (short { owned with level := .empty }).slot? 100 = some sl ∧ sl.alert.closing = false
        ∧ sl.target ≠ .none ∧ sl.target ≠ sl.alert.level)
      ∧ (∃ sl, (ample owned).slot? 100 = some sl ∧ sl.target = .none ∧ sl.art.coverage = .complete)
      ∧ (∃ sl, (short owned).slot? 100 = some sl ∧ sl.target ≠ .none ∧ sl.target = sl.alert.level)
      ∧ ∃ sl, (station { articleOne 10 with
            peers := [{ holder := 7, units := 3, state := .stale }, { holder := 9, units := 4, state := .fresh }] } followed
            bayOne).slot? 100 = some sl
        ∧ sl.alert.state = .follower ∧ sl.alert.owner = some 7 ∧ sl.art.staleHolder 7 = true
        ∧ ([(7, Freshness.stale)].find? fun m => m.1 == 7).map Prod.snd = some .stale
        ∧ ([(7, Freshness.fresh)].find? fun m => m.1 == 7).map Prod.snd = some .fresh
        ∧ ([(9, Freshness.stale)].find? fun m => m.1 == 7).map Prod.snd = none := by
  refine ⟨met ?_, met ?_, met ?_, met ?_, met ?_, met ?_, met ?_, met ?_, met ?_, met ?_⟩ <;> decide +kernel

theorem witness_AlertTimersKeepTheAlertAlive :
    (short claimed).held = none ∧ 1010 ≤ (short claimed).now + 10
      ∧ (∃ sl, (short { claimed with claimHold := some 1010 }).slot? 100 = some sl ∧ sl.alert.claimHold = some 1010
        ∧ sl.alert.state = .claiming ∧ sl.target ≠ .none)
      ∧ (∃ sl, (station (articleOne 10) { claimed with claimHold := some 1010 } bayOne).slot? 100 = some sl
        ∧ sl.alert.claimHold = some 1010 ∧ sl.alert.state = .claiming ∧ sl.target = .none)
      ∧ (∃ sl, (short { owned with repeatTimer := some 1010 }).slot? 100 = some sl ∧ sl.alert.repeatTimer = some 1010)
      ∧ (∃ sl, (short { owned with escalationTimer := some 1010 }).slot? 100 = some sl
        ∧ sl.alert.escalationTimer = some 1010 ∧ sl.target ≠ .none)
      ∧ ∃ sl, (station (articleOne 10) { owned with escalationTimer := some 1010 } bayOne).slot? 100 = some sl
        ∧ sl.alert.escalationTimer = some 1010 ∧ sl.target = .none := by
  refine ⟨?_, ?_, met ?_, met ?_, met ?_, met ?_, met ?_⟩ <;> decide +kernel

theorem witness_TakeoverClaimsOrGoesQuiet :
    let r := { followed with takeover := some 1010 }
    (short r).held = none ∧ 1010 ≤ (short r).now + 10
      ∧ (∃ sl, (short r).slot? 100 = some sl ∧ sl.alert.takeover = some 1010 ∧ sl.alert.state = .follower
        ∧ 1 ≤ sl.art.margin ∧ (short r).stc.state = .running ∧ sl.art.disputed = false ∧ sl.target ≠ .none)
      ∧ ∃ sl, (station (articleOne 10) r bayOne).slot? 100 = some sl ∧ sl.alert.takeover = some 1010
        ∧ sl.alert.state = .follower ∧ 1 ≤ sl.art.margin ∧ sl.target = .none := by
  refine ⟨?_, ?_, met ?_, met ?_⟩ <;> decide +kernel

/-- The station with the stale timer of one peer due at 1010. -/
def silent (n : Nat) : State := bench.modPeer n fun p => { p with staleTimer := some 1010 }

theorem witness_StaleTimerSilencesThePeer :
    (silent 8).held = none ∧ 1010 ≤ (silent 8).now + 10
      ∧ (∃ p, (silent 8).peer? 8 = some p ∧ p.staleTimer = some 1010) ∧ (silent 8).sharingPeer 8 = false
      ∧ (∃ p, (silent 7).peer? 7 = some p ∧ p.staleTimer = some 1010) ∧ (silent 7).sharingPeer 7 = true := by
  refine ⟨?_, ?_, ⟨_, rfl, ?_⟩, ?_, ⟨_, rfl, ?_⟩, ?_⟩ <;> decide +kernel

theorem witness_StaleTimerSilencesThePeer_changed :
    (∃ sl ∈ (silent 7).slots, ∃ x ∈ sl.art.peers, x.holder = 7 ∧ x.state ≠ .stale)
      ∧ ¬ ∃ sl ∈ (station { articleOne 10 with peers := [{ holder := 7, units := 3, state := .stale }] } Alert.initial
          bayOne).slots, ∃ x ∈ sl.art.peers, x.holder = 7 ∧ x.state ≠ .stale := by decide +kernel

theorem witness_BeaconAndDeltaTimersRequestATally :
    let s : State := { bench with tly := { bench.tly with beaconTimer := some 1010, deltaTimer := some 1010 } }
    s.held = none ∧ 1010 ≤ s.now + 10 ∧ s.tly.beaconTimer = some 1010 ∧ s.tly.deltaTimer = some 1010
      ∧ s.tly.beaconCount + 1 < s.tly.fullInterval ∧ 4 ≤ 3 + 1 ∧ (∀ sl ∈ s.slots, sl.art.changed = false)
      ∧ ∃ sl ∈ (station { articleOne 10 with changed := true } Alert.initial bayOne).slots, sl.art.changed = true := by
  decide +kernel

theorem witness_BeaconAndDeltaTimersRequestATally_sweep :
    (∃ sl, (short { owned with outstanding := some { kind := .alert, standing := .lost } }).slot? 100 = some sl
        ∧ sl.alert.outstanding = some { kind := .alert, standing := .lost } ∧ sl.alert.state = .owner)
      ∧ (∃ sl, (short followed).slot? 100 = some sl ∧ sl.alert.state = .follower)
      ∧ (∃ sl, bench.slot? 100 = some sl ∧ sl.alert.state = .quiet)
      ∧ ({ bench.stc with state := .joining, helloDone := false } : Controller).helloDone = false
      ∧ (∀ e ∈ bench.bsc.waiting, e.req ≠ .hello) ∧ bench.bsc.flight = none
      ∧ (∃ e ∈ [queued .hello 0], e.req = .hello) ∧ (onWire .hello 0 none).entry.req = .hello
      ∧ (onWire .hello 0 (some (queued .hello 0))).followOn = some (queued .hello 0) := by
  refine ⟨met ?_, met ?_, met ?_, ?_⟩ <;> decide +kernel

/-- The station in its first join window, which ends at 1010. -/
def joining : State :=
  { bench with
    stc := { bench.stc with state := .joining, joinTimer := some 1010 }, tly := { bench.tly with firstWindow := false } }

theorem witness_JoinWindowEndsInRunning :
    joining.held = none ∧ joining.stc.state = .joining ∧ joining.stc.joinTimer = some 1010 ∧ 1010 ≤ joining.now + 10
      ∧ joining.tly.firstWindow = false ∧ bench.tly.firstWindow = true := by decide +kernel

theorem witness_IsolationEndsInJoining :
    alone.Inv ∧ alone.stc.state = .isolated ∧ alone.stc.isolationTimer = some 1010 ∧ 1010 ≤ alone.now + 10 := by
  refine ⟨inv_of _ ?_, ?_⟩ <;> decide +kernel

/-- The isolated station with its article marked and a last completion. -/
def marked (last : Option Time) : State :=
  { alone with
    slots := (station { articleOne 10 with changed := true } Alert.initial bayOne).slots
    tly := { alone.tly with lastCompletion := last } }

/-- An empty changed set; marks with no completion and with one whose 250 ms end at this time; marks with one later. -/
theorem witness_IsolationEndsInJoining_delta :
    (∀ sl ∈ alone.slots, sl.art.changed = false)
      ∧ ((marked none).Inv ∧ (marked (some 0)).Inv ∧ (marked (some 900)).Inv)
      ∧ (∃ sl ∈ (marked none).slots, sl.art.changed = true)
      ∧ (marked none).tly.lastCompletion = none
      ∧ ((marked (some 0)).tly.lastCompletion = some 0 ∧ 0 + 250000 ≤ (marked (some 0)).now + 249000)
      ∧ (marked (some 900)).tly.lastCompletion = some 900 ∧ (marked (some 900)).now + 10 < 900 + 250000 := by
  refine ⟨?_, ⟨inv_of _ ?_, inv_of _ ?_, inv_of _ ?_⟩, ?_⟩ <;> decide +kernel

/-- The station with POWER and PIN asserted. -/
def heldReset : State := { State.reset with held := some { kinds := [.pin, .power], haltAtFirst := .badCrc } }

theorem witness_ResetsPutEveryBlockAtItsResetValues :
    let f := { fromSeven .restart [] with dst := 5 }
    bench.held = none ∧ heldReset.held = some { kinds := [.pin, .power], haltAtFirst := .badCrc }
      ∧ ([.pin, .power] : List ResetKind).getLast? = some .power
      ∧ ((.pin ∈ ([.pin, .power] : List ResetKind) → true = true)
        ∧ (.power ∈ ([.pin, .power] : List ResetKind) → 20000 ≤ 20000))
      ∧ ¬ ((.pin ∈ ([.pin, .power] : List ResetKind) → true = true)
        ∧ (.power ∈ ([.pin, .power] : List ResetKind) → 20000 ≤ 19999))
      ∧ heldReset.held ≠ none
      ∧ (bench.bsc.rx.own = false ∧ (Receiver.reset.hearAll f.characters).check = .passed f ∧ f.kind = .restart
        ∧ f.dst = bench.ownNumber ∧ f.dst ≠ 0 ∧ bench.listening = true ∧ f.src ≠ bench.ownNumber)
      ∧ bench.takes (fromSeven .restart []).characters (fromSeven .restart []) ∧ (fromSeven .restart []).dst = 0 := by
  refine ⟨?_, ?_, ?_, ?_, ?_, ?_, ?_, takes_of _ _ _ ?_, ?_⟩ <;> decide +kernel

theorem witness_StrapReadSetsTheNumber :
    State.reset.Inv ∧ State.reset.held = none ∧ State.reset.stc.state = .strap ∧ 2000 ≤ State.reset.now + 2000
      ∧ (1 ≤ (1 : BitVec 5).toNat ∧ (30 : BitVec 5).toNat ≤ 30) ∧ (0 : BitVec 5).toNat = 0 ∧ (31 : BitVec 5).toNat = 31
      ∧ State.reset.now + 1999 < 2000 ∧ bench.stc.state ≠ .strap := by
  refine ⟨inv_of _ ?_, ?_⟩ <;> decide +kernel

/-- The station in LOADING at a read sequence. -/
def loading (start count : Nat) (header : List Byte) : State :=
  { State.reset with
    stc := { State.reset.stc with
      state := .loading, number := 5, header := header, read := some { fdo := [], start := start, count := count } }
    lamps := List.replicate 16 .steady }

/-- A header of an image of one article for station 5, and the image's body. -/
def imageHeader (crc : Nat) : List Byte :=
  [0x4C, 0x5A, 0x42, 0x31, 1, 5, 0x01, 0x64] ++ toBe 2 crc ++ [0x41, 0x81, 4, 0x00, 0xC1, 5]

/-- Bay 1 of article 100, bay 2 of `second`, fourteen VACANT ones, and article 100 at a unit weight, of the stations 5, 7 and
`third`. -/
def imageOf (second unitWeight : Nat) (third : Byte) : List Byte :=
  (toBe 3 100 ++ toBe 4 200 ++ toBe 2 10 ++ toBe 4 20000 ++ toBe 2 5 ++ toBe 2 3 ++ [2, 3, 10])
    ++ ((second :: List.replicate 14 0).map fun n =>
        toBe 3 n ++ toBe 4 0 ++ toBe 2 1 ++ toBe 4 1 ++ toBe 2 1 ++ toBe 2 1 ++ [0, 2, 1]).flatten
    ++ (toBe 3 100 ++ toBe 4 unitWeight ++ toBe 2 10 ++ toBe 2 5 ++ [3, 5, 7, third, 0, 0, 0, 0, 0])

/-- The body of an image that passes every check. -/
def imageBody : List Byte := imageOf 0 100 9

/-- The image's header with the image's CRC. -/
def goodHeader : List Byte := imageHeader 13396

/-- The CRC register over bytes with the register a number at every step, which the kernel evaluates in little space. -/
def crcSteps : List Byte → Nat → Nat
  | [], n => n
  | b :: rest, 0 => crcSteps rest (crcByte 0 b).toNat
  | b :: rest, n + 1 => crcSteps rest (crcByte (BitVec.ofNat 16 (n + 1)) b).toNat

theorem crcSteps_eq (l : List Byte) (r : Crc) : crcSteps l r.toNat = (l.foldl crcByte r).toNat := by
  induction l generalizing r with
  | nil => rfl
  | cons b rest ih =>
    rw [List.foldl_cons, ← ih]
    rcases h : r.toNat with _ | n
    · rw [show r = 0 from BitVec.eq_of_toNat_eq (by simpa using h)]
      rfl
    · rw [crcSteps, ← h, BitVec.ofNat_toNat, BitVec.setWidth_eq]

theorem imageCrc_steps (image : List Byte) : imageCrc image = crcSteps (image.take 8 ++ image.drop 10) 0xFFFF :=
  (crcSteps_eq _ 0xFFFF).symm

theorem witness_HeaderReadChecksSignatureAndLength :
    (loading 0 16 []).Inv
      ∧ ((loading 0 16 []).stc.state = .loading
        ∧ (loading 0 16 []).stc.read = some { fdo := [], start := 0, count := 16 }
        ∧ (List.replicate 16 (0 : Byte)).length = 16 ∧ field (List.replicate 16 (0 : Byte)) 0 4 ≠ 0x4C5A4231
        ∧ (imageHeader 0).length = 16 ∧ field (imageHeader 0) 0 4 = 0x4C5A4231 ∧ field (imageHeader 0) 6 2 = 336 + 20 * 1)
      ∧ (∀ k, 1 ≤ k → k ≤ 16 → 676 ≠ 336 + 20 * k) := by
  refine ⟨inv_of _ (by decide +kernel), by decide +kernel, fun k _ h => ?_⟩
  omega

theorem witness_BodyReadHaltsOrFillsTheTables :
    (loading 16 340 goodHeader).Inv ∧ (loading 16 340 (imageHeader 0)).Inv
      ∧ (loading 16 340 goodHeader).stc.read = some { fdo := [], start := 16, count := 340 } ∧ imageBody.length = 340
      ∧ (loading 16 340 goodHeader).ownNumber = 5 := by
  refine ⟨inv_of _ ?_, inv_of _ ?_, ?_⟩ <;> decide +kernel

/-- The first and the last bay and the one article of an image, a bay with an article and a VACANT one. -/
theorem witness_BodyReadHaltsOrFillsTheTables_tables :
    let image := goodHeader ++ imageBody
    (15 < 16 ∧ 0 < (field image 6 2 - 336) / 20 ∧ ¬ 1 < (field image 6 2 - 336) / 20)
      ∧ ((imageBays image)[0]?.map BayConfig.article = some 100 ∧ (imageBays image)[15]?.map BayConfig.article = some 0)
      ∧ (∃ others : List Nat, others = ([5, 7, 9] : List Nat).filter fun h => h != 5)
      ∧ ([5] : List Nat).filter (fun h => h != 5) = [] := by
  refine ⟨by decide +kernel, by decide +kernel, ⟨_, rfl⟩, by decide +kernel⟩

/-- An image for each check that fails first, and one that passes them all: a wrong CRC, another station's image, a unit
weight of 0, a holder listed twice, a bay of an article without a record. -/
theorem witness_BodyReadHaltsOrFillsTheTables_checks :
    (imageFault 5 (imageHeader 0 ++ imageBody) = some .badCrc
        ∧ imageFault 6 (goodHeader ++ imageBody) = some .stationMismatch)
      ∧ (imageFault 5 (imageHeader 32641 ++ imageOf 0 0 9) = some .badValue
        ∧ imageFault 5 (imageHeader 46327 ++ imageOf 0 100 7) = some .holderCount)
      ∧ imageFault 5 (imageHeader 19929 ++ imageOf 200 100 9) = some .orphan
      ∧ imageFault 5 (goodHeader ++ imageBody) = none := by
  unfold imageFault
  simp only [imageCrc_steps]
  decide +kernel

end Sys2Proof.Tests
end

/-! Rounding to the nearest whole number (R1) and serial comparison (R2): the law of each operation, and the obligations
that follow from it. -/

namespace Sys2Proof.Machine

/-! ### Rounding (R1) -/

/-- `rounded x d` leaves an error of at most half a divisor: the half itself only below, since halves go up. -/
theorem rounded_error_bounds (x : Int) {d : Nat} (hd : 0 < d) :
    -(d : Int) ≤ 2 * (x - d * rounded x d) ∧ 2 * (x - d * rounded x d) < d := by
  have hpos : (0 : Int) < 2 * d := by omega
  have hdiv : 2 * d * rounded x d + (2 * x + d) % (2 * d) = 2 * x + d := Int.mul_ediv_add_emod (2 * x + d) (2 * d)
  have hnonneg := Int.emod_nonneg (2 * x + d) hpos.ne'
  have hlt := Int.emod_lt_of_pos (2 * x + d) hpos
  rw [mul_assoc] at hdiv
  omega

/-- Settles O9: beside `rounded x d` another whole number moves the error by a whole divisor or more, and the bounds of
the error decide on either side. -/
theorem roundedIsNearestHalvesUp : Obligations.RoundedIsNearestHalvesUp := by
  intro x d hd n
  obtain ⟨hlow, hhigh⟩ := rounded_error_bounds x hd
  have hd' : (0 : Int) ≤ d := Int.natCast_nonneg d
  obtain hbelow | hequal | habove := lt_trichotomy n (rounded x d)
  · have hstep : (d : Int) * (n + 1) ≤ d * rounded x d := mul_le_mul_of_nonneg_left hbelow hd'
    rw [mul_add_one] at hstep
    omega
  · exact .inr ⟨by rw [hequal], hequal.le⟩
  · have hstep : (d : Int) * (rounded x d + 1) ≤ d * n := mul_le_mul_of_nonneg_left habove hd'
    rw [mul_add_one] at hstep
    omega

/-! ### Serial arithmetic (R2) -/

/-- The difference modulo `2 ^ n` that `newer` reads, on whole numbers. -/
theorem toNat_sub_eq_mod {n : Nat} (a b : BitVec n) : (b - a).toNat = (b.toNat + 2 ^ n - a.toNat) % 2 ^ n := by
  rw [BitVec.toNat_sub, Nat.add_sub_assoc a.isLt.le, Nat.add_comm]

theorem newer_iff {n : Nat} (a b : BitVec n) :
    newer b a = true
      ↔ 1 ≤ (b.toNat + 2 ^ n - a.toNat) % 2 ^ n ∧ (b.toNat + 2 ^ n - a.toNat) % 2 ^ n ≤ 2 ^ (n - 1) - 1 := by
  have hhalf : 0 < 2 ^ (n - 1) := Nat.two_pow_pos (n - 1)
  rw [newer, toNat_sub_eq_mod, Bool.and_eq_true, decide_eq_true_iff, decide_eq_true_iff, Nat.le_sub_one_iff_lt hhalf]

/-- Settles O10: the law of `newer` at every width, at 8 and at 16 bits, and addition modulo 2^16. -/
theorem serialNumbersCompareByDifference : Obligations.SerialNumbersCompareByDifference :=
  ⟨fun _ => newer_iff, newer_iff, newer_iff, fun e => BitVec.toNat_add e 1⟩

end Sys2Proof.Machine

/-! ACCEPT at the station (R120, R121): what a command that brings a frame hands over, an ACCEPT's share of it, and the
record that meets an epoch of another episode. -/

namespace Sys2Proof.Machine

/-! ### A frame that the station takes (R46 to R48) -/

/-- The command of a frame's own kind: time, the block that owns the kind, lamps. -/
theorem State.takes.event_next {s : State} {heard : List Character} {f : Frame} (h : s.takes heard f) (dt : Time) :
    s.event dt (fun u => u.hearFrame f.kind heard) = .next ((s.elapse dt).dispatch (some f.kind) f).showLamps := by
  obtain ⟨hheld, hlistening, hown, hcheck, hdst, hsrc⟩ := h
  have hpassed : (s.elapse dt).hearFrame f.kind heard = (s.elapse dt).dispatch (some f.kind) f :=
    State.hearFrame_passed f.kind hlistening hown hcheck hdst hsrc
  rw [State.event_next hheld, hpassed]

theorem State.dispatch_accept (s : State) {f : Frame} (hk : f.kind = .accept) :
    s.dispatch (some f.kind) f = s.takeAccept f.src (alertArticle f.payload) (alertEpoch f.payload) := by
  rw [State.dispatch, if_pos (.inr rfl), hk]

/-- An ACCEPT that the station takes goes to the alert unit alone (R96). -/
theorem exec_accept_of_takes {s : State} {heard : List Character} {f : Frame} (h : s.takes heard f)
    (hk : f.kind = .accept) (dt : Time) :
    exec (.accept dt heard) s
      = .next ((s.elapse dt).takeAccept f.src (alertArticle f.payload) (alertEpoch f.payload)).showLamps := by
  have harm : exec (.accept dt heard) s = s.event dt fun u => u.hearFrame f.kind heard := by rw [hk]; rfl
  rw [harm, h.event_next dt, State.dispatch_accept _ hk]

/-! ### An ACCEPT at another epoch (R121) -/

section OtherEpoch

variable {s : State} {a : Nat} {sl : Slot} {x : Epoch}

theorem State.takeAccept_owner_stale (e : s.slot? a = some sl) (ho : sl.alert.state = .owner) (hx : x ≠ sl.alert.epoch)
    (terminal : Nat) : s.takeAccept terminal a x = s.raise .acceptStale terminal a := by
  simp [State.takeAccept, e, ho, hx]

theorem State.takeAccept_follower_stale (e : s.slot? a = some sl) (ho : sl.alert.state = .follower)
    (hx : x ≠ sl.alert.epoch) (terminal : Nat) : s.takeAccept terminal a x = s := by
  simp [State.takeAccept, e, ho, hx]

end OtherEpoch

/-- Settles O48: the alert unit meets the record as it stood before the command, since the passing of time moves no
record; the record's state then decides between the event and nothing. -/
theorem staleAcceptIsIgnored : Obligations.StaleAcceptIsIgnored := by
  rintro s dt heard f _ sl htakes hkind rfl hslot hepoch
  have hslot' : (s.elapse dt).slot? (alertArticle f.payload) = some sl :=
    (State.slot?_of_slots (s.elapse_slots dt) _).trans hslot
  rw [exec_accept_of_takes htakes hkind]
  constructor
  · intro howner
    rw [State.takeAccept_owner_stale hslot' howner hepoch]
  · intro hfollower
    rw [State.takeAccept_follower_stale hslot' hfollower hepoch]

end Sys2Proof.Machine

/-! The shelf-edge lamps (R172 to R174): the selection as rows, the patterns as functions of the timebase, and the commands
that set the timebase to 0. -/

namespace Sys2Proof.Machine

/-! ### The selection (R174) -/

theorem BayState.inFaultGroup_iff (b : BayState) : b.inFaultGroup = true ↔ b = .fault ∨ b = .overload := by
  cases b <;> decide

theorem Level.short_eq (l : Level) : l.short = (l == .low || l == .empty) := by cases l <;> rfl

theorem State.selectPattern_of_halted {s : State} (h : s.stc.state = .halted) (b : Bay) :
    s.selectPattern b = .fast := by
  rw [State.selectPattern, h]

theorem State.selectPattern_of_loading {s : State} (h : s.stc.state = .loading) (b : Bay) :
    s.selectPattern b = .steady := by
  rw [State.selectPattern, h]

/-- Row 3 in the station states that rows 1 and 2 leave; the rows below it read the bay's alert record and strays alone. -/
theorem State.selectPattern_of_ne {s : State} (hhalted : s.stc.state ≠ .halted) (hloading : s.stc.state ≠ .loading)
    (b : Bay) :
    s.selectPattern b =
      if b.state = .fault ∨ b.state = .overload ∨ (s.slot? b.cfg.article).any (fun sl => sl.art.disputed) = true
      then .fast else bayPattern ((s.slot? b.cfg.article).map Slot.alert) (!b.strays.isEmpty) := by
  simp only [← or_assoc, ← BayState.inFaultGroup_iff, ← Bool.or_eq_true]
  unfold State.selectPattern
  cases hstate : s.stc.state with
  | halted => exact absurd hstate hhalted
  | loading => exact absurd hstate hloading
  | strap | joining | running | isolated => cases s.slot? b.cfg.article <;> rfl

/-- Rows 4 and 5 fail where the bay's article has no record. -/
theorem bayPattern_none (strays : Bool) : bayPattern none strays = if strays then .double else .off := rfl

/-- Rows 4 to 7 of a bay whose article has a record. -/
theorem bayPattern_some (r : Alert) (strays : Bool) :
    bayPattern (some r) strays =
      if (r.state != .quiet && (r.level == .low || r.level == .empty)
          && (r.escalated || (r.level == .empty && !r.accepted))) = true then .slow
      else if (r.state != .quiet && (r.level == .low || r.level == .empty)) = true then .steady
      else if strays then .double
      else .off := by
  simp [bayPattern, Level.short_eq, and_assoc]

/-- Settles O7: the station state decides rows 1 and 2, row 3 comes next, and the presence of the article's records says
whether rows 4 and 5 can hold. -/
theorem patternIsTheFirstRowThatHolds : Obligations.PatternIsTheFirstRowThatHolds := by
  intro s b
  by_cases hhalted : s.stc.state = .halted
  · rw [if_pos hhalted, State.selectPattern_of_halted hhalted]
  by_cases hloading : s.stc.state = .loading
  · rw [if_neg hhalted, if_pos hloading, State.selectPattern_of_loading hloading]
  rw [if_neg hhalted, if_neg hloading, State.selectPattern_of_ne hhalted hloading]
  cases s.slot? b.cfg.article with
  | none => simp [bayPattern_none]
  | some sl => simp [bayPattern_some]

/-! ### The patterns (R173) -/

theorem State.lampOn_eq {s : State} {n : Nat} {p : Pattern} (hheld : s.held = none) (hp : nth1 s.lamps n = some p) :
    s.lampOn n = p.litAt s.now := by
  rw [State.lampOn, hheld, hp]

section Milliseconds

variable (t : Nat) {us : Nat}

theorem millis_of_micros (hus : us < 1000) : (t * 1000 + us) / 1000 = t := by omega

theorem slow_litAt_iff (hus : us < 1000) : Pattern.slow.litAt (t * 1000 + us) = true ↔ t % 1000 ≤ 499 := by
  rw [Pattern.litAt, millis_of_micros t hus, decide_eq_true_iff]
  exact Nat.lt_succ_iff

theorem fast_litAt_iff (hus : us < 1000) : Pattern.fast.litAt (t * 1000 + us) = true ↔ t % 250 ≤ 124 := by
  rw [Pattern.litAt, millis_of_micros t hus, decide_eq_true_iff]
  exact Nat.lt_succ_iff

theorem double_litAt_iff (hus : us < 1000) :
    Pattern.double.litAt (t * 1000 + us) = true ↔ t % 2000 ≤ 199 ∨ (400 ≤ t % 2000 ∧ t % 2000 ≤ 599) := by
  rw [Pattern.litAt, millis_of_micros t hus, Bool.or_eq_true, Bool.and_eq_true]
  simp only [decide_eq_true_iff]
  exact or_congr Nat.lt_succ_iff (and_congr_right' Nat.lt_succ_iff)

end Milliseconds

/-! ### The start of the timebase (R156) -/

@[simp] theorem State.afterReset_now (s : State) (cause : ResetKind) (lastHalt : HaltCause) (held : Option HeldReset) :
    (s.afterReset cause lastHalt held).now = 0 := rfl

theorem State.releaseReset_of_released {s : State} {h : HeldReset} {up : Bool} {stood : Time} (hheld : s.held = some h)
    (hreleased : h.released up stood = true) : s.releaseReset up stood = s.afterReset h.cause h.lastHalt none := by
  rw [State.releaseReset, hheld]
  exact if_pos hreleased

theorem exec_resetRelease (up : Bool) (stood : Time) (s : State) :
    exec (.resetRelease up stood) s = .next (s.releaseReset up stood) := rfl

theorem State.takeRestart_of_addressed {s : State} {dst : Nat} (hown : dst = s.ownNumber) (hall : dst ≠ 0) :
    s.takeRestart dst = s.afterReset .restart s.stc.halt none :=
  if_pos ⟨hall, hown⟩

theorem State.dispatch_restart (s : State) {f : Frame} (hk : f.kind = .restart) :
    s.dispatch (some f.kind) f = s.takeRestart f.dst := by
  rw [State.dispatch, if_pos (.inr rfl), hk]

/-- A RESTART that the station takes goes to the station controller alone (R152). -/
theorem exec_restart_of_takes {s : State} {heard : List Character} {f : Frame} (h : s.takes heard f)
    (hk : f.kind = .restart) (dt : Time) :
    exec (.restart dt heard) s = .next ((s.elapse dt).takeRestart f.dst).showLamps := by
  have harm : exec (.restart dt heard) s = s.event dt fun u => u.hearFrame f.kind heard := by rw [hk]; rfl
  rw [harm, h.event_next dt, State.dispatch_restart _ hk]

/-- Settles O8: a lamp line reads its pattern at the current moment, each pattern reads whole milliseconds, and both ways
to a reset release end in `State.afterReset`. -/
theorem patternsRunOnTheTimebase : Obligations.PatternsRunOnTheTimebase := by
  refine ⟨fun s n p => State.lampOn_eq, fun t us hus => ?patterns, fun s h up stood hheld hreleased => ?release,
    fun s dt heard f htakes hkind hdst hall => ?restart⟩
  case patterns => exact ⟨rfl, rfl, slow_litAt_iff t hus, fast_litAt_iff t hus, double_litAt_iff t hus⟩
  case release =>
    refine ⟨_, exec_resetRelease up stood s, ?_⟩
    rw [State.releaseReset_of_released hheld hreleased, State.afterReset_now]
  case restart =>
    have hdst' : f.dst = (s.elapse dt).ownNumber := hdst
    refine ⟨_, exec_restart_of_takes htakes hkind dt, ?_⟩
    rw [State.takeRestart_of_addressed hdst' hall, State.showLamps_now, State.afterReset_now]

end Sys2Proof.Machine

/-! Events and counts at the health unit (R182 to R188): what an event leaves in each field of the unit, what a count
leaves in its counter, and the classes of the codes. -/

namespace Sys2Proof.Machine

/-! ### The counters and the records (R186, R188) -/

theorem Health.rise_counter (h : Health) (c : Counter) (amount n : Nat) :
    (h.rise c amount).counters[n]? =
      (h.counters[n]?).map fun v => if c.index = n then min 255 (v + amount) else v := by
  by_cases hn : c.index = n
  · subst hn
    simp only [Health.rise_same, if_true]
  · simp only [Health.rise_other h c amount n (Ne.symm hn), if_neg hn, Option.map_id']

theorem captured_of_empty {record : Option Capture} (hr : record = none) (code : FaultCode) (subject article : Nat)
    (now : Time) : captured record code subject article now
      = some { code := code, subject := subject, article := article, time := now, further := 0 } := by
  rw [hr, captured]

theorem captured_of_full {record : Option Capture} {c : Capture} (hr : record = some c) (code : FaultCode)
    (subject article : Nat) (now : Time) :
    captured record code subject article now = some { c with further := min 255 (c.further + 1) } := by
  rw [hr, captured]

/-! ### An event (R183) -/

section Event

variable (h : Health) (code : FaultCode) (subject article amount : Nat) (now : Time)

/-- The code's counter decides the counters, the code's class the two records. -/
theorem Health.take_eq :
    h.take code subject article amount now =
      { counters := code.counter.elim h.counters fun c => (h.rise c amount).counters
        degrade := if code.severity = .degrade then captured h.degrade code subject article now else h.degrade
        severe := if code.severity = .severe then captured h.severe code subject article now else h.severe } := by
  unfold Health.take
  cases code.counter <;> cases code.severity <;> rfl

theorem Health.take_counter (n : Nat) :
    (h.take code subject article amount now).counters[n]? = (h.counters[n]?).map fun v =>
      if code.counter.map Counter.index = some n then min 255 (v + amount) else v := by
  rw [Health.take_eq]
  cases code.counter with
  | none => simp
  | some c => simp [Health.rise_counter]

variable {code}

theorem Health.take_degrade_of_class (hc : code.severity = .degrade) :
    (h.take code subject article amount now).degrade = captured h.degrade code subject article now := by
  rw [Health.take_eq, if_pos hc]

theorem Health.take_severe_of_class (hc : code.severity = .severe) :
    (h.take code subject article amount now).severe = captured h.severe code subject article now := by
  rw [Health.take_eq, if_pos hc]

theorem Health.take_degrade_of_other (hc : code.severity ≠ .degrade) :
    (h.take code subject article amount now).degrade = h.degrade := by
  rw [Health.take_eq, if_neg hc]

theorem Health.take_severe_of_other (hc : code.severity ≠ .severe) :
    (h.take code subject article amount now).severe = h.severe := by
  rw [Health.take_eq, if_neg hc]

/-- The record of the event's class, whichever of the two it is, takes the event. -/
theorem Health.take_record {record : Health → Option Capture}
    (hrecord : code.severity = .degrade ∧ record = Health.degrade ∨ code.severity = .severe ∧ record = Health.severe) :
    record (h.take code subject article amount now) = captured (record h) code subject article now := by
  obtain ⟨hc, rfl⟩ | ⟨hc, rfl⟩ := hrecord
  · exact h.take_degrade_of_class subject article amount now hc
  · exact h.take_severe_of_class subject article amount now hc

end Event

/-! ### The classes of the codes (R183) -/

theorem FaultCode.severity_eq_severe_iff (c : FaultCode) :
    c.severity = .severe ↔ c = .bayFault ∨ c = .bayOverload ∨ c = .isolation ∨ c = .disputed := by
  cases c <;> decide

theorem FaultCode.severity_eq_note_iff (c : FaultCode) :
    c.severity = .note ↔ c = .rxForm ∨ c = .rxCrc ∨ c = .txCollision ∨ c = .unresolved ∨ c = .claimYield
      ∨ c = .acceptStale := by
  cases c <;> decide

/-- Settles O12: an event is `Health.take` at the current time and a count `Health.rise` by 1; the laws of the two give
records and counters, and the lists of codes are read off the tables of classes, counters and places. -/
theorem eventsAreCountedAndCaptured : Obligations.EventsAreCountedAndCaptured := by
  refine ⟨fun s code subject article amount c => ⟨rfl, rfl, rfl⟩, ?event,
    fun s c => ⟨rfl, rfl, s.hlu.rise_counter c 1⟩, by decide, by decide, by decide,
    fun c => ⟨c.severity_eq_severe_iff, c.severity_eq_note_iff⟩⟩
  case event =>
    rintro s code subject article amount _ rfl
    rw [State.raiseN_hlu]
    refine ⟨fun record hrecord => ?record, s.hlu.take_degrade_of_other subject article amount s.now,
      s.hlu.take_severe_of_other subject article amount s.now, s.hlu.take_counter code subject article amount s.now⟩
    case record =>
      rw [s.hlu.take_record subject article amount s.now hrecord]
      exact ⟨fun hempty => captured_of_empty hempty .., fun c hfull => captured_of_full hfull ..⟩

end Sys2Proof.Machine

/-! The block as a whole (R156, R175): what every command has in common, and from it that a command completes, keeps the
invariant and leaves each lamp line at its selected pattern. -/

namespace Sys2Proof.Machine

/-! ### What no field of the invariant reads -/

theorem State.elapse_sound_iff (s : State) (dt : Time) : (s.elapse dt).Sound ↔ s.Sound := Iff.rfl

theorem State.showLamps_sound_iff (s : State) : s.showLamps.Sound ↔ s.Sound := Iff.rfl

theorem State.withQueue_sound_iff (s : State) (q : List Instr) : (s.withQueue q).Sound ↔ s.Sound := Iff.rfl

theorem State.withQueue_selectPattern (s : State) (q : List Instr) :
    (s.withQueue q).selectPattern = s.selectPattern := rfl

theorem State.showLamps_selectPattern (s : State) : s.showLamps.selectPattern = s.selectPattern := rfl

/-- The lamp half of the invariant: every line has the pattern selected for its bay (R175). -/
def State.LampsShown (s : State) : Prop := s.lamps = s.bays.map s.selectPattern

theorem State.showLamps_lampsShown (s : State) : s.showLamps.LampsShown := rfl

theorem State.inv_iff (s : State) : s.Inv ↔ s.Sound ∧ s.LampsShown := Iff.rfl

/-! ### A command as an event -/

/-- An act of a command that leaves the waiting commands alone and keeps the blocks sound while no reset is held. -/
def KeepsBlocks (act : State → State) : Prop :=
  (∀ u, (act u).pending = u.pending) ∧ ∀ u, u.Sound → u.held = none → (act u).Sound

theorem keepsBlocks_hearFrame (kind : Kind) (heard : List Character) :
    KeepsBlocks fun s => s.hearFrame kind heard :=
  ⟨fun u => u.receiveFrame_queue _ _ _, fun _ h hh => h.receiveFrame hh _ _ _⟩

theorem keepsBlocks_readyTimer :
    KeepsBlocks fun s => match expired s.now s.pru.readyTimer with
      | some _ => s.fillingReady
      | none => s := by
  refine ⟨fun u => ?_, fun _ h _ => h.readyTimer⟩
  dsimp only
  cases expired u.now u.pru.readyTimer with
  | none => rfl
  | some _ => exact u.fillingReady_queue

theorem keepsBlocks_pendingExpiry (i : Nat) :
    KeepsBlocks fun s => match s.pru.pendingTakes[i]? with
      | some p =>
        if s.listening && decide (p.arrival + s.pru.window ≤ s.now) then
          ({ s with pru := { s.pru with pendingTakes := s.pru.pendingTakes.eraseIdx i } } : State).raise
            .pairEvict p.source p.article
        else s
      | none => s := by
  refine ⟨fun u => ?_, fun _ h _ => h.pendingExpiry i⟩
  dsimp only
  split
  · split <;> rfl
  · rfl

theorem keepsBlocks_sample (n : Nat) (c : Conversion) :
    KeepsBlocks fun s =>
      let s1 : State := { s with channels := validityAfter c n s.channels }
      if s1.listening then s1.takeSample n (sampleOf c) else s1 := by
  refine ⟨fun u => ?_, fun _ h _ => h.sample n c⟩
  dsimp only
  split
  · exact State.takeSample_queue _ _ _
  · rfl

theorem keepsBlocks_beaconTick :
    KeepsBlocks fun s => match expired s.now s.tly.beaconTimer with
      | some e => ((s.beaconTally e).beaconSweep).beaconHello
      | none => s := by
  refine ⟨fun u => ?_, fun _ h _ => h.beaconTick⟩
  dsimp only
  cases expired u.now u.tly.beaconTimer with
  | none => rfl
  | some e =>
    exact (State.beaconHello_queue _).trans ((State.beaconSweep_queue _).trans (u.beaconTally_queue e))

theorem keepsBlocks_deltaTimer :
    KeepsBlocks fun s => match expired s.now s.tly.deltaTimer with
      | some _ => s.deltaExpires
      | none => s := by
  refine ⟨fun u => ?_, fun _ h _ => h.deltaTimer⟩
  dsimp only
  cases expired u.now u.tly.deltaTimer with
  | none => rfl
  | some _ => exact u.deltaExpires_sent.pending

theorem keepsBlocks_joinTimer :
    KeepsBlocks fun s => match expired s.now s.stc.joinTimer with
      | some _ => if s.stc.state = .joining then s.endJoinWindow else s
      | none => s := by
  refine ⟨fun u => ?_, fun _ h _ => h.joinTimer⟩
  dsimp only
  split
  · split
    · exact u.endJoinWindow_queue
    · rfl
  · rfl

theorem keepsBlocks_isolationTimer :
    KeepsBlocks fun s => match expired s.now s.stc.isolationTimer with
      | some _ =>
        if s.stc.state = .isolated then
          ({ s with stc := { s.stc with isolationTimer := none } } : State).enterJoining
        else s
      | none => s := by
  refine ⟨fun u => ?_, fun _ h _ => h.isolationTimer⟩
  dsimp only
  split
  · split
    · exact State.enterJoining_queue _
    · rfl
  · rfl

/-- A command is an event whose act keeps the blocks, or one of the three commands around a held reset, which leaves the
state as it is or at the values of a reset. -/
theorem exec_shape (c : Instr) (s : State) :
    (∃ dt act, exec c s = s.event dt act ∧ KeepsBlocks act)
      ∨ exec c s = .next s ∨ ∃ cause lastHalt held, exec c s = .next (s.afterReset cause lastHalt held) := by
  cases c with
  | powerReset => exact .inr (.inr ⟨_, _, _, rfl⟩)
  | pinReset => exact .inr (.inr ⟨_, _, _, rfl⟩)
  | resetRelease up stood =>
    rw [exec_resetRelease, State.releaseReset]
    split
    · split
      · exact .inr (.inr ⟨_, _, _, rfl⟩)
      · exact .inr (.inl rfl)
    · exact .inr (.inl rfl)
  | sampleArrival dt n k => exact .inl ⟨dt, _, rfl, keepsBlocks_sample n k⟩
  | settleTimeout dt n => exact .inl ⟨dt, _, rfl, fun u => u.settleTimeout_queue n, fun _ h _ => h.settleTimeout n⟩
  | readyTimer dt => exact .inl ⟨dt, _, rfl, keepsBlocks_readyTimer⟩
  | pendingExpiry dt i => exact .inl ⟨dt, _, rfl, keepsBlocks_pendingExpiry i⟩
  | busBusy dt heard => exact .inl ⟨dt, fun u => u.lineBusy heard, rfl, fun _ => rfl, fun _ h _ => h.lineBusy heard⟩
  | busIdle dt => exact .inl ⟨dt, _, rfl, State.lineIdle_queue, fun _ h hh => h.lineIdle hh⟩
  | deferralEnd dt => exact .inl ⟨dt, _, rfl, State.endDeferral_queue, fun _ h _ => h.endDeferral⟩
  | txCollision dt => exact .inl ⟨dt, _, rfl, State.collide_queue, fun _ h _ => h.collide⟩
  | attemptComplete dt => exact .inl ⟨dt, _, rfl, State.completeAttempt_queue, fun _ h _ => h.completeAttempt⟩
  | tally dt heard | shift dt heard | claim dt heard | alert dt heard | clear dt heard | accept dt heard
  | hello dt heard | query dt heard | restart dt heard =>
    exact .inl ⟨dt, _, rfl, keepsBlocks_hearFrame _ heard⟩
  | claimHold dt a =>
    exact .inl ⟨dt, _, rfl, fun u => u.claimHoldExpires_queue a, fun _ h _ => h.claimHoldExpires a⟩
  | repeatTimer dt a => exact .inl ⟨dt, _, rfl, fun u => u.repeatExpires_queue a, fun _ h _ => h.repeatExpires a⟩
  | escalationTimer dt a =>
    exact .inl ⟨dt, _, rfl, fun u => u.escalationExpires_queue a, fun _ h _ => h.escalationExpires a⟩
  | takeoverDelay dt a =>
    exact .inl ⟨dt, _, rfl, fun u => u.takeoverExpires_queue a, fun _ h _ => h.takeoverExpires a⟩
  | staleTimer dt n =>
    exact .inl ⟨dt, _, rfl, fun u => (u.staleExpires_heard n).pending, fun _ h _ => h.staleExpires n⟩
  | beaconTick dt => exact .inl ⟨dt, _, rfl, keepsBlocks_beaconTick⟩
  | deltaTimer dt => exact .inl ⟨dt, _, rfl, keepsBlocks_deltaTimer⟩
  | joinTimer dt => exact .inl ⟨dt, _, rfl, keepsBlocks_joinTimer⟩
  | isolationTimer dt => exact .inl ⟨dt, _, rfl, keepsBlocks_isolationTimer⟩
  | strapRead dt straps =>
    exact .inl ⟨dt, fun u => u.readStraps straps, rfl, fun u => u.readStraps_queue straps,
      fun _ h hh => h.readStraps hh straps⟩
  | headerRead dt bytes =>
    exact .inl ⟨dt, _, rfl, fun u => u.endHeaderRead_queue bytes, fun _ h hh => h.endHeaderRead hh bytes⟩
  | bodyRead dt bytes =>
    exact .inl ⟨dt, _, rfl, fun u => u.endBodyRead_queue bytes, fun _ h hh => h.endBodyRead hh bytes⟩

/-- What a command answers: the state as it was, or one with the same waiting commands, with each lamp line at its
selected pattern, and sound where the state before was. -/
theorem exec_next (c : Instr) (s : State) :
    ∃ t, exec c s = .next t ∧ (t = s ∨ t.pending = s.pending ∧ t.LampsShown ∧ (s.Sound → t.Sound)) := by
  obtain ⟨dt, act, hexec, hqueue, hsound⟩ | hexec | ⟨cause, lastHalt, held, hexec⟩ := exec_shape c s
  · by_cases hheld : s.held = none
    · exact ⟨_, hexec.trans (State.event_next hheld dt act), .inr ⟨hqueue _, State.showLamps_lampsShown _,
        fun h => (State.showLamps_sound_iff _).mpr (hsound _ ((s.elapse_sound_iff dt).mpr h) hheld)⟩⟩
    · exact ⟨s, hexec.trans (State.event_held hheld dt act), .inl rfl⟩
  · exact ⟨s, hexec, .inl rfl⟩
  · exact ⟨_, hexec, .inr ⟨rfl, State.afterReset_lamps .., fun _ => State.afterReset_sound ..⟩⟩

/-- What a step leaves: the state on an empty queue, else what the front command answers. -/
theorem step_cases {s t : State} (h : step s = .next t) :
    t = s ∨ ∃ c rest, s.pending = c :: rest ∧ exec c (s.withQueue rest) = .next t := by
  unfold step at h
  cases hp : s.pending with
  | nil => rw [hp] at h; exact .inl (Host.Outcome.next.inj h).symm
  | cons c rest => rw [hp] at h; exact .inr ⟨c, rest, rfl, h⟩

/-- Every step keeps the lamps' patterns, and with them the soundness of the blocks. -/
theorem step_keeps {s t : State} (h : step s = .next t) :
    (s.LampsShown → t.LampsShown) ∧ (s.Sound → t.Sound) := by
  obtain rfl | ⟨c, rest, -, hexec⟩ := step_cases h
  · exact ⟨id, id⟩
  · obtain ⟨u, hu, hcase⟩ := exec_next c (s.withQueue rest)
    obtain rfl : u = t := Host.Outcome.next.inj (hu.symm.trans hexec)
    obtain rfl | ⟨-, hlamps, hsound⟩ := hcase
    · exact ⟨id, id⟩
    · exact ⟨fun _ => hlamps, hsound⟩

/-- Settles O5: the invariant is soundness and lamps, and a step keeps each. -/
theorem invariantKept : Obligations.InvariantKept := fun _ _ hinv hstep =>
  ⟨(step_keeps hstep).2 hinv.1, (step_keeps hstep).1 hinv.2⟩

/-- Settles O2: every command answers a next state, and none touches the queue it was taken from. -/
theorem everyCommandCompletes : Obligations.EveryCommandCompletes := by
  intro c s
  obtain ⟨t, hexec, rfl | ⟨hqueue, -, -⟩⟩ := exec_next c s
  · exact ⟨_, hexec, rfl⟩
  · exact ⟨_, hexec, hqueue⟩

/-- Settles O6: the lamp half of what a step keeps, and the selection's own definition. -/
theorem lampsFollowTheSelection : Obligations.LampsFollowTheSelection :=
  ⟨fun _ _ hlamps hstep => (step_keeps hstep).1 hlamps, fun _ => rfl⟩

/-! ### The queue and the reset -/

theorem step_of_cons {s : State} {c : Instr} {rest : List Instr} (h : s.pending = c :: rest) :
    step s = exec c (s.withQueue rest) := by
  rw [step, h]

theorem step_of_nil {s : State} (h : s.pending = []) : step s = .next s := by
  rw [step, h]

/-- Settles O1: the two cases of a step. -/
theorem stepRunsTheFrontCommand : Obligations.StepRunsTheFrontCommand :=
  ⟨fun _ _ _ => step_of_cons, fun _ => step_of_nil⟩

/-- The state after reset is the one that a POWER reset leaves. -/
theorem State.reset_eq_afterReset : State.reset = State.reset.afterReset .power .noHalt none := rfl

/-- Settles O3: the reset values as the model writes them. -/
theorem resetLeavesTheSpecsValues : Obligations.ResetLeavesTheSpecsValues := by
  unfold Obligations.ResetLeavesTheSpecsValues State.reset
  refine ⟨rfl, rfl, rfl, ?_⟩
  simp [Pairing.reset, Peer.reset, TallyUnit.reset, BusController.reset, Controller.reset, Health.reset]

/-- Settles O4: a reset leaves every block sound and every lamp line dark, as its selection says. -/
theorem invariantAtReset : Obligations.InvariantAtReset := by
  rw [Obligations.InvariantAtReset, State.reset_eq_afterReset]
  exact ⟨State.afterReset_sound .., State.afterReset_lamps ..⟩

end Sys2Proof.Machine

/-! The settle tracker (chapter 1): what a sample leaves of a bay record, the settle, the settle timer, and what the tally
unit does when it is told. -/

namespace Sys2Proof.Machine

/-! ### A sample on its way to the bay (R3, R4) -/

section Sample

variable {s : State} {n : Nat} {b b1 : Bay} {x : Option Int}

theorem exec_sampleArrival (hheld : s.held = none) (dt : Time) (n : Nat) (c : Conversion) :
    exec (.sampleArrival dt n c) s
      = .next (if s.listening then (s.sampled dt n c).takeSample n (sampleOf c) else s.sampled dt n c).showLamps :=
  State.event_next hheld dt fun s =>
    let s1 : State := { s with channels := validityAfter c n s.channels }
    if s1.listening then s1.takeSample n (sampleOf c) else s1

theorem State.sampled_bay? (s : State) (dt : Time) (n : Nat) (c : Conversion) (m : Nat) :
    (s.sampled dt n c).bay? m = s.bay? m := rfl

theorem State.takeSample_nothing (e : s.bay? n = some b) (h : b.takeSample s.now x = (b1, .nothing)) :
    s.takeSample n x = (s.modBay n fun _ => b1).noticeBay n b := by
  rw [State.takeSample, e]
  simp only [h]

theorem State.takeSample_faulted (e : s.bay? n = some b) (h : b.takeSample s.now x = (b1, .faulted)) :
    s.takeSample n x = ((s.modBay n fun _ => b1).raise .bayFault n b.cfg.article).noticeBay n b := by
  rw [State.takeSample, e]
  simp only [h]

theorem State.takeSample_overloaded (e : s.bay? n = some b) (h : b.takeSample s.now x = (b1, .overloaded)) :
    s.takeSample n x = ((s.modBay n fun _ => b1).raise .bayOverload n b.cfg.article).noticeBay n b := by
  rw [State.takeSample, e]
  simp only [h]

theorem State.takeSample_settles (e : s.bay? n = some b) (h : b.takeSample s.now x = (b1, .settles)) :
    s.takeSample n x = ((s.modBay n fun _ => b1).settle n b1).noticeBay n b := by
  rw [State.takeSample, e]
  simp only [h]

/-! ### Which changes the tally unit is told of (R24) -/

theorem noticeDue_iff (before after : Bay) :
    noticeDue before after = true ↔ before.units ≠ after.units
      ∨ ¬ (before.state = .fault ∨ before.state = .overload ↔ after.state = .fault ∨ after.state = .overload)
      ∨ ¬ (before.state = .unsteady ↔ after.state = .unsteady)
      ∨ ¬ (before.strays = [] ↔ after.strays = []) := by
  have hbool (x y : Bool) : (x != y) = true ↔ ¬ (x = true ↔ y = true) := by cases x <;> cases y <;> decide
  simp only [noticeDue, Bool.or_eq_true, hbool, BayState.inFaultGroup_iff, beq_iff_eq, List.isEmpty_iff, or_assoc,
    bne_iff_ne]

theorem State.noticeBay_of_not_due {after : Bay} (e : s.bay? n = some after) (h : noticeDue b after = false) :
    s.noticeBay n b = s := by
  rw [State.noticeBay, e]
  exact if_neg (by rw [h]; decide)

theorem State.noticeBay_of_due {after : Bay} (e : s.bay? n = some after) (h : noticeDue b after = true) :
    s.noticeBay n b = s.settleNotice b.cfg.article := by
  rw [State.noticeBay, e]
  exact if_pos h

theorem State.modBay_bay? (e : s.bay? n = some b) (f : Bay → Bay) : (s.modBay n f).bay? n = some (f b) :=
  mod1_get e f

/-- A record that keeps what R24 watches tells nobody. -/
theorem State.modBay_noticeBay_quiet (e : s.bay? n = some b) (hunits : b1.units = b.units)
    (hgroup : b1.state.inFaultGroup = b.state.inFaultGroup) (hunsteady : b1.state = .unsteady ↔ b.state = .unsteady)
    (hstrays : b1.strays = b.strays) :
    (s.modBay n fun _ => b1).noticeBay n b = s.modBay n fun _ => b1 := by
  refine State.noticeBay_of_not_due (State.modBay_bay? e _) ?_
  rw [← Bool.not_eq_true, noticeDue_iff, ← BayState.inFaultGroup_iff, ← BayState.inFaultGroup_iff]
  simp [hunits, hgroup, hunsteady, hstrays]

/-- A sample that moves nothing R24 watches changes the bay record alone. -/
theorem State.takeSample_quiet (e : s.bay? n = some b) (h : b.takeSample s.now x = (b1, .nothing))
    (hunits : b1.units = b.units) (hgroup : b1.state.inFaultGroup = b.state.inFaultGroup)
    (hunsteady : b1.state = .unsteady ↔ b.state = .unsteady) (hstrays : b1.strays = b.strays) :
    s.takeSample n x = s.modBay n fun _ => b1 := by
  rw [State.takeSample_nothing e h, State.modBay_noticeBay_quiet e hunits hgroup hunsteady hstrays]

end Sample

/-! ### A sample that is not taken (R3, R4, R8) -/

theorem Bay.takeSample_vacant {b : Bay} (h : b.state = .vacant) (now : Time) (x : Option Int) :
    b.takeSample now x = (b, .nothing) := if_pos h

theorem State.modBay_self {s : State} {n : Nat} {b : Bay} (e : s.bay? n = some b) : (s.modBay n fun _ => b) = s := by
  rw [State.modBay, mod1_same e]

theorem State.takeSample_vacant {s : State} {n : Nat} {b : Bay} (e : s.bay? n = some b) (h : b.state = .vacant)
    (x : Option Int) : s.takeSample n x = s := by
  rw [State.takeSample_quiet e (Bay.takeSample_vacant h s.now x) rfl rfl Iff.rfl rfl, State.modBay_self e]

theorem sampleOf_weight_isSome (g : Int) :
    (sampleOf (.weight g)).isSome = decide (-100000 ≤ g ∧ g ≤ 1000000) := by
  by_cases h : -100000 ≤ g ∧ g ≤ 1000000 <;> simp [sampleOf, h]

/-- Settles O13: outside the listening states the sample stops at its channel, and a VACANT bay hands it back. -/
theorem untakenSampleChangesTheChannelOnly : Obligations.UntakenSampleChangesTheChannelOnly := by
  refine ⟨State.listening_iff, ?untaken, fun _ _ => rfl, ?channel, rfl, rfl, fun _ => rfl⟩
  case untaken =>
    rintro s dt n c hheld (hdeaf | ⟨b, hbay, hvacant⟩)
    · rw [exec_sampleArrival hheld, hdeaf]
      rfl
    · have hback : (s.sampled dt n c).takeSample n (sampleOf c) = s.sampled dt n c :=
        State.takeSample_vacant (s := s.sampled dt n c) hbay hvacant _
      rw [exec_sampleArrival hheld, hback, ite_self]
  case channel =>
    intro n l _
    refine ⟨(List.set_eq_modify false n l).symm, fun g => ?_⟩
    rw [← sampleOf_weight_isSome]
    exact (List.set_eq_modify _ n l).symm

/-! ### Samples that count against the bay (R9 to R11) -/

section BadSample

variable {b : Bay} {now : Time}

theorem Bay.takeSample_active (hv : b.state ≠ .vacant) (now : Time) (x : Option Int) :
    b.takeSample now x = match x with
      | some g => b.takeValid now g
      | none => b.takeInvalid := if_neg hv

theorem Bay.takeInvalid_counted (h : b.invalidRun < 2 ∨ b.state = .fault) :
    b.takeInvalid = ({ b with invalidRun := min 3 (b.invalidRun + 1) }, .nothing) := by
  have hneg : ¬ (min 3 (b.invalidRun + 1) = 3 ∧ b.state ≠ .fault) := by
    rintro ⟨hthird, hne⟩
    exact h.elim (fun hlt => by omega) hne
  exact if_neg hneg

theorem Bay.takeInvalid_third (h : 2 ≤ b.invalidRun) (hf : b.state ≠ .fault) :
    b.takeInvalid = (b.outOfUse .fault 3, .faulted) := by
  have hthird : min 3 (b.invalidRun + 1) = 3 := by omega
  simp [Bay.takeInvalid, Bay.enterGroup, Bay.outOfUse, hthird, hf]

theorem Bay.takeValid_overload {g : Int} (hg : (b.cfg.capacity : Int) < g) (ho : b.state = .overload) :
    b.takeValid now g = ({ b with invalidRun := 0 }, .nothing) := by
  simp [Bay.takeValid, hg, ho]

theorem Bay.takeValid_overloads {g : Int} (hg : (b.cfg.capacity : Int) < g) (ho : b.state ≠ .overload) :
    b.takeValid now g = (b.outOfUse .overload 0, .overloaded) := by
  simp [Bay.takeValid, hg, ho, Bay.enterGroup, Bay.outOfUse]

end BadSample

/-- A sample that reaches its bay (R3). -/
theorem exec_sampleArrival_taken {s : State} (hheld : s.held = none) (hl : s.listening = true) (dt : Time) (n : Nat)
    (c : Conversion) :
    exec (.sampleArrival dt n c) s = .next ((s.sampled dt n c).takeSample n (sampleOf c)).showLamps := by
  rw [exec_sampleArrival hheld, if_pos hl]

/-- Settles O14: the four cases of a sample that is invalid or above the capacity. -/
theorem badSamplesFaultOrOverload : Obligations.BadSamplesFaultOrOverload := by
  refine ⟨fun s f => ⟨rfl, rfl, fun n => ⟨rfl, rfl⟩⟩, fun s dt n c b hheld hl hbay hv => ?_⟩
  rw [exec_sampleArrival_taken hheld hl]
  have e : (s.sampled dt n c).bay? n = some b := hbay
  have hactive := Bay.takeSample_active hv (s.sampled dt n c).now
  refine ⟨fun hx hcase => ?counted, fun hx hrun hf => ?faulted, fun g hx hg ho => ?inOverload, fun g hx hg ho => ?overloaded⟩
  all_goals rw [hx]
  case counted =>
    rw [State.takeSample_quiet e ((hactive none).trans (Bay.takeInvalid_counted hcase)) rfl rfl Iff.rfl rfl]
  case faulted => rw [State.takeSample_faulted e ((hactive none).trans (Bay.takeInvalid_third hrun hf))]
  case inOverload =>
    rw [State.takeSample_quiet e ((hactive (some g)).trans (Bay.takeValid_overload hg ho)) rfl rfl Iff.rfl rfl]
  case overloaded => rw [State.takeSample_overloaded e ((hactive (some g)).trans (Bay.takeValid_overloads hg ho))]

/-! ### Valid samples at or below the capacity (R11 to R16) -/

section GoodSample

variable {b : Bay} {now : Time} {g w : Int}

theorem within_of_le {tolerance : Nat} {x y : Int} (h : (x - y).natAbs ≤ tolerance) : within tolerance x y = true :=
  decide_eq_true h

theorem within_of_lt {tolerance : Nat} {x y : Int} (h : tolerance < (x - y).natAbs) : within tolerance x y = false :=
  decide_eq_false (Nat.not_le.mpr h)

/-- The first sample of a disturbance (R9, R15). -/
theorem Bay.enterDisturbed_blank (b : Bay) (now : Time) (g : Int) :
    (({ b with invalidRun := 0 } : Bay).enterDisturbed now).blank g = { b.disturbedBy now g with invalidRun := 0 } := by
  by_cases h : b.cfg.blankCount = 0
  · simp [Bay.enterDisturbed, Bay.blank, Bay.disturbedBy, h]
  · simp [Bay.enterDisturbed, Bay.blank, Bay.disturbedBy, h, Nat.pos_of_ne_zero h]

theorem Bay.takeValid_leaves (hg : g ≤ b.cfg.capacity)
    (h : b.state = .overload ∨ b.state = .fault
      ∨ b.state = .settled ∧ ∃ w, b.settled = some w ∧ b.cfg.disturbBand < (g - w).natAbs) :
    b.takeValid now g = ({ b.disturbedBy now g with invalidRun := 0 }, .nothing) := by
  rw [← Bay.enterDisturbed_blank]
  obtain hs | hs | ⟨hs, w, hw, hband⟩ := h
  · simp [Bay.takeValid, not_lt.mpr hg, hs]
  · simp [Bay.takeValid, not_lt.mpr hg, hs]
  · simp [Bay.takeValid, not_lt.mpr hg, hs, hw, within_of_lt hband]

theorem Bay.takeValid_stays (hg : g ≤ b.cfg.capacity) (hs : b.state = .settled) (hw : b.settled = some w)
    (hband : (g - w).natAbs ≤ b.cfg.disturbBand) :
    b.takeValid now g = ({ b with invalidRun := 0 }, .nothing) := by
  simp [Bay.takeValid, not_lt.mpr hg, hs, hw, within_of_le hband]

theorem Bay.takeValid_first (hg : g ≤ b.cfg.capacity) (hs : b.state = .disturbed ∨ b.state = .unsteady)
    (hc : b.candidate = none) :
    b.takeValid now g = (({ b with invalidRun := 0 } : Bay).blank g, .nothing) := by
  obtain hs | hs := hs <;> simp [Bay.takeValid, not_lt.mpr hg, hs, hc]

theorem Bay.takeValid_compared (hg : g ≤ b.cfg.capacity) (hs : b.state = .settling ∨ b.state = .unsteady)
    (hc : b.candidate = some w) :
    b.takeValid now g = ({ b with invalidRun := 0 } : Bay).confirm w g := by
  obtain hs | hs := hs <;> simp [Bay.takeValid, not_lt.mpr hg, hs, hc]

theorem Bay.confirm_counted (hband : (g - w).natAbs ≤ b.cfg.settleBand) (hrun : b.runCount + 1 ≠ b.cfg.confirmCount) :
    ({ b with invalidRun := 0 } : Bay).confirm w g = (b.confirmed g, .nothing) := by
  simp [Bay.confirm, Bay.confirmed, within_of_le hband, hrun]

theorem Bay.confirm_settles (hband : (g - w).natAbs ≤ b.cfg.settleBand) (hrun : b.runCount + 1 = b.cfg.confirmCount) :
    ({ b with invalidRun := 0 } : Bay).confirm w g = (b.confirmed g, .settles) := by
  simp [Bay.confirm, Bay.confirmed, within_of_le hband, hrun]

theorem Bay.confirm_restarts (hband : b.cfg.settleBand < (g - w).natAbs) :
    ({ b with invalidRun := 0 } : Bay).confirm w g
      = ({ b with invalidRun := 0, candidate := some g, runCount := 1, runSum := g }, .nothing) := by
  simp [Bay.confirm, within_of_lt hband]

end GoodSample

/-- Settles O15: the rule of the bay's state decides the record; R24 watches the units, the FAULT group, UNSTEADY and the
strays, which move only where a bay leaves a state. -/
theorem sampleDisturbsOrConfirms : Obligations.SampleDisturbsOrConfirms := by
  intro s dt n c b g hheld hl hbay hx hg
  rw [exec_sampleArrival_taken hheld hl, hx]
  have e : (s.sampled dt n c).bay? n = some b := hbay
  have hvalid (hv : b.state ≠ .vacant) := Bay.takeSample_active hv (s.sampled dt n c).now (some g)
  refine ⟨fun hcase => ?leaves, fun w hs hw hband => ?stays, fun hs hc hblank => ?blanked, fun hs hc hblank => ?candidate,
    fun w hs hc hband => ?restarts, fun w hs hc hband hrun => ?counted⟩
  case leaves =>
    have hv : b.state ≠ .vacant := by
      rintro hvacant
      simp [hvacant] at hcase
    rw [State.takeSample_nothing e ((hvalid hv).trans (Bay.takeValid_leaves hg hcase))]
    rfl
  case stays =>
    have hv : b.state ≠ .vacant := by simp [hs]
    rw [State.takeSample_quiet e ((hvalid hv).trans (Bay.takeValid_stays hg hs hw hband)) rfl rfl Iff.rfl rfl]
  case blanked =>
    have hv : b.state ≠ .vacant := by obtain hs | hs := hs <;> simp [hs]
    have hrec : ({ b with invalidRun := 0 } : Bay).blank g
        = { b with invalidRun := 0, blankRemaining := b.blankRemaining - 1 } := if_pos hblank
    have htake := (hvalid hv).trans (Bay.takeValid_first hg hs hc)
    rw [hrec] at htake
    rw [State.takeSample_quiet e htake rfl rfl Iff.rfl rfl]
  case candidate =>
    have hv : b.state ≠ .vacant := by obtain hs | hs := hs <;> simp [hs]
    have hrec : ({ b with invalidRun := 0 } : Bay).blank g
        = { b with invalidRun := 0, candidate := some g, runCount := 1, runSum := g
                   state := if b.state = .disturbed then .settling else .unsteady } := by
      obtain hs | hs := hs <;> simp [Bay.blank, hblank, hs]
    have htake := (hvalid hv).trans (Bay.takeValid_first hg hs hc)
    rw [hrec] at htake
    rw [State.takeSample_quiet e htake rfl ?_ ?_ rfl]
    · obtain hs | hs := hs <;> rw [hs] <;> rfl
    · obtain hs | hs := hs <;> simp [hs]
  case restarts =>
    have hv : b.state ≠ .vacant := by obtain hs | hs := hs <;> simp [hs]
    rw [State.takeSample_quiet e
      ((hvalid hv).trans ((Bay.takeValid_compared hg hs hc).trans (Bay.confirm_restarts hband))) rfl rfl Iff.rfl rfl]
  case counted =>
    have hv : b.state ≠ .vacant := by obtain hs | hs := hs <;> simp [hs]
    rw [State.takeSample_quiet e
      ((hvalid hv).trans ((Bay.takeValid_compared hg hs hc).trans (Bay.confirm_counted hband hrun))) rfl rfl Iff.rfl rfl]

/-! ### The settle (R18 to R21) -/

section Settle

variable {s : State} {n : Nat} {b : Bay}

/-- The state at a settle, after its timer has stopped. -/
theorem State.settle_drift (h : ∀ r, b.reference = some r → (b.mean - r).natAbs ≤ b.cfg.tolerance) :
    (s.modBay n fun _ => b).settle n b
      = s.modBay n fun _ => b.settledAt b.mean (s.unitWeight b.cfg.article) := by
  have hrec : (s.modBay n fun _ => b).settle n b
      = ((s.modBay n fun _ => b).modBay n fun b => { b with settleTimer := none }).modBay n
          fun b' => b'.enterSettled b.mean (s.unitWeight b.cfg.article) := by
    unfold State.settle
    cases hr : b.reference with
    | none => rfl
    | some r => simp only [within_of_le (h r hr), if_true]; rfl
  rw [hrec, State.modBay_modBay, State.modBay_modBay]
  rfl

theorem State.settle_classified {r : Int} (hr : b.reference = some r) (h : b.cfg.tolerance < (b.mean - r).natAbs) :
    (s.modBay n fun _ => b).settle n b
      = ((s.modBay n fun _ => { b with settleTimer := none }).handOff n b (b.mean - r)).modBay n
          fun x => x.enterSettled b.mean (s.unitWeight b.cfg.article) := by
  have hstop : ((s.modBay n fun _ => b).modBay n fun b => { b with settleTimer := none })
      = s.modBay n fun _ => { b with settleTimer := none } := State.modBay_modBay ..
  unfold State.settle
  simp only [hr, within_of_lt h, hstop, Bool.false_eq_true, if_false]
  rfl

end Settle

/-! ### The own contribution (R24, R70) -/

section OwnShare

variable {s : State} {a : Nat} {sl : Slot}

theorem State.ownUpdate_same {f : OwnContribution → OwnContribution} (e : s.slot? a = some sl)
    (h : f sl.art.own = sl.art.own) : s.ownUpdate a f = s := by
  simp [State.ownUpdate, e, h]

theorem State.ownUpdate_moved {f : OwnContribution → OwnContribution} (e : s.slot? a = some sl)
    (h : f sl.art.own ≠ sl.art.own) :
    s.ownUpdate a f
      = (s.modArticle a fun r => Article.recount { r with own := f r.own, changed := true }).startDelta := by
  simp [State.ownUpdate, e, h]

theorem State.ownUpdate_none (e : s.slot? a = none) (f : OwnContribution → OwnContribution) : s.ownUpdate a f = s := by
  simp [State.ownUpdate, e]

theorem State.slot?_modArticle (e : s.slot? a = some sl) (f : Article → Article)
    (hf : ∀ r, (f r).number = r.number) : (s.modArticle a f).slot? a = some { sl with art := f sl.art } :=
  State.slot?_modSlot e _ fun _ => hf _

/-- An article that is held stays held. -/
theorem State.ownUpdate_slot? (e : s.slot? a = some sl) (f : OwnContribution → OwnContribution) :
    ∃ sl', (s.ownUpdate a f).slot? a = some sl' := by
  by_cases h : f sl.art.own = sl.art.own
  · exact ⟨sl, by rw [State.ownUpdate_same e h, e]⟩
  · rw [State.ownUpdate_moved e h]
    have hmarked := State.slot?_modArticle e
      (fun r => Article.recount { r with own := f r.own, changed := true }) fun _ => rfl
    obtain ⟨sl', hsl', -⟩ := (State.startDelta_sent _).slot? hmarked
    exact ⟨sl', hsl'⟩

theorem State.settleNotice_none (e : s.slot? a = none) : s.settleNotice a = s := by
  simp only [State.settleNotice, State.ownUpdate_none e, e]

/-- The alert unit hears of the notice when the aggregate moved (R72). -/
theorem State.settleNotice_eq (e : s.slot? a = some sl) {told : State}
    (ht : told = s.ownUpdate a fun o => o.fromBays s.bays a) :
    (told.aggregate a = sl.art.aggregate → s.settleNotice a = told)
      ∧ (told.aggregate a ≠ sl.art.aggregate → s.settleNotice a = told.articleNotice a []) := by
  subst ht
  obtain ⟨sl', hsl'⟩ := State.ownUpdate_slot? e fun o => o.fromBays s.bays a
  rw [State.aggregate_of hsl']
  simp only [State.settleNotice, e, hsl']
  exact ⟨fun h => if_pos h.symm, fun h => if_neg (Ne.symm h)⟩

/-- The own contribution, with the article's bays picked out within each sum and test. -/
theorem OwnContribution.fromBays_eq (o : OwnContribution) (bays : List Bay) (a : Nat) :
    o.fromBays bays a =
      { units := ((bays.filter fun b => b.cfg.article == a).map Bay.units).sum
        flags := { o.flags with
          fault := bays.any fun b => b.cfg.article == a && (b.state == .fault || b.state == .overload)
          unsteady := bays.any fun b => b.cfg.article == a && b.state == .unsteady
          stray := bays.any fun b => b.cfg.article == a && !b.strays.isEmpty } } := by
  have hgroup (x : BayState) : x.inFaultGroup = (x == .fault || x == .overload) := by cases x <;> rfl
  simp only [OwnContribution.fromBays, ownUnits, ownFault, ownUnsteady, ownStray, baysOf, List.any_filter, hgroup]

/-- A marking's delta timer (R85): nothing where the station is mute or the timer runs. -/
theorem State.startDelta_idle (h : s.speaking = false ∨ s.tly.deltaTimer ≠ none) : s.startDelta = s := by
  refine if_neg ?_
  simpa [Decidable.imp_iff_not_or, Option.ne_none_iff_isSome] using h

theorem State.startDelta_later (hs : s.speaking = true) (hd : s.tly.deltaTimer = none) (hlate : s.now < s.deltaDue) :
    s.startDelta = { s with tly := { s.tly with deltaTimer := some s.deltaDue } } := by
  simp [State.startDelta, hs, hd, hlate]

theorem State.deltaDue_of_none (h : s.tly.lastCompletion = none) : s.deltaDue = s.now := by
  rw [State.deltaDue, h]

theorem State.deltaDue_of_some {e : Time} (h : s.tly.lastCompletion = some e) :
    s.deltaDue = max s.now (e + 250000) := by
  rw [State.deltaDue, h]
  rfl

theorem State.deltaDue_le_now (h : ∀ e, s.tly.lastCompletion = some e → e + 250000 ≤ s.now) : s.deltaDue ≤ s.now := by
  cases hc : s.tly.lastCompletion with
  | none => exact (State.deltaDue_of_none hc).le
  | some e => exact (State.deltaDue_of_some hc).trans_le (max_le le_rfl (h e hc))

theorem State.deltaExpires_marked (h : s.changedSet ≠ []) :
    s.deltaExpires = ({ s with tly := { s.tly with deltaTimer := none } } : State).request (.tally .delta) := by
  refine if_neg ?_
  rw [List.isEmpty_iff]
  exact h

/-- An expiry at this time is taken at once (log 10). -/
theorem State.startDelta_now (hs : s.speaking = true) (hd : s.tly.deltaTimer = none) (hdue : s.deltaDue ≤ s.now)
    (hmarked : s.changedSet ≠ []) : s.startDelta = s.request (.tally .delta) := by
  have hself : ({ s with tly := { s.tly with deltaTimer := none } } : State) = s := by rw [← hd]
  have hruns : (s.speaking && s.tly.deltaTimer.isNone) = true := by rw [hs, hd]; rfl
  rw [State.startDelta, if_pos hruns, if_pos hdue, State.deltaExpires_marked hmarked, hself]

theorem State.changedSet_ne_nil (e : s.slot? a = some sl) (h : sl.art.changed = true) : s.changedSet ≠ [] := by
  have hmem : sl ∈ s.slots := (State.slot?_some e).1
  simp only [State.changedSet, ne_eq, List.map_eq_nil_iff, List.filter_eq_nil_iff, not_forall]
  exact ⟨sl, hmem, by simpa using h⟩

theorem Article.cover_eq (r : Article) :
    r.cover = if ∀ x ∈ r.peers, x.state = .fresh then .complete else .incomplete := by
  simp [Article.cover]

end OwnShare

/-- Settles O11: the target level by the two bounds of R92, and the sums of R71. -/
theorem targetLevelByAggregate : Obligations.TargetLevelByAggregate := by
  refine ⟨fun _ => rfl, fun r => ⟨rfl, r.cover_eq, rfl⟩, fun aggregate reorder margin level hm => ?_⟩
  refine ⟨fun h => if_pos h, fun h1 h2 => ?low, fun h1 h2 => ?clear, fun h1 h2 => ?between⟩
  case low => rw [targetLevel, if_neg (by omega), if_pos h2]
  case clear => rw [targetLevel, if_neg (by omega), if_neg (by omega), if_pos h2]
  case between => rw [targetLevel, if_neg (by omega), if_neg (by omega), if_neg (by omega)]

/-- A settle of a confirm run, as the sample that ends it brings it about (R16, R18). -/
theorem State.takeSample_confirmed {s : State} {n : Nat} {b : Bay} {g w : Int} (e : s.bay? n = some b)
    (hg : g ≤ b.cfg.capacity) (hs : b.state = .settling ∨ b.state = .unsteady) (hc : b.candidate = some w)
    (hband : (g - w).natAbs ≤ b.cfg.settleBand) (hrun : b.runCount + 1 = b.cfg.confirmCount) :
    s.takeSample n (some g) = ((s.modBay n fun _ => b.confirmed g).settle n (b.confirmed g)).noticeBay n b := by
  have hv : b.state ≠ .vacant := by obtain hs | hs := hs <;> simp [hs]
  exact State.takeSample_settles e ((Bay.takeSample_active hv s.now (some g)).trans
    ((Bay.takeValid_compared hg hs hc).trans (Bay.confirm_settles hband hrun)))

/-- Settles O16: the settle without a classification, the notice of R24, and the own contribution that moves or stays. -/
theorem settleStoresTheMean : Obligations.SettleStoresTheMean := by
  refine ⟨?settle, ?notice, fun s a => ?tables, fun _ _ _ => rfl, ?update⟩
  case settle =>
    intro s dt n c b g w hheld hl hbay hx hg hs hc hband hrun hdrift
    rw [exec_sampleArrival_taken hheld hl, hx,
      State.takeSample_confirmed (s := s.sampled dt n c) hbay hg hs hc hband hrun,
      State.settle_drift (b := b.confirmed g) hdrift]
    rfl
  case notice =>
    intro s n _ before after hbay rfl due hdue
    rw [← noticeDue_iff] at hdue
    have hnotice (h : due) := State.noticeBay_of_due hbay (hdue.mp h)
    refine ⟨fun hquiet => ?_, fun sl told h hsl htold => ?_⟩
    · by_cases h : due
      · rw [hnotice h, State.settleNotice_none (hquiet.resolve_left (not_not_intro h))]
      · exact State.noticeBay_of_not_due hbay (by simpa [h] using hdue)
    · rw [hnotice h]
      refine State.settleNotice_eq hsl (htold.trans ?_)
      simp only [OwnContribution.fromBays_eq]
  case tables =>
    rw [State.unitWeight, State.aggregate]
    cases s.slot? a <;> exact ⟨rfl, rfl⟩
  case update =>
    intro s a sl f hsl
    refine ⟨State.ownUpdate_same hsl, ?_⟩
    rintro hmoved u hu
    obtain rfl : s.modArticle a (fun r => Article.recount { r with own := f r.own, changed := true }) = u := by
      simp only [hu, State.modArticle, State.modSlot, beq_iff_eq, Article.recount, Article.cover_eq]
      rfl
    rw [State.ownUpdate_moved hsl hmoved]
    refine ⟨fun hidle => State.startDelta_idle hidle, fun hspeak hstopped => ⟨fun hdue => ?now, fun e he hlate => ?later⟩⟩
    case now =>
      exact State.startDelta_now hspeak hstopped (State.deltaDue_le_now hdue)
        (State.changedSet_ne_nil (State.slot?_modArticle hsl _ fun _ => rfl) rfl)
    case later =>
      have hpoint : (s.modArticle a fun r => Article.recount { r with own := f r.own, changed := true }).deltaDue
          = e + 250000 := (State.deltaDue_of_some he).trans (max_eq_right hlate.le)
      have hstart := State.startDelta_later
        (s := s.modArticle a fun r => Article.recount { r with own := f r.own, changed := true }) hspeak hstopped
        (hlate.trans_eq hpoint.symm)
      rw [hstart, hpoint]
      rfl

/-- Settles O17: the hand-off stands between the stop of the timer and the record's new weight. -/
theorem settleClassifiesALargerChange : Obligations.SettleClassifiesALargerChange := by
  intro s dt n c b g w r hheld hl hbay hx hg hs hc hband hrun href hlarge
  rw [exec_sampleArrival_taken hheld hl, hx,
    State.takeSample_confirmed (s := s.sampled dt n c) hbay hg hs hc hband hrun,
    State.settle_classified (b := b.confirmed g) href hlarge]
  rfl

/-! ### The settle timer (R17) -/

theorem State.settleTimeout_due {s : State} {n : Nat} {b : Bay} {e : Time} (hbay : s.bay? n = some b)
    (htimer : b.settleTimer = some e) (hdue : e ≤ s.now) (hs : b.state = .disturbed ∨ b.state = .settling) :
    s.settleTimeout n = ((s.modBay n fun _ => { b with settleTimer := none, state := .unsteady }).raise .bayUnsteady n
      b.cfg.article).noticeBay n b := by
  have hrec : ((s.modBay n fun b => { b with settleTimer := none }).modBay n fun b => { b with state := .unsteady })
      = s.modBay n fun _ => { b with settleTimer := none, state := .unsteady } := by
    rw [State.modBay_modBay]
    exact State.modBay_congr hbay rfl
  simp only [State.settleTimeout, hbay, htimer, expired_some hdue, if_pos hs, hrec]

/-- Settles O18: the expiry of a running timer in the two states that have one. -/
theorem settleTimeoutMakesUnsteady : Obligations.SettleTimeoutMakesUnsteady := by
  intro s dt n b e hheld hbay htimer hdue hs
  have hexec : exec (.settleTimeout dt n) s = .next ((s.elapse dt).settleTimeout n).showLamps :=
    State.event_next hheld dt fun s => s.settleTimeout n
  rw [hexec, State.settleTimeout_due (s := s.elapse dt) hbay htimer hdue hs]

end Sys2Proof.Machine

/-! Pairing (chapter 2): the classes of a change in their order, and what the pairing unit keeps of each. -/

namespace Sys2Proof.Machine

/-! ### The least number of units that fits (R28, R29, R33, R34) -/

section LeastMultiple

variable {x : Int} {u tolerance limit m k : Nat}

/-- The candidate that `leastMultiple` tries: 1, or the smallest multiple not below `x - tolerance`. -/
def leastCandidate (x : Int) (u tolerance : Nat) : Nat := max 1 (-((tolerance - x) / (u : Int))).toNat

theorem leastMultiple_eq (x : Int) (u tolerance : Nat) :
    leastMultiple x u tolerance
      = if within tolerance x (leastCandidate x u tolerance * u) then some (leastCandidate x u tolerance) else none := rfl

/-- A number of units that fits is no smaller than the candidate, and then the candidate fits too. -/
theorem leastCandidate_le (hk : 1 ≤ k) (hfit : within tolerance x (k * u) = true) :
    leastCandidate x u tolerance ≤ k ∧ within tolerance x (leastCandidate x u tolerance * u) = true := by
  have hk0 : (k : Int) * u - tolerance ≤ x ∧ x ≤ k * u + tolerance := by
    have := of_decide_eq_true hfit
    omega
  obtain rfl | hu := Nat.eq_zero_or_pos u
  · have hone : leastCandidate x 0 tolerance = 1 := by simp [leastCandidate]
    rw [hone]
    exact ⟨hk, by simpa [within] using hfit⟩
  · have hu' : (0 : Int) < u := by exact_mod_cast hu
    have hle : leastCandidate x u tolerance ≤ k := by
      have hdiv : -(k : Int) ≤ (tolerance - x) / (u : Int) := by
        rw [Int.le_ediv_iff_mul_le hu']
        linarith [hk0.2]
      unfold leastCandidate
      omega
    have hceil : x - tolerance ≤ leastCandidate x u tolerance * (u : Int) := by
      have hlt : (tolerance - x) < ((tolerance - x) / (u : Int) + 1) * u := Int.lt_ediv_add_one_mul_self _ hu'
      have hcand : -((tolerance - x) / (u : Int)) ≤ leastCandidate x u tolerance := by
        unfold leastCandidate
        omega
      have hmul : -((tolerance - x) / (u : Int)) * u ≤ leastCandidate x u tolerance * u :=
        mul_le_mul_of_nonneg_right hcand hu'.le
      have hfloor : (tolerance - x) / (u : Int) * u ≤ tolerance - x := Int.ediv_mul_le _ hu'.ne'
      linarith
    have hbelow : (leastCandidate x u tolerance : Int) * u ≤ k * u :=
      mul_le_mul_of_nonneg_right (by exact_mod_cast hle) hu'.le
    refine ⟨hle, decide_eq_true ?_⟩
    omega

theorem leastMultiple_eq_some_iff :
    leastMultiple x u tolerance = some m
      ↔ 1 ≤ m ∧ within tolerance x (m * u) = true ∧ ∀ k, 1 ≤ k → k < m → within tolerance x (k * u) = false := by
  have hone : 1 ≤ leastCandidate x u tolerance := le_max_left _ _
  rw [leastMultiple_eq]
  constructor
  · intro h
    obtain ⟨hfit, hm⟩ := Option.ite_none_right_eq_some.mp h
    obtain rfl := Option.some.inj hm
    refine ⟨hone, hfit, fun k hk hlt => Bool.eq_false_iff.mpr fun hbad => ?_⟩
    exact absurd (leastCandidate_le hk hbad).1 (Nat.not_le.mpr hlt)
  · rintro ⟨hm, hfit, hleast⟩
    obtain ⟨hle, hcand⟩ := leastCandidate_le hm hfit
    have hsame : leastCandidate x u tolerance = m :=
      hle.antisymm (Nat.not_lt.mp fun hlt => by simp [hleast _ hone hlt] at hcand)
    rw [if_pos hcand, hsame]

theorem leastMultiple_isSome_iff :
    (leastMultiple x u tolerance).isSome = true ↔ ∃ m : Nat, 1 ≤ m ∧ within tolerance x (m * u) = true := by
  rw [Option.isSome_iff_exists]
  constructor
  · rintro ⟨m, hm⟩
    obtain ⟨h1, hfit, -⟩ := leastMultiple_eq_some_iff.mp hm
    exact ⟨m, h1, hfit⟩
  · rintro ⟨m, h1, hfit⟩
    exact ⟨_, if_pos (leastCandidate_le h1 hfit).2⟩

theorem leastMultipleUpTo_iff :
    leastMultipleUpTo x u tolerance limit = some m ↔ LeastUnits x u tolerance limit m := by
  unfold leastMultipleUpTo LeastUnits
  cases h : leastMultiple x u tolerance with
  | none =>
    simp only [reduceCtorEq, false_iff]
    rintro ⟨h1, -, hfit, hleast⟩
    simp [leastMultiple_eq_some_iff.mpr ⟨h1, hfit, hleast⟩] at h
  | some c =>
    have hc := leastMultiple_eq_some_iff.mp h
    constructor
    · intro hm
      obtain ⟨hle, hsame⟩ := Option.ite_none_right_eq_some.mp hm
      obtain rfl := Option.some.inj hsame
      exact ⟨hc.1, hle, hc.2⟩
    · rintro ⟨h1, hle, hfit, hleast⟩
      have hsame : c = m := Option.some.inj (h.symm.trans (leastMultiple_eq_some_iff.mpr ⟨h1, hfit, hleast⟩))
      simp [hsame, hle]

theorem leastMultipleUpTo_none_iff :
    leastMultipleUpTo x u tolerance limit = none ↔ ¬ ∃ m, LeastUnits x u tolerance limit m := by
  simp only [Option.eq_none_iff_forall_ne_some, ne_eq, leastMultipleUpTo_iff, not_exists]

end LeastMultiple

/-! ### The pending take that a gain matches (R29) -/

section MatchPending

variable {gain : Int} {article tolerance : Nat}

/-- An entry is of another article, and `m` of its units fit the gain. -/
def PendingTake.Fits (p : PendingTake) (gain : Int) (article tolerance m : Nat) : Prop :=
  p.article ≠ article ∧ LeastUnits gain p.unitWeight tolerance p.units m

theorem matchPending_cons_fits {p : PendingTake} {m : Nat} (h : p.Fits gain article tolerance m)
    (rest : List PendingTake) (i : Nat) : matchPending gain article tolerance (p :: rest) i = some (i, m) := by
  rw [matchPending, if_neg h.1, leastMultipleUpTo_iff.mpr h.2]

theorem matchPending_cons_passes {p : PendingTake} (h : ∀ m, ¬ p.Fits gain article tolerance m)
    (rest : List PendingTake) (i : Nat) :
    matchPending gain article tolerance (p :: rest) i = matchPending gain article tolerance rest (i + 1) := by
  by_cases ha : p.article = article
  · rw [matchPending, if_pos ha]
  · have hnone : leastMultipleUpTo gain p.unitWeight tolerance p.units = none :=
      leastMultipleUpTo_none_iff.mpr fun ⟨m, hm⟩ => h m ⟨ha, hm⟩
    rw [matchPending, if_neg ha, hnone]

theorem leastUnits_unique {x : Int} {u t l m k : Nat} (hm : LeastUnits x u t l m) (hk : LeastUnits x u t l k) : m = k :=
  Option.some.inj ((leastMultipleUpTo_iff.mpr hm).symm.trans (leastMultipleUpTo_iff.mpr hk))

/-- The oldest entry that fits; positions count from that of the list's first entry. -/
theorem matchPending_iff (l : List PendingTake) (i k m : Nat) :
    matchPending gain article tolerance l i = some (k, m)
      ↔ ∃ j, k = i + j ∧ (∃ p, l[j]? = some p ∧ p.Fits gain article tolerance m)
        ∧ ∀ j' p, j' < j → l[j']? = some p → ∀ m', ¬ p.Fits gain article tolerance m' := by
  induction l generalizing i with
  | nil => simp [matchPending]
  | cons p rest ih =>
    by_cases hp : ∃ m', p.Fits gain article tolerance m'
    · obtain ⟨m', hm'⟩ := hp
      rw [matchPending_cons_fits hm']
      constructor
      · rintro ⟨rfl, rfl⟩
        exact ⟨0, rfl, ⟨p, rfl, hm'⟩, fun j' _ hj' => absurd hj' (Nat.not_lt_zero _)⟩
      · rintro ⟨j, rfl, ⟨q, hq, hfit⟩, hfirst⟩
        cases j with
        | zero =>
          obtain rfl : p = q := by simpa using hq
          rw [leastUnits_unique hm'.2 hfit.2, Nat.add_zero]
        | succ j => exact absurd hm' (hfirst 0 p (Nat.succ_pos j) rfl m')
    · have hpass := not_exists.mp hp
      rw [matchPending_cons_passes hpass, ih]
      constructor
      · rintro ⟨j, rfl, hfit, hfirst⟩
        refine ⟨j + 1, by omega, hfit, fun j' q hj' hq => ?_⟩
        cases j' with
        | zero =>
          obtain rfl : p = q := by simpa using hq
          exact hpass
        | succ j' => exact hfirst j' q (Nat.lt_of_succ_lt_succ hj') hq
      · rintro ⟨j, rfl, ⟨q, hq, hfit⟩, hfirst⟩
        cases j with
        | zero =>
          obtain rfl : p = q := by simpa using hq
          exact absurd hfit (hpass m)
        | succ j =>
          exact ⟨j, by omega, ⟨q, hq, hfit⟩, fun j' q' hj' hq' => hfirst (j' + 1) q' (Nat.succ_lt_succ hj') hq'⟩

end MatchPending

theorem within_iff (tolerance : Nat) (x y : Int) : within tolerance x y = true ↔ (x - y).natAbs ≤ tolerance :=
  decide_eq_true_iff

/-! ### The class of a gain (R27 to R30) -/

section Gain

variable {d : Int} {article unitWeight tolerance units : Nat} {strays : List Stray} {p : Pairing}

theorem classify_add (hd : 0 < d) (h : ∃ m : Nat, 1 ≤ m ∧ within tolerance d (m * unitWeight) = true) :
    classify d article unitWeight tolerance units strays p = .add := by
  rw [classify, if_pos hd, if_pos (leastMultiple_isSome_iff.mpr h)]

/-- Beyond an ADD the pending-take list decides, where pairing is enabled. -/
theorem classify_foreign (hd : 0 < d) (h : ¬ ∃ m : Nat, 1 ≤ m ∧ within tolerance d (m * unitWeight) = true) :
    classify d article unitWeight tolerance units strays p
      = match (if p.enabled then matchPending d article tolerance p.pendingTakes 0 else none) with
        | some (i, m) => .paired i m
        | none => .unknown := by
  rw [classify, if_pos hd, if_neg (fun hs => h (leastMultiple_isSome_iff.mp hs))] <;> rfl

end Gain

/-- Settles O19: ADD where a number of units fits, else the match in the pending-take list, else FOREIGN-unknown. -/
theorem gainIsClassifiedInOrder : Obligations.GainIsClassifiedInOrder := by
  refine ⟨within_iff, fun d article unitWeight tolerance units strays p hd => ?_⟩
  by_cases hadd : ∃ m : Nat, 1 ≤ m ∧ within tolerance d (m * unitWeight) = true
  · rw [classify_add hd hadd]
    exact ⟨iff_of_true rfl hadd, fun i m => iff_of_false (by simp) fun h => h.1 hadd, .inl rfl⟩
  · rw [classify_foreign hd hadd]
    by_cases hen : p.enabled = true
    · rw [if_pos hen]
      have hmatch := matchPending_iff (gain := d) (article := article) (tolerance := tolerance) p.pendingTakes 0
      simp only [Nat.zero_add, PendingTake.Fits] at hmatch
      cases hm : matchPending d article tolerance p.pendingTakes 0 with
      | none =>
        refine ⟨iff_of_false (by simp) hadd, fun i m => iff_of_false (by simp) ?_, .inr (.inl rfl)⟩
        rintro ⟨-, -, ⟨e, he, hne, hfit⟩, hfirst⟩
        have hsome := (hmatch i m).mpr ⟨i, rfl, ⟨e, he, hne, hfit⟩,
          fun j q hj hq m' hbad => hfirst j q hj hq hbad.1 ⟨m', hbad.2⟩⟩
        simp [hm] at hsome
      | some c =>
        obtain ⟨i, m⟩ := c
        refine ⟨iff_of_false (by simp) hadd, fun i' m' => ?_, .inr (.inr ⟨i, m, rfl⟩)⟩
        have hpair : Change.paired i m = .paired i' m' ↔ matchPending d article tolerance p.pendingTakes 0 = some (i', m') := by
          rw [hm]; simp
        rw [hpair, hmatch]
        constructor
        · rintro ⟨j, rfl, ⟨e, he, hne, hfit⟩, hfirst⟩
          exact ⟨hadd, hen, ⟨e, he, hne, hfit⟩, fun j' q hj' hq hne' ⟨k, hk⟩ => hfirst j' q hj' hq k ⟨hne', hk⟩⟩
        · rintro ⟨-, -, hfit, hfirst⟩
          exact ⟨i', rfl, hfit, fun j' q hj' hq k hk => hfirst j' q hj' hq hk.1 ⟨k, hk.2⟩⟩
    · rw [if_neg hen]
      exact ⟨iff_of_false (by simp) hadd, fun i m => iff_of_false (by simp) fun h => hen h.2.1, .inr (.inl rfl)⟩

/-! ### The stray record that a loss matches (R34) -/

section MatchStray

variable {loss : Int} {tolerance : Nat}

theorem matchStray_whole_iff (r : Stray) (position i : Nat) :
    matchStray loss tolerance r position = some (.strayWhole i)
      ↔ position = i ∧ within tolerance loss r.grams = true := by
  unfold matchStray
  cases within tolerance loss r.grams <;> cases r.goods <;> simp

theorem matchStray_part_iff (r : Stray) (position i m : Nat) :
    matchStray loss tolerance r position = some (.strayPart i m)
      ↔ position = i ∧ within tolerance loss r.grams = false
        ∧ ∃ g, r.goods = some g ∧ LeastUnits loss g.unitWeight tolerance g.units m := by
  unfold matchStray
  cases within tolerance loss r.grams <;> cases r.goods <;> simp [leastMultipleUpTo_iff, and_comm]

theorem matchStray_none_iff (r : Stray) (position : Nat) :
    matchStray loss tolerance r position = none
      ↔ within tolerance loss r.grams = false
        ∧ ∀ g, r.goods = some g → ¬ ∃ m, LeastUnits loss g.unitWeight tolerance g.units m := by
  unfold matchStray
  cases within tolerance loss r.grams <;> cases r.goods <;> simp [leastMultipleUpTo_none_iff]

theorem matchStray_ne_unresolved (r : Stray) (position : Nat) :
    matchStray loss tolerance r position ≠ some .unresolved := by
  unfold matchStray
  cases within tolerance loss r.grams <;> cases r.goods <;> simp

theorem matchStrays_none_iff (l : List Stray) (i : Nat) :
    matchStrays loss tolerance l i = none
      ↔ ∀ j r, l[j]? = some r → matchStray loss tolerance r (i + j) = none := by
  induction l generalizing i with
  | nil => simp [matchStrays]
  | cons x rest ih =>
    have hcons : matchStrays loss tolerance (x :: rest) i = none
        ↔ matchStrays loss tolerance rest (i + 1) = none ∧ matchStray loss tolerance x i = none := by
      rw [matchStrays]
      cases matchStrays loss tolerance rest (i + 1) <;> simp
    have hshift (j : Nat) : i + 1 + j = i + (j + 1) := by omega
    rw [hcons, ih]
    constructor
    · rintro ⟨hrest, hx⟩ j r hr
      cases j with
      | zero =>
        obtain rfl : x = r := by simpa using hr
        exact hx
      | succ j => exact hshift j ▸ hrest j r hr
    · exact fun h => ⟨fun j r hr => (hshift j).symm ▸ h (j + 1) r hr, h 0 x rfl⟩

/-- The newest record that fits; positions count from that of the list's first record. -/
theorem matchStrays_iff (l : List Stray) (i : Nat) (c : Change) :
    matchStrays loss tolerance l i = some c
      ↔ ∃ j r, l[j]? = some r ∧ matchStray loss tolerance r (i + j) = some c
        ∧ ∀ j' r', j < j' → l[j']? = some r' → matchStray loss tolerance r' (i + j') = none := by
  induction l generalizing i with
  | nil => simp [matchStrays]
  | cons x rest ih =>
    have hshift (j : Nat) : i + 1 + j = i + (j + 1) := by omega
    have hlast : (∀ j' r', 0 < j' → (x :: rest)[j']? = some r' → matchStray loss tolerance r' (i + j') = none)
        ↔ matchStrays loss tolerance rest (i + 1) = none := by
      rw [matchStrays_none_iff]
      refine ⟨fun h j r hr => hshift j ▸ h (j + 1) r (Nat.succ_pos j) hr, fun h j' r' hj' hr' => ?_⟩
      obtain ⟨k, rfl⟩ : ∃ k, j' = k + 1 := ⟨j' - 1, by omega⟩
      exact hshift k ▸ h k r' hr'
    cases hrest : matchStrays loss tolerance rest (i + 1) with
    | some c' =>
      have hnewer : matchStrays loss tolerance (x :: rest) i = matchStrays loss tolerance rest (i + 1) := by
        rw [matchStrays, hrest]
      rw [hnewer, ih]
      constructor
      · rintro ⟨j, r, hr, hfit, hnewest⟩
        refine ⟨j + 1, r, hr, hshift j ▸ hfit, fun j' r' hj' hr' => ?_⟩
        obtain ⟨k, rfl⟩ : ∃ k, j' = k + 1 := ⟨j' - 1, by omega⟩
        exact hshift k ▸ hnewest k r' (by omega) hr'
      · rintro ⟨j, r, hr, hfit, hnewest⟩
        cases j with
        | zero => simp [hlast.mp hnewest] at hrest
        | succ j =>
          refine ⟨j, r, hr, (hshift j).symm ▸ hfit, fun j' r' hj' hr' => ?_⟩
          exact (hshift j').symm ▸ hnewest (j' + 1) r' (by omega) hr'
    | none =>
      have holdest : matchStrays loss tolerance (x :: rest) i = matchStray loss tolerance x i := by
        rw [matchStrays, hrest]
      rw [holdest]
      constructor
      · exact fun h => ⟨0, x, rfl, h, hlast.mpr hrest⟩
      · rintro ⟨j, r, hr, hfit, -⟩
        cases j with
        | zero =>
          obtain rfl : x = r := by simpa using hr
          exact hfit
        | succ j =>
          have hnone := (matchStrays_none_iff rest (i + 1)).mp hrest j r hr
          rw [hshift, hfit] at hnone
          simp at hnone

/-- The newest record that fits is taken whole. -/
theorem matchStrays_whole_iff (l : List Stray) (i : Nat) :
    matchStrays loss tolerance l 0 = some (.strayWhole i)
      ↔ (∃ r, l[i]? = some r ∧ within tolerance loss r.grams = true)
        ∧ ∀ j r, i < j → l[j]? = some r → matchStray loss tolerance r j = none := by
  simp only [matchStrays_iff, Nat.zero_add, matchStray_whole_iff]
  constructor
  · rintro ⟨j, r, hr, ⟨rfl, hfit⟩, hnewest⟩
    exact ⟨⟨r, hr, hfit⟩, hnewest⟩
  · rintro ⟨⟨r, hr, hfit⟩, hnewest⟩
    exact ⟨i, r, hr, ⟨rfl, hfit⟩, hnewest⟩

/-- Units are taken off the newest record that fits. -/
theorem matchStrays_part_iff (l : List Stray) (i m : Nat) :
    matchStrays loss tolerance l 0 = some (.strayPart i m)
      ↔ (∃ r g, l[i]? = some r ∧ within tolerance loss r.grams = false ∧ r.goods = some g
          ∧ LeastUnits loss g.unitWeight tolerance g.units m)
        ∧ ∀ j r, i < j → l[j]? = some r → matchStray loss tolerance r j = none := by
  simp only [matchStrays_iff, Nat.zero_add, matchStray_part_iff]
  constructor
  · rintro ⟨j, r, hr, ⟨rfl, hwhole, g, hg, hfit⟩, hnewest⟩
    exact ⟨⟨r, g, hr, hwhole, hg, hfit⟩, hnewest⟩
  · rintro ⟨⟨r, g, hr, hwhole, hg, hfit⟩, hnewest⟩
    exact ⟨i, r, hr, ⟨rfl, hwhole, g, hg, hfit⟩, hnewest⟩

theorem matchStrays_ne_unresolved (l : List Stray) (i : Nat) :
    matchStrays loss tolerance l i ≠ some .unresolved := by
  rw [ne_eq, matchStrays_iff]
  rintro ⟨j, r, -, hfit, -⟩
  exact matchStray_ne_unresolved r _ hfit

end MatchStray

/-! ### The class of a loss (R27, R33 to R35) -/

section Loss

variable {loss article unitWeight tolerance units : Nat} {strays : List Stray} {p : Pairing} {m : Nat}

theorem classify_take (h : LeastUnits loss unitWeight tolerance units m) :
    classify (-(loss : Int)) article unitWeight tolerance units strays p = .take m := by
  have hneg : ¬ (0 : Int) < -(loss : Int) := by omega
  simp only [classify, if_neg hneg, Int.natAbs_neg, Int.natAbs_natCast, leastMultipleUpTo_iff.mpr h]

/-- Beyond a TAKE the stray list decides. -/
theorem classify_stray (h : ¬ ∃ m, LeastUnits loss unitWeight tolerance units m) :
    classify (-(loss : Int)) article unitWeight tolerance units strays p
      = (matchStrays loss tolerance strays 0).getD .unresolved := by
  have hneg : ¬ (0 : Int) < -(loss : Int) := by omega
  simp only [classify, if_neg hneg, Int.natAbs_neg, Int.natAbs_natCast, leastMultipleUpTo_none_iff.mpr h]

end Loss

/-- Settles O20: TAKE where units fit, else the newest record of the stray list that fits, else UNRESOLVED. -/
theorem lossIsClassifiedInOrder : Obligations.LossIsClassifiedInOrder := by
  refine ⟨fun loss tolerance position r => matchStray_none_iff r position,
    fun loss article unitWeight tolerance units strays p _ => ?_⟩
  by_cases htake : ∃ m, LeastUnits loss unitWeight tolerance units m
  · obtain ⟨k, hk⟩ := htake
    rw [classify_take hk]
    have hother (q : Prop) : ¬ ((¬ ∃ m, LeastUnits loss unitWeight tolerance units m) ∧ q) := fun h => h.1 ⟨k, hk⟩
    refine ⟨fun m => ?_, fun i => iff_of_false (by simp) (hother _), fun i m => iff_of_false (by simp) (hother _),
      iff_of_false (by simp) (hother _)⟩
    rw [Change.take.injEq]
    exact ⟨fun h => h ▸ hk, leastUnits_unique hk⟩
  · rw [classify_stray htake]
    refine ⟨fun m => iff_of_false (fun h => ?_) (not_exists.mp htake m), fun i => ?_, fun i m => ?_, ?_⟩
    · rw [Option.getD_eq_iff, or_iff_left (by simp)] at h
      exact matchStrays_not_take _ _ _ _ _ h
    · rw [Option.getD_eq_iff, or_iff_left (by simp), matchStrays_whole_iff]
      exact (and_iff_right htake).symm
    · rw [Option.getD_eq_iff, or_iff_left (by simp), matchStrays_part_iff]
      exact (and_iff_right htake).symm
    · rw [Option.getD_eq_iff, or_iff_right (matchStrays_ne_unresolved _ _), and_iff_left rfl, matchStrays_none_iff,
        and_iff_right htake]
      simp only [Nat.zero_add]

end Sys2Proof.Machine

/-! Stray lists, pending takes and the shift batch (chapter 2): what the pairing unit keeps of a change, and its timers and
frames. -/

namespace Sys2Proof.Machine

/-! ### Stray lists (R32, R34) -/

section StrayList

variable {s : State} {n : Nat} {x : Bay}

/-- A change of a bay's stray list that reads the list of the table. -/
theorem State.modBay_strays (e : s.bay? n = some x) (f : List Stray → List Stray) {l : List Stray} (hl : f x.strays = l) :
    (s.modBay n fun y => { y with strays := f y.strays }) = s.modBay n fun y => { y with strays := l } :=
  State.modBay_congr e (by rw [hl])

theorem State.strayOn_room (e : s.bay? n = some x) (h : x.strays.length < 4) (r : Stray) :
    s.strayOn n r = s.modBay n fun y => { y with strays := x.strays ++ [r] } := by
  simp only [State.strayOn, e, if_pos h]
  exact State.modBay_strays e (addStray · r) (if_pos h)

theorem State.strayOn_full {oldest : Stray} {rest : List Stray} (e : s.bay? n = some x)
    (hx : x.strays = oldest :: rest) (h : 4 ≤ x.strays.length) (r : Stray) :
    s.strayOn n r
      = (s.modBay n fun y =>
          { y with strays := { goods := none, grams := min 2000000 (oldest.grams + r.grams) } :: rest }).raise
          .strayMerge n x.cfg.article := by
  have hmerge : addStray x.strays r = { goods := none, grams := min 2000000 (oldest.grams + r.grams) } :: rest := by
    unfold addStray
    rw [if_neg (Nat.not_lt.mpr h), hx]
  simp only [State.strayOn, e, if_neg (Nat.not_lt.mpr h), State.modBay_strays e (addStray · r) hmerge]

/-- Replacing an element by another, or by nothing. -/
theorem replaceAt_single {α : Type} {l : List α} {i : Nat} {y : α} (h : l[i]? = some y) {f : α → List α} {z : α}
    (hf : f y = [z]) : replaceAt l i f = l.set i z := by
  induction l generalizing i with
  | nil => simp at h
  | cons w rest ih =>
    cases i with
    | zero =>
      obtain rfl : w = y := by simpa using h
      simp [replaceAt, hf]
    | succ i => simp [replaceAt, ih h]

theorem replaceAt_nil {α : Type} {l : List α} {i : Nat} {y : α} (h : l[i]? = some y) {f : α → List α} (hf : f y = []) :
    replaceAt l i f = l.eraseIdx i := by
  induction l generalizing i with
  | nil => simp at h
  | cons w rest ih =>
    cases i with
    | zero =>
      obtain rfl : w = y := by simpa using h
      simp [replaceAt, hf]
    | succ i => simp [replaceAt, ih h]

theorem replaceAt_less {l : List Stray} {i m : Nat} {r : Stray} {g : Goods} (hr : l[i]? = some r)
    (hg : r.goods = some g) :
    replaceAt l i (fun r => r.less m)
      = if m < g.units then
          l.set i { goods := some { g with units := g.units - m }, grams := r.grams - m * g.unitWeight }
        else l.eraseIdx i := by
  by_cases hm : m < g.units
  · rw [if_pos hm, replaceAt_single hr (by rw [Stray.less, hg]; exact if_neg (Nat.not_le.mpr hm))]
  · rw [if_neg hm, replaceAt_nil hr (by rw [Stray.less, hg]; exact if_pos (Nat.not_lt.mp hm))]

theorem replaceAt_consume {l : List PendingTake} {i m : Nat} {p : PendingTake} (hp : l[i]? = some p) :
    replaceAt l i (PendingTake.consume m)
      = if m < p.units then l.set i { p with units := p.units - m } else l.eraseIdx i := by
  by_cases hm : m < p.units
  · rw [if_pos hm, replaceAt_single hp (if_neg (Nat.not_le.mpr hm))]
  · rw [if_neg hm, replaceAt_nil hp (if_pos (Nat.not_lt.mp hm))]

end StrayList

/-! ### The pending-take list and the batch (R37, R40, R41) -/

section Batch

variable {s : State} {t : Take} {p : PendingTake}

theorem State.addPending_room (h : s.pru.pendingTakes.length < 16) :
    s.addPending p = { s with pru := { s.pru with pendingTakes := s.pru.pendingTakes ++ [p] } } := by
  unfold State.addPending
  split
  · rw [if_pos h]
  · next hnil => rw [hnil]; rfl

theorem State.addPending_full {oldest : PendingTake} {rest : List PendingTake} (h : 16 ≤ s.pru.pendingTakes.length)
    (hl : s.pru.pendingTakes = oldest :: rest) :
    s.addPending p = ({ s with pru := { s.pru with pendingTakes := rest ++ [p] } } : State).raise .pairEvict
      oldest.source oldest.article := by
  have hfull : ¬ (oldest :: rest).length < 16 := by rw [← hl]; exact Nat.not_lt.mpr h
  rw [State.addPending, hl]
  exact if_neg hfull

/-- What an entry that joins the pending-take list leaves as it was. -/
theorem State.addPending_pru (s : State) (p : PendingTake) :
    ∃ l, (s.addPending p).pru = { s.pru with pendingTakes := l } := by
  unfold State.addPending
  split
  · split <;> exact ⟨_, rfl⟩
  · exact ⟨_, rfl⟩

theorem State.addPending_frame (s : State) (p : PendingTake) :
    (s.addPending p).stc = s.stc ∧ (s.addPending p).bsc = s.bsc ∧ (s.addPending p).now = s.now := by
  unfold State.addPending
  split
  · split <;> exact ⟨rfl, rfl, rfl⟩
  · exact ⟨rfl, rfl, rfl⟩

theorem State.shiftQueued_iff (s : State) : s.shiftQueued = true ↔ ∃ x ∈ s.bsc.waiting, x.req = .shift := by
  simp [State.shiftQueued]

/-- The sides after a filling side that is ready has moved over (R41). -/
def Pairing.movedOver (p : Pairing) : Pairing :=
  { p with sending := p.filling, filling := [], ready := false, readyTimer := none }

theorem State.fillingReady_empty (h : s.pru.sending = []) :
    s.fillingReady = ({ s with pru := s.pru.movedOver } : State).requestShift := by
  simp only [State.fillingReady, h]
  rfl

theorem State.fillingReady_latest {rest : List Take} (h : s.pru.sending = t :: rest)
    (hq : ∃ x ∈ s.bsc.waiting, x.req = .shift) (hm : s.pru.mode = .latest) :
    s.fillingReady
      = ({ s with pru := s.pru.movedOver } : State).raiseN .shiftDrop 0 t.article (rest.length + 1) := by
  have hcond : (s.shiftQueued && s.pru.mode == .latest) = true := by
    rw [s.shiftQueued_iff.mpr hq, hm]
    rfl
  simp only [State.fillingReady, h]
  exact if_pos hcond

theorem State.fillingReady_waits (h : s.pru.sending ≠ [])
    (hq : (∀ x ∈ s.bsc.waiting, x.req ≠ .shift) ∨ s.pru.mode = .keep) :
    s.fillingReady = { s with pru := { s.pru with ready := true, readyTimer := none } } := by
  obtain ⟨t, rest, hsend⟩ := List.exists_cons_of_ne_nil h
  have hcond : ¬ (s.shiftQueued && s.pru.mode == .latest) = true := by
    rw [Bool.and_eq_true, s.shiftQueued_iff, beq_iff_eq]
    rintro ⟨⟨x, hx, hreq⟩, hlatest⟩
    obtain hnone | hkeep := hq
    · exact hnone x hx hreq
    · simp [hkeep] at hlatest
  simp only [State.fillingReady, hsend]
  exact if_neg hcond

theorem State.joinBatch_isolated (h : s.stc.state = .isolated) :
    s.joinBatch t = s.raise .shiftDrop t.bay t.article := by
  rw [State.joinBatch, h]

theorem State.joinBatch_first (h : s.stc.state = .joining ∨ s.stc.state = .running) (hf : s.pru.filling = []) :
    s.joinBatch t = { s with pru := { s.pru with filling := [t], readyTimer := some (s.now + 1000000) } } := by
  obtain h | h := h <;> (simp only [State.joinBatch, h, hf]; rfl)

theorem State.joinBatch_dropped (h : s.stc.state = .joining ∨ s.stc.state = .running) (hf : s.pru.filling ≠ [])
    (hr : s.pru.ready = true) : s.joinBatch t = s.raise .shiftDrop t.bay t.article := by
  obtain ⟨x, rest, hx⟩ := List.exists_cons_of_ne_nil hf
  obtain h | h := h <;> simp only [State.joinBatch, h, hx, hr, if_true]

theorem State.joinBatch_more (h : s.stc.state = .joining ∨ s.stc.state = .running) (hf : s.pru.filling ≠ [])
    (hr : s.pru.ready = false) (hn : s.pru.filling.length ≠ 3) :
    s.joinBatch t = { s with pru := { s.pru with filling := s.pru.filling ++ [t] } } := by
  have hlen : ¬ (s.pru.filling ++ [t]).length = 4 := by
    rw [List.length_append, List.length_singleton]
    omega
  obtain ⟨x, rest, hx⟩ := List.exists_cons_of_ne_nil hf
  rw [hx] at hlen ⊢
  obtain h | h := h <;> simp only [State.joinBatch, h, hx, hr, Bool.false_eq_true, if_false, hlen]

theorem State.joinBatch_fourth (h : s.stc.state = .joining ∨ s.stc.state = .running) (hn : s.pru.filling.length = 3)
    (hr : s.pru.ready = false) :
    s.joinBatch t = ({ s with pru := { s.pru with filling := s.pru.filling ++ [t] } } : State).fillingReady := by
  have hlen : (s.pru.filling ++ [t]).length = 4 := by rw [List.length_append, hn, List.length_singleton]
  obtain ⟨x, rest, hx⟩ := List.exists_cons_of_ne_nil (List.ne_nil_of_length_eq_add_one hn)
  rw [hx] at hlen ⊢
  obtain h | h := h <;> simp only [State.joinBatch, h, hx, hr, Bool.false_eq_true, if_false, hlen, if_true]

end Batch

/-! ### What is kept of each class (R28 to R35) -/

theorem State.applyChange_take_disabled {s : State} (h : s.pru.enabled = false) (n : Nat) (b : Bay) (d : Int) (m : Nat) :
    s.applyChange n b d (.take m) = s := if_neg (by simp [h])

theorem State.applyChange_take_enabled {s : State} (h : s.pru.enabled = true) (n : Nat) (b : Bay) (d : Int) (m : Nat) :
    s.applyChange n b d (.take m)
      = (s.addPending { source := s.ownNumber, article := b.cfg.article, unitWeight := s.unitWeight b.cfg.article
                        units := m, arrival := s.now }).joinBatch
          { source := s.ownNumber, bay := n, article := b.cfg.article, unitWeight := s.unitWeight b.cfg.article
            units := m } := if_pos h

theorem State.applyChange_paired {s : State} {i : Nat} {p : PendingTake} (h : s.pru.pendingTakes[i]? = some p) (n : Nat)
    (b : Bay) (d : Int) (m : Nat) :
    s.applyChange n b d (.paired i m)
      = (({ s with pru := { s.pru with
            pendingTakes := replaceAt s.pru.pendingTakes i (PendingTake.consume m) } } : State).strayOn n
          { goods := some { article := p.article, unitWeight := p.unitWeight, units := m }
            grams := m * p.unitWeight }).count .pairMatch := by
  rw [State.applyChange, h]

/-- Settles O21: the stray list for the FOREIGN and STRAY-OUT classes, the pending-take list and the batch for a TAKE. -/
theorem classificationKeepsItsRecords : Obligations.ClassificationKeepsItsRecords := by
  intro s n b x d e hcfg
  refine ⟨rfl, rfl, fun hroom => State.strayOn_room e hroom _, fun oldest rest hx hfull => ?unknown,
    fun i m p hp u hu => ?paired, fun i r _ => ?whole, fun i m r g hr hg => ?part,
    fun m hoff => State.applyChange_take_disabled hoff n b d m, fun m t p u hon ht hp hu => ?take⟩
  case unknown => rw [← hcfg]; exact State.strayOn_full e hx hfull _
  case paired =>
    rw [← replaceAt_consume hp] at hu
    rw [State.applyChange_paired hp, ← hu]
    have e' : u.bay? n = some x := by rw [hu]; exact e
    refine ⟨fun hroom => by rw [State.strayOn_room e' hroom], fun oldest rest hx hfull => ?_⟩
    rw [State.strayOn_full e' hx hfull, hcfg]
  case whole => exact State.modBay_strays e (·.eraseIdx i) rfl
  case part => exact State.modBay_strays e (replaceAt · i fun r => r.less m) (replaceAt_less hr hg)
  case take =>
    have hjoined : u = s.addPending p := by
      obtain ⟨hroom, hu⟩ | ⟨hfull, oldest, rest, hl, hu⟩ := hu
      · rw [hu, State.addPending_room hroom]
      · rw [hu, State.addPending_full hfull hl]
    have htake : s.applyChange n b d (.take m) = u.joinBatch t := by
      rw [State.applyChange_take_enabled hon, hjoined, ht, hp]
    obtain ⟨l, hpru⟩ := s.addPending_pru p
    obtain ⟨hstc, hbsc, hnow⟩ := s.addPending_frame p
    rw [← hjoined] at hpru hstc hbsc hnow
    have hfill : u.pru.filling = s.pru.filling := by rw [hpru]
    have hsend : u.pru.sending = s.pru.sending := by rw [hpru]
    have hready : u.pru.ready = s.pru.ready := by rw [hpru]
    have hmode : u.pru.mode = s.pru.mode := by rw [hpru]
    simp only [← hstc, ← hbsc, ← hnow, ← hfill, ← hsend, ← hready, ← hmode, htake]
    have hdrop : u.raise .shiftDrop t.bay t.article = u.raise .shiftDrop n b.cfg.article := by rw [ht]
    refine ⟨fun hiso => (State.joinBatch_isolated hiso).trans hdrop, fun hs => ⟨State.joinBatch_first hs,
      fun hne hr => (State.joinBatch_dropped hs hne hr).trans hdrop, State.joinBatch_more hs,
      fun hthree hr filled hfilled => ?_⟩⟩
    have hfour : ∃ v : State, v = { u with pru := { u.pru with filling := u.pru.filling ++ [t] } } := ⟨_, rfl⟩
    obtain ⟨v, hv⟩ := hfour
    have hmoved : filled = { v with pru := v.pru.movedOver } := by rw [hfilled, hv]; rfl
    have hwaits : { u with pru := { u.pru with filling := u.pru.filling ++ [t], ready := true, readyTimer := none } }
        = ({ v with pru := { v.pru with ready := true, readyTimer := none } } : State) := by rw [hv]
    have hvsend : v.pru.sending = u.pru.sending := by rw [hv]
    have hvmode : v.pru.mode = u.pru.mode := by rw [hv]
    have hvbsc : v.bsc = u.bsc := by rw [hv]
    rw [State.joinBatch_fourth hs hthree hr, ← hv, hmoved, hwaits, ← hvsend, ← hvmode, ← hvbsc]
    exact ⟨State.fillingReady_empty, fun e rest => State.fillingReady_latest, State.fillingReady_waits⟩

/-! ### The timers and frames of the pairing unit (R38 to R41) -/

/-- Settles O22: the place holds an entry whose window has passed or not, or holds none. -/
theorem pendingTakeExpires : Obligations.PendingTakeExpires := by
  intro s dt i hheld
  have hnext := State.event_next hheld dt fun s =>
    match s.pru.pendingTakes[i]? with
    | some p =>
      if s.listening && decide (p.arrival + s.pru.window ≤ s.now) then
        ({ s with pru := { s.pru with pendingTakes := s.pru.pendingTakes.eraseIdx i } } : State).raise .pairEvict
          p.source p.article
      else s
    | none => s
  refine ⟨fun p hl hp hdue => hnext.trans ?expires, fun hl => hnext.trans ?deaf, fun hearly => hnext.trans ?early⟩
  case expires =>
    have hcond : ((s.elapse dt).listening && decide (p.arrival + s.pru.window ≤ s.now + dt)) = true := by
      rw [Bool.and_eq_true]
      exact ⟨hl, decide_eq_true hdue⟩
    simp only [State.elapse_pru, hp]
    exact congrArg (fun u => Host.Outcome.next (State.showLamps u)) (if_pos hcond)
  case deaf =>
    have hl' : (s.elapse dt).listening = false := hl
    simp only [hl', Bool.false_and, Bool.false_eq_true, if_false]
    split <;> rfl
  case early =>
    simp only [State.elapse_pru, State.elapse_now]
    cases hp : s.pru.pendingTakes[i]? with
    | none => rfl
    | some p =>
      have hcond : ¬ ((s.elapse dt).listening && decide (p.arrival + s.pru.window ≤ s.now + dt)) = true := by
        simp [hearly p hp]
      exact congrArg (fun u => Host.Outcome.next (State.showLamps u)) (if_neg hcond)

/-- Settles O23: the ready timer at its expiry, by what stands on the sending side. -/
theorem readyTimerActsOnTheSendingSide : Obligations.ReadyTimerActsOnTheSendingSide := by
  intro s dt e hheld htimer hdue
  have hexec : exec (.readyTimer dt) s = .next (s.elapse dt).fillingReady.showLamps := by
    have hnext := State.event_next hheld dt fun s =>
      match expired s.now s.pru.readyTimer with
      | some _ => s.fillingReady
      | none => s
    have hexpired : expired (s.elapse dt).now (s.elapse dt).pru.readyTimer = some e := by
      rw [State.elapse_pru, htimer]
      exact expired_some hdue
    rw [hexpired] at hnext
    exact hnext
  rw [hexec]
  refine ⟨fun hsend => ?_, fun t rest hsend hq hm => ?_, fun hsend hq => ?_⟩
  · rw [State.fillingReady_empty (s := s.elapse dt) hsend]; rfl
  · rw [State.fillingReady_latest (s := s.elapse dt) hsend hq hm]; rfl
  · rw [State.fillingReady_waits (s := s.elapse dt) hsend hq]; rfl

/-- The records of a heard SHIFT that are not passed over, as pending takes (R39). -/
def heardTakes (source : Nat) (arrival : Time) (records : List Goods) : List PendingTake :=
  (records.filter Goods.taken).map fun g =>
    { source := source, article := g.article, unitWeight := g.unitWeight, units := g.units, arrival := arrival }

theorem State.hearTake_foldl (source : Nat) (records : List Goods) (s : State) :
    records.foldl (State.hearTake source) s = (heardTakes source s.now records).foldl State.addPending s := by
  induction records generalizing s with
  | nil => rfl
  | cons g rest ih =>
    rw [List.foldl_cons, ih]
    cases hg : g.taken with
    | true =>
      have hhear : State.hearTake source s g = s.addPending
          { source := source, article := g.article, unitWeight := g.unitWeight, units := g.units
            arrival := s.now } := if_pos hg
      rw [hhear, (State.addPending_frame _ _).2.2]
      simp [heardTakes, hg]
    | false =>
      have hhear : State.hearTake source s g = s := if_neg (by simp [hg])
      rw [hhear]
      simp [heardTakes, hg]

theorem Goods.taken_eq (g : Goods) :
    g.taken = (g.article != 0 && g.unitWeight != 0 && g.units != 0 && decide (g.unitWeight ≤ 1000000)) := by
  simp [Goods.taken, bne, beq_eq_decide]

/-- A SHIFT that the station takes goes to the pairing unit alone (R39). -/
theorem exec_shift_of_takes {s : State} {heard : List Character} {f : Frame} (h : s.takes heard f)
    (hk : f.kind = .shift) (dt : Time) :
    exec (.shift dt heard) s = .next ((s.elapse dt).takeShift f.src (shiftRecords f.payload)).showLamps := by
  have harm : exec (.shift dt heard) s = s.event dt fun u => u.hearFrame f.kind heard := by rw [hk]; rfl
  rw [harm, h.event_next dt, State.dispatch, if_pos (.inr rfl), hk]

/-- Settles O24: the records taken join the list one after the other. -/
theorem shiftFrameJoinsThePendingTakes : Obligations.ShiftFrameJoinsThePendingTakes := by
  intro s dt heard f htakes hkind
  rw [exec_shift_of_takes htakes hkind]
  refine ⟨fun hoff => ?_, fun hon hlen all hall => ?_⟩
  · have hkept : (s.elapse dt).takeShift f.src (shiftRecords f.payload) = s.elapse dt := if_neg (by simp [hoff])
    rw [hkept]
  · have hjoin : (s.elapse dt).takeShift f.src (shiftRecords f.payload)
        = (shiftRecords f.payload).foldl (State.hearTake f.src) (s.elapse dt) := if_pos hon
    have hheard : all = s.pru.pendingTakes ++ heardTakes f.src (s.now + dt) (shiftRecords f.payload) := by
      rw [hall, heardTakes, funext Goods.taken_eq]
    rw [hjoin, State.hearTake_foldl, State.addPending_foldl _ (s.elapse dt) hlen, hheard]
    rfl

end Sys2Proof.Machine

/-! The transmit queue (sections 3.3 and 3.5): the order of service, how a request enters, the deferral it moves, and what a
DROPPED notice does. -/

namespace Sys2Proof.Machine

/-! ### The order of service (R50, R57) -/

section Order

theorem servedBefore_refl (x : TxEntry) : ServedBefore x x := .inr ⟨rfl, .inr ⟨rfl, le_rfl⟩⟩

theorem servedBefore_trans {x y z : TxEntry} (h : ServedBefore x y) (k : ServedBefore y z) : ServedBefore x z := by
  unfold ServedBefore at *
  have hty : x.time = y.time ∨ x.time ≠ y.time := em _
  simp only [Time] at *
  omega

theorem TxEntry.servedBefore_of_after {x y : TxEntry} (h : x.after y = true) : ServedBefore y x := by
  unfold TxEntry.after at h
  unfold ServedBefore
  split_ifs at h with hcls htime
  all_goals have hlt := of_decide_eq_true h
  · exact .inr ⟨hcls.symm, .inr ⟨htime.symm, hlt.le⟩⟩
  · exact .inr ⟨hcls.symm, .inl hlt⟩
  · exact .inl hlt

theorem TxEntry.servedBefore_of_not_after {x y : TxEntry} (h : ¬ x.after y = true) : ServedBefore x y := by
  unfold TxEntry.after at h
  unfold ServedBefore
  split_ifs at h with hcls htime
  all_goals have hle := not_lt.mp fun hlt => h (decide_eq_true hlt)
  · exact .inr ⟨hcls, .inr ⟨htime, hle⟩⟩
  · exact .inr ⟨hcls, .inl (lt_of_le_of_ne hle htime)⟩
  · exact .inl (lt_of_le_of_ne hle hcls)

theorem headOf_first {l : List TxEntry} {h : TxEntry} (hl : headOf l = some h) : ∀ e ∈ l, ServedBefore h e := by
  induction l generalizing h with
  | nil => simp
  | cons x rest ih =>
    rw [headOf] at hl
    cases hrest : headOf rest with
    | none =>
      rw [hrest] at hl
      obtain rfl := Option.some.inj hl
      rw [headOf_none.mp hrest]
      simp [servedBefore_refl]
    | some y =>
      simp only [hrest] at hl
      rw [List.forall_mem_cons]
      by_cases hafter : x.after y = true
      · obtain rfl : y = h := by simpa [hafter] using hl
        exact ⟨TxEntry.servedBefore_of_after hafter, ih hrest⟩
      · obtain rfl : x = h := by simpa [hafter] using hl
        exact ⟨servedBefore_refl x,
          fun e he => servedBefore_trans (TxEntry.servedBefore_of_not_after hafter) (ih hrest e he)⟩

theorem lastOf_none {l : List TxEntry} : lastOf l = none ↔ l = [] := by
  cases l with
  | nil => simp [lastOf]
  | cons x rest =>
    rw [lastOf]
    cases lastOf rest with
    | none => simp
    | some y => by_cases h : y.after x = true <;> simp [h]

theorem lastOf_last {l : List TxEntry} {z : TxEntry} (hl : lastOf l = some z) : ∀ e ∈ l, ServedBefore e z := by
  induction l generalizing z with
  | nil => simp
  | cons x rest ih =>
    rw [lastOf] at hl
    cases hrest : lastOf rest with
    | none =>
      rw [hrest] at hl
      obtain rfl := Option.some.inj hl
      rw [lastOf_none.mp hrest]
      simp [servedBefore_refl]
    | some y =>
      simp only [hrest] at hl
      rw [List.forall_mem_cons]
      by_cases hafter : y.after x = true
      · obtain rfl : y = z := by simpa [hafter] using hl
        exact ⟨TxEntry.servedBefore_of_after hafter, ih hrest⟩
      · obtain rfl : x = z := by simpa [hafter] using hl
        exact ⟨servedBefore_refl x,
          fun e he => servedBefore_trans (ih hrest e he) (TxEntry.servedBefore_of_not_after hafter)⟩

end Order

/-- Settles O25: the table of classes, and head and last by induction on the queue. -/
theorem serviceOrderIsClassThenTime : Obligations.ServiceOrderIsClassThenTime :=
  ⟨fun _ _ _ => ⟨rfl, rfl, rfl, rfl, rfl, rfl, rfl⟩, fun _ => ⟨headOf_none, lastOf_none,
    fun _ hl => ⟨headOf_mem hl, headOf_first hl⟩, fun _ hl => ⟨lastOf_mem hl, lastOf_last hl⟩⟩⟩

/-! ### The deferral (R50, R51) -/

section Deferring

variable {s : State}

/-- The end of a deferral that begins now for a head entry (R50). -/
theorem State.beginDeferral_starts {h : TxEntry} (hs : s.speaking = true) (hidle : s.bsc.busy = false)
    (hd : s.bsc.deferral = none) (hf : s.bsc.flight = none) (hh : headOf s.bsc.waiting = some h) :
    s.beginDeferral = { s with bsc := { s.bsc with
      deferral := some { start := s.now, due := s.now + (h.req.cls * 31 + s.ownNumber) * 80 } } } := by
  simp only [State.beginDeferral, hd, hf, hh, hs, hidle]
  rfl

theorem State.beginDeferral_idle
    (h : s.speaking = false ∨ s.bsc.busy = true ∨ s.bsc.deferral ≠ none ∨ s.bsc.flight ≠ none ∨ s.bsc.waiting = []) :
    s.beginDeferral = s := by
  unfold State.beginDeferral
  split
  · next hd hf hh =>
    refine if_neg ?_
    have hne : s.bsc.waiting ≠ [] := fun hnil => by simp [hnil, headOf] at hh
    obtain h | h | h | h | h := h
    · simp [h]
    · simp [h]
    · exact absurd hd h
    · exact absurd hf h
    · exact absurd h hne
  · rfl

theorem State.shortenDeferral_none (h : s.bsc.deferral = none) (before : Option TxEntry) :
    s.shortenDeferral before = s := by
  rw [State.shortenDeferral, h]

section Running

variable {d : Deferral} {old new : TxEntry} {point : Time}

theorem State.shortenDeferral_some (hd : s.bsc.deferral = some d) (hnew : headOf s.bsc.waiting = some new)
    (hpoint : point = d.start + (new.req.cls * 31 + s.ownNumber) * 80) (old : TxEntry) :
    s.shortenDeferral (some old)
      = if new.req.cls < old.req.cls ∧ point < d.due ∧ s.now ≤ point then
          { s with bsc := { s.bsc with deferral := some { d with due := point } } }
        else s := by
  subst hpoint
  simp only [State.shortenDeferral, hd, hnew, headLowered, decide_eq_true_iff]
  rfl

theorem State.shortenDeferral_shortens (hd : s.bsc.deferral = some d) (hnew : headOf s.bsc.waiting = some new)
    (hpoint : point = d.start + (new.req.cls * 31 + s.ownNumber) * 80) (hlower : new.req.cls < old.req.cls)
    (hearlier : point < d.due) (hahead : s.now ≤ point) :
    s.shortenDeferral (some old) = { s with bsc := { s.bsc with deferral := some { d with due := point } } } := by
  rw [State.shortenDeferral_some hd hnew hpoint, if_pos ⟨hlower, hearlier, hahead⟩]

theorem State.shortenDeferral_runs_on (hd : s.bsc.deferral = some d) (hnew : headOf s.bsc.waiting = some new)
    (hpoint : point = d.start + (new.req.cls * 31 + s.ownNumber) * 80)
    (h : old.req.cls ≤ new.req.cls ∨ d.due ≤ point ∨ point < s.now) : s.shortenDeferral (some old) = s := by
  rw [State.shortenDeferral_some hd hnew hpoint, if_neg]
  rintro ⟨hlower, hearlier, hahead⟩
  exact h.elim (fun h => absurd hlower h.not_gt) fun h => h.elim (fun h => absurd hearlier h.not_gt)
    fun h => absurd hahead h.not_ge

end Running

/-- A deferral that has just begun has the end of its head's class already. -/
theorem State.beginDeferral_shortenDeferral {h : TxEntry} (hs : s.speaking = true) (hidle : s.bsc.busy = false)
    (hd : s.bsc.deferral = none) (hf : s.bsc.flight = none) (hh : headOf s.bsc.waiting = some h)
    (before : Option TxEntry) :
    s.beginDeferral.shortenDeferral before = { s with bsc := { s.bsc with
      deferral := some { start := s.now, due := s.now + (h.req.cls * 31 + s.ownNumber) * 80 } } } := by
  rw [State.beginDeferral_starts hs hidle hd hf hh]
  have hpoint : s.now + deferralLength h.req.cls s.ownNumber = s.now + (h.req.cls * 31 + s.ownNumber) * 80 := rfl
  have hown (b : BusController) : ({ s with bsc := b } : State).ownNumber = s.ownNumber := rfl
  simp only [State.shortenDeferral, hh, hown, hpoint, lt_irrefl, false_and, and_false, if_false]

end Deferring

/-! ### A request at the queue (R58 to R60) -/

section Entering

variable {b : BusController} {r : Request} {now : Time}

theorem BusController.enter_merges (h : b.waiting.any (fun e => e.req.sameKey r) = true) :
    b.enter r now
      = ({ b with waiting := b.waiting.map fun e => if e.req.sameKey r then e.merge r else e }, none) := if_pos h

theorem BusController.enter_follows {f : Flight} (h : b.waiting.any (fun e => e.req.sameKey r) = false)
    (hf : b.flight = some f) (hk : f.entry.req.sameKey r = true) :
    b.enter r now = ({ b with flight := some (f.follow (b.newEntry r now)), takenCount := b.takenCount + 1 }, none) := by
  simp only [BusController.enter, h, Bool.false_eq_true, if_false, hf, hk, if_true]

theorem BusController.enter_new (h : b.waiting.any (fun e => e.req.sameKey r) = false)
    (hf : ∀ f, b.flight = some f → f.entry.req.sameKey r = false) : b.enter r now = b.enterNew r now := by
  unfold BusController.enter
  rw [if_neg (by simp [h])]
  cases hb : b.flight with
  | none => rfl
  | some f => exact if_neg (by simp [hf f hb])

theorem BusController.enterNew_room (h : b.used < 8) : b.enterNew r now = (b.append r now, none) := if_pos h

theorem BusController.enterNew_displaces {z : TxEntry} (h : 8 ≤ b.used) (hz : lastOf b.waiting = some z)
    (hcls : r.cls < z.req.cls) :
    b.enterNew r now
      = (({ b with waiting := b.waiting.erase z } : BusController).append r now, some z.req) := by
  rw [BusController.enterNew, if_neg (Nat.not_lt.mpr h), hz]
  exact if_pos hcls

theorem BusController.enterNew_refused (h : 8 ≤ b.used) (hcls : ∀ e ∈ b.waiting, e.req.cls ≤ r.cls) :
    b.enterNew r now = (b, some r) := by
  rw [BusController.enterNew, if_neg (Nat.not_lt.mpr h)]
  cases hz : lastOf b.waiting with
  | none => rfl
  | some z => exact if_neg (Nat.not_lt.mpr (hcls z (lastOf_mem hz)))

theorem BusController.enterNew_deferral (b : BusController) (r : Request) (now : Time) :
    (b.enterNew r now).1.deferral = b.deferral := by
  unfold BusController.enterNew
  split
  · rfl
  · split
    · split <;> rfl
    · rfl

theorem BusController.enter_deferral (b : BusController) (r : Request) (now : Time) :
    (b.enter r now).1.deferral = b.deferral := by
  unfold BusController.enter
  split
  · rfl
  · split
    · split
      · rfl
      · exact b.enterNew_deferral r now
    · exact b.enterNew_deferral r now

theorem BusController.enter_busy (b : BusController) (r : Request) (now : Time) :
    (b.enter r now).1.busy = b.busy :=
  congrArg Prod.fst (b.enter_line r now)

/-- What a full queue drops is of no lower class than the request. -/
theorem BusController.enter_dropped_cls {b b' : BusController} {r d : Request} {now : Time}
    (h : b.enter r now = (b', some d)) : d = r ∨ r.cls < d.cls := by
  have hnew : b.enterNew r now = (b', some d) → d = r ∨ r.cls < d.cls := by
    intro h
    unfold BusController.enterNew at h
    split at h
    · simp at h
    · split at h
      · split at h
        · next hlt => exact .inr (by simpa [← (Option.some.inj (Prod.ext_iff.mp h).2)] using hlt)
        · exact .inl (Option.some.inj (Prod.ext_iff.mp h).2).symm
      · exact .inl (Option.some.inj (Prod.ext_iff.mp h).2).symm
  unfold BusController.enter at h
  split at h
  · simp at h
  · split at h
    · split at h
      · simp at h
      · exact hnew h
    · exact hnew h

theorem Request.cls_le (r : Request) : r.cls ≤ 4 := by
  cases r with
  | alertFrame k a => cases k <;> simp [Request.cls]
  | hello | tally _ | shift | query _ => simp [Request.cls]

end Entering

/-! ### A request at the bus controller -/

section Enqueue

variable {s : State} {r : Request} {b' : BusController} {dropped : Option Request}

/-- The state in which a request has entered the queue and what it dropped has been counted (R60). -/
def State.afterEnter (s : State) (b : BusController) : Option Request → State
  | none => { s with bsc := b }
  | some d => { s with bsc := b, hlu := s.hlu.take .queueDrop d.subject d.article 1 s.now }

theorem State.afterEnter_frame (s : State) (b : BusController) (o : Option Request) :
    (s.afterEnter b o).bsc = b ∧ (s.afterEnter b o).now = s.now ∧ (s.afterEnter b o).stc = s.stc := by
  cases o <;> exact ⟨rfl, rfl, rfl⟩

theorem State.enqueue_refused (h : s.speaking = false) : s.enqueue r = (s, some r) := if_neg (by simp [h])

theorem State.enqueue_eq (hs : s.speaking = true) (he : s.bsc.enter r s.now = (b', dropped)) :
    s.enqueue r
      = ((s.afterEnter b' dropped).beginDeferral.shortenDeferral (headOf s.bsc.waiting), dropped) := by
  rw [State.enqueue, if_pos hs, he]
  cases dropped <;> rfl

/-- The state after a request with the deferral set to `x`. -/
def State.deferring (s : State) (b : BusController) (o : Option Request) (x : Option Deferral) : State :=
  s.afterEnter { b with deferral := x } o

theorem State.deferring_none (s : State) (b : BusController) (x : Option Deferral) :
    s.deferring b none x = { s with bsc := { b with deferral := x } } := rfl

theorem State.deferring_same {b : BusController} {x : Option Deferral} (h : b.deferral = x) (s : State)
    (o : Option Request) : s.deferring b o x = s.afterEnter b o := by
  subst h; rfl

theorem State.deferring_eq (s : State) (b : BusController) (o : Option Request) (x : Option Deferral) :
    s.deferring b o x = { s.afterEnter b o with bsc := { (s.afterEnter b o).bsc with deferral := x } } := by
  cases o <;> rfl

section

variable (hs : s.speaking = true) (he : s.bsc.enter r s.now = (b', dropped))
include hs he

omit hs in
theorem State.enqueue_deferral_kept : b'.deferral = s.bsc.deferral := by
  have h := s.bsc.enter_deferral r s.now
  rwa [he] at h

/-- A deferral in progress meets a request (R51). -/
theorem State.enqueue_in_deferral {d : Deferral} {old new : TxEntry} {point : Time} (hd : s.bsc.deferral = some d)
    (hold : headOf s.bsc.waiting = some old) (hnew : headOf b'.waiting = some new)
    (hpoint : point = d.start + (new.req.cls * 31 + s.ownNumber) * 80) :
    (new.req.cls < old.req.cls → point < d.due → s.now ≤ point →
        s.enqueue r = (s.deferring b' dropped (some { start := d.start, due := point }), dropped))
      ∧ (old.req.cls ≤ new.req.cls ∨ d.due ≤ point ∨ point < s.now →
        s.enqueue r = (s.deferring b' dropped (some d), dropped)) := by
  obtain ⟨hbsc, hnow, hstc⟩ := s.afterEnter_frame b' dropped
  have hd' : b'.deferral = some d := (State.enqueue_deferral_kept he).trans hd
  have hkeeps : (s.afterEnter b' dropped).beginDeferral = s.afterEnter b' dropped :=
    State.beginDeferral_idle (.inr (.inr (.inl (by rw [hbsc, hd']; simp))))
  have hown : (s.afterEnter b' dropped).ownNumber = s.ownNumber := congrArg Controller.number hstc
  rw [← hown] at hpoint
  rw [← hnow]
  rw [← hbsc] at hd' hnew
  rw [State.enqueue_eq hs he, hkeeps, hold]
  refine ⟨fun hlower hearlier hahead => ?_, fun h => ?_⟩
  · rw [State.shortenDeferral_shortens hd' hnew hpoint hlower hearlier hahead, State.deferring_eq]
  · rw [State.shortenDeferral_runs_on hd' hnew hpoint h, State.deferring_same (hbsc ▸ hd')]

/-- A request with the bus idle begins a deferral (R50). -/
theorem State.enqueue_begins {h : TxEntry} (hd : s.bsc.deferral = none) (hidle : s.bsc.busy = false)
    (hf : b'.flight = none) (hh : headOf b'.waiting = some h) :
    s.enqueue r
      = (s.deferring b' dropped
          (some { start := s.now, due := s.now + (h.req.cls * 31 + s.ownNumber) * 80 }), dropped) := by
  obtain ⟨hbsc, hnow, hstc⟩ := s.afterEnter_frame b' dropped
  have hd' : b'.deferral = none := (State.enqueue_deferral_kept he).trans hd
  have hbusy : b'.busy = false := by
    have hline := s.bsc.enter_busy r s.now
    rw [he] at hline
    exact hline.trans hidle
  have hown : (s.afterEnter b' dropped).ownNumber = s.ownNumber := congrArg Controller.number hstc
  have hspeak : (s.afterEnter b' dropped).speaking = true := by rw [State.speaking, hstc]; exact hs
  have hbegin := State.beginDeferral_shortenDeferral hspeak (by rw [hbsc, hbusy]) (by rw [hbsc, hd'])
    (by rw [hbsc, hf]) (by rw [hbsc, hh]) (headOf s.bsc.waiting)
  rw [hown, hnow] at hbegin
  rw [State.enqueue_eq hs he, hbegin]
  cases dropped <;> rfl

/-- With the bus busy, or an attempt in flight, none begins. -/
theorem State.enqueue_waits (hd : s.bsc.deferral = none) (h : s.bsc.busy = true ∨ b'.flight ≠ none) :
    s.enqueue r = (s.deferring b' dropped none, dropped) := by
  obtain ⟨hbsc, -, -⟩ := s.afterEnter_frame b' dropped
  have hd' : b'.deferral = none := (State.enqueue_deferral_kept he).trans hd
  have hbusy : b'.busy = s.bsc.busy := by
    have hline := s.bsc.enter_busy r s.now
    rwa [he] at hline
  have hkeeps : (s.afterEnter b' dropped).beginDeferral = s.afterEnter b' dropped := by
    refine State.beginDeferral_idle ?_
    rw [hbsc, hbusy]
    exact h.elim (fun h => .inr (.inl h)) fun h => .inr (.inr (.inr (.inl h)))
  rw [State.enqueue_eq hs he, hkeeps, State.shortenDeferral_none (by rw [hbsc, hd']), State.deferring_same hd']

end

end Enqueue

/-! ### Merging (R58) -/

theorem TxEntry.merge_frame (e : TxEntry) (r : Request) :
    (e.merge r).time = e.time ∧ (e.merge r).taken = e.taken ∧ (e.merge r).req = e.req.merge r := by
  unfold TxEntry.merge
  split <;> exact ⟨rfl, rfl, rfl⟩

/-- A change of kind between alert frames starts the failed attempts again. -/
theorem TxEntry.merge_failed_of_kind {e : TxEntry} {k k' : AlertKind} {a a' : Nat} (he : e.req = .alertFrame k a)
    (hk : k ≠ k') : (e.merge (.alertFrame k' a')).failed = 0 := by
  simp only [TxEntry.merge, he, if_neg hk]

theorem TxEntry.merge_failed_of_same {e : TxEntry} {r : Request}
    (h : ∀ k k' a a', e.req = .alertFrame k a → r = .alertFrame k' a' → k = k') : (e.merge r).failed = e.failed := by
  unfold TxEntry.merge
  split
  · next k a k' a' he => exact if_pos (h k k' a a' he rfl)
  · rfl

theorem Request.sameKey_iff_forms (x r : Request) :
    x.sameKey r = true
      ↔ (x = .hello ∧ r = .hello) ∨ (∃ v w, x = .tally v ∧ r = .tally w) ∨ (x = .shift ∧ r = .shift)
        ∨ (∃ k k' a, x = .alertFrame k a ∧ r = .alertFrame k' a) ∨ ∃ n, x = .query n ∧ r = .query n := by
  cases x <;> cases r <;> simp [Request.sameKey] <;> exact eq_comm

theorem BusController.used_eq_ite (b : BusController) :
    b.used = b.waiting.length + if b.flight = none then 0 else 1 := by
  rw [BusController.used]
  cases b.flight <;> rfl

/-- Settles O26: the refusal, the deferral that a request met, and the way a request enters. -/
theorem requestMergesFollowsOrEnters : Obligations.RequestMergesFollowsOrEnters := by
  refine ⟨State.speaking_iff, BusController.used_eq_ite, fun s r => ⟨State.enqueue_refused, fun b' hs he => ?deferral,
    fun b => BusController.enter_merges, fun b f hany hf hk => ?follows, fun b hany hf hroom => ?enters,
    fun e => ?merges, fun x => x.sameKey_iff_forms r, fun _ => rfl, fun _ => rfl, fun _ _ _ => rfl, rfl, rfl,
    fun _ => rfl⟩⟩
  case deferral =>
    exact ⟨fun d old new hd hold hnew point hpoint => State.enqueue_in_deferral hs he hd hold hnew hpoint,
      fun h => State.enqueue_begins hs he, State.enqueue_waits hs he⟩
  case follows =>
    rw [BusController.enter_follows hany hf hk]
    refine ⟨fun hnone => ?_, fun x hx => ?_⟩
    · simp only [Flight.follow, hnone, BusController.newEntry]
    · simp only [Flight.follow, hx, BusController.newEntry]
  case enters => rw [BusController.enter_new hany hf, BusController.enterNew_room hroom]; rfl
  case merges =>
    obtain ⟨htime, htaken, hreq⟩ := e.merge_frame r
    refine ⟨htime, htaken, hreq, ?_, TxEntry.merge_failed_of_same⟩
    rintro k k' a a' he rfl hk
    exact TxEntry.merge_failed_of_kind he hk

/-- Settles O27: the entry served last has the highest class, and what is dropped is counted before the deferral moves. -/
theorem fullQueueDropsTheHighestClass : Obligations.FullQueueDropsTheHighestClass := by
  refine ⟨fun r => ⟨?subject, ?article⟩, fun b r now hany hf hfull => ⟨fun z hz hcls => ?displaced, fun hcls => ?refused,
    fun s d b' hs he => ?counted⟩⟩
  case subject => cases r <;> rfl
  case article => cases r <;> rfl
  case displaced => rw [BusController.enter_new hany hf, BusController.enterNew_displaces hfull hz hcls]; rfl
  case refused => rw [BusController.enter_new hany hf, BusController.enterNew_refused hfull hcls]
  case counted =>
    have hresult := State.enqueue_eq hs he
    obtain ⟨x, hbegin⟩ := (s.afterEnter b' (some d)).beginDeferral_eq
    obtain ⟨y, hshorten⟩ := (s.afterEnter b' (some d)).beginDeferral.shortenDeferral_eq (headOf s.bsc.waiting)
    have hleft : s.enqueue r = (s.deferring b' (some d) y, some d) := by
      rw [hresult, hshorten, hbegin]
      rfl
    refine ⟨by rw [hleft], by rw [hleft]; rfl, by rw [hleft]; rfl, fun left hdef => ?_⟩
    obtain rfl : left = s.deferring b' (some d) := funext fun x => hdef x
    exact ⟨fun x old new hx hold hnew point hpoint => State.enqueue_in_deferral hs he hx hold hnew hpoint,
      fun h => State.enqueue_begins hs he, State.enqueue_waits hs he⟩

/-! ### What a request leaves alone (R43, R62, R91) -/

section Frame

variable (s : State) (r : Request)

theorem State.beginDeferral_pru : s.beginDeferral.pru = s.pru := by
  obtain ⟨d, h⟩ := s.beginDeferral_eq
  rw [h]

theorem State.enqueue_eq_parts : ∃ b h, (s.enqueue r).1 = { s with bsc := b, hlu := h } := by
  cases hs : s.speaking with
  | false => exact ⟨s.bsc, s.hlu, by rw [State.enqueue_refused hs]⟩
  | true =>
    rcases he : s.bsc.enter r s.now with ⟨b', o⟩
    obtain ⟨x, hbegin⟩ := (s.afterEnter b' o).beginDeferral_eq
    obtain ⟨y, hshorten⟩ := (s.afterEnter b' o).beginDeferral.shortenDeferral_eq (headOf s.bsc.waiting)
    rw [State.enqueue_eq hs he, hshorten, hbegin]
    cases o <;> exact ⟨_, _, rfl⟩

theorem State.enqueue_pru : (s.enqueue r).1.pru = s.pru := by
  obtain ⟨b, h, e⟩ := s.enqueue_eq_parts r
  rw [e]

theorem State.enqueue_tly : (s.enqueue r).1.tly = s.tly := by
  obtain ⟨b, h, e⟩ := s.enqueue_eq_parts r
  rw [e]

theorem State.loseSending_tly : s.loseSending.tly = s.tly := by
  rw [State.loseSending_eq]

theorem State.requestShift_tly : s.requestShift.tly = s.tly := by
  have h := s.enqueue_tly .shift
  unfold State.requestShift
  split
  · next he => rw [he] at h; exact h
  · next he => rw [he] at h; exact (State.loseSending_tly _).trans h
  · next he => rw [he] at h; exact h

theorem State.shiftLost_tly : s.shiftLost.tly = s.tly := by
  unfold State.shiftLost
  dsimp only
  split
  · exact (State.requestShift_tly _).trans s.loseSending_tly
  · exact s.loseSending_tly

theorem State.noticeDropped_tly : (s.noticeDropped r).tly = s.tly := by
  cases r with
  | shift => exact s.shiftLost_tly
  | alertFrame k a => rfl
  | hello | tally _ | query _ => rfl

theorem State.request_none {s : State} {r : Request} (h : (s.enqueue r).2 = none) :
    s.request r = (s.enqueue r).1 := by
  rw [State.request, ← Prod.mk.eta (p := s.enqueue r), h]

theorem State.request_dropped_eq {s : State} {r d : Request} (h : (s.enqueue r).2 = some d) :
    s.request r = (s.enqueue r).1.noticeDropped d := by
  rw [State.request, ← Prod.mk.eta (p := s.enqueue r), h]

theorem State.request_tly : (s.request r).tly = s.tly := by
  cases h : (s.enqueue r).2 with
  | none => rw [State.request_none h, State.enqueue_tly]
  | some d => rw [State.request_dropped_eq h, State.noticeDropped_tly, State.enqueue_tly]

theorem State.Sent.requestFrame {s t : State} (h : s.Sent t) (htly : t.tly = s.tly) : s.requestFrame t := by
  obtain ⟨g, hg, hkeeps⟩ := h.slots
  refine ⟨?_, ?_⟩
  · obtain ⟨hnow, hheld, hchannels, hbays, hpeers, halu, hstc, hlamps, hfree, hpending, -, hpru, hline, -⟩ := h
    simp only [BusController.line, Prod.mk.injEq] at hline
    obtain ⟨hbusy, hrx, hrun, hseq⟩ := hline
    have hbsc : ({ s.bsc with
        waiting := t.bsc.waiting, flight := t.bsc.flight, deferral := t.bsc.deferral
        takenCount := t.bsc.takenCount } : BusController) = t.bsc := by
      simp only [← hbusy, ← hrx, ← hrun, ← hseq]
    rw [hbsc, ← hpru, ← hnow, ← hheld, ← hchannels, ← hbays, ← hpeers, ← halu, ← hstc, ← hlamps, ← hfree, ← hpending,
      ← htly]
  · rw [hg, List.map_map]
    refine List.map_congr_left fun sl _ => ?_
    obtain ⟨hart, o, halert, -⟩ := hkeeps sl
    simp only [Function.comp_apply, hart, halert]

theorem State.request_requestFrame : s.requestFrame (s.request r) :=
  (s.request_sent r).requestFrame (s.request_tly r)

end Frame

/-! ### DROPPED notices (R43, R62, R91) -/

section Notices

variable {s : State}

/-- A request of the highest class displaces nothing, so only the SHIFT itself can be dropped. -/
theorem State.enqueue_shift_dropped {d : Request} (h : (s.enqueue .shift).2 = some d) : d = .shift := by
  cases hs : s.speaking with
  | false =>
    rw [State.enqueue_refused hs] at h
    exact (Option.some.inj h).symm
  | true =>
    rcases he : s.bsc.enter .shift s.now with ⟨b', o⟩
    rw [State.enqueue_eq hs he] at h
    obtain rfl : o = some d := h
    exact (BusController.enter_dropped_cls he).resolve_right (Nat.not_lt.mpr d.cls_le)

theorem State.requestShift_none (h : (s.enqueue .shift).2 = none) : s.requestShift = (s.enqueue .shift).1 := by
  rw [State.requestShift, ← Prod.mk.eta (p := s.enqueue .shift), h]

theorem State.requestShift_dropped_eq (h : (s.enqueue .shift).2 = some .shift) :
    s.requestShift = (s.enqueue .shift).1.loseSending := by
  rw [State.requestShift, ← Prod.mk.eta (p := s.enqueue .shift), h]

theorem State.loseSending_empty (h : s.pru.sending = []) : s.loseSending = s := by
  rw [State.loseSending, h]

theorem State.loseSending_cons {t : Take} {rest : List Take} (h : s.pru.sending = t :: rest) :
    s.loseSending
      = ({ s with pru := { s.pru with sending := [] } } : State).raiseN .shiftDrop 0 t.article (rest.length + 1) := by
  rw [State.loseSending, h]

/-- The loss of the sending side, written out for a state that holds the batch of another. -/
theorem State.loseSending_unique {u lost : State} (hpru : u.pru = s.pru)
    (h : s.pru.sending = [] ∧ lost = u
      ∨ ∃ x rest, s.pru.sending = x :: rest
        ∧ lost = ({ u with pru := { s.pru with sending := [] } } : State).raiseN .shiftDrop 0 x.article
            (rest.length + 1)) : lost = u.loseSending := by
  rw [← hpru] at h
  obtain ⟨hnil, rfl⟩ | ⟨x, rest, hcons, rfl⟩ := h
  · rw [State.loseSending_empty hnil]
  · rw [State.loseSending_cons hcons]

theorem State.loseSending_pru (s : State) : s.loseSending.pru = { s.pru with sending := [] } := by
  rw [State.loseSending_eq]

theorem State.loseSending_stc (s : State) : s.loseSending.stc = s.stc := s.loseSending_sent.stc

theorem State.shiftLost_still (h : s.pru.ready = false ∨ s.speaking = false) : s.shiftLost = s.loseSending := by
  refine if_neg ?_
  have hspeak : s.loseSending.speaking = s.speaking := s.loseSending_sent.speaking
  rw [hspeak, State.loseSending_pru]
  simpa [Decidable.imp_iff_not_or] using h

theorem State.shiftLost_moves (hr : s.pru.ready = true) (hs : s.speaking = true) :
    s.shiftLost = ({ s.loseSending with pru := { s.pru with
      sending := s.pru.filling, filling := [], ready := false } } : State).requestShift := by
  have hspeak : s.loseSending.speaking = s.speaking := s.loseSending_sent.speaking
  have hpru := s.loseSending_pru
  have hcond : (s.loseSending.pru.ready && s.loseSending.speaking) = true := by rw [hspeak, hpru, hs, hr]; rfl
  have hmoved : s.loseSending.pru.moveOver
      = { s.pru with sending := s.pru.filling, filling := [], ready := false } := by rw [hpru]; rfl
  rw [← hmoved]
  exact if_pos hcond

theorem State.requestShift_eq_request (h : s.pru.ready = false) : s.requestShift = s.request .shift := by
  cases hd : (s.enqueue .shift).2 with
  | none => rw [State.requestShift_none hd, State.request_none hd]
  | some d =>
    obtain rfl := State.enqueue_shift_dropped hd
    rw [State.requestShift_dropped_eq hd, State.request_dropped_eq hd]
    exact (State.shiftLost_still (.inl (by rw [State.enqueue_pru, h]))).symm

theorem Alert.lost_eq_map (x : Alert) (k : AlertKind) :
    x.lost k = { x with outstanding := x.outstanding.map fun o =>
      if o.kind = k then { o with standing := .lost } else o } := by
  obtain ⟨state, level, epoch, known, owner, accepted, terminal, escalated, claimSent, closing, o, hold, rep, esc,
    takeover⟩ := x
  cases o with
  | none => rfl
  | some o => by_cases h : o.kind = k <;> simp [Alert.lost, h]

end Notices

/-- Settles O28: the frame of `State.request_sent`, and the requester's rule by the kind of what was dropped. -/
theorem requestMovesNothingElse : Obligations.RequestMovesNothingElse := by
  refine ⟨State.request_requestFrame, fun s => State.requestShift_eq_request, fun s r => ⟨State.request_none, ?_⟩⟩
  rintro d u hd rfl
  rw [State.request_dropped_eq hd]
  have hpru := s.enqueue_pru r
  have hspeak : (s.enqueue r).1.speaking = s.speaking := (s.enqueue_sent r).speaking
  refine ⟨?still, ?ledger, ?shift⟩
  case still => rintro (rfl | ⟨v, rfl⟩ | ⟨n, rfl⟩) <;> rfl
  case ledger =>
    rintro k a rfl
    simp only [State.noticeDropped, Alert.lost_eq_map]
  case shift =>
    rintro rfl lost hlost
    rw [State.loseSending_unique hpru hlost, ← hpru, ← hspeak]
    exact ⟨State.shiftLost_still, State.shiftLost_moves⟩

end Sys2Proof.Machine

/-! The line and the receive path (sections 3.1 and 3.2): characters, the checks of a frame, what is discarded, and the idle
bus. -/

namespace Sys2Proof.Machine

/-! ### Characters (R45, R46) -/

theorem take_take_append {α : Type} (l m : List α) (n : Nat) : (l.take n ++ m).take n = (l ++ m).take n := by
  have hleft : n - min n l.length = n - l.length := by omega
  rw [List.take_append, List.take_append, List.take_take, List.length_take, hleft, min_self]

/-- A frame in assembly: the first 192 bytes are stored. -/
theorem Receiver.hear_eq (r : Receiver) (c : Character) (h : r.stored.length ≤ 192) :
    r.hear c
      = { r with
          stored := (r.stored ++ [c.byte]).take 192, length := r.length + 1, malformed := r.malformed || !c.stop } := by
  by_cases hroom : r.stored.length < 192
  · have htake : (r.stored ++ [c.byte]).take 192 = r.stored ++ [c.byte] :=
      List.take_of_length_le (by rw [List.length_append, List.length_singleton]; exact hroom)
    rw [Receiver.hear, if_pos hroom, htake]
  · have htake : (r.stored ++ [c.byte]).take 192 = r.stored := by
      rw [List.take_append_of_le_length (by omega), List.take_of_length_le h]
    rw [Receiver.hear, if_neg hroom, htake]

theorem Receiver.hearAll_eq (cs : List Character) (r : Receiver) (h : r.stored.length ≤ 192) :
    r.hearAll cs
      = { r with
          stored := (r.stored ++ cs.map Character.byte).take 192
          length := r.length + cs.length
          malformed := r.malformed || cs.any fun c => !c.stop } := by
  induction cs generalizing r with
  | nil => simp [Receiver.hearAll, List.take_of_length_le h]
  | cons c rest ih =>
    have hcons : r.hearAll (c :: rest) = (r.hear c).hearAll rest := rfl
    have hroom : (r.hear c).stored.length ≤ 192 := by
      rw [Receiver.hear_eq r c h]
      exact List.length_take_le _ _
    have hstored : ((r.stored ++ [c.byte]).take 192 ++ rest.map Character.byte).take 192
        = (r.stored ++ (c :: rest).map Character.byte).take 192 := by
      rw [take_take_append, List.map_cons, List.append_assoc, List.singleton_append]
    rw [hcons, ih _ hroom, Receiver.hear_eq r c h]
    simp only [hstored, List.any_cons, List.length_cons, Bool.or_assoc]
    rw [Nat.add_assoc, Nat.add_comm 1]

/-- Settles O29: the characters join the frame in their order, a fresh one and one in assembly alike. -/
theorem busyLineAssemblesCharacters : Obligations.BusyLineAssemblesCharacters := by
  refine ⟨fun heard => ?_, fun s dt heard hheld hstored => ?_⟩
  · rw [Receiver.hearAll_eq heard Receiver.reset (Nat.zero_le _)]
    simp [Receiver.reset]
  · have hexec : exec (.busBusy dt heard) s = .next ((s.elapse dt).lineBusy heard).showLamps :=
      State.event_next hheld dt fun s => s.lineBusy heard
    rw [hexec, State.lineBusy, Receiver.hearAll_eq heard (s.elapse dt).bsc.rx hstored]
    rfl

/-! ### The checks that look at the frame alone (R47, R196) -/

theorem Kind.ofCode_code (k : Kind) : Kind.ofCode k.code = some k := by cases k <;> rfl

theorem Kind.ofCode_iff (b : Byte) (k : Kind) : Kind.ofCode b = some k ↔ b = k.code := by
  refine ⟨fun h => ?_, fun h => h ▸ Kind.ofCode_code k⟩
  unfold Kind.ofCode at h
  split_ifs at h with h1 h2 h3 h4 h5 h6 h7 h8 h9
  all_goals
    obtain rfl := Option.some.inj h
    assumption

section Payloads

variable (p : List Byte)

theorem payloadAllowed_hello_iff :
    payloadAllowed .hello p = true ↔ ∃ k, 1 ≤ k ∧ k ≤ 16 ∧ p.length = 2 + 5 * k := by
  simp only [payloadAllowed, Bool.and_eq_true, decide_eq_true_iff]
  exact ⟨fun h => ⟨(p.length - 2) / 5, by omega⟩, fun ⟨k, h⟩ => by omega⟩

theorem payloadAllowed_tally_iff :
    payloadAllowed .tally p = true
      ↔ (∃ rest n, p = 0x01 :: rest ∧ n ≤ 16 ∧ p.length = 1 + 8 * n)
        ∨ ∃ rest n, p = 0x02 :: rest ∧ 1 ≤ n ∧ n ≤ 16 ∧ p.length = 36 + 8 * n := by
  cases p with
  | nil => simp [payloadAllowed]
  | cons v rest =>
    simp only [payloadAllowed]
    by_cases h1 : v = 0x01
    · subst h1
      simp only [if_true, Bool.and_eq_true, decide_eq_true_iff]
      constructor
      · exact fun h => .inl ⟨rest, ((0x01 :: rest).length - 1) / 8, rfl, by simp at h ⊢; omega⟩
      · rintro (⟨r, n, -, h⟩ | ⟨r, n, habs, -⟩)
        · omega
        · exact absurd (List.cons.inj habs).1 (by decide)
    · by_cases h2 : v = 0x02
      · subst h2
        simp only [if_neg h1, if_true, Bool.and_eq_true, decide_eq_true_iff]
        constructor
        · exact fun h => .inr ⟨rest, ((0x02 :: rest).length - 36) / 8, rfl, by simp at h ⊢; omega⟩
        · rintro (⟨r, n, habs, -⟩ | ⟨r, n, -, h⟩)
          · exact absurd (List.cons.inj habs).1 (by decide)
          · omega
      · simp only [if_neg h1, if_neg h2, Bool.false_eq_true, false_iff]
        rintro (⟨r, n, habs, -⟩ | ⟨r, n, habs, -⟩)
        · exact h1 (List.cons.inj habs).1
        · exact h2 (List.cons.inj habs).1

theorem payloadAllowed_shift_iff :
    payloadAllowed .shift p = true ↔ ∃ r, 1 ≤ r ∧ r ≤ 4 ∧ p.length = 10 * r := by
  simp only [payloadAllowed, Bool.and_eq_true, decide_eq_true_iff]
  exact ⟨fun h => ⟨p.length / 10, by omega⟩, fun ⟨k, h⟩ => by omega⟩

end Payloads

section Checks

variable {r : Receiver}

/-- Check 1 of R47 fails: length or framing. -/
def Receiver.MisFormed (r : Receiver) : Prop :=
  r.length < 7 ∨ 192 < r.length ∨ field r.stored 0 1 < 7 ∨ 192 < field r.stored 0 1
    ∨ field r.stored 0 1 ≠ r.length ∨ r.malformed = true

/-- Check 2 of R47 fails: the CRC. -/
def Receiver.CrcBad (r : Receiver) : Prop :=
  (crc16 (r.stored.take (field r.stored 0 1 - 2))).toNat ≠ field r.stored (field r.stored 0 1 - 2) 2

/-- The payload by the length byte. -/
def Receiver.payload (r : Receiver) : List Byte := (r.stored.drop 5).take (field r.stored 0 1 - 7)

theorem Receiver.check_misFormed (h : r.MisFormed) : r.check = .failed .rxForm := if_pos h

theorem Receiver.check_crcBad (h : ¬ r.MisFormed) (hc : r.CrcBad) : r.check = .failed .rxCrc :=
  (if_neg h).trans (if_pos hc)

theorem Receiver.check_noKind (h : ¬ r.MisFormed) (hc : ¬ r.CrcBad)
    (hk : Kind.ofCode (BitVec.ofNat 8 (field r.stored 1 1)) = none) : r.check = .failed .rxForm := by
  refine ((if_neg h).trans (if_neg hc)).trans ?_
  simp only [hk]

theorem Receiver.check_kind {k : Kind} (h : ¬ r.MisFormed) (hc : ¬ r.CrcBad)
    (hk : Kind.ofCode (BitVec.ofNat 8 (field r.stored 1 1)) = some k) :
    r.check = if 1 ≤ field r.stored 2 1 ∧ field r.stored 2 1 ≤ 30 ∧ payloadAllowed k r.payload then
        .passed { kind := k, src := field r.stored 2 1, dst := field r.stored 3 1
                  seq := BitVec.ofNat 8 (field r.stored 4 1), payload := r.payload }
      else .failed .rxForm := by
  refine ((if_neg h).trans (if_neg hc)).trans ?_
  simp only [hk]
  rfl

end Checks

/-- Settles O31: the codes, the lengths, and the three checks in their order. -/
theorem receiveChecksInOrder : Obligations.ReceiveChecksInOrder := by
  refine ⟨⟨rfl, Kind.ofCode_iff⟩, fun p => ⟨payloadAllowed_hello_iff p, payloadAllowed_tally_iff p,
    payloadAllowed_shift_iff p, decide_eq_true_iff, decide_eq_true_iff, decide_eq_true_iff, decide_eq_true_iff,
    decide_eq_true_iff.trans List.length_eq_zero_iff, decide_eq_true_iff.trans List.length_eq_zero_iff⟩, fun r => ?_⟩
  refine ⟨Receiver.check_misFormed, Receiver.check_crcBad, fun hform hcrc hbad => ?thirdFails,
    fun k hform hcrc hkind h1 h30 hallowed => (Receiver.check_kind hform hcrc hkind).trans (if_pos ⟨h1, h30, hallowed⟩)⟩
  case thirdFails =>
    cases hkind : Kind.ofCode (BitVec.ofNat 8 (field r.stored 1 1)) with
    | none => exact Receiver.check_noKind hform hcrc hkind
    | some k =>
      refine (Receiver.check_kind hform hcrc hkind).trans (if_neg ?_)
      rintro ⟨h1, h30, hallowed⟩
      obtain hnone | h0 | hhigh | ⟨k', hk', hshort⟩ := hbad
      · rw [hkind] at hnone
        cases hnone
      · omega
      · omega
      · obtain rfl : k = k' := Option.some.inj (hkind.symm.trans hk')
        exact Bool.false_ne_true (hshort.symm.trans hallowed)

/-! ### The receive filter (R46 to R49) -/

theorem exec_command (k : Kind) (dt : Time) (heard : List Character) (s : State) :
    exec (k.command dt heard) s = s.event dt fun u => u.hearFrame k heard := by
  cases k <;> rfl

theorem exec_command_next {s : State} (hheld : s.held = none) (k : Kind) (dt : Time) (heard : List Character) :
    exec (k.command dt heard) s = .next ((s.elapse dt).hearFrame k heard).showLamps := by
  rw [exec_command, State.event_next hheld]

section Filter

variable {s : State} {only : Option Kind} {r : Receiver} {f : Frame} {code : FaultCode}

theorem State.filterFrame_deaf (h : s.stc.state = .strap ∨ s.stc.state = .loading) : s.filterFrame only r = s := by
  obtain h | h := h <;> rw [State.filterFrame, h]

theorem State.filterFrame_halted_failed (h : s.stc.state = .halted) (hc : r.check = .failed code) :
    s.filterFrame only r = s := by
  simp only [State.filterFrame, h, hc]

theorem State.filterFrame_halted_passed (h : s.stc.state = .halted) (hc : r.check = .passed f) :
    s.filterFrame only r
      = if (f.dst = 0 ∨ f.dst = s.ownNumber) ∧ f.kind = .restart then s.dispatch only f else s := by
  simp only [State.filterFrame, h, hc]

theorem State.filterFrame_failed (h : s.listening = true) (hc : r.check = .failed code) :
    s.filterFrame only r = s.raise code 0 0 := by
  obtain h | h | h := (State.listening_iff s).mp h <;> simp only [State.filterFrame, h, hc]

theorem State.filterFrame_passed (h : s.listening = true) (hc : r.check = .passed f) :
    s.filterFrame only r
      = if ¬ (f.dst = 0 ∨ f.dst = s.ownNumber) then s
        else if f.src = s.ownNumber then s.enterHalted .dupStation
        else s.dispatch only f := by
  obtain h | h | h := (State.listening_iff s).mp h <;> simp only [State.filterFrame, h, hc]

theorem State.filterFrame_elsewhere (h : s.listening = true) (hc : r.check = .passed f) (h0 : f.dst ≠ 0)
    (hown : f.dst ≠ s.ownNumber) : s.filterFrame only r = s := by
  rw [State.filterFrame_passed h hc, if_pos fun hdst => hdst.elim h0 hown]

theorem State.filterFrame_duplicate (h : s.listening = true) (hc : r.check = .passed f)
    (hdst : f.dst = 0 ∨ f.dst = s.ownNumber) (hsrc : f.src = s.ownNumber) :
    s.filterFrame only r = s.enterHalted .dupStation := by
  rw [State.filterFrame_passed h hc, if_neg (not_not_intro hdst), if_pos hsrc]

theorem State.hearFrame_own (h : s.bsc.rx.own = true) (k : Kind) (heard : List Character) : s.hearFrame k heard = s :=
  if_pos h

theorem State.hearFrame_other (h : s.bsc.rx.own = false) (k : Kind) (heard : List Character) :
    s.hearFrame k heard = s.filterFrame (some k) (Receiver.reset.hearAll heard) :=
  if_neg (by simp [h])

theorem State.hearFrame_kept {k : Kind} {heard : List Character}
    (h : s.bsc.rx.own = false → s.filterFrame (some k) (Receiver.reset.hearAll heard) = s) : s.hearFrame k heard = s := by
  cases hown : s.bsc.rx.own with
  | true => exact State.hearFrame_own hown k heard
  | false => rw [State.hearFrame_other hown, h hown]

/-- A RESTART for all, or for another station, moves nothing (R152). -/
theorem State.dispatch_restart_unaddressed (hk : f.kind = .restart) (h : f.dst = 0 ∨ f.dst ≠ s.ownNumber) :
    s.dispatch only f = s := by
  have hrestart : s.takeRestart f.dst = s := if_neg fun hto => h.elim hto.1 (fun hne => hne hto.2)
  unfold State.dispatch
  split
  · simp only [hk, hrestart]
  · rfl

/-- The filter of a row's own kind hands on every frame that has no other kind. -/
theorem State.filterFrame_only {k : Kind} (h : ∀ f, r.check = .passed f → f.kind = k) :
    s.filterFrame (some k) r = s.filterFrame none r := by
  unfold State.filterFrame
  cases hc : r.check with
  | failed code => rfl
  | passed f =>
    have hdispatch : s.dispatch (some k) f = s.dispatch none f := by
      simp only [State.dispatch, h f hc, or_true, true_or]
    simp only [hdispatch]

end Filter

/-- Settles O32: the own frame stops before the filter, and the filter's branches by station state and check. -/
theorem unacceptedFramesAreDiscarded : Obligations.UnacceptedFramesAreDiscarded := by
  intro s dt heard k hheld
  rw [exec_command_next hheld]
  refine ⟨fun code hl hown hc => ?failed, fun f hl hc h0 hdst => ?elsewhere, fun h => ?untaken, fun h hfew => ?halted⟩
  case failed => rw [State.hearFrame_failed (s := s.elapse dt) k hl hown hc]
  case elsewhere =>
    rw [State.hearFrame_kept (s := s.elapse dt) fun _ => State.filterFrame_elsewhere (s := s.elapse dt) hl hc h0 hdst]
  case untaken =>
    rw [State.hearFrame_kept (s := s.elapse dt) fun hown =>
      State.filterFrame_deaf (s := s.elapse dt) (h.resolve_left fun h => Bool.false_ne_true (hown.symm.trans h))]
  case halted =>
    rw [State.hearFrame_kept (s := s.elapse dt) fun _ => ?_]
    cases hc : (Receiver.reset.hearAll heard).check with
    | failed code => exact State.filterFrame_halted_failed (s := s.elapse dt) h hc
    | passed f =>
      rw [State.filterFrame_halted_passed (s := s.elapse dt) h hc]
      refine ite_eq_right_iff.mpr fun hrestart => ?_
      exact State.dispatch_restart_unaddressed hrestart.2 ((hfew f hc).resolve_left (not_not_intro hrestart.2))

/-- Settles O33: the duplicate check of the filter, and what the entry into HALTED sets. -/
theorem duplicateNumberHalts : Obligations.DuplicateNumberHalts := by
  intro s dt heard k f hheld hl hown hc hdst hsrc
  rw [exec_command_next hheld, State.hearFrame_other (s := s.elapse dt) hown,
    State.filterFrame_duplicate (s := s.elapse dt) hl hc hdst hsrc]
  rfl

/-! ### The idle bus (R45, R46, R50) -/

section Idle

variable {s : State} {heard : List Character}

/-- A deferral reads no lamp. -/
theorem State.beginDeferral_showLamps (s : State) : s.showLamps.beginDeferral = s.beginDeferral.showLamps := by
  unfold State.beginDeferral
  have hspeak : s.showLamps.speaking = s.speaking := rfl
  simp only [State.showLamps_bsc, hspeak]
  split
  · split <;> rfl
  · rfl

/-- The line at the moment of the silence, its frame taken off. -/
def State.hushed (s : State) : State := { s with bsc := { s.bsc with busy := false, rx := Receiver.reset } }

theorem State.lineIdle_quiet (h : s.bsc.busy = false) : s.lineIdle = s := if_neg (by simp [h])

theorem State.lineIdle_nothing (hb : s.bsc.busy = true) (h : s.bsc.rx.length = 0 ∨ s.bsc.rx.own = true) :
    s.lineIdle = s.hushed.beginDeferral := by
  rw [State.lineIdle, if_pos hb]
  by_cases h0 : s.bsc.rx.length = 0
  · exact congrArg State.beginDeferral (if_pos h0)
  · refine congrArg State.beginDeferral ((if_neg h0).trans (if_pos (h.resolve_left h0)))

/-- A frame of another device that the silence ends. -/
theorem State.lineIdle_frame (hb : s.bsc.busy = true) (hne : heard ≠ []) (hrx : s.bsc.rx = Receiver.reset.hearAll heard) :
    s.lineIdle = (s.hushed.filterFrame none s.bsc.rx).beginDeferral := by
  have heq := Receiver.hearAll_eq heard Receiver.reset (Nat.zero_le _)
  have hlength : s.bsc.rx.length ≠ 0 := by
    rw [hrx, heq]
    simpa [Receiver.reset] using hne
  have hown : ¬ s.bsc.rx.own = true := by
    rw [hrx, heq]
    exact Bool.false_ne_true
  rw [State.lineIdle, if_pos hb]
  exact congrArg State.beginDeferral ((if_neg hlength).trans (if_neg hown))

end Idle

/-- Settles O30: the deferral's own conditions, then the frame that the silence ends, which the filter takes as its
command would. -/
theorem idleBusBeginsTheDeferral : Obligations.IdleBusBeginsTheDeferral := by
  refine ⟨fun s => ⟨fun h hs hidle hd hf => State.beginDeferral_starts hs hidle hd hf, State.beginDeferral_idle⟩,
    fun s dt hheld => ?_⟩
  have hexec : exec (.busIdle dt) s = .next (s.elapse dt).lineIdle.showLamps := State.event_next hheld dt State.lineIdle
  rw [hexec]
  refine ⟨fun hidle => ?idle, ?own, ?heard⟩
  case idle => rw [State.lineIdle_quiet (s := s.elapse dt) hidle]
  case own =>
    rintro _ rfl hb h
    rw [State.lineIdle_nothing (s := s.elapse dt) hb h]
    refine ⟨fun hd hf hs e he => ?_, fun hstill => ?_⟩
    · rw [State.beginDeferral_starts (s := (s.elapse dt).hushed) hs rfl hd hf he]
      rfl
    · rw [State.beginDeferral_idle (s := (s.elapse dt).hushed)
        (hstill.elim .inl fun h => .inr (.inr h))]
      rfl
  case heard =>
    rintro _ rfl heard hb hne hrx
    rw [State.lineIdle_frame (s := s.elapse dt) hb hne hrx, State.elapse_bsc]
    refine ⟨fun k t hkind hcommand => ?_, fun code hl hc => ?_, fun f hl hc h0 hdst => ?_⟩
    · have hnext : exec (k.command dt heard) s.hushed = .next t := hcommand
      rw [exec_command_next (s := s.hushed) hheld] at hnext
      obtain rfl := Host.Outcome.next.inj hnext
      have hfilter : (s.elapse dt).hushed.hearFrame k heard = (s.elapse dt).hushed.filterFrame none s.bsc.rx := by
        rw [State.hearFrame_other rfl, ← hrx, State.filterFrame_only hkind]
      have hafter : s.hushed.elapse dt = (s.elapse dt).hushed := rfl
      rw [State.beginDeferral_showLamps, hafter, hfilter]
    · rw [State.filterFrame_failed (s := (s.elapse dt).hushed) hl hc]
      rfl
    · rw [State.filterFrame_elsewhere (s := (s.elapse dt).hushed) hl hc h0 hdst]
      rfl

end Sys2Proof.Machine

/-! The attempt of the head entry (R51, R52, R64 to R66): what it takes off the queue, and the bytes of its frame. -/

namespace Sys2Proof.Machine

/-! ### The start of an attempt (R52) -/

section Attempt

variable {s : State} {h : TxEntry}

theorem State.startAttempt_tally {v : Variant} (hh : headOf s.bsc.waiting = some h) (hv : h.req = .tally v) :
    s.startAttempt = { s with
      bsc := { s.bsc with
        waiting := s.bsc.waiting.erase h, deferral := none
        flight := some { entry := h, frame := (s.buildFrame h.req).bytes, moved := s.changedSet, followOn := none } }
      slots := s.slots.map fun sl => { sl with art := { sl.art with changed := false } } } := by
  simp only [State.startAttempt, hh, hv]
  rfl

theorem State.startAttempt_other (hh : headOf s.bsc.waiting = some h) (hv : ∀ v, h.req ≠ .tally v) :
    s.startAttempt = { s with
      freeCount := if s.levelOpen h.req then s.freeCount + 1 else s.freeCount
      bsc := { s.bsc with
        waiting := s.bsc.waiting.erase h, deferral := none
        flight := some { entry := h, frame := (s.buildFrame h.req).bytes, moved := [], followOn := none } } } := by
  cases hreq : h.req with
  | tally v => exact absurd hreq (hv v)
  | hello | shift | alertFrame _ _ | query _ => simp only [State.startAttempt, hh, hreq]

/-- A CLAIM or ALERT of a record at level NONE, and no other request, leaves its level open (R198). -/
theorem State.levelOpen_iff (s : State) (r : Request) :
    s.levelOpen r = true ↔ ∃ k a sl, r = .alertFrame k a ∧ k ≠ .clear ∧ s.slot? a = some sl ∧ sl.alert.level = .none := by
  cases r with
  | alertFrame k a =>
    cases k with
    | clear => simp [State.levelOpen]
    | claim | alert => cases h : s.slot? a <;> simp [State.levelOpen, h]
  | hello | tally _ | shift | query _ => simp [State.levelOpen]

theorem exec_deferralEnd {d : Deferral} {dt : Time} (hheld : s.held = none) (hd : s.bsc.deferral = some d)
    (hdue : d.due ≤ s.now + dt) (hidle : s.bsc.busy = false) (hs : s.speaking = true) (hf : s.bsc.flight = none) :
    exec (.deferralEnd dt) s = .next (s.elapse dt).startAttempt.showLamps := by
  have hnext : exec (.deferralEnd dt) s = .next (s.elapse dt).endDeferral.showLamps :=
    State.event_next hheld dt State.endDeferral
  have hidle' : ¬ (s.elapse dt).bsc.busy = true := fun h => Bool.false_ne_true (hidle.symm.trans h)
  rw [hnext, State.endDeferral, State.elapse_bsc, hd]
  simp only
  rw [if_pos ⟨hdue, hidle', hs, hf⟩]

end Attempt

/-! ### Numbers in bytes -/

theorem toBe_one (n : Nat) : toBe 1 n = [BitVec.ofNat 8 n] := by simp [toBe]

theorem toBe_two (n : Nat) : toBe 2 n = [BitVec.ofNat 8 (n / 256), BitVec.ofNat 8 n] := by simp [toBe]

theorem toBe_three (n : Nat) :
    toBe 3 n = [BitVec.ofNat 8 (n / 65536), BitVec.ofNat 8 (n / 256), BitVec.ofNat 8 n] := by simp [toBe]

/-! ### The frame of a request (R64, R84, R190, R198) -/

section Frames

variable (s : State)

theorem State.sentLevel_of_ne {l : Level} (h : l ≠ .none) : s.sentLevel l = l := by
  cases l with
  | none => exact absurd rfl h
  | low | empty => rfl

theorem State.sentLevel_ne_none (l : Level) : s.sentLevel l ≠ .none := by
  cases l with
  | none => rw [State.sentLevel]; split <;> simp
  | low | empty => simp [State.sentLevel]

theorem State.buildFrame_alert_payload {a : Nat} {sl : Slot} (e : s.slot? a = some sl) (k : AlertKind) :
    (s.buildFrame (.alertFrame k a)).payload = { sl.alert with level := s.sentLevel sl.alert.level }.payload a k := by
  simp only [State.buildFrame, e]

/-- A CLEAR carries no level. -/
theorem Alert.payload_clear (r : Alert) (l : Level) (a : Nat) :
    { r with level := l }.payload a .clear = r.payload a .clear := rfl

theorem State.tallyPayload_full :
    s.tallyPayload .full = 0x02 :: (s.slots.map Slot.entry).flatMap TallyEntry.bytes ++ s.healthSection := by
  simp [State.tallyPayload, List.flatMap_map]

theorem State.tallyPayload_delta :
    s.tallyPayload .delta
      = 0x01 :: ((s.slots.filter fun sl => sl.art.changed).map Slot.entry).flatMap TallyEntry.bytes := by
  simp [State.tallyPayload, List.flatMap_map]

theorem captureBytes_some (c : Capture) (now : Time) :
    captureBytes (some c) now
      = [c.code.code, BitVec.ofNat 8 c.subject, BitVec.ofNat 8 (c.article / 65536),
          BitVec.ofNat 8 (c.article / 256), BitVec.ofNat 8 c.article, BitVec.ofNat 8 (c.age now / 256),
          BitVec.ofNat 8 (c.age now), BitVec.ofNat 8 c.further] := by
  rw [captureBytes, toBe_three, toBe_two]
  rfl

/-- The two records of the health section are those of `captureBytes`. -/
theorem captureBytes_unique {now : Time} {record : Option Capture → List Byte} (hempty : record none = List.replicate 8 0)
    (hfull : ∀ (c : Capture) (age : Nat), age = min 65535 ((now - c.time) / 100000) →
      record (some c) = [c.code.code, BitVec.ofNat 8 c.subject, BitVec.ofNat 8 (c.article / 65536),
        BitVec.ofNat 8 (c.article / 256), BitVec.ofNat 8 c.article, BitVec.ofNat 8 (age / 256),
        BitVec.ofNat 8 age, BitVec.ofNat 8 c.further]) (o : Option Capture) : record o = captureBytes o now := by
  cases o with
  | none => exact hempty
  | some c => rw [hfull c (c.age now) rfl, captureBytes_some]

theorem State.helloPayload_eq :
    s.helloPayload = [s.stc.resetCause.code, s.stc.lastHalt.code] ++ s.slots.flatMap fun sl =>
      [BitVec.ofNat 8 (sl.art.number / 65536), BitVec.ofNat 8 (sl.art.number / 256), BitVec.ofNat 8 sl.art.number,
        BitVec.ofNat 8 (sl.art.digest.toNat / 256), BitVec.ofNat 8 sl.art.digest.toNat] := by
  simp only [State.helloPayload, toBe_three, toBe_two, List.cons_append, List.nil_append]

end Frames

/-- Settles O34: the attempt by the kind of its request, then the frame's header and payload by kind, then the codes. -/
theorem deferralEndSendsTheHeadAsItStands : Obligations.DeferralEndSendsTheHeadAsItStands := by
  refine ⟨fun _ => rfl, fun s dt d h hheld hd hdue hidle hs hf hh => ?attempt, fun s => ?frame,
    fun s => ⟨s.helloPayload_eq, fun record hempty hfull => ?health⟩, rfl, rfl, rfl, rfl, rfl⟩
  case attempt =>
    rw [exec_deferralEnd hheld hd hdue hidle hs hf]
    refine ⟨fun choices hv hchoices => ?_, fun v hv => ?_⟩
    · have hcount : choices = if (s.elapse dt).levelOpen h.req then s.freeCount + 1 else s.freeCount := by
        obtain ⟨hopen, rfl⟩ | ⟨hfixed, rfl⟩ := hchoices
        · exact (if_pos (((s.elapse dt).levelOpen_iff h.req).mpr hopen)).symm
        · refine (if_neg fun hopen => ?_).symm
          obtain ⟨k, a, sl, hreq, hk, hsl, hnone⟩ := ((s.elapse dt).levelOpen_iff h.req).mp hopen
          exact hfixed k a sl hreq hk hsl hnone
      rw [hcount, State.startAttempt_other (s := s.elapse dt) hh hv]
      rfl
    · rw [State.startAttempt_tally (s := s.elapse dt) hh hv]
      rfl
  case frame =>
    refine ⟨⟨rfl, fun _ => rfl, rfl, fun _ => ⟨rfl, rfl, rfl⟩, fun _ => ⟨rfl, rfl⟩⟩, fun r => ?src, fun r => ?dst,
      fun r => ?seq, rfl, s.tallyPayload_delta, s.tallyPayload_full, fun a sl k hsl hlevel => ?level,
      fun a sl k hsl hlevel hk => ⟨_, s.sentLevel_ne_none _, s.buildFrame_alert_payload hsl k⟩⟩
    case src => cases r <;> rfl
    case dst => cases r <;> rfl
    case seq => cases r <;> rfl
    case level =>
      rw [s.buildFrame_alert_payload hsl]
      obtain hne | rfl := hlevel
      · rw [s.sentLevel_of_ne hne]
      · exact Alert.payload_clear _ _ _
  case health =>
    rw [captureBytes_unique hempty hfull, captureBytes_unique hempty hfull]
    rfl

end Sys2Proof.Machine

/-! The end of an attempt (R53 to R56, R62): the collision, the abandoned frame, and the completed one. -/

namespace Sys2Proof.Machine

/-! ### Changing an alert record twice -/

theorem State.modAlert_modAlert (s : State) (a : Nat) (f g : Alert → Alert) :
    (s.modAlert a f).modAlert a g = s.modAlert a (g ∘ f) :=
  s.modSlot_modSlot a _ _ fun _ => rfl

theorem State.modAlert_id (s : State) (a : Nat) : (s.modAlert a fun r => r) = s := by
  simp [State.modAlert, State.modSlot]

/-! ### A collision (R53, R55, R59) -/

section Collision

variable {s : State} {f : Flight}

/-- The entry of a failed attempt as it is queued again, a follow-on merged into it. -/
def Flight.again (f : Flight) : TxEntry :=
  match f.followOn with
  | some x => ({ f.entry with failed := f.entry.failed + 1 } : TxEntry).merge x.req
  | none => { f.entry with failed := f.entry.failed + 1 }

theorem State.collide_requeues (hf : s.bsc.flight = some f) (h : f.entry.failed < 7) :
    s.collide = ({ (s.raise .txCollision 0 0).returnMarks f.moved with
      bsc := { s.bsc with flight := none, waiting := s.bsc.waiting ++ [f.again] } } : State).beginDeferral := by
  have hlt : f.entry.failed + 1 < 8 := by omega
  simp only [State.collide, hf]
  exact if_pos hlt

theorem State.collide_abandons (hf : s.bsc.flight = some f) (h : f.entry.failed = 7) :
    s.collide = ((s.raise .txCollision 0 0).returnMarks f.moved).abandon f := by
  have hlt : ¬ f.entry.failed + 1 < 8 := by omega
  simp only [State.collide, hf]
  exact if_neg hlt

/-- Below the third in a row, an abandoned frame adds one to the run (R56). -/
theorem State.countAbandon_below (h : s.bsc.abandonRun < 2) :
    s.countAbandon = { s with bsc := { s.bsc with abandonRun := s.bsc.abandonRun + 1 } } := by
  have hrun : min 3 (s.bsc.abandonRun + 1) = s.bsc.abandonRun + 1 := by omega
  have hne : ¬ s.bsc.abandonRun + 1 = 3 := by omega
  simp only [State.countAbandon, hrun, hne, if_false]

theorem State.noticeAbandoned_run (s : State) (r : Request) (held : Bool) :
    (s.noticeAbandoned r held).bsc.abandonRun = s.bsc.abandonRun :=
  congrArg (fun l => l.2.2.1) (s.noticeAbandoned_steady r held).line

/-- What leaves the flight of an abandoned frame. -/
def State.abandoned (s : State) (f : Flight) : State :=
  (s.raise .txAbandon f.entry.req.subject f.entry.req.article).leaveFlight f

theorem State.abandon_eq (s : State) (f : Flight) :
    s.abandon f = (((s.abandoned f).noticeAbandoned f.entry.req f.followOn.isSome).countAbandon).beginDeferral := rfl

theorem State.abandon_below (h : s.bsc.abandonRun < 2) :
    s.abandon f
      = ({ (s.abandoned f).noticeAbandoned f.entry.req f.followOn.isSome with
          bsc := { ((s.abandoned f).noticeAbandoned f.entry.req f.followOn.isSome).bsc with
            abandonRun := s.bsc.abandonRun + 1 } } : State).beginDeferral := by
  have hrun : ((s.abandoned f).noticeAbandoned f.entry.req f.followOn.isSome).bsc.abandonRun = s.bsc.abandonRun :=
    State.noticeAbandoned_run ..
  rw [State.abandon_eq, State.countAbandon_below (hrun ▸ h), hrun]

theorem State.helloAbandoned_again (hj : s.stc.state = .joining) (hd : s.stc.helloDone = false) :
    s.helloAbandoned = s.request .hello := if_pos ⟨hj, by simp [hd]⟩

theorem State.helloAbandoned_still (h : s.stc.state ≠ .joining ∨ s.stc.helloDone = true) : s.helloAbandoned = s :=
  if_neg fun hboth => h.elim (fun hne => hne hboth.1) hboth.2

end Collision

theorem Request.subject_eq (r : Request) : r.subject = (match r with | .query n => n | _ => 0) := by cases r <;> rfl

theorem Request.article_eq (r : Request) : r.article = (match r with | .alertFrame _ a => a | _ => 0) := by
  cases r <;> rfl

/-- A follow-on that enters the queue (R59). -/
theorem Flight.followOn_entries (f : Flight) :
    (match f.followOn with
      | some e => [{ e with failed := 0 }]
      | none => []) = (f.followOn.map fun e : TxEntry => { e with failed := 0 }).toList := by
  cases f.followOn <;> rfl

theorem State.leaveFlight_eq (s : State) (f : Flight) :
    s.leaveFlight f = { s with bsc := { s.bsc with
      flight := none
      waiting := s.bsc.waiting ++ (f.followOn.map fun e => { e with failed := 0 }).toList } } := by
  rw [State.leaveFlight, ← Flight.followOn_entries] <;> rfl

/-- Settles O35: the failed attempt below the eighth, and the notice of the eighth by the kind of its request. -/
theorem collisionRequeuesOrAbandons : Obligations.CollisionRequeuesOrAbandons := by
  intro s dt f hheld hf
  have hexec : exec (.txCollision dt) s = .next (s.elapse dt).collide.showLamps :=
    State.event_next hheld dt State.collide
  rw [hexec]
  refine ⟨fun hfew => ?requeued, fun u finish hu hfinish hlast hrun => ?abandoned⟩
  case requeued =>
    rw [State.collide_requeues (s := s.elapse dt) hf hfew, Flight.again]
    cases f.followOn <;> rfl
  case abandoned =>
    have hleft : u = (((s.elapse dt).raise .txCollision 0 0).returnMarks f.moved).abandoned f := by
      rw [hu, State.abandoned, State.leaveFlight_eq, Request.subject_eq, Request.article_eq]
      rfl
    have hpru : u.pru = s.pru := by rw [hu]; rfl
    have hstc : u.stc = s.stc := by rw [hu]; rfl
    have hspeak : u.speaking = s.speaking := by rw [State.speaking, hstc]; rfl
    have hend : (s.elapse dt).collide.showLamps = finish (u.noticeAbandoned f.entry.req f.followOn.isSome) := by
      rw [State.collide_abandons (s := s.elapse dt) hf hlast, State.abandon_below
        (s := ((s.elapse dt).raise .txCollision 0 0).returnMarks f.moved) hrun, ← hleft, hfinish]
      rfl
    rw [hend]
    refine ⟨?quiet, fun hr hj hd => ?again, fun hr h => ?still, fun hr lost hlost => ?shift, fun k a hr hfollow => ?held,
      fun k a hr hfollow => ?ledger⟩
    case quiet => rintro (⟨n, hr⟩ | ⟨v, hr⟩) <;> rw [hr] <;> rfl
    case again =>
      rw [hr]
      exact congrArg (Host.Outcome.next ∘ finish) (State.helloAbandoned_again (by rw [hstc, hj]) (by rw [hstc, hd]))
    case still =>
      rw [hr]
      exact congrArg (Host.Outcome.next ∘ finish) (State.helloAbandoned_still (by rw [hstc]; exact h))
    case shift =>
      rw [hr, State.loseSending_unique hpru hlost, ← hpru, ← hspeak]
      exact ⟨fun h => congrArg (Host.Outcome.next ∘ finish) (State.shiftLost_still h),
        fun h hs => congrArg (Host.Outcome.next ∘ finish) (State.shiftLost_moves h hs)⟩
    case held =>
      rw [hr, Option.isSome_iff_ne_none.mpr hfollow]
      rfl
    case ledger =>
      rw [hr, hfollow]
      simp only [State.noticeAbandoned, State.alertAbandoned, Alert.lost_eq_map, Option.isSome_none, Bool.false_eq_true,
        if_false]

/-! ### A completed attempt (R54, R62) -/

section Completed

variable {s : State} {f : Flight} {dt : Time}

/-- The bus controller after an attempt that completes; a TALLY's also advances the sequence counter. -/
def State.sentBus (s : State) (f : Flight) : BusController :=
  { s.bsc with
    flight := none, abandonRun := 0, busy := true, rx := { s.bsc.rx with own := true }
    waiting := s.bsc.waiting ++ (f.followOn.map fun e => { e with failed := 0 }).toList }

theorem State.completeAttempt_tally {v : Variant} (hf : s.bsc.flight = some f) (hv : f.entry.req = .tally v) :
    s.completeAttempt
      = ({ s with
          bsc := { s.sentBus f with seq := s.bsc.seq + 1 }
          hlu := if v = .full then { s.hlu with degrade := none, severe := none } else s.hlu } :
          State).tallyCompleted := by
  have hreq : f.completion.req = .tally v := hv
  simp only [State.completeAttempt, hf, hv, State.noticeCompleted, hreq, State.leaveFlight_eq]
  cases v <;> rfl

theorem State.completeAttempt_other (hf : s.bsc.flight = some f) (hv : ∀ v, f.entry.req ≠ .tally v) :
    s.completeAttempt = ({ s with bsc := s.sentBus f } : State).noticeCompleted f.completion := by
  cases hreq : f.entry.req with
  | tally v => exact absurd hreq (hv v)
  | hello | shift | alertFrame _ _ | query _ =>
    simp only [State.completeAttempt, hf, hreq, State.leaveFlight_eq]
    rfl

theorem State.changedSet_isEmpty (s : State) : s.changedSet.isEmpty = !s.slots.any fun sl => sl.art.changed := by
  rw [Bool.eq_iff_iff]
  simp [State.changedSet, List.isEmpty_iff]

theorem State.helloCompleted_joins (hj : s.stc.state = .joining) (hd : s.stc.helloDone = false) :
    s.helloCompleted
      = { s with stc := { s.stc with helloDone := true, joinTimer := some (s.now + 2000000) } } :=
  if_pos ⟨hj, by simp [hd]⟩

theorem State.helloCompleted_still (h : s.stc.state ≠ .joining ∨ s.stc.helloDone = true) : s.helloCompleted = s :=
  if_neg fun hboth => h.elim (fun hne => hne hboth.1) hboth.2

theorem State.shiftCompleted_empty (h : s.pru.ready = false) :
    s.shiftCompleted = { s with pru := { s.pru with sending := [] } } := if_neg (by simp [h])

theorem State.shiftCompleted_moves (h : s.pru.ready = true) :
    s.shiftCompleted
      = ({ s with pru := { s.pru with sending := s.pru.filling, filling := [], ready := false } } :
          State).requestShift := if_pos h

/-! #### An alert frame's notice (R91, R99, R101, R125) -/

section AlertNotice

variable {k : AlertKind} {a : Nat} {sl : Slot}

theorem Alert.awaits_iff (r : Alert) (k : AlertKind) :
    r.awaits k = true ↔ ∃ q, r.outstanding = some { kind := k, standing := q } := by
  unfold Alert.awaits
  cases r.outstanding with
  | none => simp
  | some o => obtain ⟨k', q⟩ := o; simp

theorem State.alertCompleted_held (s : State) (k : AlertKind) (a : Nat) : s.alertCompleted k a true = s := by
  unfold State.alertCompleted
  split <;> rfl

/-- The ledger after a completed frame of kind `k`: cleared where that kind was outstanding. -/
def Alert.settledBy (k : AlertKind) (was r : Alert) : Alert := if was.awaits k then { r with outstanding := none } else r

theorem State.alertCompleted_eq (e : s.slot? a = some sl) (k : AlertKind) :
    s.alertCompleted k a false
      = match k, sl.alert.state with
        | .claim, .claiming =>
          (s.modAlert a (Alert.settledBy k sl.alert)).modAlert a fun r =>
            { r with claimSent := true, claimHold := some (s.now + 300000) }
        | .clear, .claiming =>
          if sl.alert.awaits k && sl.alert.closing then (s.modAlert a (Alert.settledBy k sl.alert)).enterQuiet a
          else s.modAlert a (Alert.settledBy k sl.alert)
        | .clear, .owner =>
          if sl.alert.awaits k then (s.modAlert a (Alert.settledBy k sl.alert)).enterQuiet a
          else s.modAlert a (Alert.settledBy k sl.alert)
        | _, _ => s.modAlert a (Alert.settledBy k sl.alert) := by
  have hledger : (if sl.alert.awaits k = true then s.modAlert a fun r => { r with outstanding := none } else s)
      = s.modAlert a (Alert.settledBy k sl.alert) := by
    unfold Alert.settledBy
    split
    · rfl
    · rw [State.modAlert_id]
  simp only [State.alertCompleted, e, hledger, Bool.false_eq_true, if_false]
  rfl

theorem Alert.settledBy_unique {was : Alert} {ledger : Alert → Alert}
    (h : (∃ q, was.outstanding = some { kind := k, standing := q }) ∧ (∀ r, ledger r = { r with outstanding := none })
      ∨ (∀ q, was.outstanding ≠ some { kind := k, standing := q }) ∧ ∀ r, ledger r = r) :
    ledger = Alert.settledBy k was := by
  funext r
  unfold Alert.settledBy
  obtain ⟨hout, hled⟩ | ⟨hout, hled⟩ := h
  · rw [hled, if_pos ((was.awaits_iff k).mpr hout)]
  · rw [hled, if_neg fun hyes => ?_]
    obtain ⟨q, hq⟩ := (was.awaits_iff k).mp hyes
    exact hout q hq

end AlertNotice

end Completed

theorem exec_attemptComplete {s : State} {dt : Time} (hheld : s.held = none) :
    exec (.attemptComplete dt) s = .next (s.elapse dt).completeAttempt.showLamps :=
  State.event_next hheld dt State.completeAttempt

/-- Settles O37: the counters of the bus controller, the capture records of a FULL, and the delta timer. -/
theorem completedTallyAdvancesTheSequence : Obligations.CompletedTallyAdvancesTheSequence := by
  intro s dt f v hheld hf hv
  have hmarks (sent : State) (hs : sent.slots = s.slots) :
      (if sent.changedSet.isEmpty then none else some (s.now + dt + 250000))
        = if s.slots.any (fun sl => sl.art.changed) then some (s.now + dt + 250000) else none := by
    rw [State.changedSet_isEmpty, hs]
    cases s.slots.any fun sl => sl.art.changed <;> rfl
  rw [exec_attemptComplete hheld, State.completeAttempt_tally (s := s.elapse dt) hf hv, State.tallyCompleted]
  refine congrArg (fun u => Host.Outcome.next (State.showLamps u)) ?_
  simp only
  rw [← hmarks { s.elapse dt with
    bsc := { (s.elapse dt).sentBus f with seq := (s.elapse dt).bsc.seq + 1 }
    hlu := if v = .full then { s.hlu with degrade := none, severe := none } else s.hlu } rfl]
  rfl

/-- Settles O38: the bus controller after a completed frame, then the requester's rule for its notice. -/
theorem completedFrameTellsItsRequester : Obligations.CompletedFrameTellsItsRequester := by
  rintro s dt f hheld hf b hb
  have hb' : b = (s.elapse dt).sentBus f := hb
  have hnext (hv : ∀ v, f.entry.req ≠ .tally v) : exec (.attemptComplete dt) s
      = .next (({ s.elapse dt with bsc := b } : State).noticeCompleted f.completion).showLamps := by
    rw [exec_attemptComplete hheld, State.completeAttempt_other (s := s.elapse dt) hf hv, hb']
  refine ⟨fun n hr => ?query, fun hr hj hd => ?hello, fun hr h => ?helloElse, fun hr h => ?shift, fun hr h => ?shiftMoves,
    fun k a hr hfollow => ?held, fun k a sl hr hfollow hsl ledger hledger => ?alert⟩
  all_goals
    rw [hnext (by simp [hr])]
    have hreq : f.completion.req = f.entry.req := rfl
    simp only [State.noticeCompleted, hreq, hr]
  case hello => rw [State.helloCompleted_joins (s := { s.elapse dt with bsc := b }) hj hd]; rfl
  case helloElse => rw [State.helloCompleted_still (s := { s.elapse dt with bsc := b }) h]
  case shift =>
    exact congrArg (fun u => Host.Outcome.next (State.showLamps u))
      (State.shiftCompleted_empty (s := { s.elapse dt with bsc := b }) h)
  case shiftMoves =>
    exact congrArg (fun u => Host.Outcome.next (State.showLamps u))
      (State.shiftCompleted_moves (s := { s.elapse dt with bsc := b }) h)
  case held =>
    have hheldOn : f.completion.followOnHeld = true := Option.isSome_iff_ne_none.mpr hfollow
    rw [hheldOn, State.alertCompleted_held]
  case alert =>
    have hnone : f.completion.followOnHeld = false := by rw [Flight.completion, hfollow]; rfl
    have e : ({ s.elapse dt with bsc := b } : State).slot? a = some sl := hsl
    obtain rfl := Alert.settledBy_unique hledger
    rw [hnone, State.alertCompleted_eq e]
    refine ⟨?_, ?_, ?_⟩
    · rintro rfl hstate
      rw [hstate]
      exact congrArg (fun u => Host.Outcome.next (State.showLamps u)) (State.modAlert_modAlert ..)
    · rintro rfl hout hstate
      have haw := (sl.alert.awaits_iff .clear).mpr hout
      obtain hstate | ⟨hstate, hclosing⟩ := hstate
      · simp only [hstate, haw, if_true]
      · simp only [hstate, haw, hclosing, Bool.and_self, if_true]
    · rintro (rfl | ⟨rfl, hstate⟩ | ⟨rfl, hstate⟩)
      · cases sl.alert.state <;> rfl
      · cases hst : sl.alert.state with
        | claiming => exact absurd hst hstate
        | quiet | owner | follower => rfl
      · obtain hst | hst | ⟨hst, hopen⟩ | hout := hstate
        · rw [hst]
        · rw [hst]
        · simp only [hst, hopen, Bool.and_false, Bool.false_eq_true, if_false]
        · have haw : sl.alert.awaits .clear = false := by
            rw [← Bool.not_eq_true, Alert.awaits_iff]
            rintro ⟨q, hq⟩
            exact hout q hq
          cases sl.alert.state <;> simp only [haw, Bool.false_and, Bool.false_eq_true, if_false]

end Sys2Proof.Machine

/-! The byte layouts (chapter 11): numbers in bytes, frames that read back as they were built, and the entries of a TALLY. -/

namespace Sys2Proof.Machine

/-! ### Fields (R196, R200) -/

theorem be_append_singleton (l : List Byte) (b : Byte) : be (l ++ [b]) = be l * 256 + b.toNat := by
  simp [be]

theorem field_zero (l : List Byte) (offset : Nat) : field l offset 0 = 0 := by simp [field, be]

/-- A field is read most significant byte first. -/
theorem field_succ {l : List Byte} {offset width : Nat} {b : Byte} (h : l[offset + width]? = some b) :
    field l offset (width + 1) = field l offset width * 256 + b.toNat := by
  have hbyte : (l.drop offset)[width]? = some b := by rw [List.getElem?_drop, h]
  rw [field, List.take_add_one, hbyte]
  exact be_append_singleton _ b

theorem field_one {l : List Byte} {offset : Nat} {b : Byte} (h : l[offset]? = some b) : field l offset 1 = b.toNat := by
  rw [field_succ (width := 0) h, field_zero, Nat.zero_mul, Nat.zero_add]

theorem field_two {l : List Byte} {offset : Nat} {b0 b1 : Byte} (h0 : l[offset]? = some b0)
    (h1 : l[offset + 1]? = some b1) : field l offset 2 = b0.toNat * 256 + b1.toNat := by
  rw [field_succ h1, field_one h0]

theorem field_three {l : List Byte} {offset : Nat} {b0 b1 b2 : Byte} (h0 : l[offset]? = some b0)
    (h1 : l[offset + 1]? = some b1) (h2 : l[offset + 2]? = some b2) :
    field l offset 3 = b0.toNat * 65536 + b1.toNat * 256 + b2.toNat := by
  rw [field_succ h2, field_two h0 h1]
  omega

theorem field_four {l : List Byte} {offset : Nat} {b0 b1 b2 b3 : Byte} (h0 : l[offset]? = some b0)
    (h1 : l[offset + 1]? = some b1) (h2 : l[offset + 2]? = some b2) (h3 : l[offset + 3]? = some b3) :
    field l offset 4 = b0.toNat * 16777216 + b1.toNat * 65536 + b2.toNat * 256 + b3.toNat := by
  rw [field_succ h3, field_three h0 h1 h2]
  omega

theorem toBe_four (n : Nat) :
    toBe 4 n = [BitVec.ofNat 8 (n / 16777216), BitVec.ofNat 8 (n / 65536), BitVec.ofNat 8 (n / 256),
      BitVec.ofNat 8 n] := by simp [toBe]

/-! ### A frame reads back (R46, R47, R196, R199) -/

section ReadBack

theorem payloadAllowed_length {k : Kind} {p : List Byte} (h : payloadAllowed k p = true) : p.length ≤ 164 := by
  cases k with
  | hello => obtain ⟨k, -, hk, hp⟩ := (payloadAllowed_hello_iff p).mp h; omega
  | tally => obtain ⟨_, n, -, hn, hp⟩ | ⟨_, n, -, -, hn, hp⟩ := (payloadAllowed_tally_iff p).mp h <;> omega
  | shift => obtain ⟨r, -, hr, hp⟩ := (payloadAllowed_shift_iff p).mp h; omega
  | claim | alert | clear | accept | query | restart => exact (of_decide_eq_true h).le.trans (by decide)

theorem Frame.body_length (f : Frame) : f.body.length = f.payload.length + 5 := by simp [Frame.body]

theorem Frame.bytes_eq (f : Frame) :
    f.bytes = f.body ++ [BitVec.ofNat 8 ((crc16 f.body).toNat / 256), BitVec.ofNat 8 (crc16 f.body).toNat] := by
  rw [Frame.bytes, toBe_two]

theorem Frame.bytes_length (f : Frame) : f.bytes.length = f.payload.length + 7 := by
  simp [Frame.bytes_eq, Frame.body_length]

/-- The received frame of a frame's own characters. -/
theorem Frame.heard (f : Frame) (h : f.payload.length ≤ 164) :
    Receiver.reset.hearAll f.characters
      = { stored := f.bytes, length := f.payload.length + 7, malformed := false, own := false } := by
  have hbytes : f.characters.map Character.byte = f.bytes := by
    simp [Frame.characters, goodCharacter, Function.comp_def]
  have hgood : (f.characters.any fun c => !c.stop) = false := by simp [Frame.characters, goodCharacter]
  have hstored : (Receiver.reset.stored ++ f.bytes).take 192 = f.bytes :=
    List.take_of_length_le (by simp [Receiver.reset, f.bytes_length]; omega)
  rw [Receiver.hearAll_eq _ _ (Nat.zero_le _), hbytes, hgood, hstored]
  simp [Receiver.reset, Frame.characters, f.bytes_length]

/-- The five header bytes. -/
theorem Frame.bytes_header (f : Frame) :
    f.bytes[0]? = some (BitVec.ofNat 8 (f.payload.length + 7)) ∧ f.bytes[1]? = some f.kind.code
      ∧ f.bytes[2]? = some (BitVec.ofNat 8 f.src) ∧ f.bytes[3]? = some (BitVec.ofNat 8 f.dst)
      ∧ f.bytes[4]? = some f.seq := ⟨rfl, rfl, rfl, rfl, rfl⟩

theorem Frame.bytes_body (f : Frame) : f.bytes.take (f.payload.length + 5) = f.body := by
  rw [Frame.bytes_eq, List.take_append_of_le_length f.body_length.ge, ← f.body_length, List.take_length]

theorem Frame.bytes_crc (f : Frame) : field f.bytes (f.payload.length + 5) 2 = (crc16 f.body).toNat := by
  have hlt := (crc16 f.body).isLt
  have h0 : f.bytes[f.payload.length + 5]? = some (BitVec.ofNat 8 ((crc16 f.body).toNat / 256)) := by
    rw [Frame.bytes_eq, List.getElem?_append_right f.body_length.le, f.body_length, Nat.sub_self]
    rfl
  have h1 : f.bytes[f.payload.length + 5 + 1]? = some (BitVec.ofNat 8 (crc16 f.body).toNat) := by
    have hone : (f.payload.length + 5).succ - (f.payload.length + 5) = 1 := by omega
    rw [Frame.bytes_eq, List.getElem?_append_right (f.body_length.le.trans (Nat.le_succ _)), f.body_length, hone]
    rfl
  rw [field_two h0 h1, BitVec.toNat_ofNat, BitVec.toNat_ofNat]
  omega

theorem Frame.bytes_payload (f : Frame) : (f.bytes.drop 5).take f.payload.length = f.payload := by
  have hdrop : f.bytes.drop 5 = f.payload ++ toBe 2 (crc16 f.body).toNat := rfl
  rw [hdrop, List.take_append_of_le_length le_rfl, List.take_length]

theorem Frame.check_characters (f : Frame) (h1 : 1 ≤ f.src) (h30 : f.src ≤ 30) (hdst : f.dst ≤ 255)
    (hp : payloadAllowed f.kind f.payload = true) : (Receiver.reset.hearAll f.characters).check = .passed f := by
  have hlen := payloadAllowed_length hp
  rw [Frame.heard f hlen]
  generalize hr : ({ stored := f.bytes, length := f.payload.length + 7, malformed := false, own := false } : Receiver) = r
  have hstored : r.stored = f.bytes := by rw [← hr]
  obtain ⟨b0, b1, b2, b3, b4⟩ := f.bytes_header
  have hfield0 : field r.stored 0 1 = f.payload.length + 7 := by
    rw [hstored, field_one b0, BitVec.toNat_ofNat]
    omega
  have hform : ¬ r.MisFormed := by
    unfold Receiver.MisFormed
    rw [hfield0, ← hr]
    simp
    omega
  have hcrc : ¬ r.CrcBad := by
    unfold Receiver.CrcBad
    rw [hfield0, hstored]
    exact not_not_intro ((congrArg (BitVec.toNat ∘ crc16) f.bytes_body).trans f.bytes_crc.symm)
  have hpayload : r.payload = f.payload := by
    rw [Receiver.payload, hfield0, hstored]
    exact f.bytes_payload
  have hkind : Kind.ofCode (BitVec.ofNat 8 (field r.stored 1 1)) = some f.kind := by
    rw [hstored, field_one b1, BitVec.ofNat_toNat, BitVec.setWidth_eq, Kind.ofCode_code]
  have hsrc : field r.stored 2 1 = f.src := by
    rw [hstored, field_one b2, BitVec.toNat_ofNat]
    omega
  have hdst' : field r.stored 3 1 = f.dst := by
    rw [hstored, field_one b3, BitVec.toNat_ofNat]
    omega
  have hseq : BitVec.ofNat 8 (field r.stored 4 1) = f.seq := by
    rw [hstored, field_one b4, BitVec.ofNat_toNat, BitVec.setWidth_eq]
  rw [Receiver.check_kind hform hcrc hkind, hsrc, hdst', hseq, hpayload]
  exact if_pos ⟨h1, h30, hp⟩

end ReadBack

/-! ### The payloads of R198 -/

section Payloads198

variable (a0 a1 a2 e0 e1 : Byte) (rest : List Byte)

theorem alertArticle_eq :
    alertArticle (a0 :: a1 :: a2 :: e0 :: e1 :: rest) = a0.toNat * 65536 + a1.toNat * 256 + a2.toNat :=
  field_three rfl rfl rfl

theorem alertEpoch_eq :
    alertEpoch (a0 :: a1 :: a2 :: e0 :: e1 :: rest) = BitVec.ofNat 16 (e0.toNat * 256 + e1.toNat) :=
  congrArg (BitVec.ofNat 16) (field_two rfl rfl)

theorem ofNat_field_one {l : List Byte} {offset : Nat} {b : Byte} (h : l[offset]? = some b) :
    (BitVec.ofNat 8 (field l offset 1) : Byte) = b := by
  rw [field_one h, BitVec.ofNat_toNat, BitVec.setWidth_eq]

theorem Level.ofCode_eq {b : Byte} {l : Level}
    (h : b = 0x01 ∧ l = .low ∨ b = 0x02 ∧ l = .empty ∨ b ≠ 0x01 ∧ b ≠ 0x02 ∧ l = .none) : Level.ofCode b = l := by
  obtain ⟨rfl, rfl⟩ | ⟨rfl, rfl⟩ | ⟨h1, h2, rfl⟩ := h
  · rfl
  · rfl
  · rw [Level.ofCode, if_neg h1, if_neg h2]

theorem readClaim_eq (level : Byte) :
    readClaim [a0, a1, a2, e0, e1, level]
      = { article := a0.toNat * 65536 + a1.toNat * 256 + a2.toNat, epoch := BitVec.ofNat 16 (e0.toNat * 256 + e1.toNat)
          level := Level.ofCode level, accepted := false, terminal := none, escalated := false } := by
  have hlevel : BitVec.ofNat 8 (field [a0, a1, a2, e0, e1, level] 5 1) = level := ofNat_field_one rfl
  rw [readClaim, alertArticle_eq, alertEpoch_eq, hlevel]

theorem readAlert_eq (level status terminal : Byte) :
    readAlert [a0, a1, a2, e0, e1, level, status, terminal]
      = { article := a0.toNat * 65536 + a1.toNat * 256 + a2.toNat, epoch := BitVec.ofNat 16 (e0.toNat * 256 + e1.toNat)
          level := Level.ofCode level, accepted := status.getLsbD 0
          terminal := if status.getLsbD 0 = true ∧ 1 ≤ terminal.toNat ∧ terminal.toNat ≤ 30 then some terminal.toNat
            else none
          escalated := status.getLsbD 1 } := by
  have hlevel : BitVec.ofNat 8 (field [a0, a1, a2, e0, e1, level, status, terminal] 5 1) = level := ofNat_field_one rfl
  have hstatus : BitVec.ofNat 8 (field [a0, a1, a2, e0, e1, level, status, terminal] 6 1) = status :=
    ofNat_field_one rfl
  have hterminal : field [a0, a1, a2, e0, e1, level, status, terminal] 7 1 = terminal.toNat := field_one rfl
  simp only [readAlert, alertArticle_eq, alertEpoch_eq, hlevel, hstatus, hterminal]

theorem Alert.payload_opening (r : Alert) (a : Nat) :
    toBe 3 a ++ toBe 2 r.epoch.toNat = [BitVec.ofNat 8 (a / 65536), BitVec.ofNat 8 (a / 256), BitVec.ofNat 8 a,
      BitVec.ofNat 8 (r.epoch.toNat / 256), BitVec.ofNat 8 r.epoch.toNat] := by
  rw [toBe_three, toBe_two]
  rfl

theorem Level.code_unique {l : Level} {b : Byte}
    (h : l = .none ∧ b = 0x00 ∨ l = .low ∧ b = 0x01 ∨ l = .empty ∧ b = 0x02) : l.code = b := by
  obtain ⟨rfl, rfl⟩ | ⟨rfl, rfl⟩ | ⟨rfl, rfl⟩ := h <;> rfl

theorem Take.bytes_eq (t : Take) :
    t.bytes = [BitVec.ofNat 8 t.bay, BitVec.ofNat 8 (t.article / 65536), BitVec.ofNat 8 (t.article / 256),
      BitVec.ofNat 8 t.article, BitVec.ofNat 8 (t.unitWeight / 16777216), BitVec.ofNat 8 (t.unitWeight / 65536),
      BitVec.ofNat 8 (t.unitWeight / 256), BitVec.ofNat 8 t.unitWeight, BitVec.ofNat 8 (t.units / 256),
      BitVec.ofNat 8 t.units] := by
  rw [Take.bytes, toBe_three, toBe_four, toBe_two]
  rfl

theorem shiftRecords_cons (bay w0 w1 w2 w3 u0 u1 : Byte) :
    shiftRecords (bay :: a0 :: a1 :: a2 :: w0 :: w1 :: w2 :: w3 :: u0 :: u1 :: rest)
      = { article := a0.toNat * 65536 + a1.toNat * 256 + a2.toNat
          unitWeight := w0.toNat * 16777216 + w1.toNat * 65536 + w2.toNat * 256 + w3.toNat
          units := u0.toNat * 256 + u1.toNat } :: shiftRecords rest := by
  have hcount : (bay :: a0 :: a1 :: a2 :: w0 :: w1 :: w2 :: w3 :: u0 :: u1 :: rest).length / 10
      = rest.length / 10 + 1 := by simp only [List.length_cons]; omega
  rw [shiftRecords, hcount]
  refine congrArg₂ List.cons ?_ rfl
  simp only [Goods.mk.injEq]
  exact ⟨field_three rfl rfl rfl, field_four rfl rfl rfl rfl, field_two rfl rfl⟩

theorem helloPairs_cons (c0 c1 d0 d1 : Byte) :
    helloPairs (c0 :: c1 :: a0 :: a1 :: a2 :: d0 :: d1 :: rest)
      = (a0.toNat * 65536 + a1.toNat * 256 + a2.toNat, BitVec.ofNat 16 (d0.toNat * 256 + d1.toNat))
          :: helloPairs (c0 :: c1 :: rest) := by
  have hcount : ((c0 :: c1 :: a0 :: a1 :: a2 :: d0 :: d1 :: rest).length - 2) / 5
      = ((c0 :: c1 :: rest).length - 2) / 5 + 1 := by simp only [List.length_cons]; omega
  rw [helloPairs, hcount]
  refine congrArg₂ List.cons ?_ rfl
  exact Prod.ext (field_three rfl rfl rfl) (congrArg (BitVec.ofNat 16) (field_two rfl rfl))

end Payloads198

/-- Settles O39: a frame through the checks in their order, then the layout of each payload. -/
theorem framesReadBackAsBuilt : Obligations.FramesReadBackAsBuilt := by
  refine ⟨Frame.check_characters, fun f => ⟨rfl, ?bytes⟩, fun l offset width => ⟨field_zero l offset, fun b => field_succ⟩,
    ?read, ?built, Take.bytes_eq, ⟨rfl, fun bay a0 a1 a2 w0 w1 w2 w3 u0 u1 rest => shiftRecords_cons ..⟩,
    fun c0 c1 => ⟨by simp [helloPairs, chunks], fun a0 a1 a2 d0 d1 rest => helloPairs_cons ..⟩⟩
  case bytes =>
    rintro _ rfl
    exact f.bytes_eq
  case read =>
    rintro a0 a1 a2 e0 e1 level status terminal rest _ _ l rfl rfl hl
    rw [alertArticle_eq, alertEpoch_eq, readClaim_eq, readAlert_eq, Level.ofCode_eq hl]
    exact ⟨rfl, rfl, rfl, rfl⟩
  case built =>
    rintro r a _ rfl
    rw [← r.payload_opening a]
    refine ⟨rfl, fun level hlevel => ?_⟩
    rw [← Level.code_unique hlevel]
    exact ⟨rfl, by simp [Alert.payload, bit]⟩

/-! ### The entries of a TALLY (R197) and the CRC (R199) -/

section Entries

theorem TallyEntry.bytes_eq (e : TallyEntry) :
    e.bytes = [BitVec.ofNat 8 (e.article / 65536), BitVec.ofNat 8 (e.article / 256), BitVec.ofNat 8 e.article,
      BitVec.ofNat 8 (e.units / 256), BitVec.ofNat 8 e.units, e.flagsByte,
      BitVec.ofNat 8 ((e.epoch.map BitVec.toNat).getD 0 / 256),
      BitVec.ofNat 8 ((e.epoch.map BitVec.toNat).getD 0)] := by
  rw [TallyEntry.bytes, toBe_three, toBe_two, toBe_two]
  rfl

theorem TallyEntry.flagsByte_eq (e : TallyEntry) :
    e.flagsByte = BitVec.ofNat 8 ((if e.flags.fault then 1 else 0) + (if e.flags.unsteady then 2 else 0)
      + (if e.flags.stray then 4 else 0) + (if e.flags.owning then 8 else 0)
      + (if e.flags.disputed then 16 else 0) + if e.epoch = none then 32 else 0) := by
  simp [TallyEntry.flagsByte, bit]

/-- An entry that stands first in a TALLY. -/
theorem tallyEntries_cons {v : Byte} {rest : List Byte} (hv : v = 0x01 ∨ v = 0x02 ∧ 35 ≤ rest.length)
    (a0 a1 a2 u0 u1 flags e0 e1 : Byte) :
    tallyEntries (v :: a0 :: a1 :: a2 :: u0 :: u1 :: flags :: e0 :: e1 :: rest)
      = { article := a0.toNat * 65536 + a1.toNat * 256 + a2.toNat, units := u0.toNat * 256 + u1.toNat
          flags := { fault := flags.getLsbD 0, unsteady := flags.getLsbD 1, stray := flags.getLsbD 2
                     owning := flags.getLsbD 3, disputed := flags.getLsbD 4 }
          epoch := if flags.getLsbD 5 then none else some (BitVec.ofNat 16 (e0.toNat * 256 + e1.toNat)) }
        :: tallyEntries (v :: rest) := by
  have hvariant : tallyVariant (v :: a0 :: a1 :: a2 :: u0 :: u1 :: flags :: e0 :: e1 :: rest)
      = tallyVariant (v :: rest) := rfl
  have hcount : tallyCount (v :: a0 :: a1 :: a2 :: u0 :: u1 :: flags :: e0 :: e1 :: rest)
      = tallyCount (v :: rest) + 1 := by
    unfold tallyCount
    rw [hvariant]
    obtain rfl | ⟨rfl, hlong⟩ := hv
    · have hdelta : tallyVariant (0x01 :: rest) = .delta := rfl
      simp only [hdelta, List.length_cons]
      omega
    · have hfull : tallyVariant (0x02 :: rest) = .full := rfl
      simp only [hfull, List.length_cons]
      omega
  rw [tallyEntries, hcount]
  refine congrArg₂ List.cons ?_ rfl
  have hflags : BitVec.ofNat 8 (field [a0, a1, a2, u0, u1, flags, e0, e1] 5 1) = flags := ofNat_field_one rfl
  have harticle : field [a0, a1, a2, u0, u1, flags, e0, e1] 0 3 = a0.toNat * 65536 + a1.toNat * 256 + a2.toNat :=
    field_three rfl rfl rfl
  have hunits : field [a0, a1, a2, u0, u1, flags, e0, e1] 3 2 = u0.toNat * 256 + u1.toNat := field_two rfl rfl
  have hepoch : field [a0, a1, a2, u0, u1, flags, e0, e1] 6 2 = e0.toNat * 256 + e1.toNat := field_two rfl rfl
  change TallyEntry.read [a0, a1, a2, u0, u1, flags, e0, e1] = _
  simp only [TallyEntry.read, hflags, harticle, hunits, hepoch]

/-- The flags byte carries each flag as its bit, and UNKNOWN as bit 5. -/
theorem TallyEntry.flagsByte_bits (e : TallyEntry) :
    e.flagsByte.getLsbD 0 = e.flags.fault ∧ e.flagsByte.getLsbD 1 = e.flags.unsteady
      ∧ e.flagsByte.getLsbD 2 = e.flags.stray ∧ e.flagsByte.getLsbD 3 = e.flags.owning
      ∧ e.flagsByte.getLsbD 4 = e.flags.disputed ∧ e.flagsByte.getLsbD 5 = e.epoch.isNone := by
  have hbits (b0 b1 b2 b3 b4 b5 : Bool) (w : Byte)
      (hw : w = BitVec.ofNat 8 (bit 0 b0 + bit 1 b1 + bit 2 b2 + bit 3 b3 + bit 4 b4 + bit 5 b5)) :
      w.getLsbD 0 = b0 ∧ w.getLsbD 1 = b1 ∧ w.getLsbD 2 = b2 ∧ w.getLsbD 3 = b3 ∧ w.getLsbD 4 = b4
        ∧ w.getLsbD 5 = b5 := by
    subst hw
    revert b0 b1 b2 b3 b4 b5
    decide
  exact hbits _ _ _ _ _ _ _ rfl

/-- An entry built in front of others reads back. -/
theorem tallyEntries_bytes_cons {v : Byte} {rest : List Byte} (hv : v = 0x01 ∨ v = 0x02 ∧ 35 ≤ rest.length)
    {e : TallyEntry} (harticle : e.article < 2 ^ 24) (hunits : e.units < 2 ^ 16) :
    tallyEntries (v :: (e.bytes ++ rest)) = e :: tallyEntries (v :: rest) := by
  obtain ⟨article, units, flags, epoch⟩ := e
  simp only at harticle hunits
  obtain ⟨hfault, hunsteady, hstray, howning, hdisputed, hunknown⟩ :=
    TallyEntry.flagsByte_bits { article, units, flags, epoch }
  rw [TallyEntry.bytes_eq]
  refine (tallyEntries_cons hv ..).trans (congrArg (· :: _) ?_)
  simp only [hfault, hunsteady, hstray, howning, hdisputed, hunknown, TallyEntry.mk.injEq, BitVec.toNat_ofNat, true_and]
  refine ⟨by omega, by omega, ?_⟩
  cases epoch with
  | none => rfl
  | some x =>
    have hx := x.isLt
    simp only [Option.isNone_some, Bool.false_eq_true, if_false, Option.map_some, Option.getD_some, Option.some.injEq]
    refine BitVec.eq_of_toNat_eq ?_
    rw [BitVec.toNat_ofNat]
    omega

/-- Entries in front of the bytes that end a frame. -/
theorem tallyEntries_flatMap {v : Byte} {tail : List Byte} (hv : v = 0x01 ∨ v = 0x02 ∧ 35 ≤ tail.length)
    (hnone : tallyEntries (v :: tail) = []) {l : List TallyEntry} (hl : ∀ e ∈ l, e.article < 2 ^ 24 ∧ e.units < 2 ^ 16) :
    tallyEntries (v :: (l.flatMap TallyEntry.bytes ++ tail)) = l := by
  induction l with
  | nil => exact hnone
  | cons e rest ih =>
    obtain ⟨⟨ha, hu⟩, hrest⟩ := List.forall_mem_cons.mp hl
    have hv' : v = 0x01 ∨ v = 0x02 ∧ 35 ≤ (rest.flatMap TallyEntry.bytes ++ tail).length :=
      hv.imp_right fun h => ⟨h.1, by rw [List.length_append]; omega⟩
    rw [List.flatMap_cons, List.append_assoc, tallyEntries_bytes_cons hv' ha hu, ih hrest]

/-- A FULL without entries. -/
theorem tallyEntries_tail {h : List Byte} (hlen : h.length = 35) : tallyEntries (0x02 :: h) = [] := by
  have hcount : tallyCount (0x02 :: h) = 0 := by
    have hfull : tallyVariant (0x02 :: h) = .full := rfl
    unfold tallyCount
    rw [hfull]
    simp [hlen]
  rw [tallyEntries, hcount]
  rfl

theorem crc16_append_singleton (l : List Byte) (b : Byte) : crc16 (l ++ [b]) = crcByte (crc16 l) b := by
  simp [crc16]

end Entries

/-- Settles O40: an entry's bytes and what is read of them, entry after entry, and the CRC byte after byte. -/
theorem tallyEntriesReadBackAsBuilt : Obligations.TallyEntriesReadBackAsBuilt := by
  refine ⟨?bytes, fun rest => ⟨rfl, rfl⟩, fun v a0 a1 a2 u0 u1 flags e0 e1 rest hv => tallyEntries_cons hv ..,
    fun shift hshift l b => ?crc, fun l hl => ⟨?delta, fun h hlen => ?full⟩, by decide +kernel, rfl⟩
  case bytes =>
    rintro e _ rfl
    rw [e.bytes_eq, e.flagsByte_eq]
  case crc =>
    obtain rfl : shift = crcShift := funext hshift
    exact crc16_append_singleton l b
  case delta =>
    have hread := tallyEntries_flatMap (v := 0x01) (tail := []) (.inl rfl) rfl hl
    rwa [List.append_nil] at hread
  case full => exact tallyEntries_flatMap (.inr ⟨rfl, hlen.ge⟩) (tallyEntries_tail hlen) hl

end Sys2Proof.Machine

/-! The alert unit (chapters 5 and 6): claims, the entry into QUIET, article notices, and the timers of a record. -/

namespace Sys2Proof.Machine

/-! ### Levels and the conditions of a claim (R92, R93, R97) -/

theorem Level.short_iff (l : Level) : l.short = true ↔ l ≠ .none := by cases l <;> simp [Level.short]

theorem Level.short_eq_false_iff (l : Level) : l.short = false ↔ l = .none := by cases l <;> simp [Level.short]

/-- The target level from NONE is a target from itself. -/
theorem targetLevel_targetLevel_none (n reorder margin : Nat) :
    targetLevel n reorder margin (targetLevel n reorder margin .none) = targetLevel n reorder margin .none := by
  unfold targetLevel
  split
  · rfl
  · split
    · rfl
    · split <;> rfl

/-- A target of NONE from any level is one from NONE. -/
theorem targetLevel_none_of_none {n reorder margin : Nat} {l : Level} (h : targetLevel n reorder margin l = .none) :
    targetLevel n reorder margin .none = .none := by
  unfold targetLevel at h ⊢
  split at h
  · cases h
  · split at h
    · cases h
    · next h0 h1 => simp [h0, h1]

section Claims

variable {s : State} {a : Nat} {sl : Slot}

theorem State.claimable_iff (s : State) (sl : Slot) :
    s.claimable sl = true ↔ s.stc.state = .running ∧ sl.art.disputed = false ∧ sl.target ≠ .none := by
  simp [State.claimable, Level.short_iff, and_assoc]

theorem State.claimTestSeeing_eq (e : s.slot? a = some sl) (n : Nat) :
    s.claimTestSeeing a n
      = if sl.alert.state = .quiet ∧ s.claimable (sl.seeing n) = true then s.claimAt a (sl.seeing n).target else s := by
  rw [State.claimTestSeeing, e]

theorem State.claimTest_claims (e : s.slot? a = some sl) (hq : sl.alert.state = .quiet) (hr : s.stc.state = .running)
    (hd : sl.art.disputed = false) (ht : sl.target ≠ .none) : s.claimTest a = s.claimAt a sl.target := by
  rw [State.claimTest_eq e, if_pos ⟨hq, (s.claimable_iff sl).mpr ⟨hr, hd, ht⟩⟩]

/-- A claim in its steps (R90, R91, R97). -/
theorem State.claimAt_eq (e : s.slot? a = some sl) (l : Level) :
    s.claimAt a l
      = (((s.modAlert a fun r => r.claimed s.ownNumber l).tellOwning a true).modAlert a fun r =>
          { r with outstanding := some { kind := .claim, standing := .requested } }).request (.alertFrame .claim a) := by
  rw [State.claimAt, e]
  rfl

/-! ### The entry into QUIET (R90, R93, R97) -/

/-- The record at rest in QUIET, and the tally unit told when it leaves CLAIMING or OWNER. -/
def State.quietTo (s : State) (a : Nat) (from' : AlertState) (l : Level) : State :=
  if from'.owning then (s.modAlert a fun r => r.quieted l).tellOwning a false else s.modAlert a fun r => r.quieted l

theorem State.quietTo_of_owning {x : AlertState} (h : x = .claiming ∨ x = .owner) (l : Level) :
    s.quietTo a x l = (s.modAlert a fun r => r.quieted l).tellOwning a false := by
  obtain rfl | rfl := h <;> rfl

theorem State.quietTo_of_idle {x : AlertState} (h : x = .quiet ∨ x = .follower) (l : Level) :
    s.quietTo a x l = s.modAlert a fun r => r.quieted l := by
  obtain rfl | rfl := h <;> rfl

theorem State.quietTo_steady (s : State) (a : Nat) (x : AlertState) (l : Level) : s.Steady (s.quietTo a x l) := by
  unfold State.quietTo
  split
  · exact (s.modAlert_steady a _).trans (State.tellOwning_steady _ a false)
  · exact s.modAlert_steady a _

/-- The level at which a record of this article enters QUIET, by an aggregate. -/
def Slot.restLevel (sl : Slot) (n : Nat) : Level := targetLevel n sl.art.reorder sl.art.margin .none

theorem State.enterQuietSeeing_eq (e : s.slot? a = some sl) (n : Nat) :
    s.enterQuietSeeing a n = (s.quietTo a sl.alert.state (sl.restLevel n)).claimTestSeeing a n := by
  rw [State.enterQuietSeeing, e]
  rfl

theorem State.enterQuiet_eq (e : s.slot? a = some sl) : s.enterQuiet a = s.enterQuietSeeing a sl.art.aggregate := by
  rw [State.enterQuiet, State.aggregate_of e]

theorem State.quietTo_slot (e : s.slot? a = some sl) (l : Level) :
    ∃ sl', (s.quietTo a sl.alert.state l).slot? a = some sl' ∧ sl'.art.kept = sl.art.kept
      ∧ (∃ o, sl'.alert = { sl.alert.quieted l with outstanding := o }
        ∧ (sl.alert.outstanding = none → o = none))
      ∧ (sl.alert.state.owning = true → sl'.art.own.flags.owning = false)
      ∧ (sl.alert.state.owning = false → sl'.alert = sl.alert.quieted l) := by
  have emod := State.slot?_modAlert e fun r => r.quieted l
  cases hown : sl.alert.state.owning with
  | false =>
    have hrest : s.quietTo a sl.alert.state l = s.modAlert a fun r => r.quieted l := if_neg (by simp [hown])
    rw [hrest]
    exact ⟨_, emod, rfl, ⟨_, rfl, id⟩, nofun, fun _ => rfl⟩
  | true =>
    obtain ⟨sl', e', howning, hkept, -, o, halert, hnone⟩ := State.tellOwning_slot emod false
    have htold : s.quietTo a sl.alert.state l = (s.modAlert a fun r => r.quieted l).tellOwning a false := if_pos hown
    rw [htold]
    exact ⟨sl', e', hkept, ⟨o, halert, hnone⟩, fun _ => howning, nofun⟩

/-- Whether a record at rest claims, by the article's own parts. -/
theorem State.quietTo_claimTestSeeing (e : s.slot? a = some sl) (n : Nat) :
    (s.stc.state ≠ .running ∨ sl.art.disputed = true ∨ sl.restLevel n = .none →
        s.enterQuietSeeing a n = s.quietTo a sl.alert.state (sl.restLevel n))
      ∧ (s.stc.state = .running → sl.art.disputed = false → sl.restLevel n ≠ .none →
        s.enterQuietSeeing a n = (s.quietTo a sl.alert.state (sl.restLevel n)).claimAt a (sl.restLevel n)) := by
  obtain ⟨sl', e', hkept, ⟨o, halert, -⟩, -⟩ := State.quietTo_slot e (sl.restLevel n)
  have hstc : (s.quietTo a sl.alert.state (sl.restLevel n)).stc = s.stc := (s.quietTo_steady a _ _).stc
  have hdisputed : sl'.art.disputed = sl.art.disputed := congrArg Kept.disputed hkept
  have hreorder : sl'.art.reorder = sl.art.reorder := congrArg (fun k => k.config.reorder) hkept
  have hmargin : sl'.art.margin = sl.art.margin := congrArg (fun k => k.config.margin) hkept
  have htarget : (sl'.seeing n).target = sl.restLevel n := by
    have hlevel : sl'.alert.level = sl.restLevel n := by rw [halert]; rfl
    calc (sl'.seeing n).target = targetLevel n sl'.art.reorder sl'.art.margin sl'.alert.level := rfl
      _ = sl.restLevel n := by rw [hreorder, hmargin, hlevel]; exact targetLevel_targetLevel_none ..
  have hquiet : sl'.alert.state = .quiet := by rw [halert]; rfl
  have hclaimable : (s.quietTo a sl.alert.state (sl.restLevel n)).claimable (sl'.seeing n) = true
      ↔ s.stc.state = .running ∧ sl.art.disputed = false ∧ sl.restLevel n ≠ .none := by
    rw [State.claimable_iff, htarget, hstc, ← hdisputed]
    rfl
  rw [State.enterQuietSeeing_eq e, State.claimTestSeeing_eq e', htarget]
  constructor
  · intro h
    refine if_neg fun ⟨_, hc⟩ => ?_
    obtain ⟨hr, hd, hl⟩ := hclaimable.mp hc
    obtain h | h | h := h
    · exact h hr
    · rw [h] at hd; cases hd
    · exact hl h
  · exact fun hr hd hl => if_pos ⟨hquiet, hclaimable.mpr ⟨hr, hd, hl⟩⟩

/-- The record after an entry into QUIET that claims nothing. -/
theorem State.enterQuietSeeing_rests (e : s.slot? a = some sl) {n : Nat}
    (h : s.stc.state ≠ .running ∨ sl.art.disputed = true ∨ sl.restLevel n = .none) :
    ∃ sl', (s.enterQuietSeeing a n).slot? a = some sl'
      ∧ (∃ o, sl'.alert = { sl.alert.quieted (sl.restLevel n) with outstanding := o }
        ∧ (sl.alert.outstanding = none → o = none))
      ∧ (sl.alert.state.owning = true → sl'.art.own.flags.owning = false)
      ∧ (sl.alert.state.owning = false → sl'.alert = sl.alert.quieted (sl.restLevel n)) := by
  obtain ⟨sl', e', -, halert, hflag, hidle⟩ := State.quietTo_slot e (sl.restLevel n)
  rw [(State.quietTo_claimTestSeeing e n).1 h]
  exact ⟨sl', e', halert, hflag, hidle⟩

/-- The record after an entry into QUIET that claims at once. -/
theorem State.enterQuietSeeing_claims (e : s.slot? a = some sl) {n : Nat} (hr : s.stc.state = .running)
    (hd : sl.art.disputed = false) (hl : sl.restLevel n ≠ .none) :
    ∃ sl' q, (s.enterQuietSeeing a n).slot? a = some sl'
      ∧ sl'.alert = { (sl.alert.quieted (sl.restLevel n)).claimed s.ownNumber (sl.restLevel n) with
          outstanding := some { kind := .claim, standing := q } }
      ∧ sl'.art.own.flags.owning = true := by
  obtain ⟨sl', e', -, ⟨o, halert, -⟩, -⟩ := State.quietTo_slot e (sl.restLevel n)
  obtain ⟨sl'', q, e'', howning, -, hclaimed⟩ := State.claimAt_slot e' (sl.restLevel n)
  rw [(State.quietTo_claimTestSeeing e n).2 hr hd hl]
  refine ⟨sl'', q, e'', ?_, howning⟩
  rw [hclaimed, halert, (s.quietTo_steady a _ _).ownNumber]
  rfl

/-! ### Article notices (R93, R98, R101, R109, R118, R123, R124) -/

variable {moved : List (Nat × Freshness)}

theorem State.articleNotice_quiet (e : s.slot? a = some sl) (h : sl.alert.state = .quiet) :
    s.articleNotice a moved = (s.modAlert a fun r => { r with level := sl.target }).claimTest a := by
  simp only [State.articleNotice, e, h]

theorem State.articleNotice_claiming (e : s.slot? a = some sl) (h : sl.alert.state = .claiming) :
    s.articleNotice a moved
      = if sl.alert.closing = true then
          if sl.target.short = true then s.becomeOwner a sl.target else s.modAlert a fun r => { r with level := sl.target }
        else if sl.alert.claimSent || sl.target.short then s.modAlert a fun r => { r with level := sl.target }
        else (s.withdrawAlert a).enterQuiet a := by
  simp only [State.articleNotice, e, h]

theorem State.articleNotice_owner (e : s.slot? a = some sl) (h : sl.alert.state = .owner) :
    s.articleNotice a moved
      = if sl.alert.closing = true then if sl.target.short = true then s.reverseClear a sl.target else s
        else if sl.target.short = true then
          if sl.target = sl.alert.level then s
          else (s.modAlert a fun r => { r with level := sl.target }).requestAlert .alert a
        else if sl.art.coverage = .complete then s.beginClear a else s := by
  simp only [State.articleNotice, e, h]

section Follower

variable {o : Nat}

theorem State.articleNotice_follower_stale (e : s.slot? a = some sl) (h : sl.alert.state = .follower)
    (ho : sl.alert.owner = some o) (hn : noticed moved o = some .stale) :
    s.articleNotice a moved = s.takeoverIfStale a := by
  simp only [State.articleNotice, e, h, ho, Option.bind_some, hn]

theorem State.articleNotice_follower_fresh (e : s.slot? a = some sl) (h : sl.alert.state = .follower)
    (ho : sl.alert.owner = some o) (hn : noticed moved o = some .fresh) :
    s.articleNotice a moved = s.modAlert a fun r => { r with takeover := none } := by
  simp only [State.articleNotice, e, h, ho, Option.bind_some, hn]

theorem State.articleNotice_follower_other (e : s.slot? a = some sl) (h : sl.alert.state = .follower)
    (ho : sl.alert.owner = some o) (hs : noticed moved o ≠ some .stale) (hf : noticed moved o ≠ some .fresh) :
    s.articleNotice a moved = s := by
  simp only [State.articleNotice, e, h, ho, Option.bind_some]
  split
  · next hn => exact absurd hn hs
  · next hn => exact absurd hn hf
  all_goals rfl

/-- The takeover delay of a record starts where its owner's contribution is STALE (R109). -/
theorem State.takeoverIfStale_starts (e : s.slot? a = some sl) (ho : sl.alert.owner = some o)
    (hs : sl.art.staleHolder o = true) :
    s.takeoverIfStale a = s.modAlert a fun r =>
      { r with takeover := some (s.now + ms (sl.art.rank s.ownNumber * 500)) } := by
  simp only [State.takeoverIfStale, e, ho, hs, if_true]

theorem State.takeoverIfStale_idle (e : s.slot? a = some sl) (ho : sl.alert.owner = some o)
    (hs : sl.art.staleHolder o = false) : s.takeoverIfStale a = s := by
  simp only [State.takeoverIfStale, e, ho, hs, Bool.false_eq_true, if_false]

end Follower

/-! ### The ledger (R61, R91) -/

theorem State.withdrawAlert_some {o : Outstanding} (e : s.slot? a = some sl) (ho : sl.alert.outstanding = some o) :
    s.withdrawAlert a = (s.withdraw (.alertFrame o.kind a)).modAlert a fun r => { r with outstanding := none } := by
  simp only [State.withdrawAlert, e, ho]

theorem State.withdrawAlert_none (e : s.slot? a = some sl) (ho : sl.alert.outstanding = none) :
    s.withdrawAlert a = s := by
  simp only [State.withdrawAlert, e, ho]

/-- A change of the record before the request is one change with it. -/
theorem State.modAlert_requestAlert (s : State) (a : Nat) (f : Alert → Alert) (k : AlertKind) :
    (s.modAlert a f).requestAlert k a
      = (s.modAlert a fun r => { f r with outstanding := some { kind := k, standing := .requested } }).request
          (.alertFrame k a) := by
  rw [State.requestAlert, State.modAlert_modAlert]
  rfl

end Claims

/-- Settles O50: the claim test, then the entry into QUIET by either of its ends, then a notice by the record's state. -/
theorem quietRecordClaimsWhenShort : Obligations.QuietRecordClaimsWhenShort := by
  intro s a sl e
  refine ⟨fun claim hclaim => ⟨?test, ?enter⟩, ?claimed, ?unclaimed, State.enterQuiet_eq e, ?quieted, ?notices⟩
  case test =>
    intro hq hr hd ht
    rw [State.claimTest_claims e hq hr hd ht, State.claimAt_eq e, hclaim]
    rfl
  case enter =>
    rintro n _ u rfl hu
    obtain ⟨sl', e', -⟩ := State.quietTo_slot e (sl.restLevel n)
    have hquiet : s.quietTo a sl.alert.state (sl.restLevel n) = u := by
      obtain ⟨hown, rfl⟩ | ⟨hidle, rfl⟩ := hu _ rfl
      · exact State.quietTo_of_owning hown _
      · exact State.quietTo_of_idle hidle _
    obtain ⟨hrest, hclaims⟩ := State.quietTo_claimTestSeeing e n
    refine ⟨fun h => (hrest h).trans hquiet, fun hr hd hl => ?_⟩
    rw [hclaims hr hd hl, State.claimAt_eq e', (s.quietTo_steady a _ _).ownNumber, hquiet, hclaim]
    rfl
  case claimed =>
    intro hq hr hd ht
    obtain ⟨sl', q, e', howning, -, hclaimed⟩ := State.claimAt_slot e sl.target
    rw [State.claimTest_claims e hq hr hd ht]
    exact ⟨sl', q, e', hclaimed, howning⟩
  case unclaimed =>
    intro h
    rw [State.claimTest_eq e]
    refine if_neg fun ⟨hq, hc⟩ => ?_
    obtain ⟨hr, hd, ht⟩ := (s.claimable_iff sl).mp hc
    obtain h | h | h | h := h
    · exact h hq
    · exact h hr
    · rw [h] at hd; cases hd
    · exact ht h
  case quieted =>
    rintro n _ rfl
    refine ⟨fun h => ?_, fun hr hd hl => ?_⟩
    · obtain ⟨sl', e', ⟨o, halert, hnone⟩, hflag, -⟩ := State.enterQuietSeeing_rests e h
      refine ⟨sl', e', by rw [halert]; rfl, fun h => by rw [halert]; exact hnone h, fun h => hflag ?_⟩
      obtain h | h := h <;> rw [h] <;> rfl
    · obtain ⟨sl', q, e', halert, howning⟩ := State.enterQuietSeeing_claims e hr hd hl
      exact ⟨sl', q, e', halert, howning⟩
  case notices =>
    rintro moved _ rfl
    refine ⟨State.articleNotice_quiet e, ?becomesOwner, ?levelFollows, ?unsent, ?reverses, ?changes, ?clears, ?stays, ?follower⟩
    case becomesOwner =>
      intro h hclosing ht
      rw [State.articleNotice_claiming e h, if_pos hclosing, if_pos ((Level.short_iff _).mpr ht), State.becomeOwner,
        State.modAlert_requestAlert]
      rfl
    case levelFollows =>
      rintro h (⟨hclosing, ht⟩ | ⟨hclosing, hsent⟩)
      · rw [State.articleNotice_claiming e h, if_pos hclosing, ht]
        rfl
      · rw [State.articleNotice_claiming e h, if_neg (by simp [hclosing]), if_pos]
        rw [Bool.or_eq_true, Level.short_iff]
        exact hsent
    case unsent =>
      intro h hclosing hsent ht
      have hnotice : s.articleNotice a moved = (s.withdrawAlert a).enterQuiet a := by
        rw [State.articleNotice_claiming e h, if_neg (by simp [hclosing]), hsent, ht]
        rfl
      rw [hnotice]
      exact ⟨fun o ho => by rw [State.withdrawAlert_some e ho], fun ho => by rw [State.withdrawAlert_none e ho]⟩
    case reverses =>
      intro h hclosing ht
      rw [State.articleNotice_owner e h, if_pos hclosing, if_pos ((Level.short_iff _).mpr ht), State.reverseClear,
        State.modAlert_requestAlert]
    case changes =>
      intro h hclosing ht hne
      rw [State.articleNotice_owner e h, if_neg (by simp [hclosing]), if_pos ((Level.short_iff _).mpr ht), if_neg hne,
        State.modAlert_requestAlert]
    case clears =>
      intro h hclosing ht hcover
      rw [State.articleNotice_owner e h, if_neg (by simp [hclosing]), if_neg (by simp [ht, Level.short]), if_pos hcover,
        State.beginClear, State.modAlert_requestAlert]
    case stays =>
      rintro h (⟨hclosing, ht⟩ | ⟨hclosing, ⟨ht, hcover⟩ | ⟨ht, hsame⟩⟩)
      · rw [State.articleNotice_owner e h, if_pos hclosing, if_neg (by simp [ht, Level.short])]
      · rw [State.articleNotice_owner e h, if_neg (by simp [hclosing]), if_neg (by simp [ht, Level.short]),
          if_neg hcover]
      · rw [State.articleNotice_owner e h, if_neg (by simp [hclosing]), if_pos ((Level.short_iff _).mpr ht),
          if_pos hsame]
    case follower =>
      rintro o h ho _ rfl
      refine ⟨fun hn hs => ?_, State.articleNotice_follower_fresh e h ho, State.articleNotice_follower_other e h ho⟩
      rw [State.articleNotice_follower_stale e h ho hn, State.takeoverIfStale_starts e ho hs]

/-! ### The timers of a record (R100, R109, R110, R117, R122) -/

section Expiries

variable {s : State} {a : Nat} {sl : Slot}

theorem State.claimHoldExpires_idle (h : ∀ sl, s.slot? a = some sl → expired s.now sl.alert.claimHold = none) :
    s.claimHoldExpires a = s := by
  unfold State.claimHoldExpires
  cases e : s.slot? a with
  | none => rfl
  | some sl => simp only [h sl e]

theorem State.repeatExpires_idle (h : ∀ sl, s.slot? a = some sl → expired s.now sl.alert.repeatTimer = none) :
    s.repeatExpires a = s := by
  unfold State.repeatExpires
  cases e : s.slot? a with
  | none => rfl
  | some sl => simp only [h sl e]

theorem State.escalationExpires_idle
    (h : ∀ sl, s.slot? a = some sl → expired s.now sl.alert.escalationTimer = none) :
    s.escalationExpires a = s := by
  unfold State.escalationExpires
  cases e : s.slot? a with
  | none => rfl
  | some sl => simp only [h sl e]

theorem State.takeoverExpires_idle (h : ∀ sl, s.slot? a = some sl → expired s.now sl.alert.takeover = none) :
    s.takeoverExpires a = s := by
  unfold State.takeoverExpires
  cases e : s.slot? a with
  | none => rfl
  | some sl => simp only [h sl e]

variable {x : Time} (e : s.slot? a = some sl) (hdue : x ≤ s.now)
include e hdue

theorem State.claimHoldExpires_due (h : sl.alert.claimHold = some x) (hc : sl.alert.state = .claiming) :
    s.claimHoldExpires a
      = if sl.target.short = true then s.becomeOwner a sl.target
        else (s.modAlert a fun r => { r with claimHold := none, closing := true }).requestAlert .clear a := by
  simp only [State.claimHoldExpires, e, h, expired_some hdue, if_pos hc]

theorem State.repeatExpires_due (h : sl.alert.repeatTimer = some x) :
    s.repeatExpires a
      = (s.modAlert a fun r => { r with repeatTimer := some (x + s.alu.repeatInterval) }).requestAlert .alert a := by
  simp only [State.repeatExpires, e, h, expired_some hdue]

theorem State.escalationExpires_due (h : sl.alert.escalationTimer = some x) :
    s.escalationExpires a
      = if sl.target.short = true then
          (s.modAlert a fun r =>
            { r with
              escalated := true, accepted := false, terminal := none, escalationTimer := none,
              repeatTimer := some (s.now + s.alu.repeatInterval) }).requestAlert .alert a
        else s.modAlert a fun r => { r with escalationTimer := some (x + s.alu.escalationTime) } := by
  simp only [State.escalationExpires, e, h, expired_some hdue]

theorem State.takeoverExpires_due (h : sl.alert.takeover = some x) (hf : sl.alert.state = .follower) :
    s.takeoverExpires a
      = if s.claimable sl = true then (s.claimAt a sl.target).count .takeover else s.enterQuiet a := by
  simp only [State.takeoverExpires, e, h, expired_some hdue, if_pos hf, State.claim_eq e]

end Expiries

/-- Settles O51: each timer's act when it is due, by the target level. -/
theorem alertTimersKeepTheAlertAlive : Obligations.AlertTimersKeepTheAlertAlive := by
  intro s dt a sl x hheld e hdue
  have hold := State.event_next hheld dt fun s => s.claimHoldExpires a
  have again := State.event_next hheld dt fun s => s.repeatExpires a
  have escalate := State.event_next hheld dt fun s => s.escalationExpires a
  refine ⟨fun h hc ht => hold.trans ?_, fun h hc ht => hold.trans ?_, fun h => again.trans ?_,
    fun h ht => escalate.trans ?_, fun h ht => escalate.trans ?_⟩
  · rw [State.claimHoldExpires_due (s := s.elapse dt) e hdue h hc, if_pos ((Level.short_iff _).mpr ht),
      State.becomeOwner, State.modAlert_requestAlert]
    rfl
  · rw [State.claimHoldExpires_due (s := s.elapse dt) e hdue h hc, if_neg (by simp [ht, Level.short]),
      State.modAlert_requestAlert]
  · rw [State.repeatExpires_due (s := s.elapse dt) e hdue h, State.modAlert_requestAlert]
    rfl
  · rw [State.escalationExpires_due (s := s.elapse dt) e hdue h, if_pos ((Level.short_iff _).mpr ht),
      State.modAlert_requestAlert]
    rfl
  · rw [State.escalationExpires_due (s := s.elapse dt) e hdue h, if_neg (by simp [ht, Level.short])]
    rfl

/-- Settles O52: a follower claims where the conditions of R97 hold, and enters QUIET where one fails; a target of NONE
from its own level is one from NONE. -/
theorem takeoverClaimsOrGoesQuiet : Obligations.TakeoverClaimsOrGoesQuiet := by
  intro s dt a sl x hheld e htimer hdue hf hmargin
  have hnext := State.event_next hheld dt fun s => s.takeoverExpires a
  have hact := State.takeoverExpires_due (s := s.elapse dt) e hdue htimer hf
  have hclaim : s.stc.state = .running → sl.art.disputed = false → sl.target ≠ .none →
      exec (.takeoverDelay dt a) s = .next (((s.elapse dt).claimAt a sl.target).count .takeover).showLamps := by
    intro hr hd ht
    refine hnext.trans ?_
    rw [hact, if_pos ((State.claimable_iff (s.elapse dt) sl).mpr ⟨hr, hd, ht⟩)]
  refine ⟨fun hr hd ht => ?_, fun hr hd ht => ?_, fun h => hnext.trans ?_⟩
  · rw [hclaim hr hd ht, State.claimAt_eq (s := s.elapse dt) e]
    rfl
  · obtain ⟨sl', q, e', howning, -, hclaimed⟩ := State.claimAt_slot (s := s.elapse dt) e sl.target
    have hsteady := (s.elapse dt).claimAt_steady a sl.target
    have hdrop := (s.elapse dt).claimAt_dropped a sl.target
    refine ⟨_, sl', q, hclaim hr hd ht, e', hclaimed, howning, ?_, hdrop.severe, hsteady.now, hsteady.bays,
      hsteady.peers, hsteady.stc, hsteady.pending⟩
    refine (Health.rise_same _ .takeover 1).trans ?_
    rw [hdrop.counter Counter.takeover.index (by decide) (by decide)]
    rfl
  · have hrest : (s.elapse dt).stc.state ≠ .running ∨ sl.art.disputed = true ∨ sl.restLevel sl.art.aggregate = .none :=
      h.imp_right (Or.imp_right targetLevel_none_of_none)
    have hnot : ¬ (s.elapse dt).claimable sl = true := by
      rw [State.claimable_iff]
      rintro ⟨hr, hd, ht⟩
      obtain h | h | h := h
      · exact h hr
      · rw [h] at hd; cases hd
      · exact ht h
    rw [hact, if_neg hnot, State.enterQuiet_eq (s := s.elapse dt) e,
      (State.quietTo_claimTestSeeing (s := s.elapse dt) e _).1 hrest, State.quietTo_of_idle (.inr hf)]
    rfl

end Sys2Proof.Machine

/-! Frames heard by the alert unit and the tally unit (R86, R95, R96, R102 to R107, R120, R126, R129, R130), and the timers
that are not due. -/

namespace Sys2Proof.Machine

/-- The command of a frame that the station takes, at the block that owns its kind. -/
theorem exec_dispatch {s : State} {heard : List Character} {f : Frame} (h : s.takes heard f) (dt : Time) :
    exec (f.kind.command dt heard) s = .next ((s.elapse dt).dispatch (some f.kind) f).showLamps := by
  rw [exec_command, h.event_next dt]

/-- The same for a command written by its kind. -/
theorem exec_dispatch_kind {s : State} {heard : List Character} {f : Frame} {k : Kind} (h : s.takes heard f)
    (hk : f.kind = k) (dt : Time) :
    exec (k.command dt heard) s = .next ((s.elapse dt).dispatch (some k) f).showLamps := by
  subst hk
  exact exec_dispatch h dt

/-! ### QUERY (R86) -/

theorem exec_query_of_takes {s : State} {heard : List Character} {f : Frame} (h : s.takes heard f)
    (hk : f.kind = .query) (dt : Time) :
    exec (.query dt heard) s = .next ((s.elapse dt).takeQuery f.dst).showLamps := by
  have hdispatch : (s.elapse dt).dispatch (some .query) f = (s.elapse dt).takeQuery f.dst := by
    rw [State.dispatch, if_pos (.inr (by rw [hk])), hk]
  rw [← hdispatch]
  exact exec_dispatch_kind h hk dt

theorem State.speaking_of_isolated {s : State} (h : s.stc.state = .isolated) : s.speaking = false := by
  rw [State.speaking, h]

/-- Settles O43: the three conditions of an answer, and either way in which one fails. -/
theorem queryIsAnsweredWithAFull : Obligations.QueryIsAnsweredWithAFull := by
  intro s dt heard f htakes hk
  rw [exec_query_of_takes htakes hk]
  constructor
  · intro hown hne hspeaking
    rw [State.takeQuery, if_pos ⟨hne, hown, hspeaking⟩]
  · intro h
    rw [State.takeQuery, if_neg]
    rintro ⟨hne, -, hspeaking⟩
    obtain h | h := h
    · exact hne h
    · rw [State.speaking_of_isolated (s := s.elapse dt) h] at hspeaking
      cases hspeaking

/-! ### Precedence (R102) -/

section Precedence

variable {r : Alert} {own station : Nat} {x : Epoch}

theorem Alert.yields_iff (h : r.state = .claiming ∨ r.state = .owner) :
    r.yields own station x = true ↔ newer x r.epoch = true ∨ x = r.epoch ∧ station < own := by
  obtain h | h := h <;> simp [Alert.yields, h]

theorem Alert.yields_iff_of_follower {o : Nat} (h : r.state = .follower) (ho : r.owner = some o) :
    r.yields own station x = true ↔ newer x r.epoch = true ∨ x = r.epoch ∧ station < o := by
  simp [Alert.yields, h, ho]

theorem Alert.yields_eq_false (h : r.state = .claiming ∨ r.state = .owner) (hn : newer x r.epoch = false)
    (hx : x ≠ r.epoch ∨ own ≤ station) : r.yields own station x = false := by
  rw [← Bool.not_eq_true, Alert.yields_iff h, hn]
  rintro (hnew | ⟨heq, hlt⟩)
  · cases hnew
  · exact hx.elim (fun hne => hne heq) fun hle => Nat.not_lt.mpr hle hlt

theorem Alert.yields_eq_false_of_follower {o : Nat} (h : r.state = .follower) (ho : r.owner = some o)
    (hn : newer x r.epoch = false) (hx : x ≠ r.epoch ∨ o ≤ station) : r.yields own station x = false := by
  rw [← Bool.not_eq_true, Alert.yields_iff_of_follower h ho, hn]
  rintro (hnew | ⟨heq, hlt⟩)
  · cases hnew
  · exact hx.elim (fun hne => hne heq) fun hle => Nat.not_lt.mpr hle hlt

end Precedence

/-! ### CLAIM and ALERT (R102 to R105, R126) -/

section Reports

variable {s : State} {sl : Slot} {station : Nat} {p : Report}

theorem exec_report_of_takes {heard : List Character} {f : Frame} (h : s.takes heard f)
    (hk : (f.kind = .claim ∧ p = readClaim f.payload) ∨ (f.kind = .alert ∧ p = readAlert f.payload)) (dt : Time) :
    exec (f.kind.command dt heard) s = .next ((s.elapse dt).takeReport f.src p).showLamps := by
  have hdispatch : (s.elapse dt).dispatch (some f.kind) f = (s.elapse dt).takeReport f.src p := by
    rw [State.dispatch, if_pos (.inr rfl)]
    obtain ⟨hk, rfl⟩ | ⟨hk, rfl⟩ := hk <;> rw [hk]
  rw [exec_dispatch h dt, hdispatch]

theorem State.takeReport_unheld (e : s.slot? p.article = none) : s.takeReport station p = s := by
  rw [State.takeReport, e]

theorem State.takeReport_rejected (e : s.slot? p.article = some sl)
    (h : station ∉ sl.art.holders ∨ p.level = .none) : s.takeReport station p = s := by
  simp only [State.takeReport, e]
  refine if_neg ?_
  rw [Bool.and_eq_true, List.contains_iff_mem, Level.short_iff]
  rintro ⟨hmem, hl⟩
  exact h.elim (fun hn => hn hmem) hl

section Accepted

variable (e : s.slot? p.article = some sl) (hsrc : station ∈ sl.art.holders) (hl : p.level ≠ .none)
include e hsrc hl

/-- What a report does, by the record's state, once the article, the sender and the level are in order. -/
theorem State.takeReport_quiet (h : sl.alert.state = .quiet) :
    s.takeReport station p
      = if !sl.alert.known || newer p.epoch sl.alert.epoch || p.epoch == sl.alert.epoch then
          s.followStation p.article station p.epoch p.level p.accepted p.escalated
        else s := by
  simp only [State.takeReport, e, List.contains_iff_mem.mpr hsrc, (Level.short_iff _).mpr hl, Bool.and_self, if_true, h]

theorem State.takeReport_owning (h : sl.alert.state = .claiming ∨ sl.alert.state = .owner) :
    s.takeReport station p
      = if sl.alert.yields s.ownNumber station p.epoch = true then
          s.yieldTo p.article station p.epoch p.level p.accepted p.escalated
        else s := by
  obtain h | h := h <;>
    simp only [State.takeReport, e, List.contains_iff_mem.mpr hsrc, (Level.short_iff _).mpr hl, Bool.and_self, if_true, h]

theorem State.takeReport_follower (h : sl.alert.state = .follower) :
    s.takeReport station p
      = if sl.alert.owner = some station then
          if newer p.epoch sl.alert.epoch || p.epoch == sl.alert.epoch then
            s.modAlert p.article fun r =>
              { r with epoch := p.epoch, level := p.level, accepted := p.accepted, terminal := none,
                       escalated := p.escalated }
          else s
        else if sl.alert.yields s.ownNumber station p.epoch = true then
          s.followStation p.article station p.epoch p.level p.accepted p.escalated
        else s := by
  simp only [State.takeReport, e, List.contains_iff_mem.mpr hsrc, (Level.short_iff _).mpr hl, Bool.and_self, if_true, h]

end Accepted

end Reports

/-! ### A holder's state and rank (R67, R69) -/

theorem Article.staleHolder_iff (r : Article) (n : Nat) :
    r.staleHolder n = true ↔ ∃ x, r.peers.find? (fun x => x.holder == n) = some x ∧ x.state = .stale := by
  unfold Article.staleHolder Article.contribution?
  cases r.peers.find? fun x => x.holder == n with
  | none => simp
  | some c => simp

theorem Article.rank_of_mem {r : Article} {n : Nat} (h : n ∈ r.holders) :
    1 ≤ r.rank n ∧ r.holders[r.rank n - 1]? = some n ∧ n ∉ r.holders.take (r.rank n - 1) := by
  obtain ⟨i, hi⟩ : ∃ i, r.holders.findIdx? (fun h => h == n) = some i := by
    rw [← Option.isSome_iff_exists, List.findIdx?_isSome, List.any_eq_true]
    exact ⟨n, h, beq_self_eq_true n⟩
  have hrank : r.rank n = i + 1 := by rw [Article.rank, hi]
  obtain ⟨hlt, heq, hbefore⟩ := List.findIdx?_eq_some_iff_getElem.mp hi
  rw [hrank, Nat.add_sub_cancel]
  refine ⟨Nat.succ_pos i, ?_, fun hmem => ?_⟩
  · rw [List.getElem?_eq_getElem hlt, eq_of_beq heq]
  · obtain ⟨j, hj, hget⟩ := List.getElem_of_mem hmem
    have hji : j < i := by rw [List.length_take] at hj; omega
    refine hbefore j hji ?_
    rw [List.getElem_take] at hget
    rw [hget]
    exact beq_self_eq_true n

/-- Settles O44: a report by the record's state, with the reasons for which one is ignored. -/
theorem reportIsFollowedOrIgnored : Obligations.ReportIsFollowedOrIgnored := by
  refine ⟨fun s a => ⟨rfl, fun f => ?alert, fun f => ?article⟩, fun _ => rfl,
    fun r n => ⟨r.staleHolder_iff n, Article.rank_of_mem⟩, ?_⟩
  case alert => simp [State.modAlert, State.modSlot]
  case article => simp [State.modArticle, State.modSlot]
  intro s dt heard f p htakes hk
  rw [exec_report_of_takes htakes hk]
  refine ⟨fun sl e hsrc hl hfollows => ?_, fun sl e hsrc hl hstate howner hepoch => ?_, fun h => ?_⟩
  · have hact : (s.elapse dt).takeReport f.src p
        = (s.elapse dt).followStation p.article f.src p.epoch p.level p.accepted p.escalated := by
      obtain ⟨hq, hepoch⟩ | ⟨hf, o, ho, hne, hprec⟩ := hfollows
      · rw [State.takeReport_quiet (s := s.elapse dt) e hsrc hl hq, if_pos]
        obtain hunknown | heq | hnew := hepoch
        · simp [hunknown]
        · simp [heq]
        · simp [hnew]
      · have hother : ¬ sl.alert.owner = some f.src := fun h => hne (Option.some.inj (ho.symm.trans h))
        rw [State.takeReport_follower (s := s.elapse dt) e hsrc hl hf, if_neg hother,
          if_pos ((Alert.yields_iff_of_follower hf ho).mpr hprec)]
    rw [hact, State.followStation_eq (s := s.elapse dt) e]
    rfl
  · have hepoch' : (newer p.epoch sl.alert.epoch || p.epoch == sl.alert.epoch) = true := by
      obtain heq | hnew := hepoch
      · simp [heq]
      · simp [hnew]
    rw [State.takeReport_follower (s := s.elapse dt) e hsrc hl hstate, if_pos howner, if_pos hepoch']
  · obtain e | ⟨sl, e, h⟩ := h
    · rw [State.takeReport_unheld (s := s.elapse dt) e]
    · by_cases hok : f.src ∈ sl.art.holders ∧ p.level ≠ .none
      · obtain ⟨hsrc, hl⟩ := hok
        obtain h | h | ⟨hq, hknown, hne, hnew⟩ | ⟨hown, hnew, hprec⟩ | ⟨hf, hnew, o, ho, hprec⟩ := h
        · exact absurd hsrc h
        · exact absurd h hl
        · rw [State.takeReport_quiet (s := s.elapse dt) e hsrc hl hq, if_neg (by simp [hknown, hne, hnew])]
        · rw [State.takeReport_owning (s := s.elapse dt) e hsrc hl hown, if_neg]
          rw [Bool.not_eq_true]
          exact Alert.yields_eq_false hown hnew hprec
        · rw [State.takeReport_follower (s := s.elapse dt) e hsrc hl hf]
          split
          · next howner =>
            have hsame : o = f.src := Option.some.inj (ho.symm.trans howner)
            have hne : p.epoch ≠ sl.alert.epoch := hprec.resolve_right (by omega)
            rw [if_neg (by simp [hne, hnew])]
          · rw [if_neg]
            rw [Bool.not_eq_true]
            exact Alert.yields_eq_false_of_follower hf ho hnew (hprec.imp_right Nat.le_of_lt)
      · have hbad : f.src ∉ sl.art.holders ∨ p.level = .none := by
          by_cases hsrc : f.src ∈ sl.art.holders
          · exact .inr (by_contra fun hl => hok ⟨hsrc, hl⟩)
          · exact .inl hsrc
        rw [State.takeReport_rejected (s := s.elapse dt) e hbad]

/-! ### ACCEPT (R96, R120, R129) -/

section Accepts

variable {s : State} {sl : Slot} {a terminal : Nat}

theorem State.takeAccept_owner (e : s.slot? a = some sl) (h : sl.alert.state = .owner) :
    s.takeAccept terminal a sl.alert.epoch
      = if sl.alert.closing = true then s.modAlert a fun r => { r with accepted := true, terminal := some terminal }
        else
          (s.modAlert a fun r =>
            { r with accepted := true, terminal := some terminal, repeatTimer := none,
                     escalationTimer := some (s.now + s.alu.escalationTime) }).requestAlert .alert a := by
  simp only [State.takeAccept, e, h, if_true]

theorem State.takeAccept_follower (e : s.slot? a = some sl) (h : sl.alert.state = .follower) :
    s.takeAccept terminal a sl.alert.epoch = s.modAlert a fun r => { r with accepted := true } := by
  simp only [State.takeAccept, e, h, if_true]

theorem State.takeAccept_unheld (e : s.slot? a = none) (x : Epoch) : s.takeAccept terminal a x = s := by
  simp only [State.takeAccept, e]

theorem State.takeAccept_unowned (e : s.slot? a = some sl) (h : sl.alert.state = .quiet ∨ sl.alert.state = .claiming)
    (x : Epoch) : s.takeAccept terminal a x = s := by
  obtain h | h := h <;> simp only [State.takeAccept, e, h]

end Accepts

/-- Settles O47: an ACCEPT at the record's epoch, by the record's state. -/
theorem acceptIsRecorded : Obligations.AcceptIsRecorded := by
  rintro s dt heard f _ htakes hk rfl
  rw [exec_accept_of_takes htakes hk]
  refine ⟨fun sl e h hx hclosing => ?_, fun sl e h hx hclosing => ?_, fun sl e h hx => ?_, fun h => ?_⟩
  · rw [hx, State.takeAccept_owner (s := s.elapse dt) e h, if_neg (by simp [hclosing]), State.modAlert_requestAlert]
    rfl
  · rw [hx, State.takeAccept_owner (s := s.elapse dt) e h, if_pos hclosing]
  · rw [hx, State.takeAccept_follower (s := s.elapse dt) e h]
  · obtain e | ⟨sl, e, h⟩ := h
    · rw [State.takeAccept_unheld (s := s.elapse dt) e]
    · rw [State.takeAccept_unowned (s := s.elapse dt) e h]

/-! ### Timers that are not due (log 2) -/

section NotDue

variable {s : State} {now : Time}

theorem expired_of_not_due {due : Option Time → Prop} (hdef : ∀ o, due o ↔ ∃ e, o = some e ∧ e ≤ now)
    {o : Option Time} (h : ¬ due o) : expired now o = none := by
  rw [expired_eq_none, ← hdef]
  exact h

theorem State.settleTimeout_idle {n : Nat} (h : ∀ b, s.bay? n = some b → expired s.now b.settleTimer = none) :
    s.settleTimeout n = s := by
  unfold State.settleTimeout
  cases e : s.bay? n with
  | none => rfl
  | some b => simp only [h b e]

theorem State.staleExpires_idle {n : Nat} (h : ∀ p, s.peer? n = some p → expired s.now p.staleTimer = none) :
    s.staleExpires n = s := by
  unfold State.staleExpires
  cases e : s.peer? n with
  | none => rfl
  | some p => rw [Option.bind_some, h p e]

theorem State.endDeferral_idle (h : expired s.now (s.bsc.deferral.map Deferral.due) = none) : s.endDeferral = s := by
  unfold State.endDeferral
  cases hd : s.bsc.deferral with
  | none => rfl
  | some d =>
    rw [hd] at h
    have hlate : ¬ d.due ≤ s.now := fun hle => by rw [Option.map_some, expired_some hle] at h; cases h
    simp [hlate]

end NotDue

/-- Settles O49: each command looks at its timer first. -/
theorem timersNotDueDoNothing : Obligations.TimersNotDueDoNothing := by
  refine ⟨fun _ _ => rfl, fun s dt hheld due hdef => ?_⟩
  have idle {o : Option Time} (h : ¬ due o) : expired (s.elapse dt).now o = none := expired_of_not_due hdef h
  have quiet {i : Instr} {act : State → State} (harm : exec i s = s.event dt act) (h : act (s.elapse dt) = s.elapse dt) :
      exec i s = .next (s.elapse dt).showLamps := by rw [harm, State.event_next hheld, h]
  refine ⟨fun h => quiet (Eq.refl (execReadyTimer dt s)) ?ready, fun n h => quiet (Eq.refl (execSettleTimeout dt n s)) ?settle,
    fun a h => quiet (Eq.refl (execClaimHold dt a s)) ?hold, fun a h => quiet (Eq.refl (execRepeatTimer dt a s)) ?again,
    fun a h => quiet (Eq.refl (execEscalationTimer dt a s)) ?escalation,
    fun a h => quiet (Eq.refl (execTakeoverDelay dt a s)) ?takeover,
    fun n h => quiet (Eq.refl (execStaleTimer dt n s)) ?stale, fun h => quiet (Eq.refl (execBeaconTick dt s)) ?beacon,
    fun h => quiet (Eq.refl (execDeltaTimer dt s)) ?delta, fun h => quiet (Eq.refl (execJoinTimer dt s)) ?join,
    fun h => quiet (Eq.refl (execIsolationTimer dt s)) ?isolation,
    fun h => quiet (Eq.refl (execDeferralEnd dt s)) ?deferral⟩
  case settle => exact State.settleTimeout_idle (s := s.elapse dt) fun b e => idle (h b e)
  case hold => exact State.claimHoldExpires_idle (s := s.elapse dt) fun sl e => idle (h sl e)
  case again => exact State.repeatExpires_idle (s := s.elapse dt) fun sl e => idle (h sl e)
  case escalation => exact State.escalationExpires_idle (s := s.elapse dt) fun sl e => idle (h sl e)
  case takeover => exact State.takeoverExpires_idle (s := s.elapse dt) fun sl e => idle (h sl e)
  case stale => exact State.staleExpires_idle (s := s.elapse dt) fun p e => idle (h p e)
  case deferral => exact State.endDeferral_idle (s := s.elapse dt) (idle h)
  case ready => rw [show expired (s.elapse dt).now (s.elapse dt).pru.readyTimer = none from idle h]
  case beacon => rw [show expired (s.elapse dt).now (s.elapse dt).tly.beaconTimer = none from idle h]
  case delta => rw [show expired (s.elapse dt).now (s.elapse dt).tly.deltaTimer = none from idle h]
  case join => rw [show expired (s.elapse dt).now (s.elapse dt).stc.joinTimer = none from idle h]
  case isolation => rw [show expired (s.elapse dt).now (s.elapse dt).stc.isolationTimer = none from idle h]

end Sys2Proof.Machine

/-! A record that yields and a record whose episode a CLEAR ends (R61, R95, R96, R103, R107, R130). -/

namespace Sys2Proof.Machine

/-! ### Withdrawal (R51, R61) -/

theorem Flight.withdrawn_followOn (f : Flight) (r : Request) :
    (match f.followOn with
      | some e => if e.req = r then { f with followOn := none } else f
      | none => f)
      = { f with followOn := f.followOn.filter fun e => e.req ≠ r } := by
  obtain ⟨entry, frame, moved, followOn⟩ := f
  cases followOn with
  | none => rfl
  | some e =>
    by_cases h : e.req = r
    · simp [h, Option.filter]
    · simp [h, Option.filter]

theorem State.withdraw_eq (s : State) (r : Request) {kept : List TxEntry}
    (hkept : kept = s.bsc.waiting.filter (fun e => e.req ≠ r)) :
    s.withdraw r
      = { s with bsc := { s.bsc with
          waiting := kept
          flight := s.bsc.flight.map fun f => { f with followOn := f.followOn.filter fun e => e.req ≠ r }
          deferral := if kept = [] then none else s.bsc.deferral } } := by
  subst hkept
  have hwithdraw : s.withdraw r
      = ({ s with bsc := { s.bsc with
          waiting := s.bsc.waiting.filter (fun e => e.req ≠ r)
          flight := s.bsc.flight.map fun f => { f with followOn := f.followOn.filter fun e => e.req ≠ r } } } :
            State).endDeferralIfEmpty :=
    congrArg (fun g => State.endDeferralIfEmpty { s with bsc := { s.bsc with
      waiting := s.bsc.waiting.filter (fun e => e.req ≠ r), flight := s.bsc.flight.map g } })
      (funext fun f => f.withdrawn_followOn r)
  rw [hwithdraw]
  simp only [State.endDeferralIfEmpty, List.isEmpty_iff]
  split <;> rfl

/-! ### Alert frames in the queue -/

/-- No alert frame stands queued in `b'` that does not in `b`. -/
def BusController.NoNewAlert (b b' : BusController) : Prop :=
  ∀ k a, (∃ e ∈ b'.waiting, e.req = .alertFrame k a) → ∃ e ∈ b.waiting, e.req = .alertFrame k a

theorem BusController.NoNewAlert.refl (b : BusController) : b.NoNewAlert b := fun _ _ => id

theorem BusController.NoNewAlert.trans {b c d : BusController} (h : b.NoNewAlert c) (k : c.NoNewAlert d) :
    b.NoNewAlert d := fun x a hd => h x a (k x a hd)

section NoNewAlert

variable {r : Request} (hr : ∀ k a, r ≠ .alertFrame k a)
include hr

theorem TxEntry.merge_not_alert {e : TxEntry} (hk : e.req.sameKey r = true) (k : AlertKind) (a : Nat) :
    (e.merge r).req ≠ .alertFrame k a := by
  obtain ⟨x, time, taken, failed⟩ := e
  cases r with
  | alertFrame k' a' => exact absurd rfl (hr k' a')
  | tally v => cases v <;> cases x <;> simp_all [Request.sameKey, TxEntry.merge, Request.merge]
  | hello | shift | query n => cases x <;> simp_all [Request.sameKey, TxEntry.merge, Request.merge]

theorem BusController.append_noNewAlert {b b' : BusController} (h : b'.waiting ⊆ b.waiting) (now : Time) :
    b.NoNewAlert (b'.append r now) := by
  rintro k a ⟨e, he, hreq⟩
  obtain he | he := List.mem_append.mp he
  · exact ⟨e, h he, hreq⟩
  · rw [List.mem_singleton.mp he] at hreq
    exact absurd hreq (hr k a)

theorem BusController.enterNew_noNewAlert (b : BusController) (now : Time) : b.NoNewAlert (b.enterNew r now).1 := by
  unfold BusController.enterNew
  split
  · exact append_noNewAlert hr (List.Subset.refl _) now
  · split
    · split
      · exact append_noNewAlert hr List.erase_subset now
      · exact .refl b
    · exact .refl b

theorem BusController.enter_noNewAlert (b : BusController) (now : Time) : b.NoNewAlert (b.enter r now).1 := by
  unfold BusController.enter
  split
  · rintro k a ⟨e, he, hreq⟩
    obtain ⟨e0, he0, rfl⟩ := List.mem_map.mp he
    split at hreq
    · next hk => exact absurd hreq (TxEntry.merge_not_alert hr hk k a)
    · exact ⟨e0, he0, hreq⟩
  · split
    · split
      · exact .refl b
      · exact enterNew_noNewAlert hr b now
    · exact enterNew_noNewAlert hr b now

theorem State.enqueue_noNewAlert (s : State) : s.bsc.NoNewAlert (s.enqueue r).1.bsc := by
  cases hs : s.speaking with
  | false =>
    rw [State.enqueue_refused hs]
    exact .refl _
  | true =>
    rcases he : s.bsc.enter r s.now with ⟨b', o⟩
    have henter : s.bsc.NoNewAlert b' := by
      have h := BusController.enter_noNewAlert hr s.bsc s.now
      rwa [he] at h
    obtain ⟨x, hbegin⟩ := (s.afterEnter b' o).beginDeferral_eq
    obtain ⟨y, hshorten⟩ := (s.afterEnter b' o).beginDeferral.shortenDeferral_eq (headOf s.bsc.waiting)
    rw [State.enqueue_eq hs he, hshorten, hbegin]
    cases o <;> exact henter

end NoNewAlert

theorem State.loseSending_bsc (s : State) : s.loseSending.bsc = s.bsc := by rw [State.loseSending_eq]

theorem State.requestShift_noNewAlert (s : State) : s.bsc.NoNewAlert s.requestShift.bsc := by
  have h := State.enqueue_noNewAlert (r := .shift) nofun s
  unfold State.requestShift
  split
  · next he => rw [he] at h; exact h
  · next he => rw [he] at h; rw [State.loseSending_bsc]; exact h
  · next he => rw [he] at h; exact h

theorem State.shiftLost_noNewAlert (s : State) : s.bsc.NoNewAlert s.shiftLost.bsc := by
  have h : s.bsc.NoNewAlert s.loseSending.bsc := by rw [s.loseSending_bsc]; exact .refl _
  unfold State.shiftLost
  dsimp only
  split
  · exact h.trans (State.requestShift_noNewAlert _)
  · exact h

theorem State.noticeDropped_noNewAlert (s : State) (d : Request) : s.bsc.NoNewAlert (s.noticeDropped d).bsc := by
  cases d with
  | shift => exact s.shiftLost_noNewAlert
  | alertFrame k a => exact .refl _
  | hello | tally _ | query _ => exact .refl _

theorem State.request_noNewAlert (s : State) {r : Request} (hr : ∀ k a, r ≠ .alertFrame k a) :
    s.bsc.NoNewAlert (s.request r).bsc := by
  have h := State.enqueue_noNewAlert hr s
  cases hd : (s.enqueue r).2 with
  | none => rw [State.request_none hd]; exact h
  | some d => rw [State.request_dropped_eq hd]; exact h.trans (State.noticeDropped_noNewAlert _ d)

theorem State.startDelta_noNewAlert (s : State) : s.bsc.NoNewAlert s.startDelta.bsc := by
  unfold State.startDelta State.deltaExpires
  dsimp only
  split
  · split
    · split
      · exact .refl _
      · exact State.request_noNewAlert { s with tly := { s.tly with deltaTimer := none } } nofun
    · exact .refl _
  · exact .refl _

/-- The tally unit told of a record queues no alert frame. -/
theorem State.tellOwning_noNewAlert (s : State) (a : Nat) (b : Bool) : s.bsc.NoNewAlert (s.tellOwning a b).bsc := by
  unfold State.tellOwning State.ownUpdate
  split
  · split
    · exact .refl _
    · exact State.startDelta_noNewAlert (s.modArticle a _)
  · exact .refl _

/-! ### Yielding (R103, R109, R183) -/

section Yield

variable {s : State} {a owner : Nat} {sl : Slot}

/-- The record as it yields, and the tally unit told of it. -/
def State.yielded (w : State) (a owner : Nat) (x : Epoch) (l : Level) (p q : Bool) : State :=
  ((w.modAlert a fun r => r.follow owner x l p q).tellOwning a false).raise .claimYield owner a

theorem State.yielded_steady (w : State) (a owner : Nat) (x : Epoch) (l : Level) (p q : Bool) :
    w.Steady (w.yielded a owner x l p q) :=
  ((w.modAlert_steady a _).trans (State.tellOwning_steady _ a false)).trans (State.raise_steady _ _ _ _)

theorem State.yielded_slot {w : State} (e : w.slot? a = some sl) (ho : sl.alert.outstanding = none) (x : Epoch)
    (l : Level) (p q : Bool) :
    ∃ sl', (w.yielded a owner x l p q).slot? a = some sl' ∧ sl'.art.kept = sl.art.kept
      ∧ sl'.art.own.flags.owning = false ∧ sl'.alert = sl.alert.follow owner x l p q := by
  obtain ⟨sl', e', howning, hkept, -, o, halert, hnone⟩ :=
    State.tellOwning_slot (State.slot?_modAlert e fun r => r.follow owner x l p q) false
  refine ⟨sl', e', hkept, howning, ?_⟩
  rw [halert, hnone ho, ← ho]
  rfl

theorem State.yielded_counter (w : State) (x : Epoch) (l : Level) (p q : Bool) :
    (w.yielded a owner x l p q).hlu.counters[12]? = (w.hlu.counters[12]?).map (fun v => min 255 (v + 1))
      ∧ (w.yielded a owner x l p q).hlu.severe = w.hlu.severe := by
  have hdrop := (w.modAlert a fun r => r.follow owner x l p q).tellOwning_dropped a false
  refine ⟨(Health.rise_same _ .claimYield 1).trans ?_, hdrop.severe⟩
  rw [hdrop.counter Counter.claimYield.index (by decide) (by decide)]
  rfl

theorem State.withdrawAlert_noAlert (e : s.slot? a = some sl) {o : Outstanding} (ho : sl.alert.outstanding = some o) :
    ∀ e ∈ (s.withdrawAlert a).bsc.waiting, e.req ≠ .alertFrame o.kind a := by
  rw [State.withdrawAlert_some e ho]
  exact s.withdraw_waiting _

/-- The takeover delay by the state of the sender's contribution, as it stood before. -/
theorem State.takeoverIfStale_of_kept {y : State} {sl' : Slot} (e : y.slot? a = some sl') (ho : sl'.alert.owner = some owner)
    (hkept : sl'.art.kept = sl.art.kept) :
    y.takeoverIfStale a
      = if sl.art.staleHolder owner = true then
          y.modAlert a fun r => { r with takeover := some (y.now + ms (sl.art.rank y.ownNumber * 500)) }
        else y := by
  have hpeers : sl'.art.peers = sl.art.peers := congrArg Kept.peers hkept
  have hholders : sl'.art.holders = sl.art.holders := congrArg (fun k => k.config.holders) hkept
  have hstale : sl'.art.staleHolder owner = sl.art.staleHolder owner := by
    rw [Article.staleHolder, Article.staleHolder, Article.contribution?, Article.contribution?, hpeers]
  have hrank : sl'.art.rank y.ownNumber = sl.art.rank y.ownNumber := by rw [Article.rank, Article.rank, hholders]
  split
  · next h => rw [State.takeoverIfStale_starts e ho (hstale.trans h), hrank]
  · next h => exact State.takeoverIfStale_idle e ho (hstale.trans (Bool.not_eq_true _ ▸ h))

/-- What was withdrawn from a record, by what it had outstanding. -/
theorem State.eq_withdrawAlert {w : State} (e : s.slot? a = some sl)
    (h : sl.alert.outstanding = none ∧ w = s ∨ ∃ o, sl.alert.outstanding = some o
      ∧ w = (s.withdraw (.alertFrame o.kind a)).modAlert a fun r => { r with outstanding := none }) :
    w = s.withdrawAlert a := by
  obtain ⟨ho, rfl⟩ | ⟨o, ho, rfl⟩ := h
  · exact (State.withdrawAlert_none e ho).symm
  · exact (State.withdrawAlert_some e ho).symm

variable (e : s.slot? a = some sl) (x : Epoch) (l : Level) (p q : Bool)
include e

theorem State.yieldTo_eq :
    s.yieldTo a owner x l p q
      = if sl.art.staleHolder owner = true then
          ((s.withdrawAlert a).yielded a owner x l p q).modAlert a fun r =>
            { r with takeover := some (s.now + ms (sl.art.rank s.ownNumber * 500)) }
        else (s.withdrawAlert a).yielded a owner x l p q := by
  obtain ⟨sl', e', hkept, -, halert⟩ :=
    State.yielded_slot (owner := owner) (State.withdrawAlert_slot e) rfl x l p q
  have hsteady := (s.withdrawAlert_steady a).trans ((s.withdrawAlert a).yielded_steady a owner x l p q)
  have htakeover := State.takeoverIfStale_of_kept (sl := sl) e' (by rw [halert]; rfl) hkept
  rw [hsteady.now, hsteady.ownNumber] at htakeover
  exact htakeover

theorem State.yieldTo_slot :
    ∃ sl', (s.yieldTo a owner x l p q).slot? a = some sl' ∧ sl'.art.own.flags.owning = false
      ∧ sl'.alert = { sl.alert.follow owner x l p q with
          outstanding := none
          takeover := if sl.art.staleHolder owner = true then
              some (s.now + ms (sl.art.rank s.ownNumber * 500)) else none } := by
  obtain ⟨sl', e', -, howning, halert⟩ :=
    State.yielded_slot (owner := owner) (State.withdrawAlert_slot e) rfl x l p q
  rw [State.yieldTo_eq e]
  split
  · exact ⟨_, State.slot?_modAlert e' _, howning, by rw [halert]; rfl⟩
  · exact ⟨sl', e', howning, by rw [halert]; rfl⟩

theorem State.yieldTo_hlu :
    (s.yieldTo a owner x l p q).hlu.counters[12]? = (s.hlu.counters[12]?).map (fun v => min 255 (v + 1))
      ∧ (s.yieldTo a owner x l p q).hlu.severe = s.hlu.severe := by
  obtain ⟨hcount, hsevere⟩ := (s.withdrawAlert a).yielded_counter (a := a) (owner := owner) x l p q
  rw [State.withdrawAlert_hlu] at hcount hsevere
  rw [State.yieldTo_eq e]
  split
  · exact ⟨hcount, hsevere⟩
  · exact ⟨hcount, hsevere⟩

/-- Nothing is queued any more of the frame that the record had out. -/
theorem State.yieldTo_waiting {o : Outstanding} (ho : sl.alert.outstanding = some o) :
    ∀ y ∈ (s.yieldTo a owner x l p q).bsc.waiting, y.req ≠ .alertFrame o.kind a := by
  have hbsc : (s.yieldTo a owner x l p q).bsc = ((s.withdrawAlert a).yielded a owner x l p q).bsc := by
    rw [State.yieldTo_eq e]
    split <;> rfl
  have hadd : (s.withdrawAlert a).bsc.NoNewAlert ((s.withdrawAlert a).yielded a owner x l p q).bsc :=
    State.tellOwning_noNewAlert ((s.withdrawAlert a).modAlert a _) a false
  rw [hbsc]
  intro y hy hreq
  obtain ⟨y0, hy0, hreq0⟩ := hadd _ _ ⟨y, hy, hreq⟩
  exact State.withdrawAlert_noAlert e ho y0 hy0 hreq0

end Yield

/-- Settles O45: the withdrawal, then the yielding record step by step, then what stands after it. -/
theorem reportWithPrecedenceMakesItYield : Obligations.ReportWithPrecedenceMakesItYield := by
  refine ⟨fun s r kept => s.withdraw_eq r, ?_⟩
  intro s dt heard f p sl htakes hk e hsrc hl hown hprec
  have hexec : exec (f.kind.command dt heard) s
      = .next ((s.elapse dt).yieldTo p.article f.src p.epoch p.level p.accepted p.escalated).showLamps := by
    rw [exec_report_of_takes htakes hk, State.takeReport_owning (s := s.elapse dt) e hsrc hl hown,
      if_pos (show sl.alert.yields (s.elapse dt).ownNumber f.src p.epoch = true from (Alert.yields_iff hown).mpr hprec)]
  constructor
  · rintro w _ hw rfl
    rw [hexec, State.yieldTo_eq (s := s.elapse dt) e, State.eq_withdrawAlert (s := s.elapse dt) e hw]
    exact ⟨fun h => by rw [if_neg (by simp [h])]; rfl, fun h => by rw [if_pos h]; rfl⟩
  · obtain ⟨sl', e', howning, halert⟩ :=
      State.yieldTo_slot (s := s.elapse dt) (owner := f.src) e p.epoch p.level p.accepted p.escalated
    obtain ⟨hcount, hsevere⟩ :=
      State.yieldTo_hlu (s := s.elapse dt) (owner := f.src) e p.epoch p.level p.accepted p.escalated
    have hsteady := (s.elapse dt).yieldTo_steady p.article f.src p.epoch p.level p.accepted p.escalated
    exact ⟨_, sl', hexec, e', halert, howning,
      fun o ho => State.yieldTo_waiting (s := s.elapse dt) e p.epoch p.level p.accepted p.escalated ho, hcount, hsevere,
      hsteady.now, hsteady.bays, hsteady.peers, hsteady.stc, hsteady.pending⟩

/-! ### CLEAR (R95, R96, R107, R130) -/

section Clear

variable {s : State} {a station : Nat} {sl : Slot} {x : Epoch}

theorem exec_clear_of_takes {heard : List Character} {f : Frame} (h : s.takes heard f) (hk : f.kind = .clear)
    (dt : Time) :
    exec (.clear dt heard) s
      = .next ((s.elapse dt).takeClear f.src (alertArticle f.payload) (alertEpoch f.payload)).showLamps := by
  have hdispatch : (s.elapse dt).dispatch (some .clear) f
      = (s.elapse dt).takeClear f.src (alertArticle f.payload) (alertEpoch f.payload) := by
    rw [State.dispatch, if_pos (.inr (by rw [hk])), hk]
  rw [← hdispatch]
  exact exec_dispatch_kind h hk dt

/-- The epoch of a CLEAR taken over (R95). -/
def State.adoptEpoch (s : State) (a : Nat) (x : Epoch) : State := s.modAlert a fun r => { r with epoch := x, known := true }

theorem State.takeClear_unheld (e : s.slot? a = none) : s.takeClear station a x = s := by rw [State.takeClear, e]

theorem State.takeClear_rejected (e : s.slot? a = some sl) (h : station ∉ sl.art.holders) :
    s.takeClear station a x = s := by
  simp only [State.takeClear, e]
  exact if_neg (by rwa [List.contains_iff_mem])

section Accepted

variable (e : s.slot? a = some sl) (hsrc : station ∈ sl.art.holders)
include e hsrc

theorem State.takeClear_quiet (h : sl.alert.state = .quiet) :
    s.takeClear station a x = if !sl.alert.known || newer x sl.alert.epoch then s.adoptEpoch a x else s := by
  simp only [State.takeClear, e, List.contains_iff_mem.mpr hsrc, if_true, h]
  rfl

theorem State.takeClear_owning (h : sl.alert.state = .claiming ∨ sl.alert.state = .owner) :
    s.takeClear station a x
      = if sl.alert.yields s.ownNumber station x = true then ((s.withdrawAlert a).adoptEpoch a x).enterQuiet a else s := by
  obtain h | h := h <;> simp only [State.takeClear, e, List.contains_iff_mem.mpr hsrc, if_true, h] <;> rfl

theorem State.takeClear_follower (h : sl.alert.state = .follower) :
    s.takeClear station a x
      = if newer x sl.alert.epoch || x == sl.alert.epoch then (s.adoptEpoch a x).enterQuiet a else s := by
  simp only [State.takeClear, e, List.contains_iff_mem.mpr hsrc, if_true, h]
  rfl

end Accepted

/-- A CLEAR that ends a record's episode: at an equal or newer epoch in FOLLOWER (R130), at precedence in CLAIMING and
OWNER (R107). -/
def Alert.EndedBy (r : Alert) (own station : Nat) (x : Epoch) : Prop :=
  r.state = .follower ∧ (x = r.epoch ∨ newer x r.epoch = true)
    ∨ (r.state = .claiming ∨ r.state = .owner) ∧ (newer x r.epoch = true ∨ x = r.epoch ∧ station < own)

/-- The outstanding frame of a record in CLAIMING or OWNER is withdrawn, that of another one stands. -/
def State.withdrawOwned (s : State) (a : Nat) (sl : Slot) : State :=
  if sl.alert.state = .follower then s else s.withdrawAlert a

theorem State.withdrawOwned_steady (s : State) (a : Nat) (sl : Slot) : s.Steady (s.withdrawOwned a sl) := by
  unfold State.withdrawOwned
  split
  · exact .refl s
  · exact s.withdrawAlert_steady a

theorem State.takeClear_ends (e : s.slot? a = some sl) (hsrc : station ∈ sl.art.holders)
    (h : sl.alert.EndedBy s.ownNumber station x) :
    s.takeClear station a x = ((s.withdrawOwned a sl).adoptEpoch a x).enterQuiet a := by
  obtain ⟨hf, hx⟩ | ⟨hown, hprec⟩ := h
  · have hx' : (newer x sl.alert.epoch || x == sl.alert.epoch) = true := by
      obtain hx | hx := hx <;> simp [hx]
    rw [State.takeClear_follower e hsrc hf, if_pos hx', State.withdrawOwned, if_pos hf]
  · have hf : ¬ sl.alert.state = .follower := by obtain h | h := hown <;> simp [h]
    rw [State.takeClear_owning e hsrc hown, if_pos ((Alert.yields_iff hown).mpr hprec), State.withdrawOwned, if_neg hf]

/-- The record that enters QUIET after a CLEAR. -/
theorem State.withdrawOwned_slot (e : s.slot? a = some sl) (x : Epoch) :
    ((s.withdrawOwned a sl).adoptEpoch a x).slot? a
      = some { sl with alert := { sl.alert with
          epoch := x, known := true
          outstanding := if sl.alert.state = .follower then sl.alert.outstanding else none } } := by
  unfold State.withdrawOwned
  split
  · next h => exact State.slot?_modAlert e _
  · next h => exact State.slot?_modAlert (State.withdrawAlert_slot e) _

theorem AlertState.owning_iff (x : AlertState) : x.owning = true ↔ x = .claiming ∨ x = .owner := by
  cases x <;> simp [AlertState.owning]

theorem Alert.EndedBy.owning {r : Alert} {own : Nat} (h : r.EndedBy own station x) :
    (r.state = .follower ∧ r.state.owning = false) ∨ (r.state ≠ .follower ∧ r.state.owning = true) := by
  obtain ⟨hf, -⟩ | ⟨hown, -⟩ := h
  · exact .inl ⟨hf, by rw [hf]; rfl⟩
  · exact .inr ⟨by obtain h | h := hown <;> simp [h], (AlertState.owning_iff _).mpr hown⟩

end Clear

/-- Settles O46: a CLEAR by the record's state; the episode's end goes through the entry into QUIET. -/
theorem clearEndsTheEpisode : Obligations.ClearEndsTheEpisode := by
  rintro s dt heard f _ _ htakes hk rfl rfl
  rw [exec_clear_of_takes htakes hk]
  obtain ⟨a, ha⟩ : ∃ a, a = alertArticle f.payload := ⟨_, rfl⟩
  obtain ⟨x, hx⟩ : ∃ x, x = alertEpoch f.payload := ⟨_, rfl⟩
  rw [← ha, ← hx]
  have hsteady (sl : Slot) : (s.elapse dt).Steady ((((s.elapse dt).withdrawOwned a sl).adoptEpoch a x).enterQuiet a) :=
    (((s.elapse dt).withdrawOwned_steady a sl).trans (State.modAlert_steady _ a _)).trans (State.enterQuiet_steady _ a)
  refine ⟨fun sl e hsrc hq hepoch => ?_, fun sl u e hsrc hends => ?_, fun sl _ e hsrc hrest hends => ?_,
    fun sl l _ e hsrc hr hd hl hne hends => ?_, fun h => ?_⟩
  · rw [State.takeClear_quiet (s := s.elapse dt) e hsrc hq, if_pos]
    · rfl
    · obtain h | h := hepoch <;> simp [h]
  · have hwithdraw : u = (s.elapse dt).withdrawOwned a sl ∧ sl.alert.EndedBy s.ownNumber f.src x := by
      obtain ⟨hf, hepoch, rfl⟩ | ⟨hown, hprec, hu⟩ := hends
      · exact ⟨(if_pos hf).symm, .inl ⟨hf, hepoch⟩⟩
      · have hf : ¬ sl.alert.state = .follower := by obtain h | h := hown <;> simp [h]
        refine ⟨?_, .inr ⟨hown, hprec⟩⟩
        rw [State.withdrawOwned, if_neg hf]
        obtain ⟨ho, rfl⟩ | ⟨o, ho, rfl⟩ := hu
        · exact (State.withdrawAlert_none (s := s.elapse dt) e ho).symm
        · exact (State.withdrawAlert_some (s := s.elapse dt) e ho).symm
    obtain ⟨rfl, hended⟩ := hwithdraw
    rw [State.takeClear_ends (s := s.elapse dt) e hsrc hended]
    rfl
  · have eu := State.withdrawOwned_slot (s := s.elapse dt) e x
    obtain ⟨u, hu⟩ : ∃ u, u = ((s.elapse dt).withdrawOwned a sl).adoptEpoch a x := ⟨_, rfl⟩
    have hst := hsteady sl
    rw [State.takeClear_ends (s := s.elapse dt) e hsrc hends]
    have hustc : u.stc = s.stc := by
      rw [hu]; exact ((s.elapse dt).withdrawOwned_steady a sl).stc
    rw [← hu] at eu hst ⊢
    rw [State.enterQuiet_eq eu] at hst ⊢
    obtain ⟨sl', e', ⟨o, halert, hnone⟩, hflag, hidle⟩ :=
      State.enterQuietSeeing_rests eu (n := sl.art.aggregate) (by rw [hustc]; exact hrest)
    refine ⟨_, sl', rfl, e', ?_, ?_, hst.now, hst.bays, hst.peers, hst.stc, hst.pending⟩
    · obtain ⟨hf, hidle'⟩ | ⟨hf, -⟩ := Alert.EndedBy.owning hends
      · rw [hidle hidle']
        rfl
      · rw [halert, hnone (if_neg hf), if_neg hf]
        rfl
    · intro hf
      obtain ⟨hf', -⟩ | ⟨-, howning⟩ := Alert.EndedBy.owning hends
      · exact absurd hf' hf
      · exact hflag howning
  · have eu := State.withdrawOwned_slot (s := s.elapse dt) e x
    obtain ⟨u, hu⟩ : ∃ u, u = ((s.elapse dt).withdrawOwned a sl).adoptEpoch a x := ⟨_, rfl⟩
    have hst := hsteady sl
    rw [State.takeClear_ends (s := s.elapse dt) e hsrc hends]
    have hustc : u.stc = s.stc := by
      rw [hu]; exact ((s.elapse dt).withdrawOwned_steady a sl).stc
    rw [← hu] at eu hst ⊢
    rw [State.enterQuiet_eq eu] at hst ⊢
    subst hl
    obtain ⟨sl', q, e', halert, howning⟩ :=
      State.enterQuietSeeing_claims eu (n := sl.art.aggregate) (by rw [hustc]; exact hr) hd hne
    refine ⟨_, sl', q, rfl, e', ?_, howning, hst.now, hst.bays, hst.peers, hst.stc, hst.pending⟩
    rw [halert, State.ownNumber, hustc]
    rfl
  · obtain e | ⟨sl, e, h⟩ := h
    · rw [State.takeClear_unheld (s := s.elapse dt) e]
    · by_cases hsrc : f.src ∈ sl.art.holders
      · obtain h | ⟨hq, hknown, hnew⟩ | ⟨hf, hne, hnew⟩ | ⟨hown, hnew, hprec⟩ := h
        · exact absurd hsrc h
        · rw [State.takeClear_quiet (s := s.elapse dt) e hsrc hq, if_neg (by simp [hknown, hnew])]
        · rw [State.takeClear_follower (s := s.elapse dt) e hsrc hf, if_neg (by simp [hne, hnew])]
        · rw [State.takeClear_owning (s := s.elapse dt) e hsrc hown, if_neg]
          rw [Bool.not_eq_true]
          exact Alert.yields_eq_false hown hnew hprec
      · rw [State.takeClear_rejected (s := s.elapse dt) e hsrc]

end Sys2Proof.Machine

/-! The timers of the tally unit and of the station controller (R72, R79, R80, R83, R85, R113, R141, R142, R151). -/

namespace Sys2Proof.Machine

/-! ### Article notices of an event (R72) -/

theorem filterMap_ite_some {α β : Type} (c : α → Prop) [DecidablePred c] (g : α → β) (l : List α) :
    (l.filterMap fun x => if c x then none else some (g x)) = (l.filter fun x => ¬ c x).map g := by
  induction l with
  | nil => rfl
  | cons x rest ih => by_cases h : c x <;> simp [h, ih]

theorem movedContributions_eq (before after : Article) :
    movedContributions before after
      = ((before.peers.zip after.peers).filter fun x => x.1.state ≠ x.2.state).map fun x => (x.2.holder, x.2.state) :=
  filterMap_ite_some (fun x : Contribution × Contribution => x.1.state = x.2.state) _ _

theorem movedContributions_eq_nil (before after : Article) :
    movedContributions before after = [] ↔ ∀ x ∈ before.peers.zip after.peers, x.1.state = x.2.state := by
  simp [movedContributions_eq, List.filter_eq_nil_iff]

theorem noticesBetween_eq (before after : List Slot) :
    noticesBetween before after
      = (before.zip after).filterMap fun p =>
          if p.1.art.aggregate = p.2.art.aggregate ∧ p.1.art.coverage = p.2.art.coverage
              ∧ ∀ x ∈ p.1.art.peers.zip p.2.art.peers, x.1.state = x.2.state then none
          else some (p.2.art.number, ((p.1.art.peers.zip p.2.art.peers).filter fun x => x.1.state ≠ x.2.state).map
            fun x => (x.2.holder, x.2.state)) := by
  refine List.filterMap_congr fun p _ => ?_
  rw [← movedContributions_eq, noticeOf]
  exact if_congr (and_congr_right' (and_congr_right' (movedContributions_eq_nil ..))) rfl rfl

/-! ### Contributions changed and counted anew (R71) -/

section Recounted

variable {s u t : State} {g : Contribution → Contribution}

/-- Every contribution of a station's records changed, and the totals computed anew. -/
def Slot.recounted (g : Contribution → Contribution) (sl : Slot) : Slot :=
  { sl with art := Article.recount { sl.art with peers := sl.art.peers.map g } }

theorem State.slot?_map (h : u.slots = s.slots.map (Slot.recounted g)) {a : Nat} {sl : Slot} (e : s.slot? a = some sl) :
    u.slot? a = some (sl.recounted g) := by
  have hnumber : ((fun x : Slot => x.art.number == a) ∘ Slot.recounted g) = fun x => x.art.number == a := rfl
  rw [State.slot?] at e
  rw [State.slot?, h, List.find?_map, hnumber, e]
  rfl

/-- What the alert unit does after it leaves contributions, configuration and totals. -/
theorem State.recounted_slot (h : u.slots = s.slots.map (Slot.recounted g))
    (hkept : t.slots.map (fun sl => sl.art.kept) = u.slots.map fun sl => sl.art.kept)
    (htotals : (∀ sl ∈ u.slots, sl.art.Totalled) → ∀ sl ∈ t.slots, sl.art.Totalled) {a : Nat} {sl : Slot}
    (e : s.slot? a = some sl) :
    ∃ sl', t.slot? a = some sl' ∧ sl'.art.config = sl.art.config ∧ sl'.art.aggregate = sl'.art.total
      ∧ sl'.art.coverage = sl'.art.cover ∧ sl'.art.peers = sl.art.peers.map g := by
  obtain ⟨sl', e', hsame⟩ := State.slot?_of_map (fun sl => sl.art.kept) (fun k => k.config.number) (fun _ => rfl)
    hkept.symm (State.slot?_map h e)
  have htotalled : ∀ x ∈ u.slots, x.art.Totalled := by
    rw [h]
    intro x hx
    obtain ⟨y, -, rfl⟩ := List.mem_map.mp hx
    exact ⟨rfl, rfl⟩
  obtain ⟨hagg, hcover⟩ := htotals htotalled sl' (State.slot?_some e').1
  exact ⟨sl', e', congrArg Kept.config hsame, hagg, hcover, congrArg Kept.peers hsame⟩

end Recounted

/-! ### The stale timer (R79) -/

section Stale

variable {s : State} {n : Nat} {p : Peer} {x : Time}

theorem State.sharingPeer_iff (s : State) (n : Nat) :
    s.sharingPeer n = true ↔ n ≠ s.stc.number ∧ ∃ sl ∈ s.slots, n ∈ sl.art.holders := by
  simp [State.sharingPeer, State.ownNumber]

/-- The contribution of one holder made STALE (R79). -/
def Contribution.silenceOf (n : Nat) (c : Contribution) : Contribution := if c.holder = n then { c with state := .stale } else c

theorem State.modUnlisted_silence (s : State) (n : Nat) :
    s.modUnlisted n [] Contribution.silence
      = { s with slots := s.slots.map (Slot.recounted (Contribution.silenceOf n)) } := by
  have hart (sl : Slot) : ({ sl with art := (sl.art.modContribution n Contribution.silence).recount } : Slot)
      = sl.recounted (Contribution.silenceOf n) := by
    simp only [Article.modContribution, beq_iff_eq]
    rfl
  exact congrArg (fun l => { s with slots := l }) (List.map_congr_left fun sl _ => hart sl)

/-- The peer's silence at the tally unit: its timer stopped and its contributions STALE. -/
def State.silenced (s : State) (n : Nat) : State :=
  { s.modPeer n (fun q => { q with staleTimer := none }) with
    slots := s.slots.map (Slot.recounted (Contribution.silenceOf n)) }

theorem State.staleExpires_due (e : s.peer? n = some p) (ht : p.staleTimer = some x) (hdue : x ≤ s.now) :
    s.staleExpires n
      = if s.sharingPeer n = true then
          (if (s.slots.any fun sl => sl.art.peers.any fun c => c.holder == n && c.state != .stale) = true then
            (s.silenced n).raise .holderStale n 0 else s.silenced n).giveNotices
              (noticesBetween s.slots (s.silenced n).slots)
        else s.modPeer n fun q => { q with staleTimer := none } := by
  simp only [State.staleExpires, e, Option.bind_some, ht, expired_some hdue, State.modUnlisted_silence]
  rfl

end Stale

/-- Settles O53: the two shapes a sharing peer's silence takes, and what the notices after it leave. -/
theorem staleTimerSilencesThePeer : Obligations.StaleTimerSilencesThePeer := by
  refine ⟨State.sharingPeer_iff, fun s f => ⟨rfl, rfl, fun n => ⟨rfl, rfl⟩⟩, noticesBetween_eq, fun _ _ => rfl, ?_⟩
  intro s dt n p x hheld e ht hdue
  have hnext : exec (.staleTimer dt n) s = .next ((s.elapse dt).staleExpires n).showLamps :=
    State.event_next hheld dt fun s => s.staleExpires n
  rw [State.staleExpires_due (s := s.elapse dt) e ht hdue] at hnext
  constructor
  · intro hsharing
    rw [hnext, if_neg (by rw [show (s.elapse dt).sharingPeer n = false from hsharing]; simp)]
  · intro hsharing
    rw [if_pos (show (s.elapse dt).sharingPeer n = true from hsharing)] at hnext
    obtain ⟨v, hv⟩ : ∃ v, v = if ((s.elapse dt).slots.any fun sl => sl.art.peers.any fun c =>
        c.holder == n && c.state != .stale) = true then ((s.elapse dt).silenced n).raise .holderStale n 0
        else (s.elapse dt).silenced n := ⟨_, rfl⟩
    have hchanged : ((s.elapse dt).slots.any fun sl => sl.art.peers.any fun c => c.holder == n && c.state != .stale) = true
        ↔ ∃ sl ∈ s.slots, ∃ x ∈ sl.art.peers, x.holder = n ∧ x.state ≠ .stale := by
      simp
    have hvslots : v.slots = s.slots.map (Slot.recounted (Contribution.silenceOf n)) := by
      rw [hv]; split <;> rfl
    have hvsteady : ((s.elapse dt).silenced n).Steady v := by
      rw [hv]
      split
      · exact State.raise_steady _ _ _ _
      · exact .refl _
    have hgiven := v.giveNotices_steady (noticesBetween (s.elapse dt).slots ((s.elapse dt).silenced n).slots)
    have hsteady := hvsteady.trans hgiven
    rw [← hv] at hnext
    refine ⟨_, hnext, ?_, fun a sl e => State.recounted_slot hvslots hgiven.kept hgiven.totals e, hsteady.peers, hsteady.now, hsteady.bays,
      hsteady.stc, hsteady.pending⟩
    rintro changed _ hiff rfl
    constructor
    · intro h
      rw [hv, if_pos (hchanged.mpr (hiff.mp h))]
      rfl
    · intro h
      rw [hv, if_neg (fun hc => h (hiff.mpr (hchanged.mp hc)))]
      rfl

/-! ### Beacon and DELTA timers (R83, R85, R113, R141) -/

section Beacon

variable {s : State} {a : Nat} {sl : Slot} {k : AlertKind}

theorem State.sweepRecord_again (e : s.slot? a = some sl)
    (ho : sl.alert.outstanding = some { kind := k, standing := .lost })
    (h : sl.alert.state = .claiming ∨ sl.alert.state = .owner) : s.sweepRecord a = s.requestAlert k a := by
  simp only [State.sweepRecord, e, ho, (AlertState.owning_iff _).mpr h, Bool.true_and, beq_self_eq_true, if_true]

theorem State.sweepRecord_idle (e : s.slot? a = some sl)
    (h : (∀ k, sl.alert.outstanding ≠ some { kind := k, standing := .lost })
      ∨ sl.alert.state = .quiet ∨ sl.alert.state = .follower) : s.sweepRecord a = s := by
  simp only [State.sweepRecord, e]
  cases ho : sl.alert.outstanding with
  | none => rfl
  | some o =>
    refine if_neg ?_
    rw [Bool.and_eq_true, AlertState.owning_iff, beq_iff_eq]
    rintro ⟨howning, hlost⟩
    obtain h | h | h := h
    · refine h o.kind ?_
      rw [ho, ← hlost]
    · rw [h] at howning; simp at howning
    · rw [h] at howning; simp at howning

theorem State.helloStands_iff (s : State) :
    s.helloStands = true ↔ (∃ e ∈ s.bsc.waiting, e.req = .hello)
      ∨ ∃ f, s.bsc.flight = some f ∧ (f.entry.req = .hello ∨ ∃ e, f.followOn = some e ∧ e.req = .hello) := by
  rw [State.helloStands, BusController.requests, List.contains_iff_mem, List.mem_append, List.mem_map]
  refine or_congr_right ?_
  cases s.bsc.flight with
  | none => simp
  | some f =>
    cases hf : f.followOn with
    | none => simp [hf, eq_comm]
    | some e => simp [hf, eq_comm]

theorem State.beaconHello_asks (hj : s.stc.state = .joining) (hd : s.stc.helloDone = false)
    (hs : ¬ s.helloStands = true) : s.beaconHello = s.request .hello :=
  if_pos ⟨hj, by simp [hd], hs⟩

theorem State.beaconHello_idle (h : s.stc.state ≠ .joining ∨ s.stc.helloDone = true ∨ s.helloStands = true) :
    s.beaconHello = s :=
  if_neg fun ⟨hj, hd, hs⟩ => h.elim (fun h => h hj) fun h => h.elim hd hs

end Beacon

/-- Settles O54: the sweep, the HELLO and the two timers, each by its conditions. -/
theorem beaconAndDeltaTimersRequestATally : Obligations.BeaconAndDeltaTimersRequestATally := by
  refine ⟨fun _ => rfl, fun s a sl e => ⟨fun k ho h => State.sweepRecord_again e ho h, State.sweepRecord_idle e⟩,
    fun s stands hstands => ?hello, fun s dt x hheld hdue => ?timers⟩
  case hello =>
    rw [← State.helloStands_iff] at hstands
    rw [hstands]
    exact ⟨State.beaconHello_asks, State.beaconHello_idle⟩
  case timers =>
    have beacon : s.tly.beaconTimer = some x →
        exec (.beaconTick dt) s = .next (((s.elapse dt).beaconTally x).beaconSweep.beaconHello).showLamps := by
      intro ht
      have hdue' : expired (s.elapse dt).now (s.elapse dt).tly.beaconTimer = some x :=
        (congrArg (expired (s.now + dt)) ht).trans (expired_some hdue)
      have hexec : exec (.beaconTick dt) s = execBeaconTick dt s := rfl
      rw [hexec, execBeaconTick, State.event_next hheld, hdue']
    have delta : s.tly.deltaTimer = some x → exec (.deltaTimer dt) s = .next ((s.elapse dt).deltaExpires).showLamps := by
      intro ht
      have hdue' : expired (s.elapse dt).now (s.elapse dt).tly.deltaTimer = some x :=
        (congrArg (expired (s.now + dt)) ht).trans (expired_some hdue)
      have hexec : exec (.deltaTimer dt) s = execDeltaTimer dt s := rfl
      rw [hexec, execDeltaTimer, State.event_next hheld, hdue']
    have hmarks : ({ s.elapse dt with tly := { s.tly with deltaTimer := none } } : State).changedSet.isEmpty = true
        ↔ ∀ sl ∈ s.slots, sl.art.changed = false := by
      rw [State.changedSet_isEmpty]
      simp
    refine ⟨fun ht hcount => ?_, fun ht hcount => ?_, fun ht hnone => ?_, fun ht hsome => ?_⟩
    · have hfull : decide ((s.elapse dt).tly.fullInterval ≤ (s.elapse dt).tly.beaconCount + 1) = false :=
        decide_eq_false (Nat.not_le.mpr hcount)
      rw [beacon ht, State.beaconTally, hfull]
      rfl
    · have hfull : decide ((s.elapse dt).tly.fullInterval ≤ (s.elapse dt).tly.beaconCount + 1) = true :=
        decide_eq_true hcount
      rw [beacon ht, State.beaconTally, hfull]
      rfl
    · rw [delta ht]
      exact congrArg (fun u => Host.Outcome.next (State.showLamps u)) (if_pos (hmarks.mpr hnone))
    · rw [delta ht]
      refine congrArg (fun u => Host.Outcome.next (State.showLamps u)) (if_neg fun h => ?_)
      obtain ⟨sl, hmem, hchanged⟩ := hsome
      rw [hmarks.mp h sl hmem] at hchanged
      cases hchanged

/-! ### The end of the join window (R80, R142) -/

section Window

variable {s : State}

/-- The HOLDER_STALE events of the first window, at the health unit (R80, R182). -/
def Health.takeAbsent (h : Health) (l : List (Nat × Nat)) (now : Time) : Health :=
  l.foldl (fun h x => h.take .holderStale x.1 x.2 1 now) h

theorem State.raiseAbsent_eq (s : State) (sl : Slot) :
    s.raiseAbsent sl
      = { s with
          hlu := s.hlu.takeAbsent
            ((sl.art.peers.filter fun x => x.state == .absent).map fun x => (x.holder, sl.art.number)) s.now } := by
  unfold State.raiseAbsent Health.takeAbsent
  generalize sl.art.peers.filter (fun x => x.state == .absent) = l
  induction l generalizing s with
  | nil => rfl
  | cons x rest ih => exact ih _

theorem State.raiseAbsent_foldl (l : List Slot) (s : State) :
    l.foldl State.raiseAbsent s
      = { s with
          hlu := s.hlu.takeAbsent (l.flatMap fun sl =>
            (sl.art.peers.filter fun x => x.state == .absent).map fun x => (x.holder, sl.art.number)) s.now } := by
  induction l generalizing s with
  | nil => rfl
  | cons sl rest ih =>
    rw [List.foldl_cons, State.raiseAbsent_eq, ih, List.flatMap_cons]
    simp only [Health.takeAbsent, List.foldl_append]

theorem State.endFirstWindow_later (h : s.tly.firstWindow = true) : s.endFirstWindow = s := if_pos h

/-- The first window's end, before the notices: each ABSENT contribution STALE, each with its event. -/
def State.windowEnded (s : State) : State :=
  { s with
    tly := { s.tly with firstWindow := true }
    slots := s.slots.map (Slot.recounted Contribution.endWindow)
    hlu := s.hlu.takeAbsent (s.slots.flatMap fun sl =>
      (sl.art.peers.filter fun x => x.state == .absent).map fun x => (x.holder, sl.art.number)) s.now }

theorem State.endFirstWindow_first (h : s.tly.firstWindow = false) :
    s.endFirstWindow = s.windowEnded.giveNotices (noticesBetween s.slots s.windowEnded.slots) := by
  refine (if_neg (by simp [h])).trans ?_
  exact congrArg (fun u => State.giveNotices u _) (State.raiseAbsent_foldl s.slots _)

end Window

/-- Settles O55: the window's two ends, and what notices and claim tests leave after the first one. -/
theorem joinWindowEndsInRunning : Obligations.JoinWindowEndsInRunning := by
  intro s dt x hheld hj ht hdue tested htested
  have hdue' : expired (s.elapse dt).now (s.elapse dt).stc.joinTimer = some x :=
    (congrArg (expired (s.now + dt)) ht).trans (expired_some hdue)
  have hnext : exec (.joinTimer dt) s = .next ((s.elapse dt).endJoinWindow).showLamps := by
    have hexec : exec (.joinTimer dt) s = execJoinTimer dt s := rfl
    rw [hexec, execJoinTimer, State.event_next hheld, hdue']
    exact congrArg (fun u => Host.Outcome.next (State.showLamps u)) (if_pos hj)
  constructor
  · intro hwindow
    have hend := State.endFirstWindow_later (s := { s.elapse dt with stc := { s.stc with joinTimer := none } }) hwindow
    rw [hnext, htested]
    exact congrArg (fun v => Host.Outcome.next
      (State.showLamps (State.claimTests { v with stc := { v.stc with state := .running } }))) hend
  · rintro hwindow u w hu rfl
    have hend := State.endFirstWindow_first (s := { s.elapse dt with stc := { s.stc with joinTimer := none } }) hwindow
    have hended : ({ s.elapse dt with stc := { s.stc with joinTimer := none } } : State).windowEnded = u := hu.symm
    rw [hended] at hend
    obtain ⟨w, hw⟩ : ∃ w, w = u.giveNotices (noticesBetween s.slots u.slots) := ⟨_, rfl⟩
    have hgiven : u.Steady w := hw ▸ u.giveNotices_steady _
    rw [← hw]
    have hact : (s.elapse dt).endJoinWindow = ({ w with stc := { w.stc with state := .running } } : State).claimTests := by
      rw [hw, State.endJoinWindow]
      exact congrArg (fun v => State.claimTests { v with stc := { v.stc with state := .running } }) hend
    have htests := ({ w with stc := { w.stc with state := .running } } : State).claimTests_steady
    rw [hact] at hnext
    have hslots : u.slots = s.slots.map (Slot.recounted Contribution.endWindow) := by rw [hu]; rfl
    refine ⟨_, hnext, ?_, ?_, ?_, fun a sl e => ?_, ?_, ?_, ?_, ?_⟩
    · rw [htested]
      rfl
    · refine htests.stc.trans ?_
      rw [show ({ w with stc := { w.stc with state := .running } } : State).stc = { w.stc with state := .running } from rfl,
        hgiven.stc, hu]
    · refine (congrArg TallyUnit.firstWindow htests.tly).trans ?_
      exact (congrArg TallyUnit.firstWindow hgiven.tly).trans (by rw [hu])
    · exact State.recounted_slot hslots (htests.kept.trans hgiven.kept) (fun h => htests.totals (hgiven.totals h)) e
    · exact htests.now.trans (hgiven.now.trans (by rw [hu]; rfl))
    · exact htests.bays.trans (hgiven.bays.trans (by rw [hu]; rfl))
    · exact htests.peers.trans (hgiven.peers.trans (by rw [hu]; rfl))
    · exact htests.pending.trans (hgiven.pending.trans (by rw [hu]; rfl))

end Sys2Proof.Machine

/-! The entry into JOINING after an isolation, the resets, and the first two steps of start-up (R85, R88, R140, R151, R155 to
R162). -/

namespace Sys2Proof.Machine

/-! ### Consequences of the invariant -/

section Invariant

variable {s : State}

theorem State.Sound.bsc_silent (h : s.Sound) (hs : s.speaking = false) : s.bsc.Silent ∧ s.tly.deltaTimer = none := by
  obtain ⟨-, -, -, -, -, -, -, -, -, -, hquiet, -⟩ := h
  obtain ⟨hsilent, -, hdelta⟩ := hquiet hs
  exact ⟨hsilent, hdelta⟩

theorem State.Sound.held_none (h : s.Sound) (hs : s.stc.state ≠ .strap) : s.held = none := by
  obtain ⟨-, -, -, -, -, -, -, -, -, -, -, -, -, hheld, -⟩ := h
  cases hs' : s.held with
  | none => rfl
  | some x => exact absurd (hheld (by simp [hs'])) hs

theorem State.Sound.read_none (h : s.Sound) (hs : s.stc.state ≠ .loading) : s.stc.read = none := by
  obtain ⟨-, -, -, -, -, -, ⟨-, -, -, hread, -⟩, -⟩ := h
  cases hr : s.stc.read with
  | none => rfl
  | some r => exact absurd (hread.mp (by simp [hr])) hs

theorem State.listening_of_loading (h : s.stc.state = .loading) : s.listening = false := by rw [State.listening, h]

theorem State.listening_of_strap (h : s.stc.state = .strap) : s.listening = false := by rw [State.listening, h]

/-- A station with every timer stopped keeps them stopped, whatever time passes and whatever else the station controller
holds. -/
theorem State.Still.elapse_setStc (h : s.Still) (dt : Time) {d : Controller} (hj : d.joinTimer = none)
    (hi : d.isolationTimer = none) : ({ s.elapse dt with stc := d } : State).Still :=
  ⟨h.bays, h.ready, h.peers, h.slots, h.bsc, h.beacon, h.delta, hj, hi⟩

end Invariant

/-! ### The end of an isolation (R85, R88, R140, R151) -/

/-- The delta timer as the entry into JOINING starts it. -/
theorem State.deltaTimer_joining {s : State} {timer : Option Time}
    (h : (∀ sl ∈ s.slots, sl.art.changed = false) ∧ timer = none
      ∨ (∃ sl ∈ s.slots, sl.art.changed = true)
        ∧ ((∀ c, s.tly.lastCompletion = some c → c + 250000 ≤ s.now) ∧ timer = none
          ∨ ∃ c, s.tly.lastCompletion = some c ∧ s.now < c + 250000 ∧ timer = some (c + 250000))) :
    (if s.changedSet.isEmpty = true ∨ s.deltaDue ≤ s.now then none else some s.deltaDue) = timer := by
  obtain ⟨hnone, rfl⟩ | ⟨⟨sl, hmem, hchanged⟩, ⟨hpast, rfl⟩ | ⟨c, hc, hlate, rfl⟩⟩ := h
  · have hempty : s.changedSet.isEmpty = true := by
      rw [State.changedSet_isEmpty]
      simpa using hnone
    rw [if_pos (.inl hempty)]
  · rw [if_pos (.inr (State.deltaDue_le_now hpast))]
  · have hdue : s.deltaDue = c + 250000 := by rw [State.deltaDue_of_some hc, max_eq_right hlate.le]
    rw [hdue, if_neg]
    rintro (hempty | hle)
    · rw [State.changedSet_isEmpty] at hempty
      have hnone : ∀ sl ∈ s.slots, sl.art.changed = false := by simpa using hempty
      rw [hnone sl hmem] at hchanged
      cases hchanged
    · exact Nat.not_le.mpr hlate hle

/-- Settles O56: the entry into JOINING on the empty queue of an isolation, with its delta timer. -/
theorem isolationEndsInJoining : Obligations.IsolationEndsInJoining := by
  rintro s dt x ⟨hsound, -⟩ hiso ht hdue timer htimer
  have hheld : s.held = none := hsound.held_none (by simp [hiso])
  obtain ⟨hsilent, hdelta⟩ := hsound.bsc_silent (State.speaking_of_isolated hiso)
  have hdue' : expired (s.elapse dt).now (s.elapse dt).stc.isolationTimer = some x :=
    (congrArg (expired (s.now + dt)) ht).trans (expired_some hdue)
  obtain ⟨u, hu⟩ : ∃ u : State, u = { s.elapse dt with stc := { s.stc with isolationTimer := none } } := ⟨_, rfl⟩
  have hnext : exec (.isolationTimer dt) s = .next u.enterJoining.showLamps := by
    have hexec : exec (.isolationTimer dt) s = execIsolationTimer dt s := rfl
    rw [hexec, execIsolationTimer, State.event_next hheld, hdue', hu]
    exact congrArg (fun u => Host.Outcome.next (State.showLamps u)) (if_pos hiso)
  have hjoin := State.enterJoining_eq (s := u) (by rw [hu]; exact hsilent) (by rw [hu]; exact hdelta)
  rw [State.deltaTimer_joining (s := u) (timer := timer) (by rw [hu]; exact htimer)] at hjoin
  rw [hnext, hjoin, hu]
  rfl

/-! ### Resets (R152, R155 to R157) -/

section Resets

variable {s : State} {h : HeldReset}

theorem HeldReset.cause_append (k : ResetKind) : ({ h with kinds := h.kinds ++ [k] } : HeldReset).cause = k := by
  simp [HeldReset.cause]

theorem HeldReset.lastHalt_eq (h : HeldReset) :
    h.lastHalt = if .power ∈ h.kinds then .noHalt else h.haltAtFirst := by
  simp [HeldReset.lastHalt]

theorem HeldReset.released_iff (h : HeldReset) (up : Bool) (stood : Time) :
    h.released up stood = true ↔ (.pin ∈ h.kinds → up = true) ∧ (.power ∈ h.kinds → 20000 ≤ stood) := by
  simp only [HeldReset.released, Bool.and_eq_true, Bool.or_eq_true, Bool.not_eq_true', ← Bool.not_eq_true,
    List.contains_iff_mem, decide_eq_true_iff, imp_iff_not_or]
  rfl

theorem State.assertReset_first (hheld : s.held = none) (k : ResetKind) :
    s.assertReset k
      = s.afterReset k (if k = .power then .noHalt else s.stc.halt) (some { kinds := [k], haltAtFirst := s.stc.halt }) := by
  rw [State.assertReset, hheld]
  cases k <;> rfl

theorem State.assertReset_again (hheld : s.held = some h) (k : ResetKind) :
    s.assertReset k
      = s.afterReset k (if k = .power ∨ .power ∈ h.kinds then .noHalt else h.haltAtFirst)
          (some { h with kinds := h.kinds ++ [k] }) := by
  have hmem : ResetKind.power ∈ h.kinds ++ [k] ↔ k = .power ∨ .power ∈ h.kinds := by
    rw [List.mem_append, List.mem_singleton, or_comm, eq_comm]
  have hassert : s.assertReset k = s.afterReset ({ h with kinds := h.kinds ++ [k] } : HeldReset).cause
      ({ h with kinds := h.kinds ++ [k] } : HeldReset).lastHalt (some { h with kinds := h.kinds ++ [k] }) := by
    rw [State.assertReset, hheld]
  rw [hassert, HeldReset.cause_append, HeldReset.lastHalt_eq]
  simp only [hmem]

theorem State.releaseReset_held (hheld : s.held = some h) {up : Bool} {stood : Time}
    (hreleased : ¬ h.released up stood = true) : s.releaseReset up stood = s := by
  rw [State.releaseReset, hheld]
  exact if_neg hreleased

theorem State.releaseReset_none (hheld : s.held = none) (up : Bool) (stood : Time) : s.releaseReset up stood = s := by
  rw [State.releaseReset, hheld]

/-- Under a held reset only the commands of the resets do anything (R156). -/
theorem exec_of_held {c : Instr} (hheld : s.held ≠ none) (hpower : c ≠ .powerReset) (hpin : c ≠ .pinReset)
    (hrelease : ∀ up stood, c ≠ .resetRelease up stood) : exec c s = .next s := by
  obtain ⟨now, held, channels, bays, pru, slots, peers, tly, alu, bsc, stc, hlu, lamps, freeCount, pending⟩ := s
  cases held with
  | none => exact absurd rfl hheld
  | some x =>
    cases c with
    | powerReset => exact absurd rfl hpower
    | pinReset => exact absurd rfl hpin
    | resetRelease up stood => exact absurd rfl (hrelease up stood)
    | _ => rfl

/-- A RESTART that passes the checks and is addressed to the station, in HALTED too (R49, R152). -/
theorem exec_restart_addressed {dt : Time} {heard : List Character} {f : Frame} (hheld : s.held = none)
    (hown : s.bsc.rx.own = false) (hc : (Receiver.reset.hearAll heard).check = .passed f) (hk : f.kind = .restart)
    (hdst : f.dst = s.ownNumber) (hall : f.dst ≠ 0)
    (hs : s.stc.state = .halted ∨ s.listening = true ∧ f.src ≠ s.ownNumber) :
    exec (.restart dt heard) s = .next (s.afterReset .restart s.stc.halt none).showLamps := by
  obtain hhalted | ⟨hl, hsrc⟩ := hs
  · have hfilter : (s.elapse dt).hearFrame .restart heard = (s.elapse dt).dispatch (some f.kind) f := by
      rw [State.hearFrame_other (s := s.elapse dt) hown, State.filterFrame_halted_passed (s := s.elapse dt) hhalted hc,
        if_pos ⟨.inr hdst, hk⟩, hk]
    have hexec := exec_command_next hheld .restart dt heard
    rw [hfilter, State.dispatch_restart _ hk, State.takeRestart_of_addressed (s := s.elapse dt) hdst hall] at hexec
    exact hexec
  · rw [exec_restart_of_takes ⟨hheld, hl, hown, hc, .inr hdst, hsrc⟩ hk,
      State.takeRestart_of_addressed (s := s.elapse dt) hdst hall]
    rfl

end Resets

/-- Settles O57: assertion, release and RESTART, and the commands that a held reset refuses. -/
theorem resetsPutEveryBlockAtItsResetValues : Obligations.ResetsPutEveryBlockAtItsResetValues := by
  intro s after hafter
  have hreset (cause : ResetKind) (last : HaltCause) (held : Option HeldReset) :
      after cause last held = s.afterReset cause last held := hafter cause last held
  have power : exec .powerReset s = .next (s.assertReset .power) := rfl
  have pin : exec .pinReset s = .next (s.assertReset .pin) := rfl
  simp only [hreset, power, pin, exec_resetRelease]
  refine ⟨fun hheld => ⟨?_, ?_⟩, fun h hheld => ⟨?_, ?_⟩, fun h k up stood hheld hlast => ⟨fun hr => ?_, fun hr => ?_⟩,
    fun up stood hheld => by rw [State.releaseReset_none hheld], fun c hheld hpower hpin hrelease => ?_,
    fun dt heard f hheld hown hc hk hdst hall hs => exec_restart_addressed hheld hown hc hk hdst hall hs,
    fun dt heard f htakes hk hdst => ?_⟩
  · rw [State.assertReset_first hheld]
    rfl
  · rw [State.assertReset_first hheld]
    rfl
  · rw [State.assertReset_again hheld, if_pos (.inl rfl)]
  · rw [State.assertReset_again hheld]
    simp
  · have hcause : h.cause = k := by rw [HeldReset.cause, hlast]; rfl
    rw [State.releaseReset_of_released hheld ((h.released_iff up stood).mpr hr), hcause, h.lastHalt_eq]
  · rw [State.releaseReset_held hheld (fun h' => hr ((h.released_iff up stood).mp h'))]
  · exact exec_of_held hheld hpower hpin hrelease
  · rw [exec_restart_of_takes htakes hk, State.takeRestart, if_neg (fun h => h.1 hdst)]

/-! ### The strap read (R135, R158 to R161) -/

section Straps

variable {s : State} {straps : BitVec 5}

theorem State.readStraps_starts (hs : s.stc.state = .strap) (hdue : 2000 ≤ s.now) (h1 : 1 ≤ straps.toNat)
    (h30 : straps.toNat ≤ 30) :
    s.readStraps straps
      = { s with stc := { s.stc with
            state := .loading, number := straps.toNat
            read := some { fdo := flashCommand 0, start := 0, count := 16 } } } := by
  rw [State.readStraps, if_pos ⟨hs, hdue⟩]
  exact if_pos ⟨h1, h30⟩

theorem State.readStraps_halts (hs : s.stc.state = .strap) (hdue : 2000 ≤ s.now)
    (hbad : straps.toNat = 0 ∨ straps.toNat = 31) :
    s.readStraps straps
      = ({ s with stc := { s.stc with number := straps.toNat } } : State).enterHalted .badStrap := by
  rw [State.readStraps, if_pos ⟨hs, hdue⟩]
  exact if_neg fun ⟨h1, h30⟩ => by omega

end Straps

/-- Settles O58: the number by its range, and before its time nothing. -/
theorem strapReadSetsTheNumber : Obligations.StrapReadSetsTheNumber := by
  intro s dt straps hheld
  have hnext : exec (.strapRead dt straps) s = .next ((s.elapse dt).readStraps straps).showLamps :=
    State.event_next hheld dt fun s => s.readStraps straps
  rw [hnext]
  refine ⟨fun hs hdue h1 h30 => ?_, fun hinv hs hdue hbad => ?_, fun h => ?_⟩
  · rw [State.readStraps_starts (s := s.elapse dt) hs hdue h1 h30]
    rfl
  · have hstill := hinv.1.still (State.listening_of_strap hs)
    have hread : s.stc.read = none := hinv.1.read_none (by simp [hs])
    have hhalted := State.Still.enterHalted (s := { s.elapse dt with stc := { s.stc with number := straps.toNat } })
      (hstill.elapse_setStc dt hstill.join hstill.isolation) .badStrap
    rw [State.readStraps_halts (s := s.elapse dt) hs hdue hbad]
    refine congrArg (fun u => Host.Outcome.next (State.showLamps u)) (hhalted.trans ?_)
    exact congrArg (fun read => ({ s.elapse dt with stc := { s.stc with
      state := .halted, number := straps.toNat, halt := .badStrap, read := read } } : State)) hread.symm
  · rw [State.readStraps, if_neg]
    rintro ⟨hs, hdue⟩
    exact h.elim (fun h => h hs) fun hlt => Nat.not_le.mpr hlt hdue

/-! ### The header read (R137, R160 to R162) -/

section Header

theorem flashBytes_eq {n : Nat} {bytes : List Byte} (h : bytes.length = n) : flashBytes n bytes = bytes := by
  rw [flashBytes, List.take_left' h]

theorem lengthAllowed_iff (n : Nat) : lengthAllowed n = true ↔ ∃ k, 1 ≤ k ∧ k ≤ 16 ∧ n = 336 + 20 * k := by
  simp only [lengthAllowed, Bool.and_eq_true, decide_eq_true_iff]
  constructor
  · rintro ⟨⟨hlow, hhigh⟩, hmod⟩
    exact ⟨(n - 336) / 20, by omega, by omega, by omega⟩
  · rintro ⟨k, h1, h16, rfl⟩
    omega

variable {s : State} {r : FlashRead} {bytes : List Byte}

theorem State.endHeaderRead_fails (hs : s.stc.state = .loading) (hr : s.stc.read = some r) (hstart : r.start = 0)
    {cause : HaltCause} (hfault : headerFault (flashBytes r.count bytes) = some cause) :
    s.endHeaderRead bytes = s.endRead.enterHalted cause := by
  simp only [State.endHeaderRead, hs, hr, hstart, if_true, hfault]

theorem State.endHeaderRead_goes_on (hs : s.stc.state = .loading) (hr : s.stc.read = some r) (hstart : r.start = 0)
    (hfault : headerFault (flashBytes r.count bytes) = none) :
    s.endHeaderRead bytes
      = ({ s.endRead with stc := { s.endRead.stc with header := flashBytes r.count bytes } } : State).beginRead 16
          ((readHeader (flashBytes r.count bytes)).length - 16) := by
  simp only [State.endHeaderRead, hs, hr, hstart, if_true, hfault]

theorem headerFault_signature (h : field bytes 0 4 ≠ 0x4C5A4231) : headerFault bytes = some .noImage := if_pos h

theorem headerFault_length (h : field bytes 0 4 = 0x4C5A4231)
    (hl : ∀ k, 1 ≤ k → k ≤ 16 → field bytes 6 2 ≠ 336 + 20 * k) : headerFault bytes = some .badLength := by
  have hbad : ¬ lengthAllowed (readHeader bytes).length = true := fun hall => by
    obtain ⟨k, h1, h16, heq⟩ := (lengthAllowed_iff _).mp hall
    exact hl k h1 h16 heq
  have hsignature : ¬ imageSignature bytes ≠ 0x4C5A4231 := not_not_intro h
  rw [headerFault, if_neg hsignature, if_pos hbad]

theorem headerFault_none (h : field bytes 0 4 = 0x4C5A4231) {k : Nat} (h1 : 1 ≤ k) (h16 : k ≤ 16)
    (hl : field bytes 6 2 = 336 + 20 * k) : headerFault bytes = none := by
  have hsignature : ¬ imageSignature bytes ≠ 0x4C5A4231 := not_not_intro h
  have hlength : lengthAllowed (readHeader bytes).length = true := (lengthAllowed_iff _).mpr ⟨k, h1, h16, hl⟩
  rw [headerFault, if_neg hsignature, if_neg (not_not_intro hlength)]

/-- A read that ends in HALTED, from LOADING: every timer stands stopped there. -/
theorem State.Sound.endRead_enterHalted (h : s.Sound) (hs : s.stc.state = .loading) (dt : Time) (cause : HaltCause) :
    (s.elapse dt).endRead.enterHalted cause
      = { s.elapse dt with stc := { s.stc with state := .halted, halt := cause, read := none } } := by
  have hstill := h.still (State.listening_of_loading hs)
  exact State.Still.enterHalted (s := { s.elapse dt with stc := { s.stc with read := none } })
    (hstill.elapse_setStc dt hstill.join hstill.isolation) cause

end Header

/-- Settles O59: signature, then length, then the body read. -/
theorem headerReadChecksSignatureAndLength : Obligations.HeaderReadChecksSignatureAndLength := by
  rintro s dt bytes r ⟨hsound, -⟩ hs hr hstart hcount hlen
  have hheld : s.held = none := hsound.held_none (by simp [hs])
  have hnext : exec (.headerRead dt bytes) s = .next ((s.elapse dt).endHeaderRead bytes).showLamps :=
    State.event_next hheld dt fun s => s.endHeaderRead bytes
  have hbytes : flashBytes r.count bytes = bytes := flashBytes_eq (hlen.trans hcount.symm)
  have halt {cause : HaltCause} (hfault : headerFault bytes = some cause) :
      exec (.headerRead dt bytes) s
        = .next ({ s.elapse dt with stc := { s.stc with state := .halted, halt := cause, read := none } } :
            State).showLamps := by
    rw [hnext, State.endHeaderRead_fails (s := s.elapse dt) hs hr hstart (hbytes.symm ▸ hfault),
      hsound.endRead_enterHalted hs]
  refine ⟨fun h => halt (headerFault_signature h), fun h hl => halt (headerFault_length h hl), fun k h h1 h16 hl => ?_⟩
  have hfault := headerFault_none h h1 h16 hl
  have hcount' : (readHeader bytes).length - 16 = 320 + 20 * k := by
    change field bytes 6 2 - 16 = _
    omega
  rw [hnext, State.endHeaderRead_goes_on (s := s.elapse dt) hs hr hstart (hbytes.symm ▸ hfault), hbytes, hcount']
  rfl

end Sys2Proof.Machine

/-! The body read (R7, R67, R68, R89, R160, R162 to R169, R200): the records of the image, its checks, and the tables. -/

namespace Sys2Proof.Machine

/-! ### Durations and ranges -/

theorem seconds_eq (n : Nat) : seconds n = n * 1000000 := by
  change (n * 1000 * 1000 : Nat) = n * 1000000
  omega

theorem minutes_eq (n : Nat) : minutes n = n * 60000000 := by
  change (n * 60 * 1000 * 1000 : Nat) = n * 60000000
  omega

theorem inRange_iff (low high n : Nat) : inRange low high n = true ↔ low ≤ n ∧ n ≤ high := by
  simp [inRange]

theorem inRange_one_two (n : Nat) : inRange 1 2 n = true ↔ n = 1 ∨ n = 2 := by
  rw [inRange_iff]
  omega

theorem distinct_iff (l : List Nat) : distinct l = true ↔ l.Nodup := by
  induction l with
  | nil => simp [distinct]
  | cons x rest ih => simp [distinct, ih]

/-! ### The records of an image (R168, R200) -/

section Records

variable {image : List Byte} {k address : Nat}

theorem imageBays_getElem? (hk : k < 16) (ha : address = 16 + 20 * k) :
    (imageBays image)[k]? = some (readBay ((image.drop address).take 20)) := by
  rw [imageBays, List.getElem?_map, chunks_getElem? _ _ _ _ hk, List.drop_drop, ← ha]
  rfl

theorem readBay_record (image : List Byte) (address : Nat) :
    readBay ((image.drop address).take 20)
      = { article := field image address 3, tare := field image (address + 3) 4
          tolerance := field image (address + 7) 2, capacity := field image (address + 9) 4
          disturbBand := field image (address + 13) 2, settleBand := field image (address + 15) 2
          blankCount := field image (address + 17) 1, confirmCount := field image (address + 18) 1
          settleTimeout := field image (address + 19) 1 * 1000000 } := by
  have hfield (offset width : Nat) (h : offset + width ≤ 20) :
      field ((image.drop address).take 20) offset width = field image (address + offset) width :=
    field_of_record image address 20 offset width h
  rw [readBay, hfield 0 3 (by decide), hfield 3 4 (by decide), hfield 7 2 (by decide), hfield 9 4 (by decide),
    hfield 13 2 (by decide), hfield 15 2 (by decide), hfield 17 1 (by decide), hfield 18 1 (by decide),
    hfield 19 1 (by decide), seconds_eq]
  rfl

theorem imageArticles_length (image : List Byte) : (imageArticles image).length = (field image 6 2 - 336) / 20 := by
  rw [imageArticles, List.length_map, chunks_length]
  rfl

theorem imageArticles_getElem? (hk : k < (field image 6 2 - 336) / 20) (ha : address = 336 + 20 * k) :
    (imageArticles image)[k]? = some (readArticle ((image.drop address).take 20)) := by
  have hk' : k < articleCount (readHeader image).length := hk
  rw [imageArticles, List.getElem?_map, chunks_getElem? _ _ _ _ hk', List.drop_drop, ← ha]
  rfl

theorem readArticle_record (image : List Byte) (address : Nat) :
    readArticle ((image.drop address).take 20)
      = { number := field image address 3, unitWeight := field image (address + 3) 4
          reorder := field image (address + 7) 2, margin := field image (address + 9) 2
          count := field image (address + 11) 1
          list := ((image.drop (address + 12)).take 8).map BitVec.toNat
          digest := crc16 ((image.drop address).take 20) } := by
  have hfield (offset width : Nat) (h : offset + width ≤ 20) :
      field ((image.drop address).take 20) offset width = field image (address + offset) width :=
    field_of_record image address 20 offset width h
  have hlist : (((image.drop address).take 20).drop 12).take 8 = (image.drop (address + 12)).take 8 := by
    rw [List.drop_take, List.drop_drop, List.take_take]
    rfl
  rw [readArticle, hfield 0 3 (by decide), hfield 3 4 (by decide), hfield 7 2 (by decide), hfield 9 2 (by decide),
    hfield 11 1 (by decide), hlist]
  rfl

end Records

/-! ### Table records (R7, R67, R68, R89) -/

theorem Bay.start_vacant {c : BayConfig} (h : c.article = 0) (now : Time) :
    Bay.start c now = { Bay.reset with cfg := c } := if_pos h

theorem Bay.start_disturbed {c : BayConfig} (h : c.article ≠ 0) (now : Time) :
    Bay.start c now = ({ Bay.reset with cfg := c } : Bay).enterDisturbed now := if_neg h

theorem ImageArticle.slot_changed (own : Nat) (r : ImageArticle) : (r.slot own).art.changed = false := rfl

/-! ### The checks in their order (R162 to R167) -/

section Checks

theorem ImageHeader.inRanges_iff (h : ImageHeader) :
    h.inRanges = true ↔ h.version = 1 ∧ (1 ≤ h.beacon ∧ h.beacon ≤ 60) ∧ (1 ≤ h.interval ∧ h.interval ≤ 16)
      ∧ (3 ≤ h.stale ∧ h.stale ≤ 600) ∧ (h.pairing = 1 ∨ h.pairing = 2) ∧ (1 ≤ h.window ∧ h.window ≤ 60)
      ∧ (h.mode = 1 ∨ h.mode = 2) ∧ (1 ≤ h.repeatSteps ∧ h.repeatSteps ≤ 60)
      ∧ 5 ≤ h.escalation ∧ h.escalation ≤ 240 := by
  simp only [ImageHeader.inRanges, Bool.and_eq_true, decide_eq_true_iff, inRange_one_two]
  simp only [inRange_iff, and_assoc]

theorem bayInRanges_iff (b : BayConfig) :
    bayInRanges b = true ↔ b.article ≤ 16777215 ∧ b.tare ≤ 1000000 ∧ (1 ≤ b.capacity ∧ b.capacity ≤ 1000000)
      ∧ b.tare < b.capacity ∧ (1 ≤ b.tolerance ∧ b.tolerance ≤ 65535)
      ∧ (1 ≤ b.disturbBand ∧ b.disturbBand ≤ 65535) ∧ (1 ≤ b.settleBand ∧ b.settleBand ≤ 65535)
      ∧ b.blankCount ≤ 15 ∧ (2 ≤ b.confirmCount ∧ b.confirmCount ≤ 31)
      ∧ 1000000 ≤ b.settleTimeout ∧ b.settleTimeout ≤ 120000000 := by
  simp only [bayInRanges, Bool.and_eq_true, decide_eq_true_iff, inRange_iff, seconds_eq, and_assoc, one_mul]

theorem ImageArticle.inRanges_iff (r : ImageArticle) :
    r.inRanges = true ↔ (1 ≤ r.number ∧ r.number ≤ 16777215) ∧ (1 ≤ r.unitWeight ∧ r.unitWeight ≤ 1000000)
      ∧ r.reorder ≤ 65535 ∧ (1 ≤ r.margin ∧ r.margin ≤ 1000) ∧ (1 ≤ r.count ∧ r.count ≤ 8)
      ∧ ∀ x ∈ r.list, x ≤ 30 := by
  simp only [ImageArticle.inRanges, Bool.and_eq_true, decide_eq_true_iff, inRange_iff, List.all_eq_true, and_assoc]

theorem bayCapacityFits_iff (articles : List ImageArticle) (b : BayConfig) :
    bayCapacityFits articles b = true
      ↔ ∀ r ∈ articles, r.number = b.article → b.capacity - b.tare ≤ 65535 * r.unitWeight := by
  simp only [bayCapacityFits, List.all_eq_true, Bool.or_eq_true, bne_iff_ne, decide_eq_true_iff, ← imp_iff_not_or, ne_eq]

theorem holdersFit_iff (own : Nat) (r : ImageArticle) :
    holdersFit own r = true ↔ (∀ x ∈ r.list.take r.count, x ≠ 0) ∧ (∀ x ∈ r.list.drop r.count, x = 0)
      ∧ (r.list.take r.count).Nodup ∧ own ∈ r.list.take r.count := by
  simp only [holdersFit, ImageArticle.holders, Bool.and_eq_true, List.all_eq_true, bne_iff_ne, beq_iff_eq, distinct_iff,
    List.contains_iff_mem, and_assoc]

theorem namesFit_iff (bays : List BayConfig) (articles : List ImageArticle) :
    namesFit bays articles = true ↔ (∀ b ∈ bays, b.article = 0 ∨ ∃ r ∈ articles, r.number = b.article)
      ∧ ∀ r ∈ articles, ∃ b ∈ bays, b.article = r.number := by
  simp only [namesFit, Bool.and_eq_true, List.all_eq_true, List.any_eq_true, Bool.or_eq_true, beq_iff_eq]

theorem valuesFit_iff (h : ImageHeader) (bays : List BayConfig) (articles : List ImageArticle) :
    valuesFit h bays articles = true ↔ h.inRanges = true ∧ (∀ b ∈ bays, bayInRanges b = true)
      ∧ (∀ r ∈ articles, r.inRanges = true) ∧ (articles.map ImageArticle.number).Nodup
      ∧ (∀ b ∈ bays, bayCapacityFits articles b = true) ∧ ∀ r ∈ articles, articleCapacityFits bays r = true := by
  simp only [valuesFit, Bool.and_eq_true, List.all_eq_true, distinct_iff, and_assoc]

variable {own : Nat} {image : List Byte}

theorem imageFault_eq (own : Nat) (image : List Byte) :
    imageFault own image
      = if ¬ imageCrc image = (readHeader image).crc then some .badCrc
        else if ¬ (readHeader image).station = own then some .stationMismatch
        else if ¬ valuesFit (readHeader image) (imageBays image) (imageArticles image) = true then some .badValue
        else if ¬ (imageArticles image).all (holdersFit own) = true then some .holderCount
        else if ¬ namesFit (imageBays image) (imageArticles image) = true then some .orphan
        else none := rfl

/-- Five checks in order: the first that fails, and none. -/
theorem firstFault_cases {crc station values holders names : Prop} [Decidable crc] [Decidable station]
    [Decidable values] [Decidable holders] [Decidable names] {fault : Option HaltCause}
    (h : fault = if ¬ crc then some .badCrc else if ¬ station then some .stationMismatch
      else if ¬ values then some .badValue else if ¬ holders then some .holderCount else if ¬ names then some .orphan
      else none) :
    (¬ crc → fault = some .badCrc) ∧ (crc → ¬ station → fault = some .stationMismatch)
      ∧ (crc → station → ¬ values → fault = some .badValue)
      ∧ (crc → station → values → ¬ holders → fault = some .holderCount)
      ∧ (crc → station → values → holders → ¬ names → fault = some .orphan)
      ∧ (crc → station → values → holders → names → fault = none) := by
  subst h
  refine ⟨fun hc => if_pos hc, fun hc hs => ?_, fun hc hs hv => ?_, fun hc hs hv hh => ?_, fun hc hs hv hh hn => ?_,
    fun hc hs hv hh hn => ?_⟩
  · rw [if_neg (not_not_intro hc), if_pos hs]
  · rw [if_neg (not_not_intro hc), if_neg (not_not_intro hs), if_pos hv]
  · rw [if_neg (not_not_intro hc), if_neg (not_not_intro hs), if_neg (not_not_intro hv), if_pos hh]
  · rw [if_neg (not_not_intro hc), if_neg (not_not_intro hs), if_neg (not_not_intro hv), if_neg (not_not_intro hh),
      if_pos hn]
  · rw [if_neg (not_not_intro hc), if_neg (not_not_intro hs), if_neg (not_not_intro hv), if_neg (not_not_intro hh),
      if_neg (not_not_intro hn)]

end Checks

/-! ### The end of the body read (R137, R140, R169) -/

section BodyRead

variable {s : State} {r : FlashRead} {bytes : List Byte}

theorem State.endBodyRead_fails (hs : s.stc.state = .loading) (hr : s.stc.read = some r) (hstart : r.start = 16)
    {cause : HaltCause} (hfault : imageFault s.ownNumber (s.stc.header ++ flashBytes r.count bytes) = some cause) :
    s.endBodyRead bytes = s.endRead.enterHalted cause := by
  simp only [State.endBodyRead, hs, hr, hstart, if_true, hfault]

theorem State.endBodyRead_joins (hs : s.stc.state = .loading) (hr : s.stc.read = some r) (hstart : r.start = 16)
    (hfault : imageFault s.ownNumber (s.stc.header ++ flashBytes r.count bytes) = none) :
    s.endBodyRead bytes = (s.endRead.fillTables (s.stc.header ++ flashBytes r.count bytes)).enterJoining := by
  simp only [State.endBodyRead, hs, hr, hstart, if_true, hfault]

/-- Nothing of a fresh table is marked (R67, R82). -/
theorem State.fillTables_changedSet (s : State) (image : List Byte) :
    (s.fillTables image).changedSet.isEmpty = true := by
  rw [State.changedSet_isEmpty, Bool.not_eq_true', List.any_eq_false]
  intro sl hsl
  obtain ⟨r, -, rfl⟩ := List.mem_map.mp hsl
  simp [ImageArticle.slot_changed]

theorem State.fillTables_eq (s : State) (image : List Byte) :
    s.fillTables image
      = { s with
          stc := { s.stc with header := [] }
          bays := (imageBays image).map fun c => Bay.start c s.now
          slots := (imageArticles image).map (ImageArticle.slot s.ownNumber)
          alu := { repeatInterval := (readHeader image).repeatSteps * 10000000
                   escalationTime := (readHeader image).escalation * 60000000 }
          tly := { s.tly with
            beaconPeriod := (readHeader image).beacon * 1000000, fullInterval := (readHeader image).interval
            staleTime := (readHeader image).stale * 1000000 }
          pru := { s.pru with
            enabled := decide ((readHeader image).pairing = 2), window := (readHeader image).window * 60000000
            mode := if (readHeader image).mode = 1 then .latest else .keep } } := by
  have hrepeat : seconds ((readHeader image).repeatSteps * 10) = (readHeader image).repeatSteps * 10000000 := by
    rw [seconds_eq]
    exact Nat.mul_assoc _ 10 1000000
  rw [State.fillTables, hrepeat, seconds_eq, seconds_eq, minutes_eq, minutes_eq]
  rfl

end BodyRead

/-- Settles O60: the image's records, what the tables make of them, the checks in order, and the two ends of the load. -/
theorem bodyReadHaltsOrFillsTheTables : Obligations.BodyReadHaltsOrFillsTheTables := by
  refine ⟨fun _ => rfl, fun image => ⟨imageBays_length image, imageArticles_length image, fun k address hk ha => ?bay,
    fun k address hk ha => ?article⟩, fun c now => ⟨fun h => Bay.start_vacant h now, fun h => Bay.start_disturbed h now⟩,
    ?slot, ?checks, ?read⟩
  case bay => rw [imageBays_getElem? hk ha, readBay_record]
  case article => rw [imageArticles_getElem? hk ha, readArticle_record]
  case slot =>
    rintro own r _ rfl
    simp only [ImageArticle.slot, ImageArticle.record, ImageArticle.holders, Alert.initial, List.isEmpty_iff]
  case checks =>
    rintro own image _ _ _ rfl rfl rfl crc station values holders names hcrc hstation hvalues hholders hnames
    have hvalues' : valuesFit (readHeader image) (imageBays image) (imageArticles image) = true ↔ values := by
      simp only [valuesFit_iff, ImageHeader.inRanges_iff, bayInRanges_iff, ImageArticle.inRanges_iff, bayCapacityFits_iff,
        articleCapacityFits, decide_eq_true_iff]
      exact hvalues.symm
    have hholders' : (imageArticles image).all (holdersFit own) = true ↔ holders := by
      simp only [List.all_eq_true, holdersFit_iff]
      exact hholders.symm
    have hnames' : namesFit (imageBays image) (imageArticles image) = true ↔ names :=
      (namesFit_iff _ _).trans hnames.symm
    have hcrc' : imageCrc image = (readHeader image).crc ↔ crc := hcrc.symm
    have hstation' : (readHeader image).station = own ↔ station := hstation.symm
    rw [← hcrc', ← hstation', ← hvalues', ← hholders', ← hnames']
    exact firstFault_cases (imageFault_eq own image)
  case read =>
    rintro s dt bytes r ⟨hsound, -⟩ hs hr hstart hlen _ rfl
    have hheld : s.held = none := hsound.held_none (by simp [hs])
    have hnext : exec (.bodyRead dt bytes) s = .next ((s.elapse dt).endBodyRead bytes).showLamps :=
      State.event_next hheld dt fun s => s.endBodyRead bytes
    have hbytes : flashBytes r.count bytes = bytes := flashBytes_eq hlen
    rw [hnext]
    refine ⟨fun cause hfault => ?_, fun hfault => ?_⟩
    · rw [State.endBodyRead_fails (s := s.elapse dt) hs hr hstart (hbytes.symm ▸ hfault), hsound.endRead_enterHalted hs]
    · have hspeaking : s.speaking = false := by rw [State.speaking, hs]
      obtain ⟨hsilent, hdelta⟩ := hsound.bsc_silent hspeaking
      rw [State.endBodyRead_joins (s := s.elapse dt) hs hr hstart (hbytes.symm ▸ hfault), hbytes]
      obtain ⟨image, himage⟩ : ∃ image, image = (s.elapse dt).stc.header ++ bytes := ⟨_, rfl⟩
      have hempty := (s.elapse dt).endRead.fillTables_changedSet image
      have hjoin := State.enterJoining_eq (s := (s.elapse dt).endRead.fillTables image) hsilent hdelta
      have htimer : (if ((s.elapse dt).endRead.fillTables image).changedSet.isEmpty = true
          ∨ ((s.elapse dt).endRead.fillTables image).deltaDue ≤ ((s.elapse dt).endRead.fillTables image).now then none
          else some ((s.elapse dt).endRead.fillTables image).deltaDue) = s.tly.deltaTimer := by
        rw [if_pos (.inl hempty), hdelta]
      have himage' : s.stc.header ++ bytes = image := himage.symm
      rw [htimer, State.fillTables_eq] at hjoin
      rw [← himage, State.fillTables_eq, hjoin, himage']
      rfl

end Sys2Proof.Machine

/-! The third frame abandoned in a row (R43, R44, R55, R56, R63, R88, R114, R149, R188). -/

namespace Sys2Proof.Machine

/-! ### A request that finds room -/

section Room

variable {r : Request}

/-- With no attempt in flight, a request merges or finds a slot: nothing is dropped, and no entry of another key enters. -/
theorem BusController.enter_room {b : BusController} (hf : b.flight = none)
    (h : b.waiting.any (fun e => e.req.sameKey r) = true ∨ b.used < 8) (now : Time) :
    ∃ w k, b.enter r now = ({ b with waiting := w, takenCount := k }, none)
      ∧ ∀ e ∈ w, e.req.sameKey r = false → e ∈ b.waiting := by
  cases hm : b.waiting.any (fun e => e.req.sameKey r) with
  | true =>
    refine ⟨_, b.takenCount, BusController.enter_merges hm, fun e he hkey => ?_⟩
    obtain ⟨e0, he0, rfl⟩ := List.mem_map.mp he
    by_cases hsame : e0.req.sameKey r = true
    · rw [if_pos hsame] at hkey
      have hmerged : (e0.merge r).req.key = r.key :=
        (TxEntry.merge_key hsame).trans ((Request.sameKey_iff _ _).mp hsame)
      exact absurd hmerged ((Request.sameKey_false_iff _ _).mp hkey)
    · rwa [if_neg hsame]
  | false =>
    have hroom : b.used < 8 := h.resolve_left (by simp [hm])
    refine ⟨b.waiting ++ [b.newEntry r now], b.takenCount + 1, ?_, fun e he hkey => ?_⟩
    · rw [BusController.enter_new hm (fun f h => by rw [hf] at h; cases h), BusController.enterNew_room hroom]
      rfl
    · obtain he | he := List.mem_append.mp he
      · exact he
      · rw [List.mem_singleton.mp he] at hkey
        exact absurd rfl ((Request.sameKey_false_iff _ _).mp hkey)

theorem State.enqueue_room {s : State} (hs : s.speaking = true) (hf : s.bsc.flight = none)
    (h : s.bsc.waiting.any (fun e => e.req.sameKey r) = true ∨ s.bsc.used < 8) :
    ∃ b, s.enqueue r = ({ s with bsc := b }, none) ∧ b.flight = none
      ∧ ∀ e ∈ b.waiting, e.req.sameKey r = false → e ∈ s.bsc.waiting := by
  obtain ⟨w, k, henter, hwaiting⟩ := BusController.enter_room hf h s.now
  obtain ⟨x, hbegin⟩ := (s.afterEnter { s.bsc with waiting := w, takenCount := k } none).beginDeferral_eq
  obtain ⟨y, hshorten⟩ := (s.afterEnter { s.bsc with waiting := w, takenCount := k } none).beginDeferral.shortenDeferral_eq
    (headOf s.bsc.waiting)
  refine ⟨{ s.bsc with waiting := w, takenCount := k, deferral := y }, ?_, hf, hwaiting⟩
  rw [State.enqueue_eq hs henter, hshorten, hbegin]
  rfl

/-- The slot that an abandoned frame has left, or its own follow-on, takes the request made anew. -/
theorem BusController.Sound.room {b : BusController} {f : Flight} (h : b.Sound) (hf : b.flight = some f) :
    (b.waiting ++ (f.followOn.map fun e : TxEntry => { e with failed := 0 }).toList).any
        (fun e => e.req.sameKey f.entry.req) = true
      ∨ ({ b with
          flight := none
          waiting := b.waiting ++ (f.followOn.map fun e : TxEntry => { e with failed := 0 }).toList } :
          BusController).used < 8 := by
  obtain ⟨hused, -, -, hfollow, -⟩ := h
  cases ho : f.followOn with
  | some e =>
    have hkey : e.req.sameKey f.entry.req = true :=
      (Request.sameKey_iff _ _).mpr ((Request.sameKey_iff _ _).mp (hfollow f hf e ho)).symm
    exact .inl (List.any_eq_true.mpr ⟨{ e with failed := 0 }, by simp, hkey⟩)
  | none =>
    refine .inr ?_
    have hlt : b.waiting.length + 1 ≤ 8 := by simpa [BusController.used, hf] using hused
    simpa [BusController.used] using hlt

end Room

/-! ### The notice of an abandoned frame -/

section Abandoned

variable {u : State} {r : Request} {held : Bool}

/-- What the notice of an abandoned frame leaves, when the slot is free: at most a LOST frame, one request more, and the
sending side of the batch with its SHIFT_DROP. -/
structure State.GivesUp (u N : State) (lost : List Take) : Prop where
  slots : ∃ g : Slot → Slot, N.slots = u.slots.map g ∧ ∀ x, (g x).isolated = x.isolated
  flight : N.bsc.flight = none
  hlu : N.hlu = u.hlu.dropTakes lost u.now

theorem State.GivesUp.of_same {N : State} {b : BusController} (hf : b.flight = none) (h : N = { u with bsc := b }) :
    u.GivesUp N [] := by
  subst h
  exact ⟨⟨id, (List.map_id _).symm, fun _ => rfl⟩, hf, rfl⟩

theorem Slot.isolated_lost (x : Slot) (k : AlertKind) : ({ x with alert := x.alert.lost k } : Slot).isolated = x.isolated := by
  obtain ⟨o, ho⟩ := x.alert.lost_eq k
  rw [ho.1]
  rfl

/-- The notice of a frame that is no SHIFT keeps the batch. -/
theorem State.noticeAbandoned_other (hs : u.speaking = true) (hf : u.bsc.flight = none) (hr : r ≠ .shift)
    (hroom : u.bsc.waiting.any (fun e => e.req.sameKey r) = true ∨ u.bsc.used < 8) :
    u.GivesUp (u.noticeAbandoned r held) [] ∧ (u.noticeAbandoned r held).pru = u.pru
      ∧ ∀ e ∈ (u.noticeAbandoned r held).bsc.waiting, e.req = .shift → e ∈ u.bsc.waiting := by
  have same {N : State} (h : N = u) :
      u.GivesUp N [] ∧ N.pru = u.pru ∧ ∀ e ∈ N.bsc.waiting, e.req = .shift → e ∈ u.bsc.waiting := by
    subst h
    exact ⟨.of_same hf rfl, rfl, fun _ he _ => he⟩
  cases r with
  | shift => exact absurd rfl hr
  | tally v => exact same rfl
  | query n => exact same rfl
  | alertFrame k a =>
    cases held with
    | true => exact same rfl
    | false =>
      refine ⟨⟨⟨fun x => if x.art.number == a then { x with alert := x.alert.lost k } else x, rfl, fun x => ?_⟩, hf, rfl⟩,
        rfl, fun _ he _ => he⟩
      dsimp only
      split
      · exact x.isolated_lost k
      · rfl
  | hello =>
    by_cases hj : u.stc.state = .joining ∧ ¬ u.stc.helloDone = true
    · obtain ⟨b, henqueue, hflight, hwaiting⟩ := State.enqueue_room hs hf hroom
      have hnotice : u.noticeAbandoned .hello held = { u with bsc := b } := by
        refine (if_pos hj).trans ?_
        rw [State.request_none (by rw [henqueue]), henqueue]
      rw [hnotice]
      exact ⟨.of_same hflight rfl, rfl, fun e he hshift => hwaiting e he (by rw [hshift]; rfl)⟩
    · exact same (if_neg hj)

/-- The notice of an abandoned SHIFT empties the sending side; a ready filling side takes its place (R43). -/
theorem State.noticeAbandoned_shift (hs : u.speaking = true) (hf : u.bsc.flight = none)
    (hroom : u.bsc.waiting.any (fun e => e.req.sameKey .shift) = true ∨ u.bsc.used < 8) :
    u.GivesUp (u.noticeAbandoned .shift held) u.pru.sending
      ∧ ((u.noticeAbandoned .shift held).pru.sending = [] ∨ (u.noticeAbandoned .shift held).pru.filling = [])
      ∧ (u.noticeAbandoned .shift held).pru.sending ++ (u.noticeAbandoned .shift held).pru.filling = u.pru.filling := by
  have hnotice : u.noticeAbandoned .shift held = u.shiftLost := rfl
  rw [hnotice]
  cases hr : u.pru.ready with
  | false =>
    rw [State.shiftLost_still (.inl hr), State.loseSending_eq]
    exact ⟨⟨⟨id, (List.map_id _).symm, fun _ => rfl⟩, hf, rfl⟩, .inl rfl, rfl⟩
  | true =>
    rw [State.shiftLost_moves hr hs]
    obtain ⟨w, hw⟩ : ∃ w : State, w = { u.loseSending with pru := { u.pru with
      sending := u.pru.filling, filling := [], ready := false } } := ⟨_, rfl⟩
    have hwbsc : w.bsc = u.bsc := by rw [hw]; exact u.loseSending_bsc
    have hwspeak : w.speaking = true := by rw [hw]; exact u.loseSending_sent.speaking.trans hs
    obtain ⟨b, henqueue, hflight, -⟩ := State.enqueue_room (s := w) (r := .shift) hwspeak (by rw [hwbsc]; exact hf)
      (by rw [hwbsc]; exact hroom)
    rw [← hw, State.requestShift_none (by rw [henqueue]), henqueue, hw, State.loseSending_eq]
    exact ⟨⟨⟨id, (List.map_id _).symm, fun _ => rfl⟩, hflight, rfl⟩, .inr rfl, List.append_nil _⟩

end Abandoned

/-! ### The events of the isolation at the health unit (R43, R44, R149, R188) -/

section Drops

/-- The SHIFT_DROP events of one list of records. -/
def dropsOf (l : List Take) : Nat := if l = [] then 0 else 1

/-- The health unit after the drops of three lists, with ISOLATION after the first. -/
def Health.isolates (h : Health) (l1 l2 l3 : List Take) (now : Time) : Health :=
  (((h.dropTakes l1 now).take .isolation 0 0 1 now).dropTakes l2 now).dropTakes l3 now

variable {h : Health} {l1 l2 l3 : List Take} {now : Time}

theorem Health.isolates_severe : (h.isolates l1 l2 l3 now).severe = captured h.severe .isolation 0 0 now := by
  rw [Health.isolates, (Health.dropTakes_degraded _ l3 now).severe, (Health.dropTakes_degraded _ l2 now).severe,
    Health.take_severe_of_class _ 0 0 1 now rfl, (Health.dropTakes_degraded h l1 now).severe]

theorem Health.isolates_counter (hs : h.Sound) (n : Nat) :
    (h.isolates l1 l2 l3 now).counters[n]? = (h.counters[n]?).map fun v =>
      if n = 8 then min 255 (v + (l1.length + (l2.length + l3.length))) else v := by
  have h1 := (Health.dropTakes_degraded h l1 now).sound hs
  have h2 := Health.take_sound h1 .isolation 0 0 1 now
  have h3 := (Health.dropTakes_degraded _ l2 now).sound h2
  rw [Health.isolates, Health.dropTakes_counter h3, Health.dropTakes_counter h2, Health.take_counter,
    Health.dropTakes_counter hs, Option.map_map, Option.map_map, Option.map_map]
  congr 1
  funext v
  have hindex : Counter.shiftDrop.index = 8 := rfl
  have hnone : ¬ FaultCode.isolation.counter.map Counter.index = some n := nofun
  simp only [Function.comp, hindex, hnone, if_false]
  split <;> omega

theorem Health.isolates_degrade {c : Capture} (hc : h.degrade = some c) (hle : c.further ≤ 255) :
    (h.isolates l1 l2 l3 now).degrade
      = some { c with further := min 255 (c.further + (dropsOf l1 + (dropsOf l2 + dropsOf l3))) } := by
  have h1 := Health.dropTakes_degrade hc hle l1 now
  have h2 := (Health.take_degrade_of_other (h := h.dropTakes l1 now) (code := .isolation) 0 0 1 now (by decide)).trans h1
  have h3 := Health.dropTakes_degrade h2 (Nat.min_le_left _ _) l2 now
  have h4 := Health.dropTakes_degrade h3 (Nat.min_le_left _ _) l3 now
  rw [Health.isolates, h4]
  simp only [dropsOf, Option.some.injEq, Capture.mk.injEq, true_and]
  omega

/-- The emptying of the batch, as one list or as two (R44). -/
theorem State.isolatedHealth_eq (s : State) (b : Bool) :
    ∃ l2 l3, s.isolatedHealth b = (s.hlu.dropTakes l2 s.now).dropTakes l3 s.now
      ∧ (l2 = s.pru.sending ++ s.pru.filling ∧ l3 = []
        ∨ b = true ∧ s.pru.sending ≠ [] ∧ s.pru.filling ≠ [] ∧ l2 = s.pru.sending ∧ l3 = s.pru.filling) := by
  unfold State.isolatedHealth
  split
  · next hboth =>
    simp only [Bool.and_eq_true, Bool.not_eq_true', List.isEmpty_eq_false_iff] at hboth
    obtain ⟨⟨⟨hb, hsending⟩, hfilling⟩, -⟩ := hboth
    exact ⟨_, _, rfl, .inr ⟨hb, hsending, hfilling, rfl, rfl⟩⟩
  · exact ⟨s.pru.sending ++ s.pru.filling, [], rfl, .inl ⟨rfl, rfl⟩⟩

theorem dropsOf_append (l m : List Take) : dropsOf (l ++ m) = min 1 (dropsOf l + dropsOf m) := by
  cases l <;> cases m <;> rfl

end Drops

/-! ### The entry into ISOLATED at the third abandon -/

section Third

variable {s : State} {c : Controller}

theorem State.countAbandon_third (h : s.bsc.abandonRun = 2) : s.countAbandon = s.enterIsolated := by
  have hrun : min 3 (s.bsc.abandonRun + 1) = 3 := by rw [h]; rfl
  rw [State.countAbandon, hrun]
  exact if_pos rfl

/-- A record at the entry into ISOLATED, its article marked where a TALLY in flight held it (R65, R82, R114). -/
def Slot.isolatedMarked (marked : Bool) (sl : Slot) : Slot :=
  { art := { sl.art with
      own := { sl.art.own with flags := { sl.art.own.flags with owning := false } }
      changed := sl.art.changed || marked || sl.alert.state == .claiming || sl.alert.state == .owner }
    alert := { sl.alert with
      state := .quiet, owner := none, outstanding := none, accepted := false, terminal := none
      escalated := false, claimSent := false, closing := false, claimHold := none, repeatTimer := none
      escalationTimer := none, takeover := none } }

theorem Slot.isolated_of_marked {own : Nat} {sl : Slot} (h : sl.Sound own) (marked : Bool) :
    ({ sl with art := { sl.art with changed := marked || sl.art.changed } } : Slot).isolated = sl.isolatedMarked marked := by
  obtain ⟨hart, -, -, howning⟩ := h
  cases hstate : sl.alert.state.owning with
  | true =>
    have hcondition : (sl.art.changed || marked || sl.alert.state == .claiming || sl.alert.state == .owner) = true := by
      obtain h | h := (AlertState.owning_iff _).mp hstate <;> simp [h]
    have hrecount : Article.recount { sl.art with own := sl.art.own.told false, changed := true }
        = { sl.art with own := sl.art.own.told false, changed := true } := Article.recount_flags hart (sl.art.own.told false) rfl true
    rw [Slot.isolatedMarked, hcondition, Slot.isolated, if_pos hstate]
    exact congrArg₂ Slot.mk hrecount rfl
  | false =>
    have hcondition : (sl.art.changed || marked || sl.alert.state == .claiming || sl.alert.state == .owner)
        = (marked || sl.art.changed) := by
      have hstate' : ¬ (sl.alert.state = .claiming ∨ sl.alert.state = .owner) := by
        rw [← AlertState.owning_iff, hstate]
        exact Bool.false_ne_true
      obtain ⟨hclaiming, howner⟩ := not_or.mp hstate'
      rw [beq_false_of_ne hclaiming, beq_false_of_ne howner, Bool.or_false, Bool.or_false, Bool.or_comm]
    have hown : sl.art.own = { sl.art.own with flags := { sl.art.own.flags with owning := false } } := by
      rw [← hstate, ← howning]
    rw [Slot.isolatedMarked, hcondition, Slot.isolated, if_neg (by simp [hstate]), ← hown]
    rfl

/-- The station's records as the notices of an isolation leave them. -/
theorem State.mute_slots (hf : s.bsc.flight = none) : s.mute.slots = s.slots := by
  rw [State.mute, hf, State.returnMarks_eq]
  simp

/-- The queue's requests when nothing is in flight. -/
theorem BusController.requests_none {b : BusController} (h : b.flight = none) : b.requests = b.waiting.map TxEntry.req := by
  rw [BusController.requests, h, List.append_nil]

theorem State.Live.enterIsolated_eq (h : s.Live c) (hs : s.speaking = true) (hf : s.bsc.flight = none) :
    s.enterIsolated = { s with
      stc := s.stc.isolated s.now
      bsc := { s.bsc with waiting := [], flight := none, deferral := none, abandonRun := 0 }
      tly := { s.tly with beaconTimer := none, deltaTimer := none }
      slots := s.slots.map Slot.isolated
      freeCount := s.freeCount + 1, hlu := s.mute.isolatedHealth (s.bsc.requests.contains .shift)
      pru := { s.pru with sending := [], filling := [], ready := false, readyTimer := none } } := by
  rw [(h.enterIsolated hs).1, State.mute_slots hf]
  rfl

/-- The health unit after the notice of the abandoned frame and the isolation. -/
theorem State.GivesUp.isolatedHealth {u N : State} {lost : List Take} (h : u.GivesUp N lost) (hnow : N.now = u.now)
    (b : Bool) :
    ∃ l2 l3, N.mute.isolatedHealth b = u.hlu.isolates lost l2 l3 u.now
      ∧ (l2 = N.pru.sending ++ N.pru.filling ∧ l3 = []
        ∨ b = true ∧ N.pru.sending ≠ [] ∧ N.pru.filling ≠ [] ∧ l2 = N.pru.sending ∧ l3 = N.pru.filling) := by
  obtain ⟨l2, l3, heq, hlists⟩ := N.mute.isolatedHealth_eq b
  refine ⟨l2, l3, heq.trans ?_, hlists⟩
  have hhlu : N.mute.hlu = N.hlu.take .isolation 0 0 1 N.now := rfl
  have hmutenow : N.mute.now = N.now := rfl
  rw [hhlu, hmutenow, h.hlu, hnow, Health.isolates]

theorem dropsOf_le_one (l : List Take) : dropsOf l ≤ 1 := by
  unfold dropsOf
  split <;> omega

/-- The records dropped in all, and the SHIFT_DROP events they come in, by what the abandoned frame was. -/
theorem drops_cases {r : Request} {sending filling sending' filling' lost l2 l3 : List Take} {stood : Bool}
    (hl : l2 = sending' ++ filling' ∧ l3 = []
      ∨ stood = true ∧ sending' ≠ [] ∧ filling' ≠ [] ∧ l2 = sending' ∧ l3 = filling')
    (hshift : r = .shift → lost = sending ∧ (sending' = [] ∨ filling' = []) ∧ sending' ++ filling' = filling)
    (hother : r ≠ .shift → lost = [] ∧ sending' = sending ∧ filling' = filling) :
    lost.length + (l2.length + l3.length) = (sending ++ filling).length
      ∧ (r = .shift → dropsOf lost + (dropsOf l2 + dropsOf l3) = dropsOf sending + dropsOf filling)
      ∧ (r ≠ .shift → stood = false →
        dropsOf lost + (dropsOf l2 + dropsOf l3) = min 1 (dropsOf sending + dropsOf filling))
      ∧ (r ≠ .shift → dropsOf lost + (dropsOf l2 + dropsOf l3) = min 1 (dropsOf sending + dropsOf filling)
        ∨ dropsOf lost + (dropsOf l2 + dropsOf l3) = dropsOf sending + dropsOf filling) := by
  have hnil : dropsOf [] = 0 := rfl
  by_cases hr : r = .shift
  · obtain ⟨rfl, hempty, hfill⟩ := hshift hr
    obtain ⟨rfl, rfl⟩ | ⟨-, hs, hf, -⟩ := hl
    · rw [hfill, hnil, Nat.add_zero]
      exact ⟨by simp, fun _ => rfl, fun h => absurd hr h, fun h => absurd hr h⟩
    · exact absurd hempty (not_or.mpr ⟨hs, hf⟩)
  · obtain ⟨rfl, rfl, rfl⟩ := hother hr
    obtain ⟨rfl, rfl⟩ | ⟨hstood, -, -, rfl, rfl⟩ := hl
    · rw [hnil, dropsOf_append, Nat.zero_add, Nat.add_zero]
      exact ⟨by simp, fun h => absurd h hr, fun _ _ => rfl, fun _ => .inl rfl⟩
    · rw [hnil, Nat.zero_add]
      exact ⟨by simp, fun h => absurd h hr, fun _ h => absurd (hstood.symm.trans h) Bool.noConfusion,
        fun _ => .inr rfl⟩

/-- The state at the third abandoned frame, before the notice to its requester. -/
def State.thirdAbandon (s : State) (dt : Time) (f : Flight) : State :=
  (((s.elapse dt).raise .txCollision 0 0).returnMarks f.moved).abandoned f

theorem State.thirdAbandon_eq (s : State) (dt : Time) (f : Flight) :
    s.thirdAbandon dt f = { s.elapse dt with
      bsc := { s.bsc with
        flight := none
        waiting := s.bsc.waiting ++ (f.followOn.map fun e => { e with failed := 0 }).toList }
      hlu := (s.hlu.take .txCollision 0 0 1 (s.now + dt)).take .txAbandon f.entry.req.subject f.entry.req.article 1
        (s.now + dt)
      slots := s.slots.map fun sl =>
        { sl with art := { sl.art with changed := f.moved.contains sl.art.number || sl.art.changed } } } := by
  rw [State.thirdAbandon, State.abandoned, State.leaveFlight_eq, State.returnMarks_eq]
  rfl

theorem State.Live.thirdAbandon {dt : Time} {f : Flight} (h : (s.elapse dt).Live c) (hf : s.bsc.flight = some f) :
    (s.thirdAbandon dt f).Live c :=
  (((h.raise .txCollision 0 0).returnMarks f.moved).raise .txAbandon _ _).leaveFlight hf

/-- The bus controller at the entry into ISOLATED, by what an operation of the queue leaves of the line. -/
theorem BusController.emptied_of_line {b b' : BusController} (h : b'.line = b.line) :
    ({ b' with waiting := [], flight := none, deferral := none, abandonRun := 0 } : BusController)
      = { b with waiting := [], flight := none, deferral := none, abandonRun := 0, takenCount := b'.takenCount } := by
  obtain ⟨busy, rx, waiting, flight, deferral, abandonRun, seq, takenCount⟩ := b
  simp only [BusController.line, Prod.mk.injEq] at h
  obtain ⟨hbusy, hrx, -, hseq⟩ := h
  simp only [hbusy, hrx, hseq]

/-- No SHIFT among the requests after the notice of another frame, when none was queued. -/
theorem Flight.followOn_not_shift {f : Flight} (hs : s.bsc.Sound) (hf : s.bsc.flight = some f)
    (hr : f.entry.req ≠ .shift) {e : TxEntry} (ho : f.followOn = some e) : e.req ≠ .shift := by
  obtain ⟨-, -, -, hfollow, -⟩ := hs
  intro hshift
  have hkey := hfollow f hf e ho
  rw [hshift] at hkey
  cases hreq : f.entry.req with
  | shift => exact hr hreq
  | hello | tally _ | alertFrame _ _ | query _ => rw [hreq] at hkey; cases hkey

end Third

/-- Settles O36: the notice of the abandoned frame, then the entry into ISOLATED from what it leaves. -/
theorem thirdAbandonIsolates : Obligations.ThirdAbandonIsolates := by
  rintro s dt f ⟨hsound, -⟩ hf hlast hrun
  have hspeak : s.speaking = true := by
    by_contra hmute
    have hsilent := (hsound.bsc_silent (Bool.not_eq_true _ ▸ hmute)).1.2.1
    rw [hf] at hsilent
    cases hsilent
  have hstate := s.speaking_iff.mp hspeak
  have hheld : s.held = none := hsound.held_none (by obtain h | h := hstate <;> simp [h])
  have hlisten : s.listening = true := s.listening_iff.mpr (hstate.imp_right .inl)
  have hlive : (s.elapse dt).Live s.stc :=
    (State.live_iff _ _).mpr ⟨(s.elapse_sound_iff dt).mpr hsound, rfl, hlisten⟩
  obtain ⟨u, hu⟩ : ∃ u, u = s.thirdAbandon dt f := ⟨_, rfl⟩
  have hueq := hu.trans (s.thirdAbandon_eq dt f)
  have hulive : u.Live s.stc := hu ▸ hlive.thirdAbandon hf
  have huspeak : u.speaking = true := by rw [hueq]; exact hspeak
  have huflight : u.bsc.flight = none := by rw [hueq]
  have hupru : u.pru = s.pru := by rw [hueq]; rfl
  have hroom : u.bsc.waiting.any (fun e => e.req.sameKey f.entry.req) = true ∨ u.bsc.used < 8 := by
    obtain ⟨-, -, -, -, hbsc, -⟩ := hsound
    rw [hueq]
    exact hbsc.room hf
  obtain ⟨N, hN⟩ : ∃ N, N = u.noticeAbandoned f.entry.req f.followOn.isSome := ⟨_, rfl⟩
  have hNsteady : u.Steady N := hN ▸ u.noticeAbandoned_steady _ _
  have hNlive : N.Live s.stc := hN ▸ hulive.noticeAbandoned _ _
  have hNspeak : N.speaking = true := hNsteady.speaking.trans huspeak
  obtain ⟨lost, hgives, hshift, hother, hwaiting⟩ : ∃ lost, u.GivesUp N lost
      ∧ (f.entry.req = .shift → lost = s.pru.sending ∧ (N.pru.sending = [] ∨ N.pru.filling = [])
        ∧ N.pru.sending ++ N.pru.filling = s.pru.filling)
      ∧ (f.entry.req ≠ .shift → lost = [] ∧ N.pru.sending = s.pru.sending ∧ N.pru.filling = s.pru.filling)
      ∧ (f.entry.req ≠ .shift → ∀ e ∈ N.bsc.waiting, e.req = .shift → e ∈ u.bsc.waiting) := by
    by_cases hr : f.entry.req = .shift
    · rw [hr] at hroom
      obtain ⟨hgives, hside, hfill⟩ := State.noticeAbandoned_shift (held := f.followOn.isSome) huspeak huflight hroom
      rw [← hr, ← hN] at hgives hside hfill
      rw [hupru] at hgives hfill
      exact ⟨_, hgives, fun _ => ⟨rfl, hside, hfill⟩, fun h => absurd hr h, fun h => absurd hr h⟩
    · obtain ⟨hgives, hpru, hwaiting⟩ :=
        State.noticeAbandoned_other (held := f.followOn.isSome) huspeak huflight hr hroom
      rw [← hN] at hgives hpru hwaiting
      rw [hupru] at hpru
      exact ⟨_, hgives, fun h => absurd h hr, fun _ => ⟨rfl, by rw [hpru], by rw [hpru]⟩, fun _ => hwaiting⟩
  obtain ⟨l2, l3, hhealth, hlists⟩ := hgives.isolatedHealth hNsteady.now (N.bsc.requests.contains .shift)
  obtain ⟨hlength, hdropShift, hdropOne, hdropEither⟩ := drops_cases hlists hshift hother
  have hstood : f.entry.req ≠ .shift → (∀ e ∈ s.bsc.waiting, e.req ≠ .shift) →
      N.bsc.requests.contains .shift = false := by
    intro hr hnone
    rw [BusController.requests_none hgives.flight, List.contains_eq_mem, decide_eq_false_iff_not]
    intro hmem
    obtain ⟨e, he, hshift'⟩ := List.mem_map.mp hmem
    have he' := hwaiting hr e he hshift'
    rw [hueq] at he'
    obtain he' | he' := List.mem_append.mp he'
    · exact hnone e he' hshift'
    · rw [Option.mem_toList, Option.map_eq_some_iff] at he'
      obtain ⟨x, hx, rfl⟩ := he'
      obtain ⟨-, -, -, -, hbsc, -⟩ := hsound
      exact Flight.followOn_not_shift hbsc hf hr hx hshift'
  have hisolated := hNlive.enterIsolated_eq hNspeak hgives.flight
  rw [hhealth] at hisolated
  have hnow : u.now = s.now + dt := by rw [hueq]; rfl
  have hNrun : N.bsc.abandonRun = 2 := by
    rw [hN, State.noticeAbandoned_run, hueq]
    exact hrun
  have hexec : exec (.txCollision dt) s = .next N.enterIsolated.showLamps := by
    have hquiet : N.enterIsolated.beginDeferral = N.enterIsolated :=
      State.beginDeferral_idle (.inr (.inr (.inr (.inr (by rw [hisolated])))))
    have hcollide : (s.elapse dt).collide = N.enterIsolated := by
      rw [State.collide_abandons (s := s.elapse dt) hf hlast, State.abandon_eq]
      change ((s.thirdAbandon dt f).noticeAbandoned _ _).countAbandon.beginDeferral = _
      rw [← hu, ← hN, State.countAbandon_third hNrun, hquiet]
    rw [← hcollide]
    exact State.event_next hheld dt State.collide
  have hslots : N.slots.map Slot.isolated = s.slots.map fun sl => sl.isolatedMarked (f.moved.contains sl.art.number) := by
    obtain ⟨g, hg, hsame⟩ := hgives.slots
    have huslots : u.slots = s.slots.map fun sl =>
        { sl with art := { sl.art with changed := f.moved.contains sl.art.number || sl.art.changed } } := by rw [hueq]
    rw [hg, huslots, List.map_map, List.map_map]
    refine List.map_congr_left fun sl hsl => ?_
    obtain ⟨-, -, -, -, -, -, -, -, -, hrecords, -⟩ := hsound
    exact (hsame _).trans (Slot.isolated_of_marked (hrecords sl hsl).1 _)
  rw [hslots] at hisolated
  have huhlu : u.hlu = (s.hlu.take .txCollision 0 0 1 (s.now + dt)).take .txAbandon f.entry.req.subject
      f.entry.req.article 1 (s.now + dt) := by rw [hueq]
  have hhlusound : s.hlu.Sound := by
    obtain ⟨-, -, -, hhlu, -⟩ := hsound
    exact hhlu
  have hulusound : u.hlu.Sound := hulive.hlu
  have hudegrade : u.hlu.degrade
      = captured s.hlu.degrade .txAbandon f.entry.req.subject f.entry.req.article (s.now + dt) := by rw [huhlu]; rfl
  have husevere : u.hlu.severe = s.hlu.severe := by rw [huhlu]; rfl
  have hone (l : List Take) := dropsOf_le_one l
  have hdegradeNone : s.hlu.degrade = none → (u.hlu.isolates lost l2 l3 u.now).degrade
      = some { code := .txAbandon, subject := f.entry.req.subject, article := f.entry.req.article, time := s.now + dt
               further := dropsOf lost + (dropsOf l2 + dropsOf l3) } := by
    intro hnone
    rw [hnone] at hudegrade
    rw [Health.isolates_degrade hudegrade (Nat.zero_le 255)]
    have hlost := hone lost
    have hl2 := hone l2
    have hl3 := hone l3
    simp only [Option.some.injEq, Capture.mk.injEq, true_and]
    omega
  have hNstc : N.stc = s.stc := hNsteady.stc.trans (by rw [hueq]; rfl)
  have hNnow : N.now = s.now + dt := hNsteady.now.trans hnow
  have hNpru : N.pru = { s.pru with filling := N.pru.filling, ready := N.pru.ready, sending := N.pru.sending } :=
    hNsteady.pru.trans (by rw [hupru])
  have hNtly : N.tly = { s.tly with deltaTimer := N.tly.deltaTimer } := hNsteady.tly.trans (by rw [hueq]; rfl)
  have hNline : N.bsc.line = s.bsc.line := hNsteady.line.trans (by rw [hueq]; rfl)
  obtain ⟨t, ht⟩ : ∃ t, t = N.enterIsolated.showLamps := ⟨_, rfl⟩
  rw [← ht] at hexec
  rw [hisolated] at ht
  have hthlu : t.hlu = u.hlu.isolates lost l2 l3 u.now := by rw [ht]; rfl
  have htslots : t.slots = s.slots.map fun sl => sl.isolatedMarked (f.moved.contains sl.art.number) := by rw [ht]; rfl
  refine ⟨t, hexec, ?stc, ?bsc, ?records, ?config, ?kept, ?pru, ?tly, ?severeNone, ?severeSome, ?counters, ?drops,
    htslots, ?degrade, ?now, ?channels, ?bays, ?peers, ?alu, ?unheld, ?lamps, ?pending⟩
  case stc =>
    have hstc : t.stc = N.stc.isolated N.now := by rw [ht]; rfl
    rw [hstc, hNstc, hNnow]
    rfl
  case bsc =>
    have hbsc : t.bsc = { N.bsc with waiting := [], flight := none, deferral := none, abandonRun := 0 } := by rw [ht]; rfl
    have htaken : t.bsc.takenCount = N.bsc.takenCount := by rw [hbsc]
    rw [htaken, hbsc]
    exact BusController.emptied_of_line hNline
  case records =>
    rw [htslots]
    intro sl hsl
    obtain ⟨x, -, rfl⟩ := List.mem_map.mp hsl
    exact ⟨rfl, rfl, rfl, rfl, rfl, rfl, rfl, rfl, rfl, rfl, rfl, rfl, rfl⟩
  case config =>
    rw [htslots, List.map_map]
    rfl
  case kept =>
    rw [htslots, List.map_map]
    rfl
  case pru =>
    have hpru : t.pru = { N.pru with sending := [], filling := [], ready := false, readyTimer := none } := by rw [ht]; rfl
    rw [hpru, hNpru]
  case tly =>
    have htly : t.tly = { N.tly with beaconTimer := none, deltaTimer := none } := by rw [ht]; rfl
    rw [htly, hNtly]
  case severeNone =>
    intro hnone
    rw [hthlu, Health.isolates_severe, husevere, hnone, hnow]
    rfl
  case severeSome =>
    intro c hc
    rw [hthlu, Health.isolates_severe, husevere, hc]
    rfl
  case counters =>
    intro n
    rw [hthlu, Health.isolates_counter hulusound, hlength, huhlu, Health.take_counter, Health.take_counter,
      Option.map_map, Option.map_map]
    congr 1
    funext v
    have hcollision : FaultCode.txCollision.counter.map Counter.index = some n ↔ n = 2 := by
      simp [FaultCode.counter, Counter.index, eq_comm]
    have habandon : FaultCode.txAbandon.counter.map Counter.index = some n ↔ n = 3 := by
      simp [FaultCode.counter, Counter.index, eq_comm]
    simp only [Function.comp, hcollision, habandon]
    obtain rfl | rfl | ⟨h2, h3⟩ : n = 2 ∨ n = 3 ∨ n ≠ 2 ∧ n ≠ 3 := by omega
    · simp
    · simp
    · simp [h2, h3]
  case drops =>
    refine ⟨_, _, rfl, hdropShift, fun hr hnone => hdropOne hr (hstood hr hnone), fun hr _ => hdropEither hr,
      fun c hc => ?_, fun hnone => ?_⟩
    · rw [hc] at hudegrade
      have hlost := hone lost
      have hl2 := hone l2
      have hl3 := hone l3
      rw [hthlu, Health.isolates_degrade hudegrade (Nat.min_le_left _ _)]
      simp only [Option.some.injEq, Capture.mk.injEq, true_and]
      omega
    · rw [hthlu, hdegradeNone hnone]
      cases f.entry.req <;> rfl
  case degrade =>
    intro hnone
    refine ⟨dropsOf lost + (dropsOf l2 + dropsOf l3), ?_⟩
    rw [hthlu, hdegradeNone hnone]
    cases f.entry.req <;> rfl
  case now => rw [ht]; exact hNnow
  case channels => rw [ht]; exact hNsteady.channels.trans (by rw [hueq]; rfl)
  case bays => rw [ht]; exact hNsteady.bays.trans (by rw [hueq]; rfl)
  case peers => rw [ht]; exact hNsteady.peers.trans (by rw [hueq]; rfl)
  case alu => rw [ht]; exact hNsteady.alu.trans (by rw [hueq]; rfl)
  case unheld => rw [ht]; exact hNsteady.held.trans (by rw [hueq]; exact hheld)
  case lamps => rw [ht]; rfl
  case pending => rw [ht]; exact hNsteady.pending.trans (by rw [hueq]; rfl)

end Sys2Proof.Machine

/-! HELLO at the station (R70, R81, R132, R144 to R146). -/

namespace Sys2Proof.Machine

section Hello

variable {c : Controller} {s t : State} {a source : Nat} {sl sl' : Slot}

theorem State.Heard.sharingPeer (h : s.Heard t) (n : Nat) : t.sharingPeer n = s.sharingPeer n := by
  have hany (u : State) : (u.slots.any fun sl => sl.art.holders.contains n)
      = (u.slots.map fun sl => sl.art.config).any fun k => k.holders.contains n := by
    rw [List.any_map]
    rfl
  rw [State.sharingPeer, State.sharingPeer, hany, hany, h.config, State.ownNumber, State.ownNumber, h.stc]

theorem State.Heard.speaking (h : s.Heard t) : t.speaking = s.speaking := by
  rw [State.speaking, State.speaking, h.stc]

/-! ### Digests (R145) -/

theorem State.compareDigest_disputes (e : s.slot? a = some sl) {x : Crc} (hx : sl.art.digest ≠ x)
    (hd : sl.art.disputed = false) :
    State.compareDigest source s (a, x) = (s.raise .disputed source a).markDisputed a := by
  simp only [State.compareDigest, e]
  exact if_pos ⟨hx, by simp [hd]⟩

theorem State.compareDigest_agrees (e : s.slot? a = some sl) {x : Crc} (h : sl.art.digest = x ∨ sl.art.disputed = true) :
    State.compareDigest source s (a, x) = s := by
  simp only [State.compareDigest, e]
  exact if_neg fun ⟨hx, hd⟩ => h.elim hx hd

theorem State.compareDigest_unheld (e : s.slot? a = none) (x : Crc) : State.compareDigest source s (a, x) = s := by
  simp only [State.compareDigest, e]

/-- The article record after digests were compared: DISPUTED where one differs, and the own flag with it. -/
structure Slot.Compared (sl sl' : Slot) (differs : Bool) : Prop where
  config : sl'.art.config = sl.art.config
  disputed : sl'.art.disputed = (sl.art.disputed || differs)
  flag : sl'.art.own.flags.disputed = sl'.art.disputed
  units : sl'.art.own.units = sl.art.own.units
  peers : sl'.art.peers = sl.art.peers

theorem Slot.Compared.trans {sl'' : Slot} {p q : Bool} (h : sl.Compared sl' p) (k : sl'.Compared sl'' q) :
    sl.Compared sl'' (p || q) :=
  ⟨k.config.trans h.config, by rw [k.disputed, h.disputed, Bool.or_assoc], k.flag, k.units.trans h.units,
    k.peers.trans h.peers⟩

theorem State.Live.slot_compared (h : s.Live c) (e : s.slot? a = some sl) : sl.Compared sl false := by
  obtain ⟨⟨⟨-, -, -, hflag⟩, -⟩, -⟩ := h.fits e
  exact ⟨rfl, (Bool.or_false _).symm, hflag, rfl, rfl⟩

/-- One pair of a HELLO at the record of an article. -/
theorem State.Live.compareDigest_slot (h : s.Live c) (e : s.slot? a = some sl) (source : Nat) (p : Nat × Crc) :
    ∃ sl', (State.compareDigest source s p).slot? a = some sl' ∧ sl.Compared sl' (p.1 == a && p.2 != sl.art.digest) := by
  obtain ⟨b, x⟩ := p
  cases eb : s.slot? b with
  | none =>
    have hne : b ≠ a := fun h => by rw [h, e] at eb; cases eb
    rw [State.compareDigest_unheld eb, beq_false_of_ne hne]
    exact ⟨sl, e, h.slot_compared e⟩
  | some slb =>
    by_cases hagree : slb.art.digest = x ∨ slb.art.disputed = true
    · rw [State.compareDigest_agrees eb hagree]
      by_cases hb : b = a
      · subst hb
        obtain rfl : slb = sl := Option.some.inj (eb.symm.trans e)
        obtain ⟨-, -, hflag, -, -⟩ := h.slot_compared e
        refine ⟨slb, e, rfl, ?_, hflag, rfl, rfl⟩
        obtain hx | hd := hagree
        · simp [hx]
        · simp [hd]
      · rw [beq_false_of_ne hb]
        exact ⟨sl, e, h.slot_compared e⟩
    · obtain ⟨hx, hd⟩ := not_or.mp hagree
      rw [Bool.not_eq_true] at hd
      have hraised := h.raise .disputed source b
      have eb' : (s.raise .disputed source b).slot? b = some slb := eb
      have e' : (s.raise .disputed source b).slot? a = some sl := e
      rw [State.compareDigest_disputes eb hx hd, State.markDisputed_eq hraised eb' hd]
      have hsent := ((s.raise .disputed source b).modSlot b Slot.disputedBy).startDelta_sent
      by_cases hb : b = a
      · subst hb
        obtain rfl : slb = sl := Option.some.inj (eb.symm.trans e)
        obtain ⟨sl', hslot, hart, -⟩ := hsent.slot? (State.slot?_modSlot eb' Slot.disputedBy fun _ => rfl)
        have hdiffer : (b == b && x != slb.art.digest) = true := by simp [Ne.symm hx]
        rw [hdiffer]
        exact ⟨sl', hslot, by rw [hart]; rfl, by rw [hart, Bool.or_true]; rfl, by rw [hart]; rfl, by rw [hart]; rfl,
          by rw [hart]; rfl⟩
      · obtain ⟨sl', hslot, hart, -⟩ :=
          hsent.slot? ((State.slot?_modSlot_ne (Ne.symm hb) Slot.disputedBy fun _ => rfl).trans e')
        obtain ⟨-, -, hflag, -, -⟩ := h.slot_compared e
        rw [beq_false_of_ne hb, Bool.false_and]
        exact ⟨sl', hslot, by rw [hart], by rw [hart, Bool.or_false], by rw [hart]; exact hflag, by rw [hart], by rw [hart]⟩

theorem State.Live.compareDigest_peers (h : s.Live c) (source : Nat) (p : Nat × Crc) :
    (State.compareDigest source s p).peers = s.peers := by
  obtain ⟨b, x⟩ := p
  cases eb : s.slot? b with
  | none => rw [State.compareDigest_unheld eb]
  | some slb =>
    by_cases hagree : slb.art.digest = x ∨ slb.art.disputed = true
    · rw [State.compareDigest_agrees eb hagree]
    · obtain ⟨hx, hd⟩ := not_or.mp hagree
      rw [Bool.not_eq_true] at hd
      rw [State.compareDigest_disputes eb hx hd, State.markDisputed_eq (h.raise .disputed source b) eb hd]
      exact ((s.raise .disputed source b).modSlot b Slot.disputedBy).startDelta_sent.peers

/-- All pairs of a HELLO. -/
theorem State.Live.compareDigests (source : Nat) (l : List (Nat × Crc)) {s : State} (h : s.Live c) :
    (l.foldl (State.compareDigest source) s).peers = s.peers
      ∧ ∀ a sl, s.slot? a = some sl → ∃ sl', (l.foldl (State.compareDigest source) s).slot? a = some sl'
        ∧ sl.Compared sl' (l.any fun p => p.1 == a && p.2 != sl.art.digest) := by
  induction l generalizing s with
  | nil => exact ⟨rfl, fun a sl e => ⟨sl, e, h.slot_compared e⟩⟩
  | cons p rest ih =>
    obtain ⟨hpeers, hslots⟩ := ih (h.compareDigest source p)
    refine ⟨hpeers.trans (h.compareDigest_peers source p), fun a sl e => ?_⟩
    obtain ⟨sl1, e1, h1⟩ := h.compareDigest_slot e source p
    obtain ⟨sl2, e2, h2⟩ := hslots a sl1 e1
    have hdigest : sl1.art.digest = sl.art.digest := congrArg ArticleConfig.digest h1.config
    rw [hdigest] at h2
    exact ⟨sl2, e2, h1.trans h2⟩

/-! ### The re-send (R132) -/

theorem State.resendRecord_sends (e : s.slot? a = some sl) (ho : sl.alert.state = .owner)
    (hsrc : source ∈ sl.art.holders) (hc : sl.alert.closing = false) :
    State.resendRecord source s a = s.requestAlert .alert a := by
  simp only [State.resendRecord, e]
  exact if_pos ⟨ho, List.contains_iff_mem.mpr hsrc, by simp [hc]⟩

theorem State.resendRecord_idle (e : s.slot? a = some sl)
    (h : sl.alert.state ≠ .owner ∨ source ∉ sl.art.holders ∨ sl.alert.closing = true) :
    State.resendRecord source s a = s := by
  simp only [State.resendRecord, e]
  refine if_neg fun ⟨ho, hsrc, hc⟩ => ?_
  obtain h | h | h := h
  · exact h ho
  · exact h (List.contains_iff_mem.mp hsrc)
  · exact hc h

/-! ### The arrival (R144) -/

theorem exec_hello_of_takes {heard : List Character} {f : Frame} (h : s.takes heard f) (hk : f.kind = .hello)
    (dt : Time) :
    exec (.hello dt heard) s = .next ((s.elapse dt).takeHello f.src (helloPairs f.payload)).showLamps := by
  have hdispatch : (s.elapse dt).dispatch (some .hello) f = (s.elapse dt).takeHello f.src (helloPairs f.payload) := by
    rw [State.dispatch, if_pos (.inr (by rw [hk])), hk]
  rw [← hdispatch]
  exact exec_dispatch_kind h hk dt

theorem State.disputes_eq (s : State) (p : Nat × Crc) :
    s.disputes p = (s.slot? p.1).any fun sl => sl.art.digest != p.2 && !sl.art.disputed := by
  unfold State.disputes
  cases s.slot? p.1 <;> rfl

/-- The HELLO in reply (R146). -/
def State.helloReply (s : State) (source : Nat) (pairs : List (Nat × Crc)) : State :=
  if s.speaking && pairs.any (fun p => (s.slot? p.1).any fun sl => sl.art.digest != p.2 && !sl.art.disputed) then
    (pairs.foldl (State.compareDigest source) s).request .hello
  else pairs.foldl (State.compareDigest source) s

/-- The sender's baseline absent, and the FULL for a sharing peer (R81). -/
def State.helloFull (s : State) (source : Nat) : State :=
  if s.speaking && s.sharingPeer source then
    (s.modPeer source fun p => { p with baseline := none }).request (.tally .full)
  else s.modPeer source fun p => { p with baseline := none }

theorem State.takeHello_eq (s : State) (source : Nat) (pairs : List (Nat × Crc)) :
    s.takeHello source pairs = ((s.helloReply source pairs).helloFull source).resendAlerts source := by
  have hreply : (if pairs.any s.disputes && s.speaking then (pairs.foldl (State.compareDigest source) s).request .hello
      else pairs.foldl (State.compareDigest source) s) = s.helloReply source pairs := by
    rw [State.helloReply, Bool.and_comm]
    simp only [← State.disputes_eq]
  have hfull (u : State) : u.helloTally source = u.helloFull source := by
    rw [State.helloFull, Bool.and_comm]
    rfl
  rw [State.takeHello, hreply, hfull]

theorem State.helloReply_heard (s : State) (source : Nat) (pairs : List (Nat × Crc)) :
    s.Heard (s.helloReply source pairs) := by
  have hdigests := State.foldl_heard _ (State.compareDigest_heard source) pairs s
  unfold State.helloReply
  split
  · exact hdigests.trans (State.request_steady _ _).heard
  · exact hdigests

/-- From the digests on, records and peers move no more but for the sender's baseline. -/
theorem State.helloFull_sent (s : State) (source : Nat) :
    (s.modPeer source fun p => { p with baseline := none }).Sent (s.helloFull source) := by
  unfold State.helloFull
  split
  · exact State.request_sent _ _
  · exact State.Sent.refl _

theorem State.helloReply_sent (s : State) (source : Nat) (pairs : List (Nat × Crc)) :
    (pairs.foldl (State.compareDigest source) s).Sent (s.helloReply source pairs) := by
  unfold State.helloReply
  split
  · exact State.request_sent _ _
  · exact State.Sent.refl _

/-- The record of an article after the whole HELLO. -/
theorem State.Live.takeHello_slot (h : s.Live c) (source : Nat) (pairs : List (Nat × Crc)) (e : s.slot? a = some sl) :
    ∃ sl', (s.takeHello source pairs).slot? a = some sl'
      ∧ sl.Compared sl' (pairs.any fun p => p.1 == a && p.2 != sl.art.digest) := by
  obtain ⟨sl1, e1, h1⟩ := (h.compareDigests source pairs).2 a sl e
  obtain ⟨sl2, e2, hart2, -⟩ := (s.helloReply_sent source pairs).slot? e1
  have e2' : ((s.helloReply source pairs).modPeer source fun p => { p with baseline := none }).slot? a = some sl2 := e2
  obtain ⟨sl3, e3, hart3, -⟩ := ((s.helloReply source pairs).helloFull_sent source).slot? e2'
  obtain ⟨sl4, e4, hkept⟩ := (State.resendAlerts_steady ((s.helloReply source pairs).helloFull source) source).slot?' e3
  rw [hart3, hart2] at hkept
  rw [State.takeHello_eq]
  refine ⟨sl4, e4, (congrArg Kept.config hkept).trans h1.config, (congrArg Kept.disputed hkept).trans h1.disputed, ?_,
    (congrArg (fun k => k.own.units) hkept).trans h1.units, (congrArg Kept.peers hkept).trans h1.peers⟩
  exact (congrArg (fun k => k.own.flags.disputed) hkept).trans (h1.flag.trans (congrArg Kept.disputed hkept).symm)

theorem State.Live.takeHello_peers (h : s.Live c) (source : Nat) (pairs : List (Nat × Crc)) :
    (s.takeHello source pairs).peers = (s.modPeer source fun p => { p with baseline := none }).peers := by
  have hreply : (s.helloReply source pairs).peers = s.peers :=
    (s.helloReply_sent source pairs).peers.trans (h.compareDigests source pairs).1
  rw [State.takeHello_eq, (State.resendAlerts_steady _ source).peers,
    ((s.helloReply source pairs).helloFull_sent source).peers]
  simp only [State.modPeer, hreply]

end Hello

/-- Settles O42: digests, then the three kinds of request in their order. -/
theorem helloMarksDisputesAndClearsTheBaseline : Obligations.HelloMarksDisputesAndClearsTheBaseline := by
  refine ⟨fun s dt heard f hinv htakes hk => ?arrival, fun _ _ => rfl,
    fun s source a sl e => ⟨fun x => State.compareDigest_disputes e, fun x => State.compareDigest_agrees e,
      State.resendRecord_sends e, State.resendRecord_idle e⟩⟩
  case arrival =>
    have hlisten : s.listening = true := by
      obtain ⟨-, hlisten, -⟩ := htakes
      exact hlisten
    have hlive : (s.elapse dt).Live s.stc := (State.live_iff _ _).mpr ⟨(s.elapse_sound_iff dt).mpr hinv.1, rfl, hlisten⟩
    have hheard := (s.elapse dt).takeHello_heard f.src (helloPairs f.payload)
    have hpending : ((s.elapse dt).takeHello f.src (helloPairs f.payload)).pru.pendingTakes = s.pru.pendingTakes := by
      rw [hheard.pru]
      rfl
    refine ⟨_, exec_hello_of_takes htakes hk dt, fun a sl e => ?_, hlive.takeHello_peers f.src _, ?_, hheard.now,
      hheard.bays, hheard.stc, hpending, congrArg (fun l => l.2.2.2) hheard.line,
      hheard.pending⟩
    · obtain ⟨sl', e', hcompared⟩ := hlive.takeHello_slot f.src (helloPairs f.payload) (a := a) (sl := sl) e
      exact ⟨sl', e', hcompared.config, hcompared.disputed, hcompared.flag, hcompared.units, hcompared.peers⟩
    · rintro _ v w rfl hv hw
      have hreply : v = (s.elapse dt).helloReply f.src (helloPairs f.payload) := hv
      have hreplied := (s.elapse dt).helloReply_heard f.src (helloPairs f.payload)
      have hspeaking : v.speaking = s.speaking := by rw [hreply]; exact hreplied.speaking
      have hsharing : v.sharingPeer f.src = s.sharingPeer f.src := by rw [hreply]; exact hreplied.sharingPeer f.src
      have hfull : w = v.helloFull f.src := by rw [hw, State.helloFull, hspeaking, hsharing]
      rw [State.takeHello_eq, ← hreply, ← hfull]
      rfl

end Sys2Proof.Machine

/-! TALLY at the station (R71, R72, R74 to R78, R95, R102, R106, R131, R182). -/

namespace Sys2Proof.Machine

/-! ### An entry at the alert unit (R95, R102, R106, R131) -/

section Entry

variable {s : State} {station n : Nat} {e : TallyEntry} {sl : Slot} {x : Epoch} (h : s.slot? e.article = some sl)
include h

theorem State.takeEntry_quiet (hs : sl.alert.state = .quiet) (hx : e.epoch = some x) :
    s.takeEntry station e n
      = if !sl.alert.known || newer x sl.alert.epoch then s.adoptEpoch e.article x else s := by
  simp only [State.takeEntry, h, hs, hx]
  rfl

theorem State.takeEntry_quiet_unknown (hs : sl.alert.state = .quiet) (hx : e.epoch = none) :
    s.takeEntry station e n = s := by
  simp only [State.takeEntry, h, hs, hx]

theorem State.takeEntry_owning (hs : sl.alert.state = .claiming ∨ sl.alert.state = .owner) (hx : e.epoch = some x) :
    s.takeEntry station e n
      = if e.flags.owning && sl.alert.yields s.ownNumber station x then
          s.yieldTo e.article station x (if sl.alert.level = .none then .low else sl.alert.level) false false
        else s := by
  obtain hs | hs := hs <;> simp only [State.takeEntry, h, hs, hx]

theorem State.takeEntry_owning_unknown (hs : sl.alert.state = .claiming ∨ sl.alert.state = .owner)
    (hx : e.epoch = none) : s.takeEntry station e n = s := by
  obtain hs | hs := hs <;> simp only [State.takeEntry, h, hs, hx]

theorem State.takeEntry_owner_owning (hs : sl.alert.state = .follower) (ho : sl.alert.owner = some station)
    (hf : e.flags.owning = true) (hx : e.epoch = some x) :
    s.takeEntry station e n
      = if newer x sl.alert.epoch = true then
          s.modAlert e.article fun r => { r with epoch := x, accepted := false, terminal := none, escalated := false }
        else s := by
  simp only [State.takeEntry, h, hs, ho, hf, hx, if_true]

theorem State.takeEntry_owner_unknown (hs : sl.alert.state = .follower) (ho : sl.alert.owner = some station)
    (hf : e.flags.owning = true) (hx : e.epoch = none) : s.takeEntry station e n = s := by
  simp only [State.takeEntry, h, hs, ho, hf, hx, if_true]

theorem State.takeEntry_owner_gone (hs : sl.alert.state = .follower) (ho : sl.alert.owner = some station)
    (hf : e.flags.owning = false) (hx : e.epoch = some x) :
    s.takeEntry station e n
      = (if newer x sl.alert.epoch = true then s.modAlert e.article fun r => { r with epoch := x } else s).enterQuietSeeing
          e.article n := by
  simp only [State.takeEntry, h, hs, ho, hf, hx, if_true, Bool.false_eq_true, if_false]

theorem State.takeEntry_owner_gone_unknown (hs : sl.alert.state = .follower) (ho : sl.alert.owner = some station)
    (hf : e.flags.owning = false) (hx : e.epoch = none) :
    s.takeEntry station e n = s.enterQuietSeeing e.article n := by
  simp only [State.takeEntry, h, hs, ho, hf, hx, if_true, Bool.false_eq_true, if_false]

theorem State.takeEntry_contender (hs : sl.alert.state = .follower) (ho : ¬ sl.alert.owner = some station)
    (hx : e.epoch = some x) :
    s.takeEntry station e n
      = if e.flags.owning && sl.alert.yields s.ownNumber station x then
          s.followStation e.article station x sl.alert.level false false
        else s := by
  simp only [State.takeEntry, h, hs, ho, hx, if_false]

theorem State.takeEntry_contender_unknown (hs : sl.alert.state = .follower) (ho : ¬ sl.alert.owner = some station)
    (hx : e.epoch = none) : s.takeEntry station e n = s := by
  simp only [State.takeEntry, h, hs, ho, hx, if_false]

end Entry

/-! ### The sender's contributions (R71, R74, R75, R77) -/

section Contributions

variable {c : Controller} {s : State} {a source : Nat} {sl : Slot}

/-- The contribution of the sender as an entry sets it, every other as it stands (R74). -/
def Contribution.reported (source : Nat) (o : Option TallyEntry) (x : Contribution) : Contribution :=
  if x.holder = source then o.elim x fun e => { x with units := e.units, state := .fresh } else x

theorem Contribution.reported_other {x : Contribution} (h : x.holder ≠ source) (o : Option TallyEntry) :
    x.reported source o = x := if_neg h

theorem Contribution.reported_reported (x : Contribution) (o o' : Option TallyEntry) :
    (x.reported source o).reported source o' = x.reported source (o'.or o) := by
  by_cases h : x.holder = source
  · cases o <;> cases o' <;> simp [Contribution.reported, h]
  · rw [Contribution.reported_other h, Contribution.reported_other h, Contribution.reported_other h]

/-- The entry of an article that is taken last. -/
def entryFor (l : List TallyEntry) (a : Nat) : Option TallyEntry := l.reverse.find? fun e => e.article == a

theorem entryFor_cons (x : TallyEntry) (rest : List TallyEntry) (a : Nat) :
    entryFor (x :: rest) a = (entryFor rest a).or (if x.article = a then some x else none) := by
  simp only [entryFor, List.reverse_cons, List.find?_append, List.find?_singleton, beq_iff_eq]

theorem entryFor_isSome {l : List TallyEntry} : (entryFor l a).isSome = true ↔ ∃ e ∈ l, e.article = a := by
  simp [entryFor, List.find?_isSome]

/-- No contribution is one of a station outside the holder list. -/
theorem Article.Sound.holder_ne {own : Nat} {r : Article} (h : r.Sound own) (hs : source ∉ r.holders) :
    ∀ x ∈ r.peers, x.holder ≠ source := by
  obtain ⟨hholders, -⟩ := h
  rintro x hx rfl
  have hmem : x.holder ∈ r.peers.map Contribution.holder := List.mem_map_of_mem hx
  rw [hholders] at hmem
  exact hs (List.mem_filter.mp hmem).1

theorem Article.Sound.map_other {own : Nat} {r : Article} (h : r.Sound own) (hs : source ∉ r.holders)
    {g : Contribution → Contribution} (hg : ∀ x, x.holder ≠ source → g x = x) : r.peers.map g = r.peers := by
  conv_rhs => rw [← List.map_id r.peers]
  exact List.map_congr_left fun x hx => hg x (h.holder_ne hs x hx)

theorem Article.modContribution_peers (r : Article) (source : Nat) (f : Contribution → Contribution) :
    (r.modContribution source f).peers = r.peers.map fun x => if x.holder = source then f x else x := by
  simp only [Article.modContribution, beq_iff_eq]

theorem State.tallyEntry_unheld {e : TallyEntry} (h : s.slot? e.article = none) : State.tallyEntry source s e = s := by
  simp only [State.tallyEntry, h]

theorem State.tallyEntry_taken {e : TallyEntry} (h : s.slot? e.article = some sl) (hs : source ∈ sl.art.holders) :
    State.tallyEntry source s e
      = s.modArticle e.article fun r =>
          (r.modContribution source fun x => { x with units := e.units, state := .fresh }).recount := by
  simp only [State.tallyEntry, h]
  exact if_pos (List.contains_iff_mem.mpr hs)

theorem State.tallyEntry_unlisted {e : TallyEntry} (h : s.slot? e.article = some sl) (hs : source ∉ sl.art.holders) :
    State.tallyEntry source s e = s.raise .unlistedHolder source e.article := by
  simp only [State.tallyEntry, h]
  exact if_neg (by rwa [List.contains_iff_mem])

theorem State.slot?_modArticle_ne {b : Nat} (h : a ≠ b) (f : Article → Article) (hf : ∀ r, (f r).number = r.number) :
    (s.modArticle b f).slot? a = s.slot? a :=
  State.slot?_modSlot_ne h _ fun _ => hf _

/-- One entry at the record of an article. -/
theorem State.Live.tallyEntry_slot (h : s.Live c) (e : s.slot? a = some sl) (source : Nat) (x : TallyEntry) :
    ∃ sl', (State.tallyEntry source s x).slot? a = some sl' ∧ sl'.art.config = sl.art.config
      ∧ sl'.art.peers = sl.art.peers.map (Contribution.reported source (if x.article = a then some x else none)) := by
  have hnone : sl.art.peers.map (Contribution.reported source none) = sl.art.peers := by
    conv_rhs => rw [← List.map_id sl.art.peers]
    exact List.map_congr_left fun y _ => by simp [Contribution.reported]
  cases ex : s.slot? x.article with
  | none =>
    have hne : ¬ x.article = a := fun hxa => by rw [hxa, e] at ex; cases ex
    rw [State.tallyEntry_unheld ex, if_neg hne, hnone]
    exact ⟨sl, e, rfl, rfl⟩
  | some slx =>
    by_cases hs : source ∈ slx.art.holders
    · rw [State.tallyEntry_taken ex hs]
      by_cases hxa : x.article = a
      · rw [if_pos hxa, hxa]
        refine ⟨_, State.slot?_modArticle e _ fun _ => rfl, rfl, ?_⟩
        exact Article.modContribution_peers ..
      · rw [if_neg hxa, hnone]
        refine ⟨sl, ?_, rfl, rfl⟩
        rw [State.slot?_modArticle_ne (Ne.symm hxa)]
        · exact e
        · exact fun _ => rfl
    · rw [State.tallyEntry_unlisted ex hs]
      refine ⟨sl, e, rfl, ?_⟩
      split
      · next hxa =>
        obtain rfl : slx = sl := Option.some.inj (ex.symm.trans (hxa ▸ e))
        exact ((h.fits e).1.1.map_other hs fun y hy => Contribution.reported_other hy _).symm
      · exact hnone.symm

theorem State.Live.tallyEntries_slot (source : Nat) (l : List TallyEntry) {s : State} (h : s.Live c) {sl : Slot}
    (e : s.slot? a = some sl) :
    ∃ sl', (l.foldl (State.tallyEntry source) s).slot? a = some sl' ∧ sl'.art.config = sl.art.config
      ∧ sl'.art.peers = sl.art.peers.map (Contribution.reported source (entryFor l a)) := by
  induction l generalizing s sl with
  | nil =>
    refine ⟨sl, e, rfl, ?_⟩
    conv_lhs => rw [← List.map_id sl.art.peers]
    exact List.map_congr_left fun y _ => by simp [Contribution.reported, entryFor]
  | cons x rest ih =>
    obtain ⟨sl1, e1, hconfig1, hpeers1⟩ := h.tallyEntry_slot e source x
    obtain ⟨sl2, e2, hconfig2, hpeers2⟩ := ih (h.tallyEntry source x) e1
    refine ⟨sl2, e2, hconfig2.trans hconfig1, ?_⟩
    rw [hpeers2, hpeers1, List.map_map, entryFor_cons]
    exact List.map_congr_left fun y _ => Contribution.reported_reported ..

theorem State.Live.tallyEntries (source : Nat) (l : List TallyEntry) {s : State} (h : s.Live c) :
    (l.foldl (State.tallyEntry source) s).Live c := by
  induction l generalizing s with
  | nil => exact h
  | cons x rest ih => exact ih (h.tallyEntry source x)

/-- The contributions of the sender to the articles not listed. -/
theorem State.modUnlisted_slot (e : s.slot? a = some sl) (source : Nat) (listed : List Nat)
    (f : Contribution → Contribution) :
    ∃ sl', (s.modUnlisted source listed f).slot? a = some sl' ∧ sl'.art.config = sl.art.config
      ∧ sl'.art.peers = if a ∈ listed then sl.art.peers
          else sl.art.peers.map fun x => if x.holder = source then f x else x := by
  have hnumber : sl.art.number = a := (State.slot?_some e).2
  have hfind : (s.modUnlisted source listed f).slot? a
      = some (if listed.contains sl.art.number then sl else { sl with art := (sl.art.modContribution source f).recount }) := by
    have hkeep : ((fun y : Slot => y.art.number == a) ∘ fun sl : Slot =>
        if listed.contains sl.art.number then sl else { sl with art := (sl.art.modContribution source f).recount })
        = fun y => y.art.number == a := by
      funext y
      simp only [Function.comp]
      split <;> rfl
    rw [State.slot?] at e
    rw [State.slot?, State.modUnlisted, List.find?_map, hkeep, e]
    rfl
  refine ⟨_, hfind, ?_, ?_⟩
  · split <;> rfl
  · rw [hnumber]
    by_cases ha : a ∈ listed
    · rw [if_pos (List.contains_iff_mem.mpr ha), if_pos ha]
    · rw [if_neg (by rwa [List.contains_iff_mem]), if_neg ha]
      exact Article.modContribution_peers ..

end Contributions

/-! ### What an arrival leaves of the records beside the peers' contributions -/

section Beyond

variable {s t u : State}

/-- The parts of a record that a TALLY's entries do not move: the alert record but for its outstanding frame, the own
contribution, and whose the peers' contributions are. -/
def Slot.beyond (sl : Slot) : Alert × OwnContribution × Nat × List Nat :=
  ({ sl.alert with outstanding := none }, sl.art.own, sl.art.number, sl.art.peers.map Contribution.holder)

/-- `t` differs from `s` in no record beyond the peers' contributions. -/
def State.SameBeyond (s t : State) : Prop := t.slots.map Slot.beyond = s.slots.map Slot.beyond

theorem State.SameBeyond.refl (s : State) : s.SameBeyond s := rfl

theorem State.SameBeyond.trans (h : s.SameBeyond t) (k : t.SameBeyond u) : s.SameBeyond u := Eq.trans k h

theorem State.SameBeyond.of_map {g : Slot → Slot} (h : t.slots = s.slots.map g)
    (hg : ∀ sl, (g sl).beyond = sl.beyond) : s.SameBeyond t := by
  rw [State.SameBeyond, h, List.map_map]
  exact List.map_congr_left fun sl _ => hg sl

theorem State.SameBeyond.of_sent (h : s.Sent t) : s.SameBeyond t := by
  obtain ⟨g, hg, hsame⟩ := h.slots
  refine .of_map hg fun sl => ?_
  obtain ⟨hart, o, halert, -⟩ := hsame sl
  rw [Slot.beyond, hart, halert]
  rfl

theorem Slot.beyond_modContribution (sl : Slot) (source : Nat) {f : Contribution → Contribution}
    (hf : ∀ x, (f x).holder = x.holder) :
    ({ sl with art := (sl.art.modContribution source f).recount } : Slot).beyond = sl.beyond := by
  have hholders : (sl.art.modContribution source f).peers.map Contribution.holder = sl.art.peers.map Contribution.holder := by
    rw [Article.modContribution_peers, List.map_map]
    refine List.map_congr_left fun x _ => ?_
    simp only [Function.comp]
    split
    · exact hf x
    · rfl
  exact congrArg (fun l => (({ sl.alert with outstanding := none } : Alert), sl.art.own, sl.art.number, l)) hholders

theorem State.tallyEntry_sameBeyond (source : Nat) (s : State) (e : TallyEntry) :
    s.SameBeyond (State.tallyEntry source s e) := by
  cases h : s.slot? e.article with
  | none =>
    rw [State.tallyEntry_unheld h]
    exact .refl s
  | some sl =>
    by_cases hs : source ∈ sl.art.holders
    · rw [State.tallyEntry_taken h hs]
      refine .of_map rfl fun sl => ?_
      split
      · exact sl.beyond_modContribution source fun _ => rfl
      · rfl
    · rw [State.tallyEntry_unlisted h hs]
      exact .refl s

theorem State.tallyEntries_sameBeyond (source : Nat) (l : List TallyEntry) (s : State) :
    s.SameBeyond (l.foldl (State.tallyEntry source) s) := by
  induction l generalizing s with
  | nil => exact .refl s
  | cons x rest ih => exact (s.tallyEntry_sameBeyond source x).trans (ih _)

theorem State.modUnlisted_sameBeyond (s : State) (source : Nat) (listed : List Nat) {f : Contribution → Contribution}
    (hf : ∀ x, (f x).holder = x.holder) : s.SameBeyond (s.modUnlisted source listed f) := by
  refine .of_map rfl fun sl => ?_
  split
  · rfl
  · exact sl.beyond_modContribution source hf

end Beyond

/-! ### The events of the entries (R74, R77, R182) -/

section Events

variable {s t : State} {source : Nat}

/-- UNLISTED_HOLDER for each entry of a held article whose holders do not list the sender. -/
def Health.takeUnlisted (h : Health) (s : State) (source : Nat) (l : List TallyEntry) (now : Time) : Health :=
  l.foldl (fun h e =>
    if (s.slot? e.article).any fun sl => !sl.art.holders.contains source then h.take .unlistedHolder source e.article 1 now
    else h) h

theorem State.Heard.any_holders (h : s.Heard t) (a : Nat) (p : List Nat → Bool) :
    (t.slot? a).any (fun sl => p sl.art.holders) = (s.slot? a).any fun sl => p sl.art.holders := by
  cases e : s.slot? a with
  | some sl =>
    obtain ⟨sl', e', hconfig⟩ := h.slot?' e
    have hholders : sl'.art.holders = sl.art.holders := congrArg ArticleConfig.holders hconfig
    rw [e', Option.any_some, Option.any_some, hholders]
  | none =>
    cases e' : t.slot? a with
    | none => rfl
    | some sl' =>
      obtain ⟨sl, e0, -⟩ := h.slot? e'
      rw [e] at e0
      cases e0

/-- An entry moves contributions and the health unit alone. -/
theorem State.tallyEntry_eq (source : Nat) (s : State) (e : TallyEntry) :
    State.tallyEntry source s e
      = { s with slots := (State.tallyEntry source s e).slots, hlu := s.hlu.takeUnlisted s source [e] s.now } := by
  cases h : s.slot? e.article with
  | none =>
    rw [State.tallyEntry_unheld h, Health.takeUnlisted]
    simp [h]
  | some sl =>
    by_cases hs : source ∈ sl.art.holders
    · rw [State.tallyEntry_taken h hs, Health.takeUnlisted]
      simp [h, hs, State.modArticle, State.modSlot]
    · rw [State.tallyEntry_unlisted h hs, Health.takeUnlisted]
      simp [h, hs]
      rfl

theorem State.tallyEntries_eq (source : Nat) (l : List TallyEntry) (s : State) :
    l.foldl (State.tallyEntry source) s
      = { s with
          slots := (l.foldl (State.tallyEntry source) s).slots, hlu := s.hlu.takeUnlisted s source l s.now } := by
  induction l generalizing s with
  | nil => rfl
  | cons x rest ih =>
    have hentry := s.tallyEntry_eq source x
    have hsame (h : Health) : h.takeUnlisted (State.tallyEntry source s x) source rest s.now
        = h.takeUnlisted s source rest s.now := by
      simp only [Health.takeUnlisted, (s.tallyEntry_heard source x).any_holders _ fun l => !l.contains source]
    have hhlu : (State.tallyEntry source s x).hlu = s.hlu.takeUnlisted s source [x] s.now := by rw [hentry]
    have hnow : (State.tallyEntry source s x).now = s.now := by rw [hentry]
    rw [List.foldl_cons, ih, hnow, hsame, hhlu]
    generalize (rest.foldl (State.tallyEntry source) (State.tallyEntry source s x)).slots = slots
    rw [hentry]
    rfl

theorem Health.takeUnlisted_same (h : Health) (s : State) (source : Nat) (l : List TallyEntry) (now : Time) :
    (∀ n : Nat, (h.takeUnlisted s source l now).counters[n]? = h.counters[n]?)
      ∧ (h.takeUnlisted s source l now).severe = h.severe := by
  unfold Health.takeUnlisted
  induction l generalizing h with
  | nil => exact ⟨fun _ => rfl, rfl⟩
  | cons x rest ih =>
    rw [List.foldl_cons]
    obtain ⟨hcounters, hsevere⟩ := ih (if (s.slot? x.article).any fun sl => !sl.art.holders.contains source then
      h.take .unlistedHolder source x.article 1 now else h)
    refine ⟨fun n => (hcounters n).trans ?_, hsevere.trans ?_⟩ <;> split <;> rfl

/-- MISSING_ENTRY for each of the records. -/
def Health.takeMissing (h : Health) (source : Nat) (numbers : List Nat) (now : Time) : Health :=
  numbers.foldl (fun h a => h.take .missingEntry source a 1 now) h

theorem Health.takeMissing_counters (h : Health) (source : Nat) (numbers : List Nat) (now : Time) :
    (h.takeMissing source numbers now).counters = h.counters := by
  unfold Health.takeMissing
  induction numbers generalizing h with
  | nil => rfl
  | cons a rest ih => exact ih _

/-- The articles of which a FULL lacks the sender's entry, in table order (R77). -/
def missingArticles (source : Nat) (listed : List Nat) (parts : List (Alert × OwnContribution × Nat × List Nat)) : List Nat :=
  (parts.filter fun p => !listed.contains p.2.2.1 && p.2.2.2.any fun h => h == source).map fun p => p.2.2.1

theorem State.raiseMissing_eq (s : State) (source : Nat) (listed : List Nat) :
    s.raiseMissing source listed
      = { s with hlu := s.hlu.takeMissing source (missingArticles source listed (s.slots.map Slot.beyond)) s.now } := by
  have hfilter : missingArticles source listed (s.slots.map Slot.beyond)
      = (s.slots.filter fun sl => !listed.contains sl.art.number && (sl.art.contribution? source).isSome).map
          fun sl => sl.art.number := by
    rw [missingArticles, List.filter_map, List.map_map]
    refine congrArg (List.map fun sl : Slot => sl.art.number) (List.filter_congr fun sl _ => ?_)
    simp only [Function.comp, Slot.beyond, List.any_map, Article.contribution?]
    rw [Bool.eq_iff_iff]
    simp
  rw [hfilter, State.raiseMissing, Health.takeMissing]
  clear hfilter
  generalize s.slots.filter (fun sl => !listed.contains sl.art.number && (sl.art.contribution? source).isSome) = l
  induction l generalizing s with
  | nil => rfl
  | cons sl rest ih => exact ih _

end Events

/-! ### Continuity and silence (R75 to R77) -/

section Rest

variable {c : Controller} {s t : State} {a source : Nat} {seq : Seq} {v : Variant} {listed : List Nat} {sl : Slot} {p : Peer}

theorem continuity_eq_gap {b : Option Seq} : continuity b seq = .gap ↔ ∃ x, b = some x ∧ seq ≠ x + 1 := by
  unfold continuity
  cases b with
  | none => simp
  | some x => by_cases h : seq = x + 1 <;> simp [h]

/-- A contribution that the frame does not list (R75, R77). -/
def Contribution.unreported (v : Variant) (k : Continuity) (x : Contribution) : Contribution :=
  match v with
  | .full => { x with units := 0, state := .fresh }
  | .delta => x.unlisted k

/-- The sender's entry in the peer table after the frame: its baseline and its stale timer (R75, R79). -/
def State.heardFrom (s : State) (source : Nat) (seq : Seq) : State :=
  s.modPeer source fun p => { p with baseline := some seq, staleTimer := some (s.now + s.tly.staleTime) }

/-- The frame's continuity by the sender's baseline. -/
def State.continuityOf (s : State) (source : Nat) (seq : Seq) : Continuity :=
  continuity ((s.peer? source).bind Peer.baseline) seq

/-- The sender's baseline, stale timer and contributions after the frame. -/
def State.unlistedBy (s : State) (source : Nat) (seq : Seq) (v : Variant) (listed : List Nat) : State :=
  (s.heardFrom source seq).modUnlisted source listed (Contribution.unreported v (s.continuityOf source seq))

theorem State.tallyRest_full : s.tallyRest source seq .full listed
    = (s.unlistedBy source seq .full listed).raiseMissing source listed := rfl

theorem State.tallyRest_gap (hg : s.continuityOf source seq = .gap) (hs : s.sharingPeer source = true) :
    s.tallyRest source seq .delta listed
      = ((s.unlistedBy source seq .delta listed).raise .tallyGap source 0).queryOnGap source := if_pos ⟨hg, hs⟩

theorem State.tallyRest_delta (h : ¬ (s.continuityOf source seq = .gap ∧ s.sharingPeer source = true)) :
    s.tallyRest source seq .delta listed = s.unlistedBy source seq .delta listed := if_neg h

/-- The three shapes of what follows the entries. -/
theorem State.tallyRest_cases (s : State) (source : Nat) (seq : Seq) (v : Variant) (listed : List Nat) :
    s.tallyRest source seq v listed = (s.unlistedBy source seq v listed).raiseMissing source listed
      ∨ s.tallyRest source seq v listed = s.unlistedBy source seq v listed
      ∨ s.tallyRest source seq v listed
        = ((s.unlistedBy source seq v listed).raise .tallyGap source 0).queryOnGap source := by
  cases v with
  | full => exact .inl rfl
  | delta =>
    by_cases h : s.continuityOf source seq = .gap ∧ s.sharingPeer source = true
    · exact .inr (.inr (State.tallyRest_gap h.1 h.2))
    · exact .inr (.inl (State.tallyRest_delta h))

theorem State.holdOffOver_iff (s : State) (n : Nat) :
    s.holdOffOver n = true ↔ ∀ e, (s.peer? n).bind Peer.holdOff = some e → e ≤ s.now := by
  unfold State.holdOffOver
  cases (s.peer? n).bind Peer.holdOff <;> simp

/-- The sender's hold-off and the count of a QUERY (R76). -/
def State.queried (s : State) (source : Nat) : State :=
  (s.modPeer source fun p => { p with holdOff := some (s.now + ms 5000) }).count .querySent

theorem State.queryOnGap_asks (h : s.holdOffOver source = true) (hs : s.speaking = true) :
    s.queryOnGap source = (s.queried source).request (.query source) := if_pos (by rw [h, hs]; rfl)

theorem State.queryOnGap_idle (h : s.holdOffOver source = false ∨ s.speaking = false) : s.queryOnGap source = s :=
  if_neg (by obtain h | h := h <;> simp [h])

theorem State.queryOnGap_cases (s : State) (source : Nat) :
    s.queryOnGap source = (s.queried source).request (.query source) ∨ s.queryOnGap source = s := by
  by_cases h : (s.holdOffOver source && s.speaking) = true
  · exact .inl (if_pos h)
  · exact .inr (if_neg h)

theorem State.queryOnGap_slot (e : s.slot? a = some sl) :
    ∃ sl', (s.queryOnGap source).slot? a = some sl' ∧ sl'.art = sl.art := by
  obtain h | h := s.queryOnGap_cases source
  · rw [h]
    obtain ⟨sl', e', hart, -⟩ := ((s.queried source).request_sent (.query source)).slot? (a := a) (sl := sl) e
    exact ⟨sl', e', hart⟩
  · rw [h]
    exact ⟨sl, e, rfl⟩

theorem State.queryOnGap_sameBeyond (s : State) (source : Nat) : s.SameBeyond (s.queryOnGap source) := by
  obtain h | h := s.queryOnGap_cases source
  · rw [h]
    have hpeers : s.SameBeyond (s.queried source) := .refl s
    exact hpeers.trans (.of_sent ((s.queried source).request_sent (.query source)))
  · rw [h]
    exact .refl s

theorem State.unlistedBy_sameBeyond (s : State) (source : Nat) (seq : Seq) (v : Variant) (listed : List Nat) :
    s.SameBeyond (s.unlistedBy source seq v listed) := by
  refine State.modUnlisted_sameBeyond (s.heardFrom source seq) source listed fun x => ?_
  cases v with
  | full => rfl
  | delta => exact x.unlisted_holder _

theorem State.tallyRest_sameBeyond (s : State) (source : Nat) (seq : Seq) (v : Variant) (listed : List Nat) :
    s.SameBeyond (s.tallyRest source seq v listed) := by
  have hunlisted := s.unlistedBy_sameBeyond source seq v listed
  obtain h | h | h := s.tallyRest_cases source seq v listed <;> rw [h]
  · rw [State.raiseMissing_eq]
    exact hunlisted
  · exact hunlisted
  · exact hunlisted.trans (State.queryOnGap_sameBeyond ((s.unlistedBy source seq v listed).raise .tallyGap source 0) source)

/-- The record of an article after the whole of the frame's entries. -/
theorem State.tallyRest_slot (e : s.slot? a = some sl) (source : Nat) (seq : Seq) (v : Variant) (listed : List Nat) :
    ∃ sl', (s.tallyRest source seq v listed).slot? a = some sl' ∧ sl'.art.config = sl.art.config
      ∧ sl'.art.peers = if a ∈ listed then sl.art.peers else sl.art.peers.map fun x =>
          if x.holder = source then x.unreported v (s.continuityOf source seq) else x := by
  obtain ⟨sl1, e1, hconfig, hpeers⟩ := State.modUnlisted_slot (s := s.heardFrom source seq) e source listed
    (Contribution.unreported v (s.continuityOf source seq))
  obtain h | h | h := s.tallyRest_cases source seq v listed <;> rw [h]
  · rw [State.raiseMissing_eq]
    exact ⟨sl1, e1, hconfig, hpeers⟩
  · exact ⟨sl1, e1, hconfig, hpeers⟩
  · obtain ⟨sl2, e2, hart⟩ :=
      State.queryOnGap_slot (s := (s.unlistedBy source seq v listed).raise .tallyGap source 0) (source := source) e1
    exact ⟨sl2, e2, by rw [hart]; exact hconfig, by rw [hart]; exact hpeers⟩

/-! ### The peer table -/

theorem State.peer?_of_peers (h : t.peers = s.peers) (n : Nat) : t.peer? n = s.peer? n := by
  rw [State.peer?, State.peer?, h]

theorem State.peer?_modPeer (h : s.peer? source = some p) (f : Peer → Peer) :
    (s.modPeer source f).peer? source = some (f p) := mod1_get h f

theorem State.peer?_modPeer_ne {n : Nat} (h : n ≠ source) (f : Peer → Peer) : (s.modPeer source f).peer? n = s.peer? n :=
  nth1_mod1_ne _ h f

theorem State.queryOnGap_peer (h : s.peer? source = some p) :
    (∃ p', (s.queryOnGap source).peer? source = some p' ∧ p'.baseline = p.baseline ∧ p'.staleTimer = p.staleTimer)
      ∧ ∀ n, n ≠ source → (s.queryOnGap source).peer? n = s.peer? n := by
  obtain hq | hq := s.queryOnGap_cases source <;> rw [hq]
  · have hpeers (n : Nat) : ((s.queried source).request (.query source)).peer? n = (s.queried source).peer? n :=
      State.peer?_of_peers ((s.queried source).request_sent (.query source)).peers n
    refine ⟨⟨_, (hpeers source).trans (State.peer?_modPeer h _), rfl, rfl⟩, fun n hn => ?_⟩
    exact (hpeers n).trans (State.peer?_modPeer_ne hn _)
  · exact ⟨⟨p, h, rfl, rfl⟩, fun _ _ => rfl⟩

theorem State.tallyRest_peer (h : s.peer? source = some p) (seq : Seq) (v : Variant) (listed : List Nat) :
    (∃ p', (s.tallyRest source seq v listed).peer? source = some p' ∧ p'.baseline = some seq
      ∧ p'.staleTimer = some (s.now + s.tly.staleTime))
      ∧ ∀ n, n ≠ source → (s.tallyRest source seq v listed).peer? n = s.peer? n := by
  have hheard : (s.heardFrom source seq).peer? source
      = some { p with baseline := some seq, staleTimer := some (s.now + s.tly.staleTime) } := State.peer?_modPeer h _
  have hother (n : Nat) (hn : n ≠ source) : (s.heardFrom source seq).peer? n = s.peer? n := State.peer?_modPeer_ne hn _
  obtain hr | hr | hr := s.tallyRest_cases source seq v listed <;> rw [hr]
  · rw [State.raiseMissing_eq]
    exact ⟨⟨_, hheard, rfl, rfl⟩, hother⟩
  · exact ⟨⟨_, hheard, rfl, rfl⟩, hother⟩
  · obtain ⟨⟨p', hp', hbase, hstale⟩, hrest⟩ :=
      State.queryOnGap_peer (s := (s.unlistedBy source seq v listed).raise .tallyGap source 0) (source := source) hheard
    exact ⟨⟨p', hp', hbase, hstale⟩, fun n hn => (hrest n hn).trans (hother n hn)⟩

/-- The QUERY at a gap: the state that requests it, or that it is left at (R76). -/
theorem State.queryOnGap_parts (h : s.peer? source = some p) :
    ∃ w : State, w.bsc = s.bsc ∧ w.now = s.now ∧ w.stc = s.stc ∧ w.hlu.degrade = s.hlu.degrade
      ∧ w.hlu.severe = s.hlu.severe ∧ w.hlu.counters[5]? = s.hlu.counters[5]?
      ∧ (s.speaking = true → (∀ e, p.holdOff = some e → e ≤ s.now) →
        w.hlu.counters[6]? = (s.hlu.counters[6]?).map (fun n => min 255 (n + 1))
          ∧ (w.peer? source).bind Peer.holdOff = some (s.now + 5000000)
          ∧ s.queryOnGap source = w.request (.query source))
      ∧ (s.speaking = false ∨ (∃ e, p.holdOff = some e ∧ s.now < e) →
        w.hlu.counters[6]? = s.hlu.counters[6]? ∧ (w.peer? source).bind Peer.holdOff = p.holdOff
          ∧ s.queryOnGap source = w) := by
  have hover : s.holdOffOver source = true ↔ ∀ e, p.holdOff = some e → e ≤ s.now := by
    rw [State.holdOffOver_iff, h, Option.bind_some]
  by_cases hboth : s.speaking = true ∧ ∀ e, p.holdOff = some e → e ≤ s.now
  · obtain ⟨hs, hpast⟩ := hboth
    refine ⟨s.queried source, rfl, rfl, rfl, rfl, rfl, Health.rise_other _ _ _ _ (by decide), fun _ _ => ⟨?_, ?_, ?_⟩, ?_⟩
    · exact Health.rise_same _ .querySent 1
    · have hq : (s.queried source).peer? source = some { p with holdOff := some (s.now + ms 5000) } :=
        State.peer?_modPeer h _
      rw [hq]
      rfl
    · exact State.queryOnGap_asks (hover.mpr hpast) hs
    · rintro (hmute | ⟨e, he, hlate⟩)
      · rw [hs] at hmute
        cases hmute
      · exact absurd (hpast e he) (Nat.not_le.mpr hlate)
  · refine ⟨s, rfl, rfl, rfl, rfl, rfl, rfl, fun hs hpast => absurd ⟨hs, hpast⟩ hboth, fun hidle => ⟨rfl, ?_, ?_⟩⟩
    · rw [h, Option.bind_some]
    · refine State.queryOnGap_idle ?_
      obtain hmute | ⟨e, he, hlate⟩ := hidle
      · exact .inr hmute
      · refine .inl (Bool.eq_false_iff.mpr fun hpast => ?_)
        exact absurd (hover.mp hpast e he) (Nat.not_le.mpr hlate)

end Rest

end Sys2Proof.Machine

/-! The arrival of a TALLY (R71, R74 to R78), and the statement about it. -/

namespace Sys2Proof.Machine

/-! ### The sender -/

section Sender

variable {s : State} {c : Controller} {source : Nat} {f : Frame}

theorem Receiver.check_src {r : Receiver} (h : r.check = .passed f) : 1 ≤ f.src ∧ f.src ≤ 30 := by
  by_cases hform : r.MisFormed
  · rw [Receiver.check_misFormed hform] at h
    cases h
  · by_cases hcrc : r.CrcBad
    · rw [Receiver.check_crcBad hform hcrc] at h
      cases h
    · cases hk : Kind.ofCode (BitVec.ofNat 8 (field r.stored 1 1)) with
      | none =>
        rw [Receiver.check_noKind hform hcrc hk] at h
        cases h
      | some k =>
        rw [Receiver.check_kind hform hcrc hk] at h
        split at h
        · next hsource =>
          obtain ⟨hlow, hhigh, -⟩ := hsource
          cases h
          exact ⟨hlow, hhigh⟩
        · cases h

theorem State.Live.peer?_of_number (h : s.Live c) (h1 : 1 ≤ source) (h30 : source ≤ 30) : ∃ p, s.peer? source = some p := by
  cases source with
  | zero => cases h1
  | succ n => exact ⟨_, List.getElem?_eq_getElem (show n < s.peers.length by rw [h.peers30]; exact h30)⟩

theorem State.takesEntry_eq (s : State) (source : Nat) (e : TallyEntry) :
    s.takesEntry source e = (s.slot? e.article).any fun sl => sl.art.holders.contains source := by
  unfold State.takesEntry
  cases s.slot? e.article <;> rfl

theorem exec_tally_of_takes {heard : List Character} (h : s.takes heard f) (hk : f.kind = .tally) (dt : Time) :
    exec (.tally dt heard) s
      = .next ((s.elapse dt).takeTally f.src f.seq (tallyVariant f.payload) (tallyEntries f.payload)).showLamps := by
  have hdispatch : (s.elapse dt).dispatch (some .tally) f
      = (s.elapse dt).takeTally f.src f.seq (tallyVariant f.payload) (tallyEntries f.payload) := by
    rw [State.dispatch, if_pos (.inr (by rw [hk])), hk]
  rw [← hdispatch]
  exact exec_dispatch_kind h hk dt

end Sender

/-! ### The tally unit's part of an arrival -/

section Arrival

variable {c : Controller} {s : State} {a source : Nat} {seq : Seq} {v : Variant} {l : List TallyEntry} {sl : Slot} {p : Peer}

/-- The articles of the entries taken (R74). -/
def State.listed (s : State) (source : Nat) (l : List TallyEntry) : List Nat :=
  (l.filter (s.takesEntry source)).map TallyEntry.article

/-- The state when the alert unit takes the entries (R74 to R77). -/
def State.tallied (s : State) (source : Nat) (seq : Seq) (v : Variant) (l : List TallyEntry) : State :=
  (l.foldl (State.tallyEntry source) s).tallyRest source seq v (s.listed source l)

theorem State.takeTally_eq : s.takeTally source seq v l
    = ((l.filter (s.takesEntry source)).foldl (fun t e => t.takeEntry source e (s.aggregate e.article))
        (s.tallied source seq v l)).giveNotices (noticesBetween s.slots (s.tallied source seq v l).slots) := rfl

theorem State.tallied_steady (s : State) (source : Nat) (seq : Seq) (v : Variant) (l : List TallyEntry) :
    (s.tallied source seq v l).Steady (s.takeTally source seq v l) :=
  .trans (State.foldl_steady _ (fun t x => t.takeEntry_steady source x _) _ _) (State.giveNotices_steady _ _)

theorem State.Live.tallied (h : s.Live c) (source : Nat) (seq : Seq) (v : Variant) (l : List TallyEntry) :
    (s.tallied source seq v l).Live c :=
  (h.tallyEntries source l).tallyRest source seq v _

theorem State.tallied_sameBeyond (s : State) (source : Nat) (seq : Seq) (v : Variant) (l : List TallyEntry) :
    s.SameBeyond (s.tallied source seq v l) :=
  (State.tallyEntries_sameBeyond source l s).trans (State.tallyRest_sameBeyond _ source seq v _)

theorem State.mem_listed (e : s.slot? a = some sl) :
    a ∈ s.listed source l ↔ source ∈ sl.art.holders ∧ ∃ x ∈ l, x.article = a := by
  simp only [State.listed, List.mem_map, List.mem_filter, State.takesEntry_eq]
  constructor
  · rintro ⟨x, ⟨hx, htaken⟩, rfl⟩
    rw [e, Option.any_some] at htaken
    exact ⟨List.contains_iff_mem.mp htaken, x, hx, rfl⟩
  · rintro ⟨hs, x, hx, rfl⟩
    refine ⟨x, ⟨hx, ?_⟩, rfl⟩
    rw [e, Option.any_some]
    exact List.contains_iff_mem.mpr hs

/-- A contribution after the frame: the sender's by its entry or by its absence (R74, R75, R77). -/
def Contribution.told (source : Nat) (o : Option TallyEntry) (v : Variant) (k : Continuity) (x : Contribution) :
    Contribution :=
  if x.holder = source then o.elim (x.unreported v k) fun e => { x with units := e.units, state := .fresh } else x

theorem Contribution.told_other {x : Contribution} (h : x.holder ≠ source) (o : Option TallyEntry) (k : Continuity) :
    x.told source o v k = x := if_neg h

theorem State.tallyEntries_peers (source : Nat) (l : List TallyEntry) (s : State) :
    (l.foldl (State.tallyEntry source) s).peers = s.peers :=
  (congrArg State.peers (State.tallyEntries_eq source l s) :)

theorem State.tallyEntries_continuityOf (source : Nat) (l : List TallyEntry) (s : State) (seq : Seq) :
    (l.foldl (State.tallyEntry source) s).continuityOf source seq = s.continuityOf source seq := by
  rw [State.continuityOf, State.continuityOf, State.peer?_of_peers (State.tallyEntries_peers source l s)]

/-- The record of an article after the frame's entries and their absence. -/
theorem State.Live.tallied_slot (h : s.Live c) (e : s.slot? a = some sl) (source : Nat) (seq : Seq) (v : Variant)
    (l : List TallyEntry) :
    ∃ sl', (s.tallied source seq v l).slot? a = some sl' ∧ sl'.art.config = sl.art.config
      ∧ sl'.art.peers = sl.art.peers.map (Contribution.told source (entryFor l a) v (s.continuityOf source seq)) := by
  obtain ⟨sl1, e1, hconfig1, hpeers1⟩ := h.tallyEntries_slot source l e
  obtain ⟨sl2, e2, hconfig2, hpeers2⟩ := State.tallyRest_slot e1 source seq v (s.listed source l)
  refine ⟨sl2, e2, hconfig2.trans hconfig1, ?_⟩
  rw [hpeers2, hpeers1, State.tallyEntries_continuityOf]
  by_cases hs : source ∈ sl.art.holders
  · have hlisted : a ∈ s.listed source l ↔ (entryFor l a).isSome = true := by
      rw [State.mem_listed e, entryFor_isSome]
      exact and_iff_right hs
    cases ho : entryFor l a with
    | some x =>
      rw [if_pos (hlisted.mpr (by rw [ho]; rfl))]
      rfl
    | none =>
      rw [if_neg (fun hin => by have := hlisted.mp hin; rw [ho] at this; cases this), List.map_map]
      refine List.map_congr_left fun x _ => ?_
      by_cases hx : x.holder = source <;> simp [Contribution.reported, Contribution.told, hx]
  · obtain ⟨⟨hsound, -⟩, -⟩ := h.fits e
    have hreported : sl.art.peers.map (Contribution.reported source (entryFor l a)) = sl.art.peers :=
      hsound.map_other hs fun x hx => Contribution.reported_other hx _
    rw [hreported, hsound.map_other hs fun x hx => Contribution.told_other hx _ _,
      hsound.map_other hs fun x hx => if_neg hx]
    exact ite_self _

theorem State.tallied_peer (h : s.peer? source = some p) (seq : Seq) (v : Variant) (l : List TallyEntry) :
    (∃ p', (s.tallied source seq v l).peer? source = some p' ∧ p'.baseline = some seq
      ∧ p'.staleTimer = some (s.now + s.tly.staleTime))
      ∧ ∀ n, n ≠ source → (s.tallied source seq v l).peer? n = s.peer? n := by
  have hsame (n : Nat) : (l.foldl (State.tallyEntry source) s).peer? n = s.peer? n :=
    State.peer?_of_peers (State.tallyEntries_peers source l s) n
  have hnow : (l.foldl (State.tallyEntry source) s).now = s.now := (congrArg State.now (State.tallyEntries_eq source l s) :)
  have htly : (l.foldl (State.tallyEntry source) s).tly = s.tly := (congrArg State.tly (State.tallyEntries_eq source l s) :)
  obtain ⟨hown, hother⟩ := State.tallyRest_peer ((hsame source).trans h) seq v (s.listed source l)
  rw [hnow, htly] at hown
  exact ⟨hown, fun n hn => (hother n hn).trans (hsame n)⟩

/-! ### The events and the requests -/

theorem State.tallyEntries_parts (source : Nat) (l : List TallyEntry) (s : State) :
    (l.foldl (State.tallyEntry source) s).bsc = s.bsc ∧ (l.foldl (State.tallyEntry source) s).now = s.now
      ∧ (l.foldl (State.tallyEntry source) s).stc = s.stc
      ∧ (l.foldl (State.tallyEntry source) s).hlu = s.hlu.takeUnlisted s source l s.now := by
  have hparts := State.tallyEntries_eq source l s
  exact ⟨(congrArg State.bsc hparts :), (congrArg State.now hparts :), (congrArg State.stc hparts :),
    (congrArg State.hlu hparts :)⟩

theorem State.tallied_full (s : State) (source : Nat) (seq : Seq) (l : List TallyEntry) :
    (s.tallied source seq .full l).bsc = s.bsc
      ∧ (s.tallied source seq .full l).hlu = (s.hlu.takeUnlisted s source l s.now).takeMissing source
          (missingArticles source (s.listed source l) (s.slots.map Slot.beyond)) s.now := by
  obtain ⟨hbsc, hnow, -, hhlu⟩ := State.tallyEntries_parts source l s
  have hbeyond : (((l.foldl (State.tallyEntry source) s).unlistedBy source seq .full (s.listed source l)).slots.map
      Slot.beyond) = s.slots.map Slot.beyond :=
    (State.tallyEntries_sameBeyond source l s).trans (State.unlistedBy_sameBeyond _ source seq .full _)
  rw [State.tallied, State.tallyRest_full, State.raiseMissing_eq, hbeyond, ← hhlu, ← hnow]
  exact ⟨hbsc, rfl⟩

theorem State.tallied_sharingPeer (s : State) (source : Nat) (l : List TallyEntry) :
    (l.foldl (State.tallyEntry source) s).sharingPeer source = s.sharingPeer source :=
  (State.foldl_heard _ (State.tallyEntry_heard source) l s).sharingPeer source

theorem State.tallied_intact (h : ¬ (s.continuityOf source seq = .gap ∧ s.sharingPeer source = true)) :
    (s.tallied source seq .delta l).bsc = s.bsc
      ∧ (s.tallied source seq .delta l).hlu = s.hlu.takeUnlisted s source l s.now := by
  obtain ⟨hbsc, -, -, hhlu⟩ := State.tallyEntries_parts source l s
  rw [← State.tallyEntries_continuityOf source l, ← State.tallied_sharingPeer s source l] at h
  rw [State.tallied, State.tallyRest_delta h]
  exact ⟨hbsc, hhlu⟩

/-- A gap: TALLY_GAP, then what the hold-off and the station state make of it (R75, R76). -/
theorem State.tallied_gap (hp : s.peer? source = some p) (hg : s.continuityOf source seq = .gap)
    (hs : s.sharingPeer source = true) :
    ∃ x : State, s.tallied source seq .delta l = x.queryOnGap source ∧ x.bsc = s.bsc ∧ x.now = s.now ∧ x.stc = s.stc
      ∧ x.hlu = (s.hlu.takeUnlisted s source l s.now).take .tallyGap source 0 1 s.now
      ∧ ∃ p', x.peer? source = some p' ∧ p'.holdOff = p.holdOff := by
  obtain ⟨hbsc, hnow, hstc, hhlu⟩ := State.tallyEntries_parts source l s
  have hpeer : (l.foldl (State.tallyEntry source) s).peer? source = some p :=
    (State.peer?_of_peers (State.tallyEntries_peers source l s) source).trans hp
  rw [← State.tallyEntries_continuityOf source l] at hg
  rw [← State.tallied_sharingPeer s source l] at hs
  rw [State.tallied, State.tallyRest_gap hg hs]
  refine ⟨_, rfl, hbsc, hnow, hstc, ?_, _, State.peer?_modPeer hpeer _, rfl⟩
  rw [← hhlu, ← hnow]
  rfl

theorem State.Live.slot?_of_mem (h : s.Live c) (hm : sl ∈ s.slots) : s.slot? sl.art.number = some sl := by
  cases e : s.slot? sl.art.number with
  | none => exact absurd (beq_self_eq_true sl.art.number) (List.find?_eq_none.mp e sl hm)
  | some sl' =>
    obtain ⟨hm', hnumber⟩ := State.slot?_some e
    exact congrArg some (nodup_map_inj h.nodup hm' hm hnumber)

/-- The records that a FULL of the sender lacks. -/
def Slot.missing (source : Nat) (l : List TallyEntry) (sl : Slot) : Bool :=
  (sl.art.peers.any fun x => x.holder == source) && !l.any fun e => e.article == sl.art.number

theorem State.Live.missingArticles_eq (h : s.Live c) (source : Nat) (l : List TallyEntry) :
    missingArticles source (s.listed source l) (s.slots.map Slot.beyond)
      = (s.slots.filter (Slot.missing source l)).map fun sl => sl.art.number := by
  rw [missingArticles, List.filter_map, List.map_map]
  refine congrArg (List.map fun sl : Slot => sl.art.number) (List.filter_congr fun sl hm => ?_)
  obtain ⟨⟨hsound, -⟩, -⟩ := h.slots sl hm
  simp only [Function.comp, Slot.beyond, Slot.missing, List.any_map]
  rw [Bool.eq_iff_iff]
  simp only [Bool.and_eq_true, Bool.not_eq_true', Bool.eq_false_iff, ne_eq, List.contains_iff_mem,
    State.mem_listed (h.slot?_of_mem hm), List.any_eq_true, Function.comp, beq_iff_eq]
  constructor
  · rintro ⟨hunlisted, x, hx, rfl⟩
    have hholder : x.holder ∈ sl.art.holders := by
      by_contra hnot
      exact hsound.holder_ne hnot x hx rfl
    exact ⟨⟨x, hx, rfl⟩, fun hlisted => hunlisted ⟨hholder, hlisted⟩⟩
  · rintro ⟨hx, hunlisted⟩
    exact ⟨fun hlisted => hunlisted hlisted.2, hx⟩

end Arrival

end Sys2Proof.Machine

/-! A TALLY's arrival as the statement about it takes it apart (R71, R74 to R78, R95, R106, R131). -/

namespace Sys2Proof.Machine

section Arrival

variable {s : State} {source : Nat} {seq : Seq} {l : List TallyEntry} {p : Peer}

/-- TALLY_GAP at a gap, and the QUERY by the hold-off and the station state (R75, R76). -/
theorem State.tallied_queries (hp : s.peer? source = some p) (hg : s.continuityOf source seq = .gap)
    (hs : s.sharingPeer source = true) {h : Health} (hh : h = s.hlu.takeUnlisted s source l s.now) :
    ∃ w : State, w.bsc = s.bsc ∧ w.now = s.now ∧ w.stc = s.stc
      ∧ w.hlu.degrade = (h.take .tallyGap source 0 1 s.now).degrade ∧ w.hlu.severe = h.severe
      ∧ w.hlu.counters[5]? = (s.hlu.counters[5]?).map (fun n => min 255 (n + 1))
      ∧ (s.speaking = true → (∀ e, (s.peer? source).bind Peer.holdOff = some e → e ≤ s.now) →
        w.hlu.counters[6]? = (s.hlu.counters[6]?).map (fun n => min 255 (n + 1))
          ∧ (w.peer? source).bind Peer.holdOff = some (s.now + 5000000)
          ∧ s.tallied source seq .delta l = w.request (.query source))
      ∧ (s.speaking = false ∨ (∃ e, (s.peer? source).bind Peer.holdOff = some e ∧ s.now < e) →
        w.hlu.counters[6]? = s.hlu.counters[6]?
          ∧ (w.peer? source).bind Peer.holdOff = (s.peer? source).bind Peer.holdOff
          ∧ s.tallied source seq .delta l = w) := by
  obtain ⟨x, htallied, hbsc, hnow, hstc, hhlu, p', hp', hhold⟩ := State.tallied_gap (l := l) hp hg hs
  obtain ⟨w, wbsc, wnow, wstc, wdegrade, wsevere, wgap, wasks, widle⟩ := State.queryOnGap_parts hp'
  obtain ⟨hcounters, -⟩ := s.hlu.takeUnlisted_same s source l s.now
  have hspeaking : x.speaking = s.speaking := by rw [State.speaking, State.speaking, hstc]
  have hquery : x.hlu.counters[6]? = s.hlu.counters[6]? := by
    rw [hhlu]
    exact (Health.rise_other _ .tallyGap 1 6 (by decide)).trans (hcounters 6)
  have hgap : x.hlu.counters[5]? = (s.hlu.counters[5]?).map fun n => min 255 (n + 1) := by
    rw [hhlu, ← hcounters 5]
    exact Health.rise_same _ .tallyGap 1
  rw [hspeaking, hnow, hhold, hquery, ← htallied] at wasks
  rw [hspeaking, hnow, hhold, hquery, ← htallied] at widle
  rw [hp, Option.bind_some]
  refine ⟨w, wbsc.trans hbsc, wnow.trans hnow, wstc.trans hstc, ?_, ?_, wgap.trans hgap, wasks, widle⟩
  · rw [wdegrade, hhlu, hh]
  · rw [wsevere, hhlu, hh]
    rfl

/-- A frame without a gap of a sharing peer requests nothing (R75, R76). -/
theorem State.tallied_unqueried {v : Variant} {h : Health} (hh : h = s.hlu.takeUnlisted s source l s.now)
    (hv : v = .full ∨ s.sharingPeer source = false ∨ s.continuityOf source seq ≠ .gap) :
    (s.tallied source seq v l).bsc = s.bsc ∧ (s.tallied source seq v l).hlu.counters[5]? = s.hlu.counters[5]?
      ∧ (s.tallied source seq v l).hlu.counters[6]? = s.hlu.counters[6]?
      ∧ (v = .delta → (s.tallied source seq v l).hlu = h) := by
  obtain ⟨hcounters, -⟩ := s.hlu.takeUnlisted_same s source l s.now
  cases v with
  | full =>
    obtain ⟨hbsc, hhlu⟩ := s.tallied_full source seq l
    rw [hhlu, Health.takeMissing_counters]
    exact ⟨hbsc, hcounters 5, hcounters 6, nofun⟩
  | delta =>
    have hnot : ¬ (s.continuityOf source seq = .gap ∧ s.sharingPeer source = true) := by
      rintro ⟨hg, hs⟩
      obtain hv | hv | hv := hv
      · cases hv
      · rw [hs] at hv
        cases hv
      · exact hv hg
    obtain ⟨hbsc, hhlu⟩ := State.tallied_intact (l := l) hnot
    rw [hhlu]
    exact ⟨hbsc, hcounters 5, hcounters 6, fun _ => hh.symm⟩

theorem State.continuityOf_eq_gap :
    s.continuityOf source seq = .gap ↔ ∃ b, (s.peer? source).bind Peer.baseline = some b ∧ seq ≠ b + 1 :=
  continuity_eq_gap

theorem State.Live.totalled {c : Controller} (h : s.Live c) {sl : Slot} (hm : sl ∈ s.slots) : sl.art.Totalled := by
  obtain ⟨⟨⟨-, haggregate, hcover, -⟩, -⟩, -⟩ := h.slots sl hm
  exact ⟨haggregate, hcover⟩

/-- The contribution in the statement's own words. -/
theorem Contribution.told_eq (source : Nat) (o : Option TallyEntry) (v : Variant) (b : Option Seq) (seq : Seq)
    (x : Contribution) :
    x.told source o v (continuity b seq)
      = if x.holder = source then
          match o, v, b with
          | some e, _, _ => { x with units := e.units, state := .fresh }
          | none, .full, _ => { x with units := 0, state := .fresh }
          | none, .delta, none => x
          | none, .delta, some b =>
            if seq = b + 1 then (if x.state = .stale then { x with state := .fresh } else x)
            else if x.state = .stale then x else { x with state := .doubtful }
        else x := by
  unfold Contribution.told
  split
  · cases o with
    | some e => rfl
    | none =>
      cases v with
      | full => rfl
      | delta =>
        cases b with
        | none => rfl
        | some b =>
          by_cases h : seq = b + 1
          · rw [show continuity (some b) seq = .intact from if_pos h]
            exact (if_pos h).symm
          · rw [show continuity (some b) seq = .gap from if_neg h]
            exact (if_neg h).symm
  · rfl

end Arrival

/-! ### The entries at the alert unit, taken apart by precedence (R95, R102, R106, R131) -/

section Entries

variable {s : State} {station n a : Nat} {e : TallyEntry} {sl : Slot} {x : Epoch} {precedes : Nat → Epoch → Prop}

theorem State.takeEntry_yields (h : s.slot? e.article = some sl)
    (hs : sl.alert.state = .claiming ∨ sl.alert.state = .owner) (hf : e.flags.owning = true) (hx : e.epoch = some x)
    (hp : sl.alert.yields s.ownNumber station x = true) :
    s.takeEntry station e n
      = s.yieldTo e.article station x (if sl.alert.level = .none then .low else sl.alert.level) false false := by
  rw [State.takeEntry_owning h hs hx, if_pos (by rw [hf, hp]; rfl)]

theorem State.takeEntry_stays (h : s.slot? e.article = some sl)
    (hs : sl.alert.state = .claiming ∨ sl.alert.state = .owner)
    (hp : ∀ x, e.flags.owning = true → e.epoch = some x → ¬ sl.alert.yields s.ownNumber station x = true) :
    s.takeEntry station e n = s := by
  cases hx : e.epoch with
  | none => exact State.takeEntry_owning_unknown h hs hx
  | some x =>
    rw [State.takeEntry_owning h hs hx, if_neg]
    rw [Bool.and_eq_true]
    exact fun ⟨hf, hy⟩ => hp x hf hx hy

theorem State.takeEntry_quiet_stays (h : s.slot? e.article = some sl) (hs : sl.alert.state = .quiet)
    (hx : ∀ x, e.epoch = some x → sl.alert.known = true ∧ newer x sl.alert.epoch = false) :
    s.takeEntry station e n = s := by
  cases hepoch : e.epoch with
  | none => exact State.takeEntry_quiet_unknown h hs hepoch
  | some x =>
    obtain ⟨hknown, hold⟩ := hx x hepoch
    rw [State.takeEntry_quiet h hs hepoch, if_neg (by simp [hknown, hold])]

theorem State.takeEntry_owner_stays (h : s.slot? e.article = some sl) (hs : sl.alert.state = .follower)
    (ho : sl.alert.owner = some station) (hf : e.flags.owning = true)
    (hx : ∀ x, e.epoch = some x → newer x sl.alert.epoch = false) : s.takeEntry station e n = s := by
  cases hepoch : e.epoch with
  | none => exact State.takeEntry_owner_unknown h hs ho hf hepoch
  | some x => rw [State.takeEntry_owner_owning h hs ho hf hepoch, if_neg (by rw [hx x hepoch]; exact Bool.false_ne_true)]

theorem State.takeEntry_owner_ends (h : s.slot? e.article = some sl) (hs : sl.alert.state = .follower)
    (ho : sl.alert.owner = some station) (hf : e.flags.owning = false)
    (hx : ∀ x, e.epoch = some x → newer x sl.alert.epoch = false) :
    s.takeEntry station e n = s.enterQuietSeeing e.article n := by
  cases hepoch : e.epoch with
  | none => exact State.takeEntry_owner_gone_unknown h hs ho hf hepoch
  | some x => rw [State.takeEntry_owner_gone h hs ho hf hepoch, if_neg (by rw [hx x hepoch]; exact Bool.false_ne_true)]

theorem State.takeEntry_contender_stays (h : s.slot? e.article = some sl) (hs : sl.alert.state = .follower)
    (ho : ¬ sl.alert.owner = some station)
    (hp : ∀ x, e.flags.owning = true → e.epoch = some x → ¬ sl.alert.yields s.ownNumber station x = true) :
    s.takeEntry station e n = s := by
  cases hx : e.epoch with
  | none => exact State.takeEntry_contender_unknown h hs ho hx
  | some x =>
    rw [State.takeEntry_contender h hs ho hx, if_neg]
    rw [Bool.and_eq_true]
    exact fun ⟨hf, hy⟩ => hp x hf hx hy

end Entries

/-- Settles O41: the tally unit's part of the arrival, what the alert unit and the notices leave of it, and the entries
by the state of the record. -/
theorem tallySetsTheSendersContributions : Obligations.TallySetsTheSendersContributions := by
  refine ⟨fun s dt heard f hinv htakes hk => ?arrival, fun s station n e a sl ha h precedes hprec => ?entries⟩
  case arrival =>
    obtain ⟨-, hlisten, -, hcheck, -, hsrc⟩ := id htakes
    have hlive : (s.elapse dt).Live s.stc := (State.live_iff _ _).mpr ⟨(s.elapse_sound_iff dt).mpr hinv.1, rfl, hlisten⟩
    obtain ⟨h1, h30⟩ := Receiver.check_src hcheck
    obtain ⟨p, hp⟩ := hlive.peer?_of_number h1 h30
    have hheard := (s.elapse dt).takeTally_heard f.src f.seq (tallyVariant f.payload) (tallyEntries f.payload)
    have hsteady := (s.elapse dt).tallied_steady f.src f.seq (tallyVariant f.payload) (tallyEntries f.payload)
    have htallied := hlive.tallied f.src f.seq (tallyVariant f.payload) (tallyEntries f.payload)
    have hbeyond := (s.elapse dt).tallied_sameBeyond f.src f.seq (tallyVariant f.payload) (tallyEntries f.payload)
    obtain ⟨hown, hother⟩ := State.tallied_peer hp f.seq (tallyVariant f.payload) (tallyEntries f.payload)
    have hpeer (n : Nat) := State.peer?_of_peers hsteady.peers n
    have hpending : ((s.elapse dt).takeTally f.src f.seq (tallyVariant f.payload)
        (tallyEntries f.payload)).pru.pendingTakes = s.pru.pendingTakes := by
      rw [hheard.pru]
      rfl
    refine ⟨_, exec_tally_of_takes htakes hk dt, fun a sl e => ?slots, ?peer, fun n hn => (hpeer n).trans (hother n hn),
      fun h hh => ?parts, hheard.now, hheard.bays, hheard.stc, hpending, congrArg (fun l => l.2.2.2) hheard.line,
      hheard.pending⟩
    case slots =>
      obtain ⟨sl1, e1, hconfig, hpeers⟩ :=
        hlive.tallied_slot e f.src f.seq (tallyVariant f.payload) (tallyEntries f.payload)
      obtain ⟨sl2, e2, hkept⟩ := hsteady.slot?' e1
      obtain ⟨haggregate, hcover⟩ := hsteady.totals (fun sl hm => htallied.totalled hm) sl2 (State.slot?_some e2).1
      refine ⟨sl2, e2, (congrArg Kept.config hkept).trans hconfig, haggregate, hcover, ?_⟩
      rw [show sl2.art.peers = sl1.art.peers from congrArg Kept.peers hkept, hpeers]
      exact congrArg (fun g => sl.art.peers.map g) (funext fun x => Contribution.told_eq ..)
    case peer =>
      obtain ⟨p', hp', hbase, hstale⟩ := hown
      exact ⟨p', (hpeer f.src).trans hp', hbase, hstale⟩
    case parts =>
      refine ⟨(s.elapse dt).tallied f.src f.seq (tallyVariant f.payload) (tallyEntries f.payload), ?_, ?_, ?_,
        fun b hv hb hne hs => ?_, fun hv => ?_, fun hv => ?_⟩
      · rw [State.takeTally_eq]
        simp only [← State.takesEntry_eq]
        rfl
      · have := congrArg (List.map Prod.fst) hbeyond
        rwa [List.map_map, List.map_map] at this
      · have := congrArg (List.map fun q => q.2.1) hbeyond
        rwa [List.map_map, List.map_map] at this
      · rw [hv]
        exact State.tallied_queries (s := s.elapse dt) hp (State.continuityOf_eq_gap.mpr ⟨b, hb, hne⟩) hs hh
      · refine State.tallied_unqueried (s := s.elapse dt) hh (hv.imp_right (Or.imp_right fun hall hgap => ?_))
        obtain ⟨b, hb, hne⟩ := State.continuityOf_eq_gap.mp hgap
        exact hne (hall b hb)
      · rw [hv, ((s.elapse dt).tallied_full f.src f.seq (tallyEntries f.payload)).2, hlive.missingArticles_eq,
          Health.takeMissing, List.foldl_map, hh]
        rfl
  case entries =>
    subst ha
    have howning (hs : sl.alert.state = .claiming ∨ sl.alert.state = .owner) (x : Epoch) :
        sl.alert.yields s.ownNumber station x = true ↔ precedes s.ownNumber x :=
      (Alert.yields_iff hs).trans (hprec s.ownNumber x).symm
    refine ⟨fun x hs hx hnew => ?_, State.takeEntry_quiet_stays h, fun x w y hs hf hx hp hw hy => ?_,
      fun x hs hf hx hp => ?_, fun hs hp => ?_, fun x hs ho hf hx hnew => ?_, State.takeEntry_owner_stays h,
      fun hs ho hf => ⟨fun x hx hnew => ?_, State.takeEntry_owner_ends h hs ho hf⟩,
      fun o hs ho hne => ?_⟩
    · rw [State.takeEntry_quiet h hs hx, if_pos (by obtain hnew | hnew := hnew <;> simp [hnew])]
      rfl
    · rw [State.takeEntry_yields h hs hf hx ((howning hs x).mpr hp), State.yieldTo_eq h, hy, State.eq_withdrawAlert h hw]
      exact ⟨fun hfresh => by rw [if_neg (by simp [hfresh])]; rfl, fun hstale => by rw [if_pos hstale]; rfl⟩
    · rw [State.takeEntry_yields h hs hf hx ((howning hs x).mpr hp)]
      obtain ⟨sl', e', hflag, halert⟩ := State.yieldTo_slot (owner := station) h x
        (if sl.alert.level = .none then .low else sl.alert.level) false false
      obtain ⟨hcount, -⟩ := State.yieldTo_hlu (owner := station) h x
        (if sl.alert.level = .none then .low else sl.alert.level) false false
      exact ⟨sl', e', halert, hflag, hcount⟩
    · exact State.takeEntry_stays h hs fun x hf hx hy => hp x hf hx ((howning hs x).mp hy)
    · rw [State.takeEntry_owner_owning h hs ho hf hx, if_pos hnew]
    · rw [State.takeEntry_owner_gone h hs ho hf hx, if_pos hnew]
    · have hother : ¬ sl.alert.owner = some station := fun h' => hne (Option.some.inj (ho.symm.trans h'))
      have hfollow (x : Epoch) : sl.alert.yields s.ownNumber station x = true ↔ precedes o x :=
        (Alert.yields_iff_of_follower hs ho).trans (hprec o x).symm
      refine ⟨fun x hf hx hp => ?_, fun hp => State.takeEntry_contender_stays h hs hother fun x hf hx hy =>
        hp x hf hx ((hfollow x).mp hy)⟩
      rw [State.takeEntry_contender h hs hother hx, if_pos (by rw [hf, (hfollow x).mpr hp]; rfl), State.followStation_eq h]
      rfl

end Sys2Proof.Machine
